-- ==== Sys2Proof/Word.lean ====
section
/-! DEFINITION. The words and indices of the GV2416 (00_scope.md, Conventions): bytes of the management link, governor
times, the indices of the part's resources, and class sets as the 16-bit masks of R173. -/

namespace Sys2Proof

/-- A byte of the management link. -/
abbrev Byte := BitVec 8

/-- A governor time: a 32-bit count of milliseconds (R42). -/
abbrev Millis := BitVec 32

/-- Index of an activity class, C0 to C15 (R36). -/
abbrev ClassId := Fin 16

/-- Index of an activity line, L0 to L11. -/
abbrev LineId := Fin 12

/-- Index of an idle timer, T0 to T7 (R43). -/
abbrev TimerId := Fin 8

/-- Index of a domain, D0 to D5 (R57). -/
abbrev DomainId := Fin 6

/-- Index of a window, W0 to W23 (R16). -/
abbrev WindowId := Fin 24

/-- A class set: bit n stands for class Cn (R173). -/
abbrev ClassSet := BitVec 16

/-- Membership of a class in a class set (R173). -/
def ClassSet.has (set : ClassSet) (c : ClassId) : Bool := set.getLsbD c

end Sys2Proof
end

