-- ==== Sys2Proof/Syntax.lean ====
section
/-! DEFINITION. The commands of the GV2416: one constructor per row of spec/opcode_table.json. A command is one of the part's
steps: an edge or level on a pin, a character or a break on the link, the end of a timed interval, a step of the Match Unit,
the transmitter or the Command Unit, or the next event of the request in hand: its execution, and then the joining of its reply.
A request's own fields (an index, a class, a value) reach the part in its frame and stand in the payload of the request in hand
(R153), so the commands of a request carry none, but for the block of a soft reset. -/

namespace Sys2Proof

/-- The two handshake inputs of a domain (R84). -/
inductive HandshakeInput where
  | qack
  | pgood
deriving DecidableEq, Repr

/-- The takers of a soft reset, each of which takes it as one event of its own (R164; R83 for each domain). -/
inductive SoftBlock where
  | snoopPort
  | captureFifo
  | lineMonitor
  | windowTable
  | classMap
  | timerBank
  | domainGovernor (domain : DomainId)
deriving DecidableEq, Repr

/-- What a TIMER_EXPIRY takes (R44, R45, log entry 23): the expiry whole, at the timer and at every domain bound to it; or, so that
other events may come between (R69), the timer's own part, which leaves the expiry on its way to the domains, and then one domain's
taking of it. -/
inductive ExpiryPart where
  | whole
  | atTimer
  | atDomain (domain : DomainId)
deriving DecidableEq, Repr

/-- A taker of what the Class Map hands on (R37). -/
inductive Listener where
  | timer (timer : TimerId)
  | domain (domain : DomainId)
deriving DecidableEq, Repr

/-- What a command that gives a class pulse takes (R37, log entry 24): its event whole, with the pulse at every listener; or, so that
other events may come between (R49), its event with the pulse at the Class Map alone, which leaves a notice on its way to each
listener, and then one listener's taking of its notice. -/
inductive PulsePart where
  | whole
  | atClassMap
  | atListener (listener : Listener)
deriving DecidableEq, Repr

/-- The commands, in the order of the table. Indices of lines, timers and domains are plain numbers; WellFormed says which
of them name a resource of the part. Levels are `true` for HIGH. -/
inductive Instr where
  /-- ADDRESS_STROBE (R1, R179): the pins sampled at a falling edge of AS#: A31..A0, SP1 SP0, WR, RQ3..RQ0. -/
  | addressStrobe (address : BitVec 32) (space : BitVec 2) (wr : Bool) (requester : BitVec 4)
  /-- MATCH_DECISION (R18). -/
  | matchDecision (part : PulsePart := .whole)
  /-- LINE_RAW_CHANGE (R9): the line's raw level is now `level`. -/
  | lineRawChange (line : Nat) (level : Bool)
  /-- RECOGNISED_EDGE (R9): the line's candidate completes. -/
  | recognisedEdge (line : Nat) (part : PulsePart := .whole)
  /-- GOVERNOR_TIME_INCREMENT (R42). -/
  | governorTimeIncrement
  /-- TIMER_EXPIRY (R44), whole where the command does not say which part. -/
  | timerExpiry (timer : Nat) (part : ExpiryPart := .whole)
  /-- THROTTLE_PHASE_END (R70). -/
  | throttlePhaseEnd (domain : Nat)
  /-- HANDSHAKE_RAW_CHANGE (R84): the input's raw level is now `level`. -/
  | handshakeRawChange (domain : Nat) (input : HandshakeInput) (level : Bool)
  /-- QACK_RISE (R87). -/
  | qackRise (domain : Nat)
  /-- QACK_FALL (R92). -/
  | qackFall (domain : Nat)
  /-- PGOOD_RISE (R100). -/
  | pgoodRise (domain : Nat)
  /-- PGOOD_FALL (R95). -/
  | pgoodFall (domain : Nat)
  /-- QUIESCE_DEADLINE_END (R88). -/
  | quiesceDeadlineEnd (domain : Nat)
  /-- STOP_DELAY_END (R91). -/
  | stopDelayEnd (domain : Nat)
  /-- POWER_OFF_DEADLINE_END (R97). -/
  | powerOffDeadlineEnd (domain : Nat)
  /-- POWER_ON_DEADLINE_END (R101). -/
  | powerOnDeadlineEnd (domain : Nat)
  /-- RESUME_DELAY_END (R102). -/
  | resumeDelayEnd (domain : Nat)
  /-- ACK_TIMER_EXPIRY (R125). -/
  | ackTimerExpiry
  /-- SILENT_CLAIM (R159). -/
  | silentClaim
  /-- RX_CHARACTER (R135): the character received. -/
  | rxCharacter (character : Byte)
  /-- FRAMING_ERROR (R134). -/
  | framingError
  /-- GAP_ERROR (R138). -/
  | gapError
  /-- BREAK (R146). -/
  | rxBreak
  /-- TAKE_REQUEST (R151). -/
  | takeRequest
  /-- FRAME_BOUNDARY (R145). -/
  | frameBoundary
  /-- OPEN (R157). -/
  | openSession
  /-- CLOSE (R158). -/
  | closeSession
  /-- PING (R160). -/
  | ping
  /-- IDENTIFY (R161). -/
  | identify
  /-- READ_STATUS (R162). -/
  | readStatus
  /-- RESET_SOFT (R164): the block named takes the soft reset of the request in hand. -/
  | resetSoft (block : SoftBlock)
  /-- RESET_FULL (R165). -/
  | resetFull
  /-- SET_REPORTING (R127). -/
  | setReporting
  /-- ACK (R124). -/
  | ack
  /-- SET_SNOOP (R3). -/
  | setSnoop
  /-- SET_LINE (R14). -/
  | setLine (part : PulsePart := .whole)
  /-- WRITE_WINDOW (R29). -/
  | writeWindow
  /-- READ_WINDOW (R31). -/
  | readWindow
  /-- READ_HITS (R32): the step for the next window of the request in hand (R33). -/
  | readHits
  /-- ARM_TRAP (R34). -/
  | armTrap
  /-- SET_FALLTHROUGH (R35). -/
  | setFallthrough
  /-- NUDGE (R40). -/
  | nudge (part : PulsePart := .whole)
  /-- READ_CLASSES (R41). -/
  | readClasses
  /-- WRITE_TIMER (R54). -/
  | writeTimer
  /-- START_TIMER (R51). -/
  | startTimer
  /-- STOP_TIMER (R52). -/
  | stopTimer
  /-- READ_TIMER (R55). -/
  | readTimer
  /-- WRITE_DOMAIN (R78). -/
  | writeDomain
  /-- READ_DOMAIN (R79). -/
  | readDomain
  /-- HOLD_ON (R72). -/
  | holdOn
  /-- HOLD_OFF (R72). -/
  | holdOff
  /-- FORCE_ACTIVE (R74). -/
  | forceActive
  /-- FORCE (R73). -/
  | force
  /-- CLEAR_FAULT_UP (R109). -/
  | clearFaultUp
  /-- CLEAR_FAULT_DOWN (R110). -/
  | clearFaultDown
  /-- RETIRE (R75). -/
  | retire
  /-- ADOPT (R76). -/
  | adopt
  /-- POWER_ON_RESET (R180): VDD or VDDIO entered or left its range; whether each is in range after the event. -/
  | powerOnReset (vdd vddio : Bool)
  /-- RESET_PIN (R180): RESET#'s low candidate completes. -/
  | resetPin
  /-- FULL_RESET_END (R180): the levels of RATE1 and RATE0 sampled in the event, and whether REFCLK is running. -/
  | fullResetEnd (rate1 rate0 refclk : Bool)
  /-- CHARACTER_START_EDGE (R134): a falling edge after a high line, and the level at which the start bit is then sampled: high is
  noise. -/
  | characterStartEdge (startBitHigh : Bool)
  /-- RESET_PIN_RELEASE (R180): RESET#'s high candidate completes. -/
  | resetPinRelease
  /-- RESET_PIN_RAW_CHANGE (R180): RESET#'s raw level is now `level`. -/
  | resetPinRawChange (level : Bool)
deriving DecidableEq, Repr

end Sys2Proof
end

