-- ==== Sys2Proof/WellFormed.lean ====
section
/-! DEFINITION. Which commands name a resource the part has: lines L0 to L11, timers T0 to T7, domains D0 to D5. The fields of a
request are not checked here: the part itself takes any byte and refuses what it does not define (R152, R155, R172). -/

namespace Sys2Proof

/-- The command names a line, timer or domain of the part (00_scope.md, Names and indices). -/
def WellFormed : Instr → Bool
  | .lineRawChange line _ => line < 12
  | .recognisedEdge line _ => line < 12
  | .timerExpiry timer _ => timer < 8
  | .throttlePhaseEnd domain => domain < 6
  | .handshakeRawChange domain _ _ => domain < 6
  | .qackRise domain => domain < 6
  | .qackFall domain => domain < 6
  | .pgoodRise domain => domain < 6
  | .pgoodFall domain => domain < 6
  | .quiesceDeadlineEnd domain => domain < 6
  | .stopDelayEnd domain => domain < 6
  | .powerOffDeadlineEnd domain => domain < 6
  | .powerOnDeadlineEnd domain => domain < 6
  | .resumeDelayEnd domain => domain < 6
  | .addressStrobe _ _ _ _ | .matchDecision _ | .governorTimeIncrement | .ackTimerExpiry | .silentClaim | .rxCharacter _
  | .framingError | .gapError | .rxBreak | .takeRequest | .frameBoundary | .openSession | .closeSession | .ping | .identify
  | .readStatus | .resetSoft _ | .resetFull | .setReporting | .ack | .setSnoop | .setLine _ | .writeWindow | .readWindow
  | .readHits | .armTrap | .setFallthrough | .nudge _ | .readClasses | .writeTimer | .startTimer | .stopTimer | .readTimer
  | .writeDomain | .readDomain | .holdOn | .holdOff | .forceActive | .force | .clearFaultUp | .clearFaultDown | .retire
  | .adopt | .powerOnReset _ _ | .resetPin | .fullResetEnd _ _ _ | .characterStartEdge _ | .resetPinRelease
  | .resetPinRawChange _ => true

end Sys2Proof
end

