-- ==== Sys2Proof/Decode.lean ====
section
/-! DEFINITION. The command a table word spells. No row of spec/opcode_table.json gives bits ("fields": [] in all 63 rows): the
part has no instruction words, its commands are events. So no word spells a command. The codes of the management link, by
which requests reach the part, are in Machine/Operands.lean. -/

namespace Sys2Proof

/-- The command spelled by a word of the table's bits: none, since no row of the table gives any. -/
def decodeTableWord (_nbits _w : Nat) : Option Instr := none

end Sys2Proof
end

