-- ==== Sys2Proof/Config.lean ====
section
/-! DEFINITION. What the part fixes (its revision and identity, R161) and the free values: choices the manual leaves open, about
which nothing can be proved. -/

namespace Sys2Proof.Config

/-- The revision of the part this manual specifies (R161, R132). -/
def revision : Byte := 0x01

/-- The vendor code (R161). -/
def vendorCode : BitVec 16 := 0x5A1C

/-- The part code (R161). -/
def partCode : BitVec 16 := 0x2416

/-- FREE VALUE (log entry 3). The order among notices that one event hands to several takers, where the manual gives none
(R25, R37, R45, R58): the sort key of the notice at a position, in the n-th such draw. -/
opaque freeKey (draw position : Nat) : Nat

/-- FREE VALUE (log entry 4). The pending loss tally's 64-bit count after an addition that does not fit it; the manual gives no
result there (R117). -/
opaque freeTally (count : BitVec 64) (added : Nat) : BitVec 64

end Sys2Proof.Config
end

