-- ==== Sys2Proof/Machine/State.lean ====
section
/-! DEFINITION. The state of the GV2416 as plain data, block by block in the order of 00_scope.md's block overview, and the state
right after a power-on reset. Optional fields that the manual gives "exactly in" a domain state are carried by that state's
constructor, so that no other combination can be written down. -/

namespace Sys2Proof.Machine

/-! ## Snoop Port and Capture FIFO (chapter 1) -/

/-- An address space (R1). -/
inductive Space where
  | memory
  | io
  | config
deriving DecidableEq, Repr

/-- The direction of a transaction (R1). -/
inductive Direction where
  | read
  | write
deriving DecidableEq, Repr

/-- The three snoop enables (R2). -/
structure SnoopEnables where
  memory : Bool
  io : Bool
  config : Bool
deriving DecidableEq, Repr

/-- An observation of one transaction (R1). -/
structure Observation where
  address : BitVec 32
  space : Space
  direction : Direction
  requester : BitVec 4
  time : Millis
deriving DecidableEq, Repr

/-! ## Line Monitor (chapter 1) -/

/-- A line's qualifier (R10). -/
inductive Qualifier where
  | off
  | rise
  | fall
  | edge
  | high
  | low
deriving DecidableEq, Repr

/-- One activity line (R9, R10). A deglitch candidate is in progress exactly while `raw` differs from `level`. -/
structure Line where
  /-- The raw level on the pin; `true` is HIGH. -/
  raw : Bool
  /-- The recognised level. -/
  level : Bool
  qualifier : Qualifier
  cls : ClassId
  /-- The hold status: the class being held, if any. -/
  holding : Option ClassId
deriving DecidableEq, Repr

/-- A line after a full or soft reset but for its levels (R10). -/
def Line.default : Line := { raw := false, level := false, qualifier := .off, cls := 0, holding := none }

/-! ## Window Table (chapter 2) -/

/-- A window's space filter; `any` is ANY (R16). -/
inductive SpaceFilter where
  | only (space : Space)
  | any
deriving DecidableEq, Repr

/-- A window's direction filter; `either` is EITHER (R16). -/
inductive DirectionFilter where
  | only (direction : Direction)
  | either
deriving DecidableEq, Repr

/-- A window's action (R16). -/
inductive Action where
  | count
  | trapEach
  | trapOnce
  | exclude
deriving DecidableEq, Repr

/-- A window's configuration: the fields WRITE_WINDOW replaces together (R16). -/
structure WindowConfig where
  enabled : Bool
  space : SpaceFilter
  base : BitVec 32
  /-- The span exponent k, 0 to 32. -/
  span : Nat
  direction : DirectionFilter
  /-- The requester set, or absent. -/
  requesters : Option (BitVec 16)
  cls : Option ClassId
  action : Action
deriving DecidableEq, Repr

/-- A window record (R16). -/
structure Window where
  config : WindowConfig
  armed : Bool
  /-- The hit count, 0 to 65535. -/
  hits : Nat
deriving DecidableEq, Repr

/-- A window after a full or soft reset (R17). -/
def Window.default : Window :=
  { config := { enabled := false, space := .any, base := 0, span := 0, direction := .either, requesters := none, cls := none,
                action := .count }
    armed := true, hits := 0 }

/-! ## Class Map and Timer Bank (chapter 3) -/

/-- A class record (R36): the lines holding the class (bit n for Ln) and its last activity time. -/
structure ClassRecord where
  holders : BitVec 12
  last : Option Millis
deriving DecidableEq, Repr

/-- A timer's unit (R43). -/
inductive TimerUnit where
  | ms1
  | ms10
  | ms100
  | s1
  | min1
deriving DecidableEq, Repr

/-- A timer's mode (R43). -/
inductive TimerMode where
  | single
  | repeating
deriving DecidableEq, Repr

/-- A timer's state (R43). -/
inductive TimerState where
  | stopped
  | counting
  | held
  | expired
deriving DecidableEq, Repr

/-- A timer record (R43). -/
structure Timer where
  loadCount : Nat
  unit : TimerUnit
  mode : TimerMode
  watch : ClassSet
  report : Bool
  state : TimerState
  /-- Milliseconds until expiry while COUNTING. -/
  remaining : Nat
  /-- The expiry count, 0 to 15. -/
  expiries : Nat
  /-- The model's own: the increment that takes a COUNTING timer from 1 to 0 has come, and the timer has yet to take it and expire in
  the same event (R44, R50, log entry 6). -/
  due : Bool
deriving DecidableEq, Repr

/-- A timer after a full or soft reset (R56). -/
def Timer.default : Timer :=
  { loadCount := 1, unit := .s1, mode := .single, watch := 0, report := false, state := .stopped, remaining := 0, expiries := 0,
    due := false }

/-- A pulse's notice on its way from the Class Map to a listener: a reload to a timer, a wake to a domain (R37). -/
structure Notice where
  listener : Listener
  cls : ClassId
  /-- The model's own: a request in hand gave the pulse, and its reply joins only when the notice has been taken (R40, log entry 24).
  No listener reads it (R37). -/
  ofRequest : Bool := false
deriving DecidableEq, Repr

/-- An expiry on its way from a timer to a domain that was bound to it when it expired, with the expiry count it carries (R45). -/
structure HandedExpiry where
  timer : TimerId
  domain : DomainId
  count : Nat
deriving DecidableEq, Repr

/-! ## Domain Governor (chapters 4 and 5) -/

/-- A rung of a ladder (R61). -/
inductive Rung where
  | throttled
  | standby
  | off
deriving DecidableEq, Repr

/-- The target of a step-down (R57). -/
inductive Target where
  | standby
  | off
deriving DecidableEq, Repr

/-- A step cause, last wake cause or transition cause (R57, R80, R172). -/
inductive Cause where
  | cls (cls : ClassId)
  | host
  | qackDrop
  | clear
  | adopt
  | reset
  | quiesceDeadline
  | ladder
  | force
  | retire
deriving DecidableEq, Repr

/-- A fault cause (R57). -/
inductive FaultCause where
  | quiesceRefused
  | powerOffTimeout
  | powerOnTimeout
  | powerLost
deriving DecidableEq, Repr

/-- A stop delay or resume delay (R57). -/
inductive Delay where
  | zero
  | us100
  | ms1
  | ms10
deriving DecidableEq, Repr

/-- The throttle phase in progress (R70). -/
inductive Phase where
  | onPhase
  | offPhase
deriving DecidableEq, Repr

/-- A domain's state (R58) with the running fields the manual gives exactly in that state: target and step cause (R57), the
length kept by the operation in flight (R85), the throttle phase and its length (R71), pending-wake (R96), fault cause and
wake-seen (R105), and, in RETIRED, whether it was entered from ACTIVE (R75); log entry 18. -/
inductive DomainState where
  | active
  | throttled (phase : Phase) (length : Nat)
  | quiescing (target : Target) (step : Cause) (deadline : Nat)
  | settling (target : Target) (step : Cause) (delay : Delay)
  | standby
  | poweringDown (step : Cause) (deadline : Nat) (pendingWake : Bool)
  | off
  | poweringUp (deadline : Nat)
  | resuming (delay : Delay)
  | faulted (cause : FaultCause) (wakeSeen : Bool)
  | retired (fromActive : Bool)
deriving DecidableEq, Repr

/-- A domain's configuration: the fields WRITE_DOMAIN replaces together (R57). -/
structure DomainConfig where
  boundTimer : Option TimerId
  ladder : List Rung
  wakeSet : ClassSet
  /-- Throttle on and off times in units of 8 µs, 1 to 255. -/
  throttleOn : Nat
  throttleOff : Nat
  /-- Deadlines in milliseconds, 1 to 255. -/
  quiesceDeadline : Nat
  stopDelay : Delay
  powerOffDeadline : Nat
  powerOnDeadline : Nat
  resumeDelay : Delay
deriving DecidableEq, Repr

/-- The configuration after a full or soft reset (R82, R83). -/
def DomainConfig.default : DomainConfig :=
  { boundTimer := none, ladder := [], wakeSet := 0, throttleOn := 8, throttleOff := 8, quiesceDeadline := 50, stopDelay := .ms1,
    powerOffDeadline := 100, powerOnDeadline := 100, resumeDelay := .us100 }

/-- A domain record (R57) with its handshake inputs (R84). A candidate change is in progress on an input exactly while its raw
level differs from its recognised level. -/
structure Domain where
  state : DomainState
  config : DomainConfig
  hold : Bool
  refusals : Nat
  lastWake : Cause
  qackRaw : Bool
  qack : Bool
  pgoodRaw : Bool
  pgood : Bool
deriving DecidableEq, Repr

/-- A domain right after a full reset with its inputs recognised LOW (R82, R99). -/
def Domain.default : Domain :=
  { state := .poweringUp 100, config := DomainConfig.default, hold := false, refusals := 0, lastWake := .reset,
    qackRaw := false, qack := false, pgoodRaw := false, pgood := false }

/-- The levels of CLKEN, PWREN and QREQ; `true` is on (R59). -/
structure Outputs where
  clken : Bool
  pwren : Bool
  qreq : Bool
deriving DecidableEq, Repr

/-! ## Report Queue (chapter 6) -/

/-- The cause of a full reset (R166). -/
inductive ResetCause where
  | powerOn
  | pin
  | host
deriving DecidableEq, Repr

/-- The state entered that a DOMAIN report names (R80). -/
inductive Entered where
  | active
  | throttled
  | standby
  | off
  | retired
deriving DecidableEq, Repr

/-- The six counts of a LINK_ERROR record, one per reason (R113). -/
structure LinkCounts where
  gap : Nat
  framing : Nat
  check : Nat
  length : Nat
  overrun : Nat
  type : Nat
deriving DecidableEq, Repr

/-- The nine kinds of record (R113). -/
inductive Kind where
  | restart
  | trap
  | expiry
  | domain
  | refusal
  | fault
  | obsOverrun
  | linkError
  | loss
deriving DecidableEq, Repr

/-- A record's detail, by kind (R113). -/
inductive Detail where
  | restart (cause : ResetCause) (revision : Byte)
  | trap (address : BitVec 32) (space : Space) (direction : Direction) (requester : BitVec 4)
  | expiry (count : Nat)
  | domain (entered : Entered) (cause : Cause)
  | refusal (count : Nat)
  | fault (cause : FaultCause) (outputs : Outputs)
  | obsOverrun
  | linkError (counts : LinkCounts)
  | loss (kinds : BitVec 16)
deriving DecidableEq, Repr

/-- A report as a block hands it to the queue: it stands for one report at one time (R114). -/
structure Report where
  subject : Option Nat
  time : Millis
  detail : Detail
deriving DecidableEq, Repr

/-- A report record (R112). -/
structure Record where
  seq : BitVec 16
  /-- `true` is SENT, `false` UNSENT. -/
  sent : Bool
  resent : Bool
  first : Millis
  last : Millis
  subject : Option Nat
  count : Nat
  detail : Detail
deriving DecidableEq, Repr

/-- The pending loss tally (R117); it is empty when its count is 0. -/
structure Tally where
  count : BitVec 64
  kinds : BitVec 16
  first : Millis
  last : Millis
deriving DecidableEq, Repr

/-- The ack timeout settings (R123). -/
inductive AckTimeout where
  | off
  | ms20
  | ms50
  | ms100
  | ms200
  | ms500
  | ms1000
  | ms2000
deriving DecidableEq, Repr

/-- The Report Queue (R112). -/
structure ReportQueue where
  records : List Record
  nextSeq : BitVec 16
  /-- The credit window W. -/
  credit : Nat
  timeout : AckTimeout
  /-- The ack timer: the length it was started with, while it runs. -/
  ackTimer : Option AckTimeout
  retries : Nat
  tally : Tally
deriving DecidableEq, Repr

/-- The empty tally. Its times are not meaningful (R117). -/
def Tally.empty : Tally := { count := 0, kinds := 0, first := 0, last := 0 }

/-- The queue after a full reset of the given cause: the RESTART record alone (R132). -/
def ReportQueue.restarted (cause : ResetCause) : ReportQueue :=
  { records := [{ seq := 0, sent := false, resent := false, first := 0, last := 0, subject := none, count := 1,
                  detail := .restart cause Config.revision }]
    nextSeq := 1, credit := 4, timeout := .ms200, ackTimer := none, retries := 0, tally := Tally.empty }

/-! ## Link Interface (chapter 7) -/

/-- The strapped link rate (R133). -/
inductive Rate where
  | r115200
  | r460800
  | r1000000
  | r3000000
deriving DecidableEq, Repr

/-- The character receiver (R134, R146): waiting for a falling edge, inside a character, or waiting after a break for the line
to go high. -/
inductive CharRx where
  | waiting
  | inCharacter
  | afterBreak
deriving DecidableEq, Repr

/-- The frame receiver with what it has received of the frame (R135 to R137). -/
inductive FrameRx where
  | hunt
  | length
  | body (len : Byte) (received : List Byte)
  | check (len : Byte) (received : List Byte) (low : Option Byte)
deriving DecidableEq, Repr

/-- A request: the TYPE, TAG and payload of a valid frame (R139). -/
structure Request where
  type : Byte
  tag : Byte
  payload : List Byte
deriving DecidableEq, Repr

/-- A reply: TYPE, TAG and payload (R155), and whether the end of its frame is the event of a full reset (R165). -/
structure Reply where
  type : Byte
  tag : Byte
  payload : List Byte
  resets : Bool
deriving DecidableEq, Repr

/-- The frame in transmission: its characters as fixed when it began (R144, R145, log entry 15), and whether its end is the event of
a full reset (R165). -/
structure TxFrame where
  characters : List Byte
  resets : Bool
deriving DecidableEq, Repr

/-- The Link Interface (chapter 7). -/
structure Link where
  rate : Rate
  charRx : CharRx
  frameRx : FrameRx
  /-- The gap timer runs (R138). -/
  gapRunning : Bool
  requests : List Request
  replies : List Reply
  /-- The frame in transmission; absent while the transmitter is idle. -/
  tx : Option TxFrame
deriving DecidableEq, Repr

/-! ## Command Unit (chapter 8) -/

/-- The session state (R156). -/
inductive Session where
  | closed
  | opened
  | silent
deriving DecidableEq, Repr

/-- The Command Unit (R150), with the reply of the request in hand once it is made (R153), the SILENT claim on its way to it (R159)
and the progress of the two requests that take several events (R33, R164). -/
structure CommandUnit where
  session : Session
  inHand : Option Request
  /-- The reply to the request in hand, made in its execution and yet to join the reply queue (R153). -/
  made : Option Reply
  discard : Bool
  fullResetPending : Bool
  resetCause : ResetCause
  /-- The Report Queue has handed the SILENT claim and it has not been taken (R125, R159, log entry 17). -/
  silentClaim : Bool
  /-- The counts read so far for the READ_HITS in hand, in index order (R33). -/
  hitsRead : List Nat
  /-- The blocks that have taken the soft reset in hand (R164). -/
  softTaken : List SoftBlock
deriving DecidableEq, Repr

/-! ## Reset pin and supplies (chapter 11) -/

/-- RESET#, the supplies and the full reset in progress (R180). -/
structure Board where
  /-- The raw level of RESET#; `true` is high. -/
  resetRaw : Bool
  /-- The recognised level of RESET#. -/
  resetLevel : Bool
  /-- VDD is in its range. -/
  vdd : Bool
  /-- VDDIO is in its range. -/
  vddio : Bool
  /-- The cause of the full reset in progress; absent while none is. -/
  fullReset : Option ResetCause
deriving DecidableEq, Repr

/-! ## The machine -/

/-- The state of the part. -/
structure State where
  /-- The snoop enables (R2). -/
  snoop : SnoopEnables
  /-- The Capture FIFO, oldest first, at most 16 (R4). -/
  fifo : List Observation
  /-- The activity lines (R9, R10). -/
  lines : Vector Line 12
  /-- The window records (R16). -/
  windows : Vector Window 24
  /-- The fallthrough class, or NONE (R17, R35). -/
  fallthrough : Option ClassId
  /-- The class records (R36). -/
  classes : Vector ClassRecord 16
  /-- Governor time (R42). -/
  time : Millis
  /-- The idle timers (R43). -/
  timers : Vector Timer 8
  /-- The notices of pulses handed to listeners and not yet taken, oldest first (R37, R49, log entry 24). -/
  notices : List Notice
  /-- The expiries handed to domains and not yet taken (R45, R69, log entry 23). -/
  handed : List HandedExpiry
  /-- The domain records (R57). -/
  domains : Vector Domain 6
  /-- The Report Queue (R112). -/
  queue : ReportQueue
  /-- The Link Interface (R133 to R149). -/
  link : Link
  /-- The Command Unit (R150). -/
  unit : CommandUnit
  /-- RESET#, the supplies and the full reset in progress (R180). -/
  board : Board
  /-- The model's own: how many free orders have been drawn (log entry 3). -/
  freeDraws : Nat
  /-- The model's own: the commands that are waiting, first in, first out. -/
  pending : List Instr
deriving DecidableEq, Repr

/-- Why the machine stops with a fault. Each is raised by a command whose index names no resource of the part. No such command
reaches the part, so stopping is safe. -/
inductive Fault where
  /-- Raised by LINE_RAW_CHANGE and RECOGNISED_EDGE for a line above L11. Safe: the part has no such pin. -/
  | noSuchLine (line : Nat)
  /-- Raised by TIMER_EXPIRY for a timer above T7. Safe: the part has no such timer. -/
  | noSuchTimer (timer : Nat)
  /-- Raised by the domain events for a domain above D5. Safe: the part has no such domain. -/
  | noSuchDomain (domain : Nat)
deriving DecidableEq, Repr

/-- Why a command is refused by the model. -/
inductive Refusal where
  /-- Raised by exec for a command without a meaning; no arm does. Safe: the machine stops. -/
  | notModelled (mnemonic : String)
deriving DecidableEq, Repr

/-- The machine right after a power-on reset (R82, R132, R149, R150, R180), its input pins at the levels log entry 2 names:
lines, QACK and PGOOD LOW, RATE1 and RATE0 low, RX idle, RESET# high, supplies in range. -/
def State.reset : State :=
  { snoop := { memory := false, io := false, config := false }
    fifo := []
    lines := Vector.replicate 12 Line.default
    windows := Vector.replicate 24 Window.default
    fallthrough := none
    classes := Vector.replicate 16 { holders := 0, last := none }
    time := 0
    timers := Vector.replicate 8 Timer.default
    notices := []
    handed := []
    domains := Vector.replicate 6 Domain.default
    queue := ReportQueue.restarted .powerOn
    link := { rate := .r115200, charRx := .waiting, frameRx := .hunt, gapRunning := false, requests := [], replies := [],
              tx := none }
    unit := { session := .closed, inHand := none, made := none, discard := false, fullResetPending := false,
              resetCause := .powerOn, silentClaim := false, hitsRead := [], softTaken := [] }
    board := { resetRaw := true, resetLevel := true, vdd := true, vddio := true, fullReset := none }
    freeDraws := 0
    pending := [] }

end Sys2Proof.Machine
end

