-- ==== Sys2Proof/Machine/Ops.lean ====
section
/-! DEFINITION. The named operations over the state's tables and lists: one access and one update per table, and updates of a
whole table at once. -/

namespace Sys2Proof.Machine

/-! ## Whole tables and lists -/

/-- Every entry of a table through `f`. -/
def mapBank {α β : Type} {n : Nat} (f : α → β) (v : Vector α n) : Vector β n := ⟨⟨v.toList.map f⟩, by simp⟩

/-- The first entry that satisfies `p`, changed by `f`; the list unchanged where none does. -/
def updateFirst {α : Type} (p : α → Bool) (f : α → α) : List α → List α
  | [] => []
  | x :: xs => if p x then f x :: xs else x :: updateFirst p f xs

/-- Every class, C0 first. -/
def allClasses : List ClassId := [0, 1, 2, 3, 4, 5, 6, 7, 8, 9, 10, 11, 12, 13, 14, 15]

/-- Every line, L0 first. -/
def allLines : List LineId := [0, 1, 2, 3, 4, 5, 6, 7, 8, 9, 10, 11]

/-- Every timer, T0 first. -/
def allTimers : List TimerId := [0, 1, 2, 3, 4, 5, 6, 7]

/-- Every domain, D0 first. -/
def allDomains : List DomainId := [0, 1, 2, 3, 4, 5]

/-- Every window, W0 first (R21). -/
def allWindows : List WindowId :=
  [0, 1, 2, 3, 4, 5, 6, 7, 8, 9, 10, 11, 12, 13, 14, 15, 16, 17, 18, 19, 20, 21, 22, 23]

/-- A set of timers or domains as the byte of R173: bit n for the resource with index n. -/
def setByte {n : Nat} (members : List (Fin n)) : Byte :=
  members.foldl (fun b i => b ||| ((1 : Byte) <<< i.val)) 0

/-! ## Access and update of the tables -/

/-- The line with index `l`. -/
def State.line (s : State) (l : LineId) : Line := s.lines.get l

/-- The state with line `l` replaced. -/
def State.setLine (s : State) (l : LineId) (x : Line) : State := { s with lines := s.lines.set l x }

/-- The window with index `w`. -/
def State.window (s : State) (w : WindowId) : Window := s.windows.get w

/-- The state with window `w` replaced. -/
def State.setWindow (s : State) (w : WindowId) (x : Window) : State := { s with windows := s.windows.set w x }

/-- The record of class `c`. -/
def State.cls (s : State) (c : ClassId) : ClassRecord := s.classes.get c

/-- The state with the record of class `c` replaced. -/
def State.setCls (s : State) (c : ClassId) (x : ClassRecord) : State := { s with classes := s.classes.set c x }

/-- The timer with index `t`. -/
def State.timer (s : State) (t : TimerId) : Timer := s.timers.get t

/-- The state with timer `t` replaced. -/
def State.setTimer (s : State) (t : TimerId) (x : Timer) : State := { s with timers := s.timers.set t x }

/-- The domain with index `d`. -/
def State.dom (s : State) (d : DomainId) : Domain := s.domains.get d

/-- The state with domain `d` replaced. -/
def State.setDom (s : State) (d : DomainId) (x : Domain) : State := { s with domains := s.domains.set d x }

/-- The state with domain `d` in state `x`, its other fields kept. -/
def State.setDomState (s : State) (d : DomainId) (x : DomainState) : State := s.setDom d { s.dom d with state := x }

/-- The state with the Report Queue replaced. -/
def State.setQueue (s : State) (q : ReportQueue) : State := { s with queue := q }

/-- The state with the Link Interface replaced. -/
def State.setLink (s : State) (k : Link) : State := { s with link := k }

/-- The state with the Command Unit replaced. -/
def State.setUnit (s : State) (u : CommandUnit) : State := { s with unit := u }

/-- The state with RESET#, the supplies and the full reset in progress replaced. -/
def State.setBoard (s : State) (b : Board) : State := { s with board := b }

/-- The state with every timer through `f`. -/
def State.mapTimers (s : State) (f : Timer → Timer) : State := { s with timers := mapBank f s.timers }

/-! ## The outcome of a command -/

/-- What a meaning answers. -/
abbrev Result := Host.Outcome State Fault Refusal

/-- The effect of a command on a running part. While a full reset is in progress its blocks take nothing: whatever they did
would be undone by the event that ends the reset, and their outputs stand at the levels of R181 (log entry 8). -/
def State.running (s : State) (effect : State → State) : Result :=
  .next (if s.board.fullReset.isSome then s else effect s)

/-- The effect of a command on a line of the part. -/
def onLine (line : Nat) (effect : LineId → Result) : Result :=
  if h : line < 12 then effect ⟨line, h⟩ else .fault (.noSuchLine line)

/-- The effect of a command on a timer of the part. -/
def onTimer (timer : Nat) (effect : TimerId → Result) : Result :=
  if h : timer < 8 then effect ⟨timer, h⟩ else .fault (.noSuchTimer timer)

/-- The effect of a command on a domain of the part. -/
def onDomain (domain : Nat) (effect : DomainId → Result) : Result :=
  if h : domain < 6 then effect ⟨domain, h⟩ else .fault (.noSuchDomain domain)

end Sys2Proof.Machine
end

