-- ==== Sys2Proof/Machine/Operands.lean ====
section
/-! DEFINITION. The fields of messages: reading a request's bytes by the codes of R172 (a reader answers `none` for a value that
is not a code of its field), and the codes and widths of what the part sends (R168, R172 to R177). -/

namespace Sys2Proof.Machine

/-! ## Widths, least significant byte first (R168) -/

/-- A 2-byte field. -/
def word16 (lo hi : Byte) : BitVec 16 := hi ++ lo

/-- A 4-byte field. -/
def word32 (b0 b1 b2 b3 : Byte) : BitVec 32 := b3 ++ b2 ++ b1 ++ b0

/-- The bytes of a field of `n` bytes, least significant first. -/
def bytesOf : (n : Nat) → Nat → List Byte
  | 0, _ => []
  | n + 1, v => BitVec.ofNat 8 v :: bytesOf n (v / 256)

/-- A number as one byte. -/
def byte (v : Nat) : Byte := BitVec.ofNat 8 v

/-- A flag as one byte. -/
def flagByte (b : Bool) : Byte := if b then 1 else 0

/-- A time preceded by its presence byte, 0 when absent (R175). -/
def optionalTime (t : Option Millis) : List Byte :=
  match t with
  | none => [0, 0, 0, 0, 0]
  | some v => 1 :: bytesOf 4 v.toNat

/-! ## Reading the fields of requests (R172) -/

/-- A flag or on/off value. -/
def flag? (b : Byte) : Option Bool :=
  if b = 0 then some false else if b = 1 then some true else none

/-- A space filter. -/
def spaceFilter? (b : Byte) : Option SpaceFilter :=
  if b = 0 then some (.only .memory) else if b = 1 then some (.only .io) else if b = 2 then some (.only .config)
  else if b = 3 then some .any else none

/-- A direction filter. -/
def directionFilter? (b : Byte) : Option DirectionFilter :=
  if b = 0 then some (.only .read) else if b = 1 then some (.only .write) else if b = 2 then some .either else none

/-- A window action. -/
def action? (b : Byte) : Option Action :=
  if b = 0 then some .count else if b = 1 then some .trapEach else if b = 2 then some .trapOnce
  else if b = 3 then some .exclude else none

/-- A line qualifier. -/
def qualifier? (b : Byte) : Option Qualifier :=
  if b = 0 then some .off else if b = 1 then some .rise else if b = 2 then some .fall else if b = 3 then some .edge
  else if b = 4 then some .high else if b = 5 then some .low else none

/-- A timer unit. -/
def timerUnit? (b : Byte) : Option TimerUnit :=
  if b = 0 then some .ms1 else if b = 1 then some .ms10 else if b = 2 then some .ms100 else if b = 3 then some .s1
  else if b = 4 then some .min1 else none

/-- A timer mode. -/
def timerMode? (b : Byte) : Option TimerMode :=
  if b = 0 then some .single else if b = 1 then some .repeating else none

/-- A stop or resume delay. -/
def delay? (b : Byte) : Option Delay :=
  if b = 0 then some .zero else if b = 1 then some .us100 else if b = 2 then some .ms1 else if b = 3 then some .ms10 else none

/-- An ack timeout. -/
def ackTimeout? (b : Byte) : Option AckTimeout :=
  if b = 0 then some .off else if b = 1 then some .ms20 else if b = 2 then some .ms50 else if b = 3 then some .ms100
  else if b = 4 then some .ms200 else if b = 5 then some .ms500 else if b = 6 then some .ms1000
  else if b = 7 then some .ms2000 else none

/-- An index below `n`. -/
def index? (n : Nat) (b : Byte) : Option (Fin n) := if h : b.toNat < n then some ⟨b.toNat, h⟩ else none

/-- An index below `n`, or NONE (0xFF). -/
def indexOrNone? (n : Nat) (b : Byte) : Option (Option (Fin n)) :=
  if b = 0xFF then some none else (index? n b).map some

/-- A number from `lo` to `hi`. -/
def between? (lo hi : Nat) (b : Byte) : Option Nat := if lo ≤ b.toNat ∧ b.toNat ≤ hi then some b.toNat else none

/-! ## Codes (R172, R174, R177) -/

/-- The code of a space. -/
def Space.code : Space → Byte
  | .memory => 0
  | .io => 1
  | .config => 2

/-- The code of a space filter. -/
def SpaceFilter.code : SpaceFilter → Byte
  | .only space => space.code
  | .any => 3

/-- The code of a direction. -/
def Direction.code : Direction → Byte
  | .read => 0
  | .write => 1

/-- The code of a direction filter. -/
def DirectionFilter.code : DirectionFilter → Byte
  | .only direction => direction.code
  | .either => 2

/-- The code of a window action. -/
def Action.code : Action → Byte
  | .count => 0
  | .trapEach => 1
  | .trapOnce => 2
  | .exclude => 3

/-- The code of a timer unit. -/
def TimerUnit.code : TimerUnit → Byte
  | .ms1 => 0
  | .ms10 => 1
  | .ms100 => 2
  | .s1 => 3
  | .min1 => 4

/-- The code of a timer mode. -/
def TimerMode.code : TimerMode → Byte
  | .single => 0
  | .repeating => 1

/-- The code of a timer state. -/
def TimerState.code : TimerState → Byte
  | .stopped => 0
  | .counting => 1
  | .held => 2
  | .expired => 3

/-- The depth code of a rung. -/
def Rung.code : Rung → Byte
  | .throttled => 1
  | .standby => 2
  | .off => 3

/-- The depth code of a target. -/
def Target.code : Target → Byte
  | .standby => 2
  | .off => 3

/-- The code of a domain state. -/
def DomainState.code : DomainState → Byte
  | .active => 0
  | .throttled _ _ => 1
  | .quiescing _ _ _ => 2
  | .settling _ _ _ => 3
  | .standby => 4
  | .poweringDown _ _ _ => 5
  | .off => 6
  | .poweringUp _ => 7
  | .resuming _ => 8
  | .faulted _ _ => 9
  | .retired _ => 10

/-- The code of the state a DOMAIN report names: a domain state code (R177). -/
def Entered.code : Entered → Byte
  | .active => 0
  | .throttled => 1
  | .standby => 4
  | .off => 6
  | .retired => 10

/-- The code of a stop or resume delay. -/
def Delay.code : Delay → Byte
  | .zero => 0
  | .us100 => 1
  | .ms1 => 2
  | .ms10 => 3

/-- The code of a cause. -/
def Cause.code : Cause → Byte
  | .cls _ => 1
  | .host => 2
  | .qackDrop => 3
  | .clear => 4
  | .adopt => 5
  | .reset => 6
  | .quiesceDeadline => 7
  | .ladder => 8
  | .force => 9
  | .retire => 10

/-- The byte that follows a cause: the class index, or 0xFF for a cause other than CLASS (R172). -/
def Cause.classByte : Cause → Byte
  | .cls c => byte c.val
  | _ => 0xFF

/-- The code of a fault cause. -/
def FaultCause.code : FaultCause → Byte
  | .quiesceRefused => 1
  | .powerOffTimeout => 2
  | .powerOnTimeout => 3
  | .powerLost => 4

/-- The code of an ack timeout. -/
def AckTimeout.code : AckTimeout → Byte
  | .off => 0
  | .ms20 => 1
  | .ms50 => 2
  | .ms100 => 3
  | .ms200 => 4
  | .ms500 => 5
  | .ms1000 => 6
  | .ms2000 => 7

/-- The code of a session state. -/
def Session.code : Session → Byte
  | .closed => 0
  | .opened => 1
  | .silent => 2

/-- The code of a reset cause. -/
def ResetCause.code : ResetCause → Byte
  | .powerOn => 0
  | .pin => 1
  | .host => 2

/-- The code of a strapped rate. -/
def Rate.code : Rate → Byte
  | .r115200 => 0
  | .r460800 => 1
  | .r1000000 => 2
  | .r3000000 => 3

/-- The code of a throttle phase. -/
def Phase.code : Phase → Byte
  | .onPhase => 1
  | .offPhase => 2

/-- The outputs byte of the domain record and of the FAULT detail: bit 0 CLKEN, bit 1 PWREN, bit 2 QREQ (R176). -/
def Outputs.code (o : Outputs) : Byte := flagByte o.clken ||| (flagByte o.pwren <<< 1) ||| (flagByte o.qreq <<< 2)

/-- The code of a report kind (R177). -/
def Kind.code : Kind → Nat
  | .restart => 1
  | .trap => 2
  | .expiry => 3
  | .domain => 4
  | .refusal => 5
  | .fault => 6
  | .obsOverrun => 7
  | .linkError => 8
  | .loss => 9

/-- The status of a reply (R153, R174). -/
inductive Status where
  | ok
  | accepted
  | refused
deriving DecidableEq, Repr

/-- The code of a status (R174). -/
def Status.code : Status → Byte
  | .ok => 0
  | .accepted => 1
  | .refused => 2

/-- The reason of a refusal (R155). -/
inductive Reason where
  | unknownRequest
  | badLength
  | badField
  | range
  | emptySet
  | order
  | notOpen
  | busy
  | held
  | faulted
  | notFaulted
  | retired
  | state
  | windowBusy
  | badAck
deriving DecidableEq, Repr

/-- The code of a reason (R174). -/
def Reason.code : Reason → Byte
  | .unknownRequest => 0x01
  | .badLength => 0x02
  | .badField => 0x03
  | .range => 0x04
  | .emptySet => 0x05
  | .order => 0x06
  | .notOpen => 0x07
  | .busy => 0x08
  | .held => 0x09
  | .faulted => 0x0A
  | .notFaulted => 0x0B
  | .retired => 0x0C
  | .state => 0x0D
  | .windowBusy => 0x0E
  | .badAck => 0x0F

/-! ## Request codes and lengths (R170) -/

/-- The payload length a request code requires, or `none` for a code the part does not define. For PING the longest. -/
def requestLength? (code : Byte) : Option Nat :=
  match code.toNat with
  | 0x01 => some 2
  | 0x02 => some 0
  | 0x03 => some 240
  | 0x04 => some 0
  | 0x05 => some 0
  | 0x06 => some 1
  | 0x08 => some 2
  | 0x09 => some 2
  | 0x10 => some 3
  | 0x11 => some 3
  | 0x14 => some 16
  | 0x15 => some 1
  | 0x16 => some 3
  | 0x17 => some 1
  | 0x18 => some 1
  | 0x1A => some 1
  | 0x1B => some 0
  | 0x20 => some 8
  | 0x21 => some 1
  | 0x22 => some 1
  | 0x23 => some 1
  | 0x28 => some 16
  | 0x29 => some 1
  | 0x2A => some 2
  | 0x2B => some 2
  | 0x2C => some 2
  | 0x2D => some 1
  | 0x2E => some 1
  | _ => none

end Sys2Proof.Machine
end

