-- ==== Sys2Proof/Machine/Queue.lean ====
section
/-! DEFINITION. The Report Queue's operations (chapter 6): taking a report, counting losses, reversion with folding, the record on
offer and its choice, acknowledgement. -/

namespace Sys2Proof.Machine

/-- The largest count of a record (R112). -/
def maxCount : Nat := 65535

/-- The kind of a detail (R113). -/
def Detail.kind : Detail → Kind
  | .restart _ _ => .restart
  | .trap _ _ _ _ => .trap
  | .expiry _ => .expiry
  | .domain _ _ => .domain
  | .refusal _ => .refusal
  | .fault _ _ => .fault
  | .obsOverrun => .obsOverrun
  | .linkError _ => .linkError
  | .loss _ => .loss

/-- A record's kind (R113). -/
def Record.kind (r : Record) : Kind := r.detail.kind

/-- The kinds that reports coalesce into and reversion folds (R113, R114, R126). LOSS is coalescible too, but takes losses only
(R119) and, being of a kind with at most one record, is never folded. -/
def Kind.merges : Kind → Bool
  | .trap | .expiry | .domain | .obsOverrun | .linkError => true
  | .restart | .refusal | .fault | .loss => false

/-- The bit of a kind in a kind set (R173). -/
def Kind.bit (k : Kind) : BitVec 16 := (1 : BitVec 16) <<< k.code

/-- Two sets of LINK_ERROR counts added (R114, R126). -/
def LinkCounts.plus (a b : LinkCounts) : LinkCounts :=
  { gap := a.gap + b.gap, framing := a.framing + b.framing, check := a.check + b.check, length := a.length + b.length,
    overrun := a.overrun + b.overrun, type := a.type + b.type }

/-- The detail after a newer report or record of the same kind joins an older one (R114, R126): EXPIRY and DOMAIN take the newer
detail, LINK_ERROR adds the counts, the others keep theirs. -/
def Detail.join (older newer : Detail) : Detail :=
  match older, newer with
  | .expiry _, .expiry k => .expiry k
  | .domain _ _, .domain e c => .domain e c
  | .linkError a, .linkError b => .linkError (a.plus b)
  | d, _ => d

/-- A record and `n` newer reports of its kind and subject, the latest at `last` (R114, R126). -/
def Record.absorb (r : Record) (n : Nat) (last : Millis) (detail : Detail) : Record :=
  { r with count := r.count + n, last := last, detail := r.detail.join detail }

/-- An UNSENT record of the given kind and subject (R113). -/
def Record.matches (kind : Kind) (subject : Option Nat) (r : Record) : Bool :=
  !r.sent && (r.kind == kind && r.subject == subject)

/-- The LOSS record is the one of kind LOSS (R119). -/
def Record.isLoss (r : Record) : Bool := r.kind == .loss

/-- The number of SENT records. -/
def ReportQueue.sentCount (q : ReportQueue) : Nat := q.records.countP (·.sent)

/-- The number of records of ordinary kinds (R115). -/
def ReportQueue.ordinaryCount (q : ReportQueue) : Nat := q.records.countP (!·.isLoss)

/-- The next sequence number is not the head record's (R115, R116). -/
def ReportQueue.seqFree (q : ReportQueue) : Bool :=
  match q.records with
  | [] => true
  | head :: _ => head.seq != q.nextSeq

/-- A new UNSENT record at the tail with the next sequence number (R112, R116). -/
def ReportQueue.append (q : ReportQueue) (first last : Millis) (subject : Option Nat) (count : Nat) (detail : Detail) :
    ReportQueue :=
  { q with
    records := q.records ++ [{ seq := q.nextSeq, sent := false, resent := false, first := first, last := last,
                               subject := subject, count := count, detail := detail }]
    nextSeq := q.nextSeq + 1 }

/-- The tally's count after `m` more reports: their sum, and the free value where it does not fit 64 bits (R117, log entry 4). -/
def tallyCount (count : BitVec 64) (m : Nat) : BitVec 64 :=
  if count.toNat + m < 2 ^ 64 then BitVec.ofNat 64 (count.toNat + m) else Config.freeTally count m

/-- The tally takes `m` reports of a kind at time `t` (R118). Taking none changes nothing. -/
def Tally.take (y : Tally) (m : Nat) (kind : Kind) (t : Millis) : Tally :=
  if m = 0 then y
  else { count := tallyCount y.count m, kinds := y.kinds ||| kind.bit, first := if y.count = 0 then t else y.first, last := t }

/-- A LOSS record takes `n` losses of a kind at time `t`, as many as its count has room for (R118). -/
def Record.takeLoss (r : Record) (n : Nat) (kind : Kind) (t : Millis) : Record :=
  { r with
    count := min (r.count + n) maxCount, last := t
    detail := match r.detail with
      | .loss kinds => .loss (kinds ||| kind.bit)
      | d => d }

/-- `n` reports of a kind are counted as lost at time `t` (R118). -/
def ReportQueue.countLost (q : ReportQueue) (n : Nat) (kind : Kind) (t : Millis) : ReportQueue :=
  match q.records.find? Record.isLoss with
  | some r =>
    if r.sent then { q with tally := q.tally.take n kind t }
    else
      { q with
        records := updateFirst Record.isLoss (·.takeLoss n kind t) q.records
        tally := q.tally.take (r.count + n - maxCount) kind t }
  | none =>
    if q.seqFree then
      { q.append t t none (min n maxCount) (.loss kind.bit) with tally := q.tally.take (n - maxCount) kind t }
    else { q with tally := q.tally.take n kind t }

/-- The queue takes a report at governor time `now` (R114, R115). A report that is lost is lost at that time (R118), which for a
trap report may be later than the observation's capture time it carries (R26, log entry 20). -/
def ReportQueue.take (q : ReportQueue) (now : Millis) (r : Report) : ReportQueue :=
  let kind := r.detail.kind
  match (if kind.merges then q.records.find? (Record.matches kind r.subject) else none) with
  | some found =>
    if found.count < maxCount then
      { q with records := updateFirst (Record.matches kind r.subject) (·.absorb 1 r.time r.detail) q.records }
    else q.countLost 1 kind now
  | none =>
    if q.ordinaryCount < 31 && q.seqFree then q.append r.time r.time r.subject 1 r.detail
    else q.countLost 1 kind now

/-- A record reverted: UNSENT, with RESENT set if it was SENT (R126). -/
def Record.revert (r : Record) : Record := if r.sent then { r with sent := false, resent := true } else r

/-- Folding one record of a reverted list into those before it (R126): into the oldest record of its kind and subject, the
survivor, where the sum of their counts fits; counted as lost where it does not. -/
def foldRecord (acc : List Record × List (Kind × Nat)) (r : Record) : List Record × List (Kind × Nat) :=
  match (if r.kind.merges then acc.1.find? (Record.matches r.kind r.subject) else none) with
  | none => (acc.1 ++ [r], acc.2)
  | some survivor =>
    if survivor.count + r.count ≤ maxCount then
      (updateFirst (Record.matches r.kind r.subject) (·.absorb r.count r.last r.detail) acc.1, acc.2)
    else (acc.1, acc.2 ++ [(r.kind, r.count)])

/-- A reverted list folded, with the counts that did not fit (R126, log entry 16). -/
def foldRecords (records : List Record) : List Record × List (Kind × Nat) := records.foldl foldRecord ([], [])

/-- The reversion of every SENT record, and the folds it brings (R126). -/
def ReportQueue.revert (q : ReportQueue) (t : Millis) : ReportQueue :=
  let folded := foldRecords (q.records.map Record.revert)
  folded.2.foldl (fun q lost => q.countLost lost.2 lost.1 t) { q with records := folded.1, ackTimer := none }

/-- A session change at the queue: reversion, and the retry count to 0 (R128, R129). -/
def ReportQueue.changeSession (q : ReportQueue) (t : Millis) : ReportQueue := { q.revert t with retries := 0 }

/-- The record on offer: the oldest UNSENT one, while the session is OPEN, the retry count is below 8 and fewer than W records
are SENT (R121). -/
def ReportQueue.onOffer (q : ReportQueue) (session : Session) : Option Record :=
  if session = .opened ∧ q.retries < 8 ∧ q.sentCount < q.credit then q.records.find? (!·.sent) else none

/-- The ack timer started with the ack timeout in force; with OFF it does not run (R123). -/
def ReportQueue.startTimer (q : ReportQueue) : ReportQueue :=
  { q with ackTimer := if q.timeout = .off then none else some q.timeout }

/-- The ack timer restarted while SENT records remain, and stopped where none does (R123, R124, R127). -/
def ReportQueue.restartTimer (q : ReportQueue) : ReportQueue :=
  if q.sentCount = 0 then { q with ackTimer := none } else q.startTimer

/-- The transmitter's choice of the record on offer: it becomes SENT, and the ack timer starts if no record was SENT (R121). -/
def ReportQueue.choose (q : ReportQueue) : ReportQueue :=
  let marked := { q with records := updateFirst (!·.sent) (fun r => { r with sent := true }) q.records }
  if q.sentCount = 0 then marked.startTimer else marked

/-- The records left after the one with sequence number `n`, and how many go with it, if a SENT record has that number (R124). -/
def acknowledged? (n : BitVec 16) : List Record → Option (Nat × List Record)
  | [] => none
  | r :: rest =>
    if r.sent ∧ r.seq = n then some (1, rest)
    else (acknowledged? n rest).map fun (removed, left) => (removed + 1, left)

/-- A new LOSS record from the tally, where the queue holds none and the tally is not empty (R124). A tally that this empties keeps
its times, which R117 then calls not meaningful: the model's choice (log entry 2). -/
def ReportQueue.drainTally (q : ReportQueue) : ReportQueue :=
  if q.records.any Record.isLoss || q.tally.count == 0 then q
  else
    let n := min q.tally.count.toNat maxCount
    let left := q.tally.count - BitVec.ofNat 64 n
    { q.append q.tally.first q.tally.last none n (.loss q.tally.kinds) with
      tally := { q.tally with count := left, kinds := if left = 0 then 0 else q.tally.kinds } }

/-- An acknowledgement through sequence number `n`, with the number of records it removes (R124). -/
def ReportQueue.acknowledge? (q : ReportQueue) (n : BitVec 16) : Option (Nat × ReportQueue) :=
  (acknowledged? n q.records).map fun (removed, left) =>
    (removed, ({ q with records := left, retries := 0 } : ReportQueue).restartTimer.drainTally)

/-- The ack timer expires: reversion, and the retry count up by one to at most 8 (R125). -/
def ReportQueue.expire (q : ReportQueue) (t : Millis) : ReportQueue :=
  { q.revert t with retries := min (q.retries + 1) 8 }

/-- The state after its Report Queue takes a report. -/
def State.report (s : State) (r : Report) : State := s.setQueue (s.queue.take s.time r)

end Sys2Proof.Machine
end

