-- ==== Sys2Proof/Machine/Flags.lean ====
section
/-! DEFINITION. What is read off the state and not stored in it: held classes, held awake, comparison depth, the domain outputs of
R59, ALERT and CTS, and the levels of the part's output pins (R181, R182). -/

namespace Sys2Proof.Machine

/-! ## Classes -/

/-- A class is held while its holder set is not empty (R36). -/
def State.held (s : State) (c : ClassId) : Bool := (s.cls c).holders != 0

/-- A class of the set is held. -/
def State.anyHeld (s : State) (set : ClassSet) : Bool := allClasses.any fun c => set.has c && s.held c

/-- A domain is held awake while a class of its wake set is held (R68). -/
def State.heldAwake (s : State) (d : DomainId) : Bool := s.anyHeld (s.dom d).config.wakeSet

/-! ## Domains -/

/-- Depth of a rung (00_scope.md, Depth). -/
def Rung.depth : Rung → Nat
  | .throttled => 1
  | .standby => 2
  | .off => 3

/-- Depth of a target. -/
def Target.depth : Target → Nat
  | .standby => 2
  | .off => 3

/-- The comparison depth, or none (R60). -/
def DomainState.comparisonDepth : DomainState → Option Nat
  | .active => some 0
  | .throttled _ _ => some 1
  | .quiescing target _ _ => some target.depth
  | .settling target _ _ => some target.depth
  | .standby => some 2
  | .poweringDown _ _ _ => some 3
  | .off => some 3
  | .poweringUp _ => none
  | .resuming _ => none
  | .faulted _ _ => none
  | .retired _ => none

/-- The depth of a settled state, and none for any other (00_scope.md, Depth; R58). -/
def DomainState.settledDepth : DomainState → Option Nat
  | .active => some 0
  | .throttled _ _ => some 1
  | .standby => some 2
  | .off => some 3
  | .quiescing _ _ _ | .settling _ _ _ | .poweringDown _ _ _ | .poweringUp _ | .resuming _ | .faulted _ _ | .retired _ => none

/-- The outputs of each state (R59, R70). -/
def DomainState.outputs : DomainState → Outputs
  | .active => { clken := true, pwren := true, qreq := false }
  | .throttled .onPhase _ => { clken := true, pwren := true, qreq := false }
  | .throttled .offPhase _ => { clken := false, pwren := true, qreq := false }
  | .quiescing _ _ _ => { clken := true, pwren := true, qreq := true }
  | .settling _ _ _ => { clken := true, pwren := true, qreq := true }
  | .standby => { clken := false, pwren := true, qreq := true }
  | .poweringDown _ _ _ => { clken := false, pwren := false, qreq := true }
  | .off => { clken := false, pwren := false, qreq := true }
  | .poweringUp _ => { clken := false, pwren := true, qreq := true }
  | .resuming _ => { clken := true, pwren := true, qreq := true }
  | .faulted .quiesceRefused _ => { clken := true, pwren := true, qreq := false }
  | .faulted .powerOffTimeout _ => { clken := false, pwren := false, qreq := true }
  | .faulted .powerOnTimeout _ => { clken := false, pwren := false, qreq := true }
  | .faulted .powerLost _ => { clken := false, pwren := false, qreq := true }
  | .retired true => { clken := true, pwren := true, qreq := false }
  | .retired false => { clken := false, pwren := false, qreq := true }

/-- The target of a step-down in flight (R57): OFF throughout POWERING_DOWN (R94). -/
def DomainState.target? : DomainState → Option Target
  | .quiescing target _ _ => some target
  | .settling target _ _ => some target
  | .poweringDown _ _ _ => some .off
  | _ => none

/-- The step cause, present exactly when the target is (R57). -/
def DomainState.stepCause? : DomainState → Option Cause
  | .quiescing _ step _ => some step
  | .settling _ step _ => some step
  | .poweringDown step _ _ => some step
  | _ => none

/-- Pending-wake (R57, R96). -/
def DomainState.pendingWake : DomainState → Bool
  | .poweringDown _ _ pending => pending
  | _ => false

/-- The fault cause, present exactly in FAULTED (R57). -/
def DomainState.faultCause? : DomainState → Option FaultCause
  | .faulted cause _ => some cause
  | _ => none

/-- Wake-seen (R57, R105). -/
def DomainState.wakeSeen : DomainState → Bool
  | .faulted _ seen => seen
  | _ => false

/-- The domain's outputs: those of its state, and those of R181 while a full reset is in progress. -/
def State.outputs (s : State) (d : DomainId) : Outputs :=
  if s.board.fullReset.isSome then { clken := false, pwren := true, qreq := true } else (s.dom d).state.outputs

/-! ## ALERT, CTS and the output pins -/

/-- ALERT is asserted while the queue holds a FAULT or LOSS record (R131), and released during a full reset (R182). -/
def State.alert (s : State) : Bool :=
  !s.board.fullReset.isSome && s.queue.records.any fun r => r.kind == .fault || r.kind == .loss

/-- CTS is asserted while the request queue holds 0, 1 or 2 requests (R142), and deasserted during a full reset (R181). -/
def State.cts (s : State) : Bool := !s.board.fullReset.isSome && decide (s.link.requests.length ≤ 2)

/-- The level of an output pin. -/
inductive PinLevel where
  | low
  | high
  | highImpedance
deriving DecidableEq, Repr

/-- A push-pull output pin driven to a level: high impedance while VDDIO is out of its range. R181 says so of VDDIO below its range
at power-on, and the model says it of every moment at which VDDIO is out of it (log entry 22). -/
def State.driven (s : State) (level : Bool) : PinLevel :=
  if s.board.vddio then (if level then .high else .low) else .highImpedance

/-- The pin CLKENn: high is on (chapter 11). -/
def State.clkenPin (s : State) (d : DomainId) : PinLevel := s.driven (s.outputs d).clken

/-- The pin PWRENn: high is on (chapter 11). -/
def State.pwrenPin (s : State) (d : DomainId) : PinLevel := s.driven (s.outputs d).pwren

/-- The pin QREQn: high is on (chapter 11). -/
def State.qreqPin (s : State) (d : DomainId) : PinLevel := s.driven (s.outputs d).qreq

/-- CTS# is low while CTS is asserted (R182). -/
def State.ctsPin (s : State) : PinLevel := s.driven (!s.cts)

/-- ALERT# is open drain: low while ALERT is asserted, high impedance while it is released (R182). -/
def State.alertPin (s : State) : PinLevel := if s.board.vddio && s.alert then .low else .highImpedance

/-- What TX carries: high between frames (R144) and during a full reset (R181), else the characters of the frame in
transmission. -/
inductive TxLine where
  | highImpedance
  | restsHigh
  | sends (characters : List Byte)
deriving DecidableEq, Repr

/-- The TX pin: high while a full reset is in progress, whatever its cause (R181). -/
def State.txLine (s : State) : TxLine :=
  if s.board.vddio then
    match (if s.board.fullReset.isSome then none else s.link.tx) with
    | none => .restsHigh
    | some frame => .sends frame.characters
  else .highImpedance

end Sys2Proof.Machine
end

