-- ==== Sys2Proof/Machine/Activity.lean ====
section
/-! DEFINITION. Shared operations of chapters 3 to 5: how a timer and a domain take what is handed to them, the entries to each
domain state, and the hand-offs of one event to several takers. -/

namespace Sys2Proof.Machine

/-! ## Timers (R43 to R48) -/

/-- A unit in milliseconds (R43). -/
def TimerUnit.millis : TimerUnit → Nat
  | .ms1 => 1
  | .ms10 => 10
  | .ms100 => 100
  | .s1 => 1000
  | .min1 => 60000

/-- The load in milliseconds (R43). -/
def Timer.load (t : Timer) : Nat := t.loadCount * t.unit.millis

/-- The timer counting from its full load. -/
def Timer.countFromLoad (t : Timer) : Timer :=
  { t with state := .counting, remaining := t.load, expiries := 0, due := false }

/-- The timer held at its full load. -/
def Timer.holdAtLoad (t : Timer) : Timer := { t with state := .held, remaining := t.load, expiries := 0, due := false }

/-- The timer takes a reload (R47). -/
def Timer.reload (t : Timer) : Timer :=
  match t.state with
  | .stopped => t
  | .counting => t.countFromLoad
  | .held => { t with expiries := 0 }
  | .expired => t.countFromLoad

/-- The timer takes a reload with a watched class becoming held (R48). -/
def Timer.becomeHeld (t : Timer) : Timer :=
  match t.state with
  | .stopped => t
  | .counting => t.holdAtLoad
  | .held => { t with expiries := 0 }
  | .expired => t.holdAtLoad

/-- The timer takes the release of a watched class; `stillHeld`: a class of its watch set is still held (R48). -/
def Timer.release (t : Timer) (stillHeld : Bool) : Timer :=
  match t.state with
  | .held => if stillHeld then t else t.countFromLoad
  | .stopped | .counting | .expired => t

/-- The timer acts as START_TIMER (R51); `watchHeld`: a class of its watch set is held. -/
def Timer.start (t : Timer) (watchHeld : Bool) : Timer :=
  match t.state with
  | .stopped | .expired => if watchHeld then t.holdAtLoad else t.countFromLoad
  | .counting | .held => t.reload

/-- The timer's expiry count one higher, and at most 15 (R44). -/
def Timer.nextExpiry (t : Timer) : Nat := min (t.expiries + 1) 15

/-- The timer reaches 0 and expires, in one event (R44). -/
def Timer.expire (t : Timer) : Timer :=
  match t.mode with
  | .single => { t with state := .expired, remaining := 0, expiries := t.nextExpiry, due := false }
  | .repeating => { t with remaining := t.load, expiries := t.nextExpiry, due := false }

/-- The timer is COUNTING and yet to take the increment that makes it expire (R44, log entry 6). -/
def Timer.expires (t : Timer) : Bool := t.state == .counting && t.due

/-- An increment of governor time comes to the timer (R42, R44). A COUNTING timer counts down by one; where that would reach 0 the
timer takes the increment in the event of its expiry, which is now due (log entry 6). -/
def Timer.tick (t : Timer) : Timer :=
  if t.state = .counting then (if t.remaining ≤ 1 then { t with due := true } else { t with remaining := t.remaining - 1 })
  else t

/-! ## Domain reports and restart claims -/

/-- A DOMAIN report (R80). -/
def State.reportDomain (s : State) (d : DomainId) (entered : Entered) (cause : Cause) : State :=
  s.report { subject := some d.val, time := s.time, detail := .domain entered cause }

/-- A REFUSAL report (R106). -/
def State.reportRefusal (s : State) (d : DomainId) (count : Nat) : State :=
  s.report { subject := some d.val, time := s.time, detail := .refusal count }

/-- A FAULT report (R107). -/
def State.reportFault (s : State) (d : DomainId) (cause : FaultCause) (outputs : Outputs) : State :=
  s.report { subject := some d.val, time := s.time, detail := .fault cause outputs }

/-- The restart claim a domain makes on its bound timer, if it has one (R49, R67). -/
def State.claimRestart (s : State) (d : DomainId) : State :=
  match (s.dom d).config.boundTimer with
  | none => s
  | some t => s.setTimer t (s.timer t).reload

/-! ## Entries to domain states -/

/-- Entry to ACTIVE with its DOMAIN report (R80). -/
def State.enterActive (s : State) (d : DomainId) (cause : Cause) : State :=
  (s.setDomState d .active).reportDomain d .active cause

/-- Entry to THROTTLED at a step's cause: a full on-phase begins (R63, R70). -/
def State.enterThrottled (s : State) (d : DomainId) (cause : Cause) : State :=
  (s.setDomState d (.throttled .onPhase (s.dom d).config.throttleOn)).reportDomain d .throttled cause

/-- Entry to QUIESCING: the quiesce deadline begins (R86). -/
def State.enterQuiescing (s : State) (d : DomainId) (target : Target) (step : Cause) : State :=
  s.setDomState d (.quiescing target step (s.dom d).config.quiesceDeadline)

/-- The end of the resume delay: ACTIVE with the last wake cause, refusal count 0 (R102). -/
def State.endResume (s : State) (d : DomainId) : State :=
  (s.setDom d { s.dom d with refusals := 0 }).enterActive d (s.dom d).lastWake

/-- Entry to RESUMING; with a resume delay of 0 on to ACTIVE in the same event (R85, R102). -/
def State.enterResuming (s : State) (d : DomainId) : State :=
  let entered := s.setDomState d (.resuming (s.dom d).config.resumeDelay)
  if (s.dom d).config.resumeDelay = .zero then entered.endResume d else entered

/-- Entry to POWERING_UP; with PGOOD high on to RESUMING in the same event (R99). -/
def State.enterPoweringUp (s : State) (d : DomainId) : State :=
  let entered := s.setDomState d (.poweringUp (s.dom d).config.powerOnDeadline)
  if (s.dom d).pgood then entered.enterResuming d else entered

/-- Entry to OFF from a power-down with its step cause; a pending wake powers up in the same event (R95). -/
def State.enterOff (s : State) (d : DomainId) (step : Cause) (pendingWake : Bool) : State :=
  let entered := (s.setDomState d .off).reportDomain d .off step
  if pendingWake then entered.enterPoweringUp d else entered

/-- Entry to POWERING_DOWN; with PGOOD low on to OFF in the same event (R94). -/
def State.enterPoweringDown (s : State) (d : DomainId) (step : Cause) : State :=
  let entered := s.setDomState d (.poweringDown step (s.dom d).config.powerOffDeadline false)
  if (s.dom d).pgood then entered else entered.enterOff d step false

/-- The end of the stop delay, at which the target decides (R91). -/
def State.endStopDelay (s : State) (d : DomainId) (target : Target) (step : Cause) : State :=
  match target with
  | .standby => (s.setDomState d .standby).reportDomain d .standby step
  | .off => s.enterPoweringDown d step

/-- Entry to SETTLING; with a stop delay of 0 through it in the same event (R85, R87). -/
def State.enterSettling (s : State) (d : DomainId) (target : Target) (step : Cause) : State :=
  let entered := s.setDomState d (.settling target step (s.dom d).config.stopDelay)
  if (s.dom d).config.stopDelay = .zero then entered.endStopDelay d target step else entered

/-- Entry to FAULTED with its FAULT report (R105, R107). -/
def State.enterFaulted (s : State) (d : DomainId) (cause : FaultCause) (wakeSeen : Bool) : State :=
  (s.setDomState d (.faulted cause wakeSeen)).reportFault d cause (DomainState.faulted cause wakeSeen).outputs

/-! ## Steps and wakes -/

/-- A domain takes an expiry carrying an expiry count (R61 to R64). -/
def State.takeExpiry (s : State) (d : DomainId) (count : Nat) : State :=
  match (s.dom d).state.comparisonDepth, (if count = 0 then none else (s.dom d).config.ladder[count - 1]?) with
  | some depth, some rung =>
    if rung.depth ≤ depth || (s.dom d).hold || s.heldAwake d then s
    else
      match (s.dom d).state, rung with
      | .active, .throttled => s.enterThrottled d .ladder
      | .active, .standby => s.enterQuiescing d .standby .ladder
      | .active, .off => s.enterQuiescing d .off .ladder
      | .throttled _ _, .standby => s.enterQuiescing d .standby .ladder
      | .throttled _ _, .off => s.enterQuiescing d .off .ladder
      | .quiescing _ _ deadline, .off => s.setDomState d (.quiescing .off .ladder deadline)
      | .settling _ _ delay, .off => s.setDomState d (.settling .off .ladder delay)
      | .standby, .off => s.enterPoweringDown d .ladder
      | _, _ => s
  | _, _ => s

/-- The wake's cause becomes the last wake cause (R66). -/
def State.setLastWake (s : State) (d : DomainId) (cause : Cause) : State := s.setDom d { s.dom d with lastWake := cause }

/-- A domain takes a wake (R66, R67). -/
def State.wake (s : State) (d : DomainId) (cause : Cause) : State :=
  match (s.dom d).state with
  | .active => s.claimRestart d
  | .throttled _ _ => ((s.setLastWake d cause).enterActive d cause).claimRestart d
  | .quiescing _ _ _ => ((s.setLastWake d cause).enterActive d cause).claimRestart d
  | .settling _ _ _ => ((s.setLastWake d cause).enterActive d cause).claimRestart d
  | .standby => ((s.setLastWake d cause).enterResuming d).claimRestart d
  | .poweringDown step deadline _ =>
    ((s.setLastWake d cause).setDomState d (.poweringDown step deadline true)).claimRestart d
  | .off => ((s.setLastWake d cause).enterPoweringUp d).claimRestart d
  | .poweringUp _ => s.claimRestart d
  | .resuming _ => s.claimRestart d
  | .faulted fault _ => (s.setDomState d (.faulted fault true)).claimRestart d
  | .retired _ => s

/-! ## Hand-offs of one event to several takers -/

/-- What one event hands to a taker that may meet other takers of the same event in either order. -/
inductive HandOff where
  | wake (domain : DomainId) (cause : Cause)
  | expiry (domain : DomainId) (count : Nat)
  | report (report : Report)
deriving DecidableEq, Repr

/-- A taker takes its hand-off whole, against the state as it then stands (R25, R37, R45). -/
def State.take (s : State) : HandOff → State
  | .wake d cause => s.wake d cause
  | .expiry d count => s.takeExpiry d count
  | .report r => s.report r

/-- An entry placed in a list ordered by key. -/
def insertByKey {α : Type} (x : Nat × α) : List (Nat × α) → List (Nat × α)
  | [] => [x]
  | y :: ys => if x.1 ≤ y.1 then x :: y :: ys else y :: insertByKey x ys

/-- A list in a free order, that of the given draw (log entry 3). -/
def freeOrder {α : Type} (draw : Nat) (xs : List α) : List α :=
  ((xs.zipIdx.map fun (x, i) => (Config.freeKey draw i, x)).foldr insertByKey []).map Prod.snd

/-- The hand-offs of one event are taken, in a free order where there are several (R25, R37, R45, R58). -/
def State.handOver (s : State) (handOffs : List HandOff) : State :=
  match handOffs with
  | [] => s
  | [one] => s.take one
  | _ => (freeOrder s.freeDraws handOffs).foldl State.take { s with freeDraws := s.freeDraws + 1 }

/-! ## Class Map (R37 to R39) -/

/-- The timers whose watch set contains a class (R37). -/
def State.watchers (s : State) (c : ClassId) : List TimerId := allTimers.filter fun t => (s.timer t).watch.has c

/-- The domains whose wake set contains a class (R37). -/
def State.wakers (s : State) (c : ClassId) : List DomainId := allDomains.filter fun d => (s.dom d).config.wakeSet.has c

/-- The wakes a pulse on a class hands to the domains whose wake set contains it (R37, R65). -/
def State.wakesOf (s : State) (c : ClassId) : List HandOff := (s.wakers c).map fun d => .wake d (.cls c)

/-- The class's last activity time becomes governor time (R37, R38). -/
def State.stampClass (s : State) (c : ClassId) : State := s.setCls c { s.cls c with last := some s.time }

/-- A pulse at the Class Map and at the watching timers (R37, R47). -/
def State.pulseTimers (s : State) (c : ClassId) : State :=
  (s.stampClass c).mapTimers fun t => if t.watch.has c then t.reload else t

/-- The Class Map takes a class pulse (R37). -/
def State.pulse (s : State) (c : ClassId) : State := (s.pulseTimers c).handOver (s.wakesOf c)

/-- The wakes of a class are on their way to the domains (log entry 24). -/
def State.sendWakes (s : State) (c : ClassId) (ofRequest : Bool) : State :=
  { s with notices := s.notices ++ (s.wakers c).map fun d => { listener := .domain d, cls := c, ofRequest := ofRequest } }

/-- The Class Map takes a class pulse, and its reloads and wakes are on their way (R37, log entry 24). -/
def State.spreadPulse (s : State) (c : ClassId) (ofRequest : Bool) : State :=
  ({ s.stampClass c with
     notices := s.notices ++
       (s.watchers c).map fun t => { listener := .timer t, cls := c, ofRequest := ofRequest } } : State).sendWakes c ofRequest

/-- A listener meets a notice: a timer takes the reload if it watches the class (R47), a domain the wake if the class is in its wake
set (R65, R69), as the records stand when it is taken (log entry 24). -/
def State.hear (s : State) (n : Notice) : State :=
  match n.listener with
  | .timer t => if (s.timer t).watch.has n.cls then s.setTimer t (s.timer t).reload else s
  | .domain d => if (s.dom d).config.wakeSet.has n.cls then s.wake d (.cls n.cls) else s

/-- A listener takes the oldest notice on its way to it, if there is one (R37, log entry 24). -/
def State.takeNotice (s : State) (listener : Listener) : State :=
  match s.notices.find? (·.listener == listener) with
  | some n => ({ s with notices := s.notices.erase n } : State).hear n
  | none => s

/-- The listeners of the notices that a request's reply waits for: for each notice of a request, its listener takes that notice and
all that are on their way to it before it. -/
def awaited : List Notice → List Listener
  | [] => []
  | n :: rest =>
    if (n :: rest).any fun m => m.ofRequest && m.listener == n.listener then n.listener :: awaited rest else awaited rest

/-- What is still on its way from a request is taken, each listener's oldest first, in a free order where there are several (R40, log
entry 24). -/
def State.takeAwaited (s : State) : State :=
  match awaited s.notices with
  | [] => s
  | [x] => s.takeNotice x
  | several => (freeOrder s.freeDraws several).foldl State.takeNotice { s with freeDraws := s.freeDraws + 1 }

/-- A part of a command that gives a class pulse; `event spread` is the command's event, with the pulse's notices on their way if
`spread` (log entry 24). -/
def State.inPart (s : State) (part : PulsePart) (event : Bool → State) : State :=
  match part with
  | .whole => event false
  | .atClassMap => event true
  | .atListener listener => s.takeNotice listener

/-- The mask of a line in a holder set. -/
def holderBit (l : LineId) : BitVec 12 := (1 : BitVec 12) <<< l.val

/-- The beginning of a line's hold at the Class Map and at the watching timers (R38, R48). -/
def State.joinHold (s : State) (l : LineId) (c : ClassId) : State :=
  let joined := (s.setCls c { s.cls c with holders := (s.cls c).holders ||| holderBit l }).stampClass c
  if s.held c then joined.mapTimers fun t => if t.watch.has c then t.reload else t
  else joined.mapTimers fun t => if t.watch.has c then t.becomeHeld else t

/-- The Class Map takes the beginning of a line's hold together with its pulse (R38). -/
def State.beginHold (s : State) (l : LineId) (c : ClassId) : State := (s.joinHold l c).handOver (s.wakesOf c)

/-- The Class Map takes the beginning of a line's hold, and its wakes are on their way. The timers take theirs in the event: no
COUNTING timer watches a held class (R48, log entry 24). The class is held from this event on, and R68 reads held awake from the Class
Map: an expiry that a waking domain takes before its wake is ignored as held awake (DEDUCED, log entry 24). -/
def State.spreadHold (s : State) (l : LineId) (c : ClassId) (ofRequest : Bool) : State :=
  (s.joinHold l c).sendWakes c ofRequest

/-- The Class Map takes the end of a line's hold; a released class releases its watching timers (R39, R48). -/
def State.endHold (s : State) (l : LineId) (c : ClassId) : State :=
  let left := s.setCls c { s.cls c with holders := (s.cls c).holders &&& ~~~(holderBit l) }
  if left.held c then left
  else left.mapTimers fun t => if t.watch.has c then t.release (left.anyHeld t.watch) else t

/-! ## Lines (R12, R14) -/

/-- The level at which a level qualifier holds (R12). -/
def Qualifier.holdsAt : Qualifier → Option Bool
  | .high => some true
  | .low => some false
  | .off | .rise | .fall | .edge => none

/-- A recognised edge to `level` gives a pulse under the qualifier (R11). -/
def Qualifier.pulsesOn : Qualifier → Bool → Bool
  | .rise, level => level
  | .fall, level => !level
  | .edge, _ => true
  | .off, _ | .high, _ | .low, _ => false

/-- The line begins holding its configured class (R12). -/
def State.lineHolds (s : State) (l : LineId) (spread ofRequest : Bool) : State :=
  let marked := s.setLine l { s.line l with holding := some (s.line l).cls }
  if spread then marked.spreadHold l (s.line l).cls ofRequest else marked.beginHold l (s.line l).cls

/-- The line's hold, if any, ends (R12, R14). -/
def State.lineReleases (s : State) (l : LineId) : State :=
  match (s.line l).holding with
  | none => s
  | some c => (s.setLine l { s.line l with holding := none }).endHold l c

end Sys2Proof.Machine
end

