-- ==== Sys2Proof/Machine/Clock.lean ====
section
/-! DEFINITION. The Time Base and the Timer Bank's expiries (chapter 3). -/

namespace Sys2Proof.Machine

/-- The expiries a timer hands to the domains bound to it (R45). -/
def State.expiriesOf (s : State) (t : TimerId) : List HandOff :=
  (allDomains.filter fun d => (s.dom d).config.boundTimer == some t).map fun d => .expiry d (s.timer t).nextExpiry

/-- The EXPIRY report of a timer whose report flag is on (R46). -/
def State.expiryReports (s : State) (t : TimerId) : List HandOff :=
  if (s.timer t).report then
    [.report { subject := some t.val, time := s.time, detail := .expiry (s.timer t).nextExpiry }]
  else []

/-- A timer expires (R44) and hands on its expiry (R45). -/
def State.expireTimer (s : State) (t : TimerId) : State :=
  (s.setTimer t (s.timer t).expire).handOver (s.expiryReports t ++ s.expiriesOf t)

/-- The expiry of a timer, if it is due. -/
def State.takeDue (s : State) (t : TimerId) : State := if (s.timer t).expires then s.expireTimer t else s

/-- The timer's own part of a due expiry: the timer expires (R44), the Report Queue takes its report (R46), and the expiry is on its
way to each domain bound to the timer at that moment (R45, log entry 23). -/
def State.expireAtTimer (s : State) (t : TimerId) : State :=
  if (s.timer t).expires then
    let bound := allDomains.filter fun d => (s.dom d).config.boundTimer == some t
    let expired := (s.setTimer t (s.timer t).expire).handOver (s.expiryReports t)
    { expired with handed := s.handed ++ bound.map fun d => { timer := t, domain := d, count := (s.timer t).nextExpiry } }
  else s

/-- A domain meets the oldest expiry on its way to it from a timer, if there is one, against its record as it then stands (R69). It
takes it only if the timer is the one its record then names as bound (R62, R78): one that a WRITE_DOMAIN unbound or bound to another
timer after the expiry was handed lets it go (log entry 23). What has become of the timer since it expired plays no
part: an expiry handed before a STOP_TIMER is still taken after it (DEDUCED from R45 and R50, beside R52; log entry 23). -/
def State.takeHanded (s : State) (t : TimerId) (d : DomainId) : State :=
  match s.handed.find? fun x => x.timer == t && x.domain == d with
  | some x =>
    let gone : State := { s with handed := s.handed.erase x }
    if (s.dom d).config.boundTimer = some t then gone.takeExpiry d x.count else gone
  | none => s

/-- A timer's expiry, or a part of it, is taken. -/
def State.takePart (s : State) (t : TimerId) : ExpiryPart → State
  | .whole => s.takeDue t
  | .atTimer => s.expireAtTimer t
  | .atDomain d => s.takeHanded t d

/-- TIMER_EXPIRY (R44 to R46): the timer takes the last increment, by which it reaches 0 and expires, unless another event has
reloaded, held or stopped it first (R50); and the domains bound to it take the expiry, in the same step or each in one of its own
(R69). What is not due or not on its way is not taken. -/
def execTimerExpiry (timer : Nat) (s : State) (part : ExpiryPart := .whole) : Result :=
  onTimer timer fun t => s.running fun s => s.takePart t part

/-- What is outstanding of the last increment's expiries: those on their way to domains and those still due. -/
def State.outstanding (s : State) : List (TimerId × ExpiryPart) :=
  s.handed.map (fun x => (x.timer, .atDomain x.domain)) ++
    (allTimers.filter fun t => (s.timer t).expires).map fun t => (t, .whole)

/-- The outstanding expiries are taken, in a free order where there are several. -/
def State.takeOutstanding (s : State) : State :=
  match s.outstanding with
  | [] => s
  | [x] => s.takePart x.1 x.2
  | several => (freeOrder s.freeDraws several).foldl (fun u x => u.takePart x.1 x.2) { s with freeDraws := s.freeDraws + 1 }

/-- GOVERNOR_TIME_INCREMENT (R42, R44): governor time rises by one millisecond and every COUNTING timer counts down, one that
reaches 0 in the event of its expiry. What is outstanding from the increment before belongs to that increment and is taken first (log
entries 6 and 23). -/
def execGovernorTimeIncrement (s : State) : Result :=
  s.running fun s =>
    let taken := s.takeOutstanding
    ({ taken with time := taken.time + 1 } : State).mapTimers Timer.tick

end Sys2Proof.Machine
end

