-- ==== Sys2Proof/Machine/Resets.lean ====
section
/-! DEFINITION. The full reset (chapter 11, R82, R132, R149, R167), its begin and end, and the events that lead to them. -/

namespace Sys2Proof.Machine

/-- A full reset begins (R180, R181): the frame in transmission is cut (R149), a request in hand is abandoned (R154), with the
reply made to it, and a full reset pending is cleared (R165). The blocks take their full-reset states in the event that ends it. -/
def State.beginFullReset (s : State) (cause : ResetCause) : State :=
  { s with
    board := { s.board with fullReset := some cause }
    link := { s.link with tx := none }
    unit := { s.unit with inHand := none, made := none, discard := false, fullResetPending := false } }

/-- The rate that the straps RATE1 and RATE0 select (R133). -/
def rateOf (rate1 rate0 : Bool) : Rate :=
  match rate1, rate0 with
  | false, false => .r115200
  | false, true => .r460800
  | true, false => .r1000000
  | true, true => .r3000000

/-- A line after a full reset: OFF on C0, not holding, its recognised level the raw level sampled (R9, R10). -/
def Line.sampled (l : Line) : Line := { Line.default with raw := l.raw, level := l.raw }

/-- A domain as a full reset leaves it before it enters POWERING_UP, its inputs sampled (R82, R84). -/
def Domain.sampled (x : Domain) : Domain :=
  { Domain.default with qackRaw := x.qackRaw, qack := x.qackRaw, pgoodRaw := x.pgoodRaw, pgood := x.pgoodRaw }

/-- Every block in its full-reset state, with the straps and input levels sampled, and every domain yet to enter POWERING_UP. A
candidate in progress on RESET# goes on: R180 does not name RESET# among the levels sampled (log entry 21). The model's own fields
are kept. -/
def State.fullyReset (s : State) (cause : ResetCause) (rate : Rate) : State :=
  { State.reset with
    lines := mapBank Line.sampled s.lines
    domains := mapBank Domain.sampled s.domains
    queue := ReportQueue.restarted cause
    link := { State.reset.link with rate := rate }
    unit := { State.reset.unit with resetCause := cause }
    board := { s.board with fullReset := none }
    freeDraws := s.freeDraws
    pending := s.pending }

/-- The full reset ends (R180): every block takes its full-reset state, and every domain enters POWERING_UP (R82, R99). -/
def State.endFullReset (s : State) (cause : ResetCause) (rate : Rate) : State :=
  allDomains.foldl State.enterPoweringUp (s.fullyReset cause rate)

/-- POWER_ON_RESET (R180): VDD or VDDIO entered or left its range. A power-on reset begins and supersedes any other in progress. -/
def execPowerOnReset (vdd vddio : Bool) (s : State) : Result :=
  let begun := s.beginFullReset .powerOn
  .next (begun.setBoard { begun.board with vdd := vdd, vddio := vddio })

/-- RESET_PIN_RAW_CHANGE (R180): a candidate begins where the raw level departs from the recognised one, and is abandoned where it
returns. -/
def execResetPinRawChange (level : Bool) (s : State) : Result := .next (s.setBoard { s.board with resetRaw := level })

/-- RESET_PIN (R180): a low on RESET# is recognised, and a full reset with cause PIN begins unless one is in progress. Without a
low candidate nothing happens. -/
def execResetPin (s : State) : Result :=
  .next
    (if !s.board.resetRaw && s.board.resetLevel then
      let low := s.setBoard { s.board with resetLevel := false }
      if s.board.fullReset.isSome then low else low.beginFullReset .pin
    else s)

/-- RESET_PIN_RELEASE (R180): RESET# is recognised high again. Without a high candidate nothing happens. -/
def execResetPinRelease (s : State) : Result :=
  .next
    (if s.board.resetRaw && !s.board.resetLevel then s.setBoard { s.board with resetLevel := true } else s)

/-- A full reset of this cause may end (R180): RESET# is recognised high, both supplies are in range, and, at power-on, REFCLK is
running. -/
def Board.mayEnd (b : Board) (cause : ResetCause) (refclk : Bool) : Bool :=
  b.resetLevel && b.vdd && b.vddio && (refclk || cause != .powerOn)

/-- FULL_RESET_END (R180, log entry 14): a full reset in progress that may end ends; otherwise nothing happens. -/
def execFullResetEnd (rate1 rate0 : Bool) (s : State) (refclk : Bool) : Result :=
  .next
    (match s.board.fullReset with
     | some cause =>
       if s.board.mayEnd cause refclk then s.endFullReset cause (rateOf rate1 rate0) else s
     | none => s)

end Sys2Proof.Machine
end

