-- ==== Sys2Proof/Machine/LinkPort.lean ====
section
/-! DEFINITION. The Link Interface (chapter 7): the check, the character and frame receivers, the transmitter and its arbiter,
and the break; with the layout of frames and reports (chapter 9). -/

namespace Sys2Proof.Machine

/-! ## The check (R137) -/

/-- One bit of the check's register: polynomial x^16 + x^12 + x^5 + 1, most significant bit first. -/
def crcShift (reg : BitVec 16) : BitVec 16 := if reg.msb then (reg <<< 1) ^^^ 0x1021 else reg <<< 1

/-- One byte taken into the register. -/
def crcByte (reg : BitVec 16) (b : Byte) : BitVec 16 :=
  let r := reg ^^^ (b.setWidth 16 <<< 8)
  crcShift (crcShift (crcShift (crcShift (crcShift (crcShift (crcShift (crcShift r)))))))

/-- The check value over a run of bytes, the register starting with all bits set. -/
def crc (bytes : List Byte) : BitVec 16 := bytes.foldl crcByte 0xFFFF

/-- The SYNC byte (R135). -/
def syncByte : Byte := 0xC3

/-- A frame around a body (R144): SYNC, LEN, body, check low byte first. -/
def frameOf (body : List Byte) : List Byte :=
  let len := byte body.length
  let check := crc (len :: body)
  [syncByte, len] ++ body ++ [check.setWidth 8, (check >>> 8).setWidth 8]

/-! ## Receiving (R134 to R140) -/

/-- The six reasons of a receive error (R140). -/
inductive RxError where
  | gap
  | framing
  | check
  | length
  | overrun
  | type
deriving DecidableEq, Repr

/-- The counts of a LINK_ERROR report with one reason (R113). -/
def RxError.counts : RxError → LinkCounts
  | .gap => { gap := 1, framing := 0, check := 0, length := 0, overrun := 0, type := 0 }
  | .framing => { gap := 0, framing := 1, check := 0, length := 0, overrun := 0, type := 0 }
  | .check => { gap := 0, framing := 0, check := 1, length := 0, overrun := 0, type := 0 }
  | .length => { gap := 0, framing := 0, check := 0, length := 1, overrun := 0, type := 0 }
  | .overrun => { gap := 0, framing := 0, check := 0, length := 0, overrun := 1, type := 0 }
  | .type => { gap := 0, framing := 0, check := 0, length := 0, overrun := 0, type := 1 }

/-- A receive error hands the Report Queue a LINK_ERROR report (R140). -/
def State.reportRxError (s : State) (e : RxError) : State :=
  s.report { subject := none, time := s.time, detail := .linkError e.counts }

/-- The frame receiver in a state, its gap timer running or stopped. -/
def State.receiverTo (s : State) (f : FrameRx) (gap : Bool) : State :=
  s.setLink { s.link with frameRx := f, gapRunning := gap }

/-- The frame receiver returns to HUNT with its gap timer stopped (R138). -/
def State.toHunt (s : State) : State := s.receiverTo .hunt false

/-- A valid frame of the given body is taken (R139). -/
def State.takeFrame (s : State) (body : List Byte) : State :=
  match body with
  | type :: tag :: payload =>
    if 0x70 ≤ type then s.reportRxError .type
    else if s.link.requests.length < 4 then
      s.setLink { s.link with requests := s.link.requests ++ [{ type := type, tag := tag, payload := payload }] }
    else s.reportRxError .overrun
  | _ => s

/-- The second check character completes a frame (R137). -/
def State.completeFrame (s : State) (len : Byte) (body : List Byte) (low high : Byte) : State :=
  if crc (len :: body) = word16 low high then s.toHunt.takeFrame body else s.toHunt.reportRxError .check

/-- The frame receiver takes a character (R135 to R137). -/
def State.receive (s : State) (b : Byte) : State :=
  match s.link.frameRx with
  | .hunt => if b = syncByte then s.receiverTo .length true else s
  | .length =>
    if 2 ≤ b.toNat ∧ b.toNat ≤ 248 then s.receiverTo (.body b []) true else s.toHunt.reportRxError .length
  | .body len received =>
    if len.toNat ≤ received.length + 1 then s.receiverTo (.check len (received ++ [b]) none) true
    else s.receiverTo (.body len (received ++ [b])) true
  | .check len received none => s.receiverTo (.check len received (some b)) true
  | .check len received (some low) => s.completeFrame len received low b

/-- The character receiver in a state. -/
def State.characterRx (s : State) (c : CharRx) : State := s.setLink { s.link with charRx := c }

/-- RX_CHARACTER (R134, R135): the character has been received, so its start edge has passed. -/
def execRxCharacter (character : Byte) (s : State) : Result :=
  s.running fun s => (s.characterRx .waiting).receive character

/-- CHARACTER_START_EDGE (R134, R138): a falling edge after a high line begins a character, and the gap timer stops. If the start bit
then samples high the edge was noise: it began no character, the gap timer runs on, and the character receiver, which was inside
the supposed character, waits again for an edge (log entry 11). An edge inside a character begins none. -/
def execCharacterStartEdge (s : State) (startBitHigh : Bool) : Result :=
  s.running fun s =>
    if s.link.charRx = .inCharacter then s
    else
      let begun := s.characterRx .inCharacter
      if startBitHigh then begun.characterRx .waiting else begun.setLink { begun.link with gapRunning := false }

/-- FRAMING_ERROR (R134 to R137, R140): counted in every state of the frame receiver, and a partial frame is abandoned. -/
def execFramingError (s : State) : Result :=
  s.running fun s => ((s.characterRx .waiting).toHunt).reportRxError .framing

/-- GAP_ERROR (R138): the gap timer, if it runs, has run out, and the partial frame is abandoned. -/
def execGapError (s : State) : Result :=
  s.running fun s => if s.link.gapRunning then s.toHunt.reportRxError .gap else s

/-! ## Break and link reset (R146, R147) -/

/-- The link reset (R147): its effect on the Link Interface, the Command Unit (R159) and the Report Queue (R129). A frame in
transmission goes on. -/
def State.linkReset (s : State) : State :=
  { s with
    link := { s.link with charRx := .afterBreak, frameRx := .hunt, gapRunning := false, requests := [], replies := [] }
    unit := { s.unit with session := .closed, discard := s.unit.inHand.isSome }
    queue := s.queue.changeSession s.time }

/-- BREAK (R146): the link reset. Where it empties the reply queue of a RESET FULL's reply, the full reset begins (R165), and a frame
in transmission is cut (log entry 19). That the event is always effective is log entry 11. -/
def execRxBreak (s : State) : Result :=
  s.running fun s =>
    if s.link.replies.any (·.resets) then s.linkReset.beginFullReset .host else s.linkReset

/-! ## Layout of reports (R177) -/

/-- The bytes of a record's detail. -/
def Detail.bytes : Detail → List Byte
  | .restart cause revision => [cause.code, revision]
  | .trap address space direction requester =>
    bytesOf 4 address.toNat ++ [space.code, direction.code, byte requester.toNat]
  | .expiry count => [byte count]
  | .domain entered cause => [entered.code, cause.code, cause.classByte]
  | .refusal count => [byte count]
  | .fault cause outputs => [cause.code, outputs.code]
  | .obsOverrun => []
  | .linkError c =>
    bytesOf 2 c.gap ++ bytesOf 2 c.framing ++ bytesOf 2 c.check ++ bytesOf 2 c.length ++ bytesOf 2 c.overrun ++
      bytesOf 2 c.type
  | .loss kinds => bytesOf 2 kinds.toNat

/-- The subject byte: the index, or 0xFF when the kind has none. -/
def subjectByte (subject : Option Nat) : Byte :=
  match subject with
  | none => 0xFF
  | some i => byte i

/-- The body of a report frame. -/
def Record.bodyBytes (r : Record) : List Byte :=
  [0x70, 0x00] ++ bytesOf 2 r.seq.toNat ++ [byte r.kind.code, flagByte r.resent] ++ bytesOf 4 r.first.toNat ++
    bytesOf 4 r.last.toNat ++ [subjectByte r.subject] ++ bytesOf 2 r.count ++ r.detail.bytes

/-- The body of a reply frame (R155). -/
def Reply.bodyBytes (r : Reply) : List Byte := [r.type, r.tag] ++ r.payload

/-! ## The transmitter (R144, R145) -/

/-- The transmitter carries a frame, or is idle. -/
def State.transmit (s : State) (tx : Option TxFrame) : State := s.setLink { s.link with tx := tx }

/-- The arbiter's choice at a frame boundary (R145, R121). -/
def State.arbitrate (s : State) : State :=
  match s.link.replies with
  | reply :: rest =>
    s.setLink { s.link with replies := rest, tx := some { characters := frameOf reply.bodyBytes, resets := reply.resets } }
  | [] =>
    match s.queue.onOffer s.unit.session with
    | some r => (s.setQueue s.queue.choose).transmit (some { characters := frameOf r.bodyBytes, resets := false })
    | none => s.transmit none

/-- FRAME_BOUNDARY (R145): a frame in transmission ends, and the arbiter chooses; but the end of a RESET FULL's reply is the event
of the full reset, and no frame begins there (R165). -/
def execFrameBoundary (s : State) : Result :=
  s.running fun s =>
    match s.link.tx with
    | some frame => if frame.resets then s.beginFullReset .host else s.arbitrate
    | none => s.arbitrate

end Sys2Proof.Machine
end

