-- ==== Sys2Proof/Machine/Command.lean ====
section
/-! DEFINITION. The Command Unit (chapter 8): taking a request with its common checks, the SILENT claim, and the shared frame of
executing the request in hand. -/

namespace Sys2Proof.Machine

/-- The reply to a request (R155). -/
def Request.reply (r : Request) (payload : List Byte) (resets : Bool) : Reply :=
  { type := r.type + 0x80, tag := r.tag, payload := payload, resets := resets }

/-- The payload of a refusal (R174). -/
def refusal (reason : Reason) : List Byte := [Status.refused.code, reason.code]

/-- The payload of an OK or ACCEPTED reply (R174): the status, no reason, and the request-specific part. -/
def answered (status : Status) (part : List Byte) : List Byte := [status.code, 0] ++ part

/-- The request in hand is answered: its execution has made its reply, which is yet to join the reply queue (R153). -/
def State.answer (s : State) (r : Request) (payload : List Byte) (resets : Bool) : State :=
  s.setUnit { s.unit with made := some (r.reply payload resets) }

/-- A reply made joins the reply queue at its tail, in an event of its own, and no request is in hand (R153). Under the discard mark
it is discarded instead, and where it is a RESET FULL's the full reset takes place in the event (R165). -/
def State.joinReply (s : State) (reply : Reply) : State :=
  let idle := s.setUnit { s.unit with inHand := none, made := none, discard := false }
  if s.unit.discard then (if reply.resets then idle.beginFullReset .host else idle)
  else idle.setLink { s.link with replies := s.link.replies ++ [reply] }

/-! ## Taking a request (R151, R152) -/

/-- The reserved byte of a WRITE_WINDOW or WRITE_DOMAIN is not zero (R171). -/
def Request.reservedSet (r : Request) : Bool :=
  (r.type == 0x14 || r.type == 0x28) && r.payload.getLast? != some 0

/-- The request passes the session check in CLOSED (R152, R156): OPEN, PING, IDENTIFY, READ_STATUS and RESET. -/
def Request.passesClosed (r : Request) : Bool :=
  r.type == 0x01 || r.type == 0x03 || r.type == 0x04 || r.type == 0x05 || r.type == 0x06

/-- The payload has the length the TYPE requires, PING's at most 240 bytes (R152, R170). -/
def Request.lengthFits (r : Request) (required : Nat) : Bool :=
  if r.type = 0x03 then decide (r.payload.length ≤ required) else r.payload.length == required

/-- The first of the four checks that fails (R152). -/
def Request.refusedFor (r : Request) (session : Session) : Option Reason :=
  match requestLength? r.type with
  | none => some .unknownRequest
  | some required =>
    if !r.lengthFits required then some .badLength
    else if r.reservedSet then some .badField
    else if session = .closed ∧ r.passesClosed = false then some .notOpen
    else none

/-- The Command Unit is ready for a request (R151). -/
def State.ready (s : State) : Bool :=
  s.unit.inHand.isNone && !s.unit.fullResetPending && decide (s.link.replies.length < 4)

/-- A request taken while SILENT reopens the session, and the retry count becomes 0 (R130, R151). -/
def State.reopen (s : State) : State :=
  match s.unit.session with
  | .silent => (s.setUnit { s.unit with session := .opened }).setQueue { s.queue with retries := 0 }
  | .closed | .opened => s

/-- The request `r` taken from the queue is checked, and refused or held in hand (R151). -/
def State.passChecks (s : State) (r : Request) : State :=
  match r.refusedFor s.unit.session with
  | some reason => s.setLink { s.link with replies := s.link.replies ++ [r.reply (refusal reason) false] }
  | none => s.setUnit { s.unit with inHand := some r, made := none, discard := false }

/-- TAKE_REQUEST (R151): where the Command Unit is ready and a request waits, the oldest is taken; otherwise nothing happens. A request
refused here in SILENT puts its reply in the reply queue and a record on offer in one event; an idle transmitter then takes the reply
first, of the two orders R145 allows (DESIGN CHOICE, log entry 25). -/
def execTakeRequest (s : State) : Result :=
  s.running fun s =>
    match s.link.requests with
    | [] => s
    | r :: rest => if s.ready then ((s.setLink { s.link with requests := rest }).reopen).passChecks r else s

/-- SILENT_CLAIM (R159): the claim handed by the Report Queue makes an OPEN session SILENT if the retry count is still 8. -/
def execSilentClaim (s : State) : Result :=
  s.running fun s =>
    if s.unit.silentClaim then
      s.setUnit { s.unit with
        silentClaim := false
        session := if s.unit.session = .opened ∧ s.queue.retries = 8 then .silent else s.unit.session }
    else s

/-- ACK_TIMER_EXPIRY (R125): where the ack timer runs, every SENT record reverts and the retry count rises; reaching 8 hands the
Command Unit the SILENT claim. -/
def execAckTimerExpiry (s : State) : Result :=
  s.running fun s =>
    match s.queue.ackTimer with
    | none => s
    | some _ =>
      let expired := s.setQueue (s.queue.expire s.time)
      if expired.queue.retries = 8 then expired.setUnit { s.unit with silentClaim := true } else expired

/-! ## Executing the request in hand (R153) -/

/-- What an owner decides of a request: refused with a reason, changing nothing (R155), or done with a status, a request-specific
part and the state it leaves. -/
inductive Verdict where
  | refuse (reason : Reason)
  | done (status : Status) (part : List Byte) (state : State)

/-- The reply made to the request in hand as its owner decided (R153, R155). With no decision nothing happens: another command of the
table executes the request. -/
def State.conclude (s : State) (r : Request) : Option Verdict → State
  | none => s
  | some (.refuse reason) => s.answer r (refusal reason) false
  | some (.done status part after) => after.answer r (answered status part) false

/-- The next event of the request in hand, where it is of the given TYPE (R153, log entry 9): its execution, and once its reply is
made the joining of the reply. Where no such request is in hand neither arises and nothing happens. -/
def State.requestEvent (s : State) (type : Byte) (execution : Request → State) : State :=
  match s.unit.inHand with
  | none => s
  | some r =>
    if r.type = type then
      match s.unit.made with
      | none => execution r
      | some reply => s.joinReply reply
    else s

/-- The next event of a request that its owner executes in one event. -/
def State.serve (s : State) (type : Byte) (owner : List Byte → Option Verdict) : State :=
  s.requestEvent type fun r => s.conclude r (owner r.payload)

/-- An execution whose request is always this command's. -/
def State.serveAll (s : State) (type : Byte) (owner : List Byte → Verdict) : State :=
  s.serve type fun payload => some (owner payload)

/-- The reply of a request of the TYPE in hand is made, and its next event is the joining. -/
def State.joining (s : State) (type : Byte) : Bool := s.unit.made.isSome && s.unit.inHand.any (·.type == type)

/-- The same for a request that gives a class pulse: before its reply joins, what is still on its way from it is taken, so that it
comes before every request executed after it (R40, R153, log entry 24). -/
def State.servePulse (s : State) (type : Byte) (owner : List Byte → Verdict) : State :=
  (if s.joining type then s.takeAwaited else s).serveAll type owner

end Sys2Proof.Machine
end

