-- ==== Sys2Proof/Machine/Observe.lean ====
section
/-! DEFINITION. Observation (chapters 1 and 2): the address strobe, the match decision, and the activity lines. -/

namespace Sys2Proof.Machine

/-! ## Snoop Port and Capture FIFO -/

/-- The space that SP1 and SP0 name; 11 names none (R179). -/
def space? (pins : BitVec 2) : Option Space :=
  if pins = 0 then some .memory else if pins = 1 then some .io else if pins = 2 then some .config else none

/-- The enable of a space (R2). -/
def SnoopEnables.enabled (e : SnoopEnables) : Space → Bool
  | .memory => e.memory
  | .io => e.io
  | .config => e.config

/-- The Capture FIFO takes or loses an observation offered to it (R4, R6, R7). -/
def State.offer (s : State) (o : Observation) : State :=
  if s.fifo.length < 16 then { s with fifo := s.fifo ++ [o] }
  else s.report { subject := none, time := o.time, detail := .obsOverrun }

/-- ADDRESS_STROBE (R1, R2, R179). -/
def execAddressStrobe (address : BitVec 32) (space : BitVec 2) (wr : Bool) (requester : BitVec 4) (s : State) : Result :=
  s.running fun s =>
    match space? space with
    | none => s
    | some sp =>
      if s.snoop.enabled sp then
        s.offer { address := address, space := sp, direction := if wr then .write else .read, requester := requester,
                  time := s.time }
      else s

/-! ## Match Unit -/

/-- The window's space filter accepts a space (R19). -/
def SpaceFilter.accepts : SpaceFilter → Space → Bool
  | .any, _ => true
  | .only a, b => a == b

/-- The window's direction filter accepts a direction (R19). -/
def DirectionFilter.accepts : DirectionFilter → Direction → Bool
  | .either, _ => true
  | .only a, b => a == b

/-- The address agrees with the base in every bit above the lowest k (R20). -/
def inBlock (base address : BitVec 32) (k : Nat) : Bool := (base >>> k) == (address >>> k)

/-- A window matches an observation (R19). -/
def WindowConfig.matches (w : WindowConfig) (o : Observation) : Bool :=
  w.enabled && w.space.accepts o.space && inBlock w.base o.address w.span && w.direction.accepts o.direction &&
    (match w.requesters with
     | none => true
     | some tags => tags.getLsbD o.requester.toNat)

/-- The window that decides an observation: the first that matches in index order (R21). -/
def State.decider (s : State) (o : Observation) : Option WindowId := allWindows.find? fun w => (s.window w).config.matches o

/-- A deciding window makes a trap report (R24). -/
def Window.traps (w : Window) : Bool :=
  match w.config.action with
  | .trapEach => true
  | .trapOnce => w.armed
  | .count | .exclude => false

/-- The class a deciding window pulses, if any (R23, R24). -/
def Window.pulsed (w : Window) : Option ClassId :=
  match w.config.action with
  | .exclude => none
  | .count | .trapEach | .trapOnce => w.config.cls

/-- A window after it decides an observation: its hit counted, saturating, and a TRAP_ONCE window disarmed (R22, R24). -/
def Window.decided (w : Window) : Window :=
  { w with
    hits := min (w.hits + 1) maxCount
    armed := match w.config.action with
      | .trapOnce => false
      | .count | .trapEach | .exclude => w.armed }

/-- The trap report of an observation that window `w` decides (R26). -/
def trapReport (w : WindowId) (o : Observation) : Report :=
  { subject := some w.val, time := o.time, detail := .trap o.address o.space o.direction o.requester }

/-- A decision's pulse, if any, and its other hand-offs (R25): the pulse reaches the Class Map and the watching timers, and its
wakes and the trap report meet in a free order; or its notices are on their way, and the report is taken. -/
def State.decisionHandOffs (s : State) (pulsed : Option ClassId) (reports : List HandOff) (spread : Bool) : State :=
  match pulsed with
  | none => s.handOver reports
  | some c =>
    if spread then (s.spreadPulse c false).handOver reports else (s.pulseTimers c).handOver (reports ++ s.wakesOf c)

/-- The Match Unit decides an observation (R18, R21 to R25). -/
def State.decide (s : State) (o : Observation) (spread : Bool) : State :=
  match s.decider o with
  | none => s.decisionHandOffs s.fallthrough [] spread
  | some w =>
    (s.setWindow w (s.window w).decided).decisionHandOffs (s.window w).pulsed
      (if (s.window w).traps then [.report (trapReport w o)] else []) spread

/-- MATCH_DECISION (R5, R18): the oldest observation leaves the FIFO and is decided; with the FIFO empty nothing happens. -/
def execMatchDecision (s : State) (part : PulsePart := .whole) : Result :=
  s.running fun s => s.inPart part fun spread =>
    match s.fifo with
    | [] => s
    | o :: rest => ({ s with fifo := rest } : State).decide o spread

/-! ## Line Monitor -/

/-- LINE_RAW_CHANGE (R9): a candidate begins where the raw level departs from the recognised one, and is abandoned where it
returns. Raw levels are tracked in every condition of the part, for the sampling at the end of a full reset. -/
def execLineRawChange (line : Nat) (level : Bool) (s : State) : Result :=
  onLine line fun l => .next (s.setLine l { s.line l with raw := level })

/-- The line's qualifier acts on the recognised edge that brought the line to its present level (R11, R12). -/
def State.qualifyEdge (s : State) (l : LineId) (spread : Bool) : State :=
  match (s.line l).qualifier.holdsAt with
  | some level => if (s.line l).level = level then s.lineHolds l spread false else s.lineReleases l
  | none =>
    if (s.line l).qualifier.pulsesOn (s.line l).level then
      if spread then s.spreadPulse (s.line l).cls false else s.pulse (s.line l).cls
    else s

/-- RECOGNISED_EDGE (R9): the line's candidate completes and its qualifier acts; without a candidate nothing happens. -/
def execRecognisedEdge (line : Nat) (s : State) (part : PulsePart := .whole) : Result :=
  onLine line fun l => s.running fun s => s.inPart part fun spread =>
    if (s.line l).raw = (s.line l).level then s
    else (s.setLine l { s.line l with level := (s.line l).raw }).qualifyEdge l spread

end Sys2Proof.Machine
end

