-- ==== Sys2Proof/Machine/Configure.lean ====
section
/-! DEFINITION. The requests of the Snoop Port, the Line Monitor, the Window Table, the Class Map and the Timer Bank (chapters 1
to 3). -/

namespace Sys2Proof.Machine

/-! ## Snoop Port and Line Monitor (R3, R13, R14) -/

/-- The owner's event of SET_SNOOP (R3). -/
def State.ownSnoop (s : State) (payload : List Byte) : Verdict :=
  match flag? (payload.getD 0 0), flag? (payload.getD 1 0), flag? (payload.getD 2 0) with
  | some memory, some io, some config =>
    .done .ok [flagByte memory, flagByte io, flagByte config] { s with snoop := { memory := memory, io := io, config := config } }
  | _, _, _ => .refuse .range

/-- SET_SNOOP (R3). -/
def execSetSnoop (s : State) : Result := s.running fun s => s.serveAll 0x10 s.ownSnoop

/-- A line reconfigured (R14): a hold ends, the configuration is replaced, and a hold begins where the level qualifies. -/
def State.configureLine (s : State) (l : LineId) (qualifier : Qualifier) (cls : ClassId) (spread : Bool) : State :=
  let released := s.lineReleases l
  let configured := released.setLine l { released.line l with qualifier := qualifier, cls := cls }
  if qualifier.holdsAt = some (s.line l).level then configured.lineHolds l spread true else configured

/-- The hold status and held class as SET_LINE's reply carries them (R175). -/
def holdBytes (holding : Option ClassId) : List Byte :=
  match holding with
  | none => [0, 0xFF]
  | some c => [1, byte c.val]

/-- The owner's event of SET_LINE (R13). -/
def State.ownLine (s : State) (spread : Bool) (payload : List Byte) : Verdict :=
  match index? 12 (payload.getD 0 0), qualifier? (payload.getD 1 0), index? 16 (payload.getD 2 0) with
  | some l, some qualifier, some cls =>
    let after := s.configureLine l qualifier cls spread
    .done .ok (flagByte (s.line l).level :: holdBytes (after.line l).holding) after
  | _, _, _ => .refuse .range

/-- SET_LINE (R13, R14). -/
def execSetLine (s : State) (part : PulsePart := .whole) : Result :=
  s.running fun s => s.inPart part fun spread => s.servePulse 0x11 (s.ownLine spread)

/-! ## Window Table (R28 to R35) -/

/-- The requester set of a WRITE_WINDOW: absent, its bytes then ignored, or present (R171, R172). -/
def requesterSet? (presence lo hi : Byte) : Option (Option (BitVec 16)) :=
  if presence = 0 then some none else if presence = 1 then some (some (word16 lo hi)) else none

/-- A window configuration from the payload of a WRITE_WINDOW, if every field is in its range (R28). -/
def windowConfig? (payload : List Byte) : Option WindowConfig := do
  let enabled ← flag? (payload.getD 1 0)
  let space ← spaceFilter? (payload.getD 2 0)
  let span ← between? 0 32 (payload.getD 7 0)
  let direction ← directionFilter? (payload.getD 8 0)
  let requesters ← requesterSet? (payload.getD 9 0) (payload.getD 10 0) (payload.getD 11 0)
  let cls ← indexOrNone? 16 (payload.getD 12 0)
  let action ← action? (payload.getD 13 0)
  let base := word32 (payload.getD 3 0) (payload.getD 4 0) (payload.getD 5 0) (payload.getD 6 0)
  some { enabled := enabled, space := space, base := base, span := span, direction := direction, requesters := requesters,
         cls := cls, action := action }

/-- The owner's event of WRITE_WINDOW (R28, R29). -/
def State.ownWriteWindow (s : State) (payload : List Byte) : Verdict :=
  match index? 24 (payload.getD 0 0), windowConfig? payload, flag? (payload.getD 14 0) with
  | some w, some config, some clear =>
    if config.requesters = some 0 then .refuse .emptySet
    else
      .done .ok (bytesOf 2 (s.window w).hits)
        (s.setWindow w { config := config, armed := true, hits := if clear then 0 else (s.window w).hits })
  | _, _, _ => .refuse .range

/-- WRITE_WINDOW (R28, R29). -/
def execWriteWindow (s : State) : Result := s.running fun s => s.serveAll 0x14 s.ownWriteWindow

/-- A class, or NONE (R172). -/
def classByte (c : Option ClassId) : Byte :=
  match c with
  | none => 0xFF
  | some c => byte c.val

/-- The requester presence and set as READ_WINDOW returns them (R171, R175). -/
def requesterBytes (requesters : Option (BitVec 16)) : List Byte :=
  match requesters with
  | none => [0, 0, 0]
  | some tags => 1 :: bytesOf 2 tags.toNat

/-- The record of a window in the order of R175. -/
def Window.bytes (w : Window) : List Byte :=
  [flagByte w.config.enabled, w.config.space.code] ++ bytesOf 4 w.config.base.toNat ++
    [byte w.config.span, w.config.direction.code] ++ requesterBytes w.config.requesters ++
    [classByte w.config.cls, w.config.action.code, flagByte w.armed] ++ bytesOf 2 w.hits

/-- The owner's event of READ_WINDOW (R31). -/
def State.ownReadWindow (s : State) (payload : List Byte) : Verdict :=
  match index? 24 (payload.getD 0 0) with
  | some w => .done .ok (s.window w).bytes s
  | none => .refuse .range

/-- READ_WINDOW (R31). -/
def execReadWindow (s : State) : Result := s.running fun s => s.serveAll 0x15 s.ownReadWindow

/-- The range and clear flag of a READ_HITS: a number of at least 1, within the 24 windows (R32). -/
def hitsRange? (payload : List Byte) : Option (Nat × Nat × Bool) :=
  let first := (payload.getD 0 0).toNat
  let number := (payload.getD 1 0).toNat
  match flag? (payload.getD 2 0) with
  | some clear => if 1 ≤ number ∧ number ≤ 24 ∧ first + number ≤ 24 then some (first, number, clear) else none
  | none => none

/-- A window's hit count read, and set to 0 under the clear flag, in one indivisible step (R32). -/
def State.readWindowHits (s : State) (w : WindowId) (clear : Bool) : State :=
  if clear then s.setWindow w { s.window w with hits := 0 } else s

/-- The step of the READ_HITS in hand for its next window (R33); after the last, the reply is made (R32, log entry 10). -/
def State.hitsStep (s : State) (r : Request) (first number : Nat) (clear : Bool) : State :=
  if h : first + s.unit.hitsRead.length < 24 then
    let w : WindowId := ⟨first + s.unit.hitsRead.length, h⟩
    let counts := s.unit.hitsRead ++ [(s.window w).hits]
    let read := s.readWindowHits w clear
    if number ≤ counts.length then
      (read.setUnit { s.unit with hitsRead := [] }).answer r (answered .ok (counts.flatMap (bytesOf 2))) false
    else read.setUnit { s.unit with hitsRead := counts }
  else s

/-- READ_HITS (R32, R33): one window's step of the READ_HITS in hand. -/
def execReadHits (s : State) : Result :=
  s.running fun s => s.requestEvent 0x16 fun r =>
    match hitsRange? r.payload with
    | some (first, number, clear) => s.hitsStep r first number clear
    | none => s.answer r (refusal .range) false

/-- The owner's event of ARM_TRAP (R34). -/
def State.ownArmTrap (s : State) (payload : List Byte) : Verdict :=
  match index? 24 (payload.getD 0 0) with
  | some w => .done .ok [flagByte (s.window w).armed] (s.setWindow w { s.window w with armed := true })
  | none => .refuse .range

/-- ARM_TRAP (R34). -/
def execArmTrap (s : State) : Result := s.running fun s => s.serveAll 0x17 s.ownArmTrap

/-- The owner's event of SET_FALLTHROUGH (R35). -/
def State.ownFallthrough (s : State) (payload : List Byte) : Verdict :=
  match indexOrNone? 16 (payload.getD 0 0) with
  | some cls => .done .ok [classByte s.fallthrough] { s with fallthrough := cls }
  | none => .refuse .range

/-- SET_FALLTHROUGH (R35). -/
def execSetFallthrough (s : State) : Result := s.running fun s => s.serveAll 0x18 s.ownFallthrough

/-! ## Class Map (R40, R41) -/

/-- The owner's event of NUDGE (R40). -/
def State.ownNudge (s : State) (spread : Bool) (payload : List Byte) : Verdict :=
  match index? 16 (payload.getD 0 0) with
  | some c =>
    .done .ok (optionalTime (s.cls c).last ++ [setByte (s.watchers c), setByte (s.wakers c)])
      (if spread then s.spreadPulse c true else s.pulse c)
  | none => .refuse .range

/-- NUDGE (R40). -/
def execNudge (s : State) (part : PulsePart := .whole) : Result :=
  s.running fun s => s.inPart part fun spread => s.servePulse 0x1A (s.ownNudge spread)

/-- The items of READ_CLASSES in the order of R175. -/
def State.classesPart (s : State) : List Byte :=
  bytesOf 4 s.time.toNat ++
    allClasses.flatMap fun c => bytesOf 2 (s.cls c).holders.toNat ++ optionalTime (s.cls c).last

/-- READ_CLASSES (R41). -/
def execReadClasses (s : State) : Result := s.running fun s => s.serveAll 0x1B fun _ => .done .ok s.classesPart s

/-! ## Timer Bank (R51 to R55) -/

/-- A timer's state, remaining and expiry count, as WRITE_TIMER and START_TIMER return them (R175). -/
def Timer.runningBytes (t : Timer) : List Byte := [t.state.code] ++ bytesOf 4 t.remaining ++ [byte t.expiries]

/-- A timer's configuration replaced, the other fields kept (R54, step 1 and the set of step 2). -/
def Timer.configure (t : Timer) (loadCount : Nat) (unit : TimerUnit) (mode : TimerMode) (watch : ClassSet) (report : Bool) :
    Timer :=
  { t with loadCount := loadCount, unit := unit, mode := mode, watch := watch, report := report }

/-- A timer meets its new watch set (R54, step 2); `watchHeld`: a class of the new set is held. -/
def Timer.meetWatchSet (t : Timer) (watchHeld : Bool) : Timer :=
  match t.state with
  | .counting | .expired => if watchHeld then t.holdAtLoad else t
  | .held => if watchHeld then t else t.countFromLoad
  | .stopped => t

/-- The owner's event of WRITE_TIMER (R53, R54). -/
def State.ownWriteTimer (s : State) (payload : List Byte) : Verdict :=
  match index? 8 (payload.getD 0 0), between? 1 255 (payload.getD 1 0), timerUnit? (payload.getD 2 0),
      timerMode? (payload.getD 3 0), flag? (payload.getD 6 0), flag? (payload.getD 7 0) with
  | some t, some loadCount, some unit, some mode, some report, some restart =>
    let watch := word16 (payload.getD 4 0) (payload.getD 5 0)
    let watchHeld := s.anyHeld watch
    let written := ((s.timer t).configure loadCount unit mode watch report).meetWatchSet watchHeld
    let after := if restart then written.start watchHeld else written
    .done .ok after.runningBytes (s.setTimer t after)
  | _, _, _, _, _, _ => .refuse .range

/-- WRITE_TIMER (R53, R54). -/
def execWriteTimer (s : State) : Result := s.running fun s => s.serveAll 0x20 s.ownWriteTimer

/-- The owner's event of START_TIMER (R51). -/
def State.ownStartTimer (s : State) (payload : List Byte) : Verdict :=
  match index? 8 (payload.getD 0 0) with
  | some t =>
    let after := (s.timer t).start (s.anyHeld (s.timer t).watch)
    .done .ok after.runningBytes (s.setTimer t after)
  | none => .refuse .range

/-- START_TIMER (R51). -/
def execStartTimer (s : State) : Result := s.running fun s => s.serveAll 0x21 s.ownStartTimer

/-- The owner's event of STOP_TIMER (R52). -/
def State.ownStopTimer (s : State) (payload : List Byte) : Verdict :=
  match index? 8 (payload.getD 0 0) with
  | some t =>
    .done .ok [(s.timer t).state.code, byte (s.timer t).expiries]
      (s.setTimer t { s.timer t with state := .stopped, remaining := 0, expiries := 0, due := false })
  | none => .refuse .range

/-- STOP_TIMER (R52). -/
def execStopTimer (s : State) : Result := s.running fun s => s.serveAll 0x22 s.ownStopTimer

/-- The domains bound to a timer (R55). -/
def State.boundTo (s : State) (t : TimerId) : List DomainId :=
  allDomains.filter fun d => (s.dom d).config.boundTimer == some t

/-- The record of a timer and its bound domains in the order of R175. -/
def State.timerPart (s : State) (t : TimerId) : List Byte :=
  [byte (s.timer t).loadCount, (s.timer t).unit.code] ++ bytesOf 4 (s.timer t).load ++ [(s.timer t).mode.code] ++
    bytesOf 2 (s.timer t).watch.toNat ++ [flagByte (s.timer t).report] ++ (s.timer t).runningBytes ++ [setByte (s.boundTo t)]

/-- The owner's event of READ_TIMER (R55). -/
def State.ownReadTimer (s : State) (payload : List Byte) : Verdict :=
  match index? 8 (payload.getD 0 0) with
  | some t => .done .ok (s.timerPart t) s
  | none => .refuse .range

/-- READ_TIMER (R55). -/
def execReadTimer (s : State) : Result := s.running fun s => s.serveAll 0x23 s.ownReadTimer

end Sys2Proof.Machine
end

