-- ==== Sys2Proof/Machine/Govern.lean ====
section
/-! DEFINITION. The requests of the Domain Governor (chapters 4 and 5). -/

namespace Sys2Proof.Machine

/-! ## The domain record on the link (R176) -/

/-- A depth code, or 0xFF where there is none. -/
def depthByte (depth : Option Nat) : Byte :=
  match depth with
  | none => 0xFF
  | some n => byte n

/-- The three rung positions: 0xFF beyond the rung count (R171). -/
def rungBytes (ladder : List Rung) : List Byte := ((ladder.map Rung.code) ++ [0xFF, 0xFF, 0xFF]).take 3

/-- The kept interval's length in the encoding of the field it was taken from, or 0xFF when no interval runs (R176). -/
def DomainState.keptByte : DomainState → Byte
  | .quiescing _ _ deadline => byte deadline
  | .settling _ _ delay => delay.code
  | .poweringDown _ deadline _ => byte deadline
  | .poweringUp deadline => byte deadline
  | .resuming delay => delay.code
  | .active | .throttled _ _ | .standby | .off | .faulted _ _ | .retired _ => 0xFF

/-- The throttle phase and the length of the phase in progress: 0 outside THROTTLED (R71, R176). -/
def DomainState.phaseBytes : DomainState → List Byte
  | .throttled phase length => [phase.code, byte length]
  | _ => [0, 0]

/-- An optional code, 0xFF where it is absent (R175). -/
def codeOrAbsent (code : Option Byte) : Byte := code.getD 0xFF

/-- The timer a domain is bound to, 0xFF for NONE. -/
def boundByte (t : Option TimerId) : Byte :=
  match t with
  | none => 0xFF
  | some t => byte t.val

/-- The domain record that WRITE_DOMAIN and READ_DOMAIN return (R78, R79, R176). -/
def State.domainPart (s : State) (d : DomainId) : List Byte :=
  let x := s.dom d
  let c := x.config
  [x.state.code, codeOrAbsent (x.state.target?.map Target.code), codeOrAbsent (x.state.stepCause?.map Cause.code),
    boundByte c.boundTimer, byte c.ladder.length] ++ rungBytes c.ladder ++ bytesOf 2 c.wakeSet.toNat ++
  [flagByte x.hold, flagByte x.state.pendingWake, byte x.refusals, codeOrAbsent (x.state.faultCause?.map FaultCause.code),
    flagByte x.state.wakeSeen, x.lastWake.code, x.lastWake.classByte, byte c.throttleOn, byte c.throttleOff,
    byte c.quiesceDeadline, c.stopDelay.code, byte c.powerOffDeadline, byte c.powerOnDeadline, c.resumeDelay.code,
    x.state.keptByte, depthByte x.state.comparisonDepth, flagByte (s.heldAwake d), (s.outputs d).code] ++
  x.state.phaseBytes ++ [flagByte x.qack ||| (flagByte x.pgood <<< 1)]

/-! ## WRITE_DOMAIN and READ_DOMAIN (R77 to R79) -/

/-- The rungs of a ladder, as many as the rung count: each a depth code (R77, R171). -/
def rungCodes? (payload : List Byte) : Option (List Nat) := do
  let count ← between? 0 3 (payload.getD 2 0)
  ((payload.drop 3).take count).mapM (between? 0 3)

/-- The rung of a depth deeper than ACTIVE. -/
def rungOf? (depth : Nat) : Option Rung :=
  match depth with
  | 1 => some .throttled
  | 2 => some .standby
  | 3 => some .off
  | _ => none

/-- A ladder from depths: none of them ACTIVE, each strictly deeper than the one before (R61, R77). -/
def ladder? (above : Nat) : List Nat → Option (List Rung)
  | [] => some []
  | depth :: rest =>
    if above < depth then
      match rungOf? depth, ladder? depth rest with
      | some rung, some rungs => some (rung :: rungs)
      | _, _ => none
    else none

/-- A domain configuration but for its ladder, from the payload of a WRITE_DOMAIN whose fields are in range (R77). -/
def domainConfig? (payload : List Byte) : Option DomainConfig := do
  let boundTimer ← indexOrNone? 8 (payload.getD 1 0)
  let throttleOn ← between? 1 255 (payload.getD 8 0)
  let throttleOff ← between? 1 255 (payload.getD 9 0)
  let quiesceDeadline ← between? 1 255 (payload.getD 10 0)
  let stopDelay ← delay? (payload.getD 11 0)
  let powerOffDeadline ← between? 1 255 (payload.getD 12 0)
  let powerOnDeadline ← between? 1 255 (payload.getD 13 0)
  let resumeDelay ← delay? (payload.getD 14 0)
  some { boundTimer := boundTimer, ladder := [], wakeSet := word16 (payload.getD 6 0) (payload.getD 7 0),
         throttleOn := throttleOn, throttleOff := throttleOff, quiesceDeadline := quiesceDeadline, stopDelay := stopDelay,
         powerOffDeadline := powerOffDeadline, powerOnDeadline := powerOnDeadline, resumeDelay := resumeDelay }

/-- The owner's event of WRITE_DOMAIN (R77, R78). -/
def State.ownWriteDomain (s : State) (payload : List Byte) : Verdict :=
  match index? 6 (payload.getD 0 0), domainConfig? payload, rungCodes? payload with
  | some d, some config, some depths =>
    match ladder? 0 depths with
    | none => .refuse .order
    | some rungs =>
      let after := s.setDom d { s.dom d with config := { config with ladder := rungs } }
      .done .ok (after.domainPart d) after
  | _, _, _ => .refuse .range

/-- WRITE_DOMAIN (R77, R78). -/
def execWriteDomain (s : State) : Result := s.running fun s => s.serveAll 0x28 s.ownWriteDomain

/-- The owner's event of READ_DOMAIN (R79). -/
def State.ownReadDomain (s : State) (payload : List Byte) : Verdict :=
  match index? 6 (payload.getD 0 0) with
  | some d => .done .ok (s.domainPart d) s
  | none => .refuse .range

/-- READ_DOMAIN (R79). -/
def execReadDomain (s : State) : Result := s.running fun s => s.serveAll 0x29 s.ownReadDomain

/-! ## HOLD (R72) -/

/-- HOLD ON wakes the domain in every state but ACTIVE, FAULTED and RETIRED (R72). -/
def DomainState.holdWakes : DomainState → Bool
  | .active | .faulted _ _ | .retired _ => false
  | .throttled _ _ | .quiescing _ _ _ | .settling _ _ _ | .standby | .poweringDown _ _ _ | .off | .poweringUp _
  | .resuming _ => true

/-- The state after HOLD ON (R72). -/
def State.holdDomain (s : State) (d : DomainId) : State :=
  let flagged := s.setDom d { s.dom d with hold := true }
  if (s.dom d).state.holdWakes then flagged.wake d .host else flagged

/-- The reply of HOLD: the flag before and the state after (R72, R175). -/
def holdVerdict (before after : State) (d : DomainId) : Verdict :=
  .done .ok [flagByte (before.dom d).hold, (after.dom d).state.code] after

/-- A HOLD's value (R172). A value that is neither is refused by whichever of the two commands executes the request. -/
def State.ownHold (s : State) (wanted : Bool) (payload : List Byte) : Option Verdict :=
  match flag? (payload.getD 1 0), index? 6 (payload.getD 0 0) with
  | some value, some d =>
    if value = wanted then
      some (holdVerdict s (if value then s.holdDomain d else s.setDom d { s.dom d with hold := false }) d)
    else none
  | some value, none => if value = wanted then some (.refuse .range) else none
  | none, _ => some (.refuse .range)

/-- HOLD_ON (R72). -/
def execHoldOn (s : State) : Result := s.running fun s => s.serve 0x2A (s.ownHold true)

/-- HOLD_OFF (R72). -/
def execHoldOff (s : State) : Result := s.running fun s => s.serve 0x2A (s.ownHold false)

/-! ## FORCE (R73, R74) -/

/-- The state is settled (R58): a request that leaves it so is OK, and ACCEPTED otherwise (R74, R108). -/
def DomainState.settledStatus (x : DomainState) : Status := if x.settledDepth.isSome then .ok else .accepted

/-- The reply of an accepted FORCE: the state after (R74). -/
def forceVerdict (after : State) (d : DomainId) : Verdict :=
  .done (after.dom d).state.settledStatus [(after.dom d).state.code] after

/-- The checks of FORCE that come before its target is considered (R73). -/
def Domain.forceBarred (x : Domain) : Option Reason :=
  match x.state with
  | .retired _ => some .retired
  | .faulted _ _ => some .faulted
  | .active | .throttled _ _ | .quiescing _ _ _ | .settling _ _ _ | .standby | .poweringDown _ _ _ | .off | .poweringUp _
  | .resuming _ => none

/-- A FORCE toward a deeper target of a settled domain (R74). -/
def State.forceDeeper (s : State) (d : DomainId) (target : Rung) : State :=
  match (s.dom d).state, target with
  | .active, .throttled => s.enterThrottled d .force
  | .active, .standby => s.enterQuiescing d .standby .force
  | .active, .off => s.enterQuiescing d .off .force
  | .throttled _ _, .standby => s.enterQuiescing d .standby .force
  | .throttled _ _, .off => s.enterQuiescing d .off .force
  | .standby, .off => s.enterPoweringDown d .force
  | _, _ => s

/-- The owner's event of FORCE toward THROTTLED, STANDBY or OFF (R73, R74). -/
def State.ownForceDeeper (s : State) (d : DomainId) (target : Rung) : Verdict :=
  match (s.dom d).forceBarred, (s.dom d).state.settledDepth with
  | some reason, _ => .refuse reason
  | none, none => .refuse .busy
  | none, some depth =>
    if (s.dom d).hold then .refuse .held
    else if target.depth < depth then .refuse .order
    else forceVerdict (s.forceDeeper d target) d

/-- The owner's event of FORCE with target ACTIVE (R73, R74). -/
def State.ownForceActive (s : State) (payload : List Byte) : Option Verdict :=
  if payload.getD 1 0 = 0 then
    some
      (match index? 6 (payload.getD 0 0) with
       | none => .refuse .range
       | some d =>
         match (s.dom d).forceBarred with
         | some reason => .refuse reason
         | none => forceVerdict (s.wake d .host) d)
  else none

/-- The owner's event of FORCE with any other target (R73). -/
def State.ownForce (s : State) (payload : List Byte) : Option Verdict :=
  if payload.getD 1 0 = 0 then none
  else
    some
      (match index? 6 (payload.getD 0 0), rungOf? (payload.getD 1 0).toNat with
       | some d, some target => s.ownForceDeeper d target
       | _, _ => .refuse .range)

/-- FORCE_ACTIVE (R74). -/
def execForceActive (s : State) : Result := s.running fun s => s.serve 0x2B s.ownForceActive

/-- FORCE (R73, R74). -/
def execForce (s : State) : Result := s.running fun s => s.serve 0x2B s.ownForce

/-! ## CLEAR_FAULT (R108 to R110) -/

/-- A CLEAR_FAULT recovery (R172). -/
inductive Recovery where
  | up
  | down
deriving DecidableEq, Repr

/-- A CLEAR_FAULT recovery. -/
def recovery? (b : Byte) : Option Recovery := if b = 0 then some .up else if b = 1 then some .down else none

/-- The state after a recovery from a fault cause (R109, R110), the refusal count 0 (R108). -/
def State.recover (s : State) (d : DomainId) (cause : FaultCause) (recovery : Recovery) : State :=
  let cleared := s.setDom d { s.dom d with refusals := 0 }
  match recovery with
  | .down => cleared.enterPoweringDown d .clear
  | .up =>
    if cause = .quiesceRefused then (cleared.setLastWake d .clear).enterActive d .clear
    else (cleared.setLastWake d .clear).enterPoweringUp d

/-- The owner's event of CLEAR_FAULT with a recovery (R108). -/
def State.ownClearFault (s : State) (recovery : Recovery) (domain : Byte) : Verdict :=
  match index? 6 domain with
  | none => .refuse .range
  | some d =>
    match (s.dom d).state with
    | .faulted cause seen =>
      let after := s.recover d cause recovery
      .done (after.dom d).state.settledStatus [cause.code, flagByte seen, (after.dom d).state.code] after
    | _ => .refuse .notFaulted

/-- The CLEAR_FAULT in hand, executed by the command of its recovery. A recovery that is neither is refused by whichever of the two
commands executes the request. -/
def State.ownRecovery (s : State) (wanted : Recovery) (payload : List Byte) : Option Verdict :=
  match recovery? (payload.getD 1 0) with
  | none => some (.refuse .range)
  | some recovery => if recovery = wanted then some (s.ownClearFault recovery (payload.getD 0 0)) else none

/-- CLEAR_FAULT_UP (R109). -/
def execClearFaultUp (s : State) : Result := s.running fun s => s.serve 0x2C (s.ownRecovery .up)

/-- CLEAR_FAULT_DOWN (R110). -/
def execClearFaultDown (s : State) : Result := s.running fun s => s.serve 0x2C (s.ownRecovery .down)

/-! ## RETIRE and ADOPT (R75, R76) -/

/-- The owner's event of RETIRE (R75). -/
def State.ownRetire (s : State) (payload : List Byte) : Verdict :=
  match index? 6 (payload.getD 0 0) with
  | none => .refuse .range
  | some d =>
    match (s.dom d).state with
    | .active => .done .ok [] ((s.setDomState d (.retired true)).reportDomain d .retired .retire)
    | .off => .done .ok [] ((s.setDomState d (.retired false)).reportDomain d .retired .retire)
    | _ => .refuse .state

/-- RETIRE (R75). -/
def execRetire (s : State) : Result := s.running fun s => s.serveAll 0x2D s.ownRetire

/-- The owner's event of ADOPT (R76). -/
def State.ownAdopt (s : State) (payload : List Byte) : Verdict :=
  match index? 6 (payload.getD 0 0) with
  | none => .refuse .range
  | some d =>
    let adopted := s.setDom d { s.dom d with refusals := 0, lastWake := .adopt }
    match (s.dom d).state with
    | .retired true =>
      .done .ok [DomainState.active.code] ((adopted.enterActive d .adopt).claimRestart d)
    | .retired false =>
      .done .ok [DomainState.off.code] ((adopted.setDomState d .off).reportDomain d .off .adopt)
    | _ => .refuse .state

/-- ADOPT (R76). -/
def execAdopt (s : State) : Result := s.running fun s => s.serveAll 0x2E s.ownAdopt

end Sys2Proof.Machine
end

