-- ==== Sys2Proof/Machine/Power.lean ====
section
/-! DEFINITION. The events of a domain (chapters 4 and 5): its handshake edges and the ends of its throttle phases, deadlines and
delays. The end of an interval acts only in the state that runs the interval: left before its end, the interval is abandoned
and its end does not arrive (R85, log entries 5 and 13). -/

namespace Sys2Proof.Machine

/-- The domain's record with the raw level of a handshake input replaced (R84). -/
def Domain.setRaw (x : Domain) (input : HandshakeInput) (level : Bool) : Domain :=
  match input with
  | .qack => { x with qackRaw := level }
  | .pgood => { x with pgoodRaw := level }

/-- HANDSHAKE_RAW_CHANGE (R84): a candidate begins where the raw level departs from the recognised one, and is abandoned where it
returns. Raw levels are tracked in every condition of the part, for the sampling at the end of a full reset. -/
def execHandshakeRawChange (domain : Nat) (input : HandshakeInput) (level : Bool) (s : State) : Result :=
  onDomain domain fun d => .next (s.setDom d ((s.dom d).setRaw input level))

/-- THROTTLE_PHASE_END (R70, R71): CLKEN turns and the other kind of phase begins with its configured length. -/
def execThrottlePhaseEnd (domain : Nat) (s : State) : Result :=
  onDomain domain fun d => s.running fun s =>
    match (s.dom d).state with
    | .throttled .onPhase _ => s.setDomState d (.throttled .offPhase (s.dom d).config.throttleOff)
    | .throttled .offPhase _ => s.setDomState d (.throttled .onPhase (s.dom d).config.throttleOn)
    | _ => s

/-- QACK_RISE (R84, R87): the acknowledge in QUIESCING; ignored in every other state. -/
def execQackRise (domain : Nat) (s : State) : Result :=
  onDomain domain fun d => s.running fun s =>
    if (s.dom d).qackRaw && !(s.dom d).qack then
      let risen := s.setDom d { s.dom d with qack := true }
      match (s.dom d).state with
      | .quiescing target step _ => (risen.setDom d { risen.dom d with refusals := 0 }).enterSettling d target step
      | _ => risen
    else s

/-- QACK_FALL (R84, R92, R93): a wake with cause QACK_DROP in SETTLING and STANDBY; ignored in every other state. -/
def execQackFall (domain : Nat) (s : State) : Result :=
  onDomain domain fun d => s.running fun s =>
    if !(s.dom d).qackRaw && (s.dom d).qack then
      let fallen := s.setDom d { s.dom d with qack := false }
      match (s.dom d).state with
      | .settling _ _ _ => fallen.wake d .qackDrop
      | .standby => fallen.wake d .qackDrop
      | _ => fallen
    else s

/-- PGOOD_RISE (R84, R100): ends the power-up in POWERING_UP; ignored in every other state. -/
def execPgoodRise (domain : Nat) (s : State) : Result :=
  onDomain domain fun d => s.running fun s =>
    if (s.dom d).pgoodRaw && !(s.dom d).pgood then
      let risen := s.setDom d { s.dom d with pgood := true }
      match (s.dom d).state with
      | .poweringUp _ => risen.enterResuming d
      | _ => risen
    else s

/-- PGOOD_FALL (R84, R95, R103): completes a power-down, and is power lost in the powered states. -/
def execPgoodFall (domain : Nat) (s : State) : Result :=
  onDomain domain fun d => s.running fun s =>
    if !(s.dom d).pgoodRaw && (s.dom d).pgood then
      let fallen := s.setDom d { s.dom d with pgood := false }
      match (s.dom d).state with
      | .poweringDown step _ pendingWake => fallen.enterOff d step pendingWake
      | .active => fallen.enterFaulted d .powerLost false
      | .throttled _ _ => fallen.enterFaulted d .powerLost false
      | .quiescing _ _ _ => fallen.enterFaulted d .powerLost false
      | .settling _ _ _ => fallen.enterFaulted d .powerLost false
      | .standby => fallen.enterFaulted d .powerLost false
      | .resuming _ => fallen.enterFaulted d .powerLost false
      | .off => fallen
      | .poweringUp _ => fallen
      | .faulted _ _ => fallen
      | .retired _ => fallen
    else s

/-- A refused quiesce (R88): ACTIVE with a REFUSAL and then a DOMAIN report, or FAULTED on the third in a row. -/
def State.refuseQuiesce (s : State) (d : DomainId) : State :=
  let count := (s.dom d).refusals + 1
  let counted := s.setDom d { s.dom d with refusals := count }
  if count < 3 then (counted.reportRefusal d count).enterActive d .quiesceDeadline
  else counted.enterFaulted d .quiesceRefused false

/-- QUIESCE_DEADLINE_END (R88). -/
def execQuiesceDeadlineEnd (domain : Nat) (s : State) : Result :=
  onDomain domain fun d => s.running fun s =>
    match (s.dom d).state with
    | .quiescing _ _ _ => s.refuseQuiesce d
    | _ => s

/-- STOP_DELAY_END (R91). -/
def execStopDelayEnd (domain : Nat) (s : State) : Result :=
  onDomain domain fun d => s.running fun s =>
    match (s.dom d).state with
    | .settling target step _ => s.endStopDelay d target step
    | _ => s

/-- POWER_OFF_DEADLINE_END (R97): FAULTED with POWER_OFF_TIMEOUT; a pending wake becomes wake-seen. -/
def execPowerOffDeadlineEnd (domain : Nat) (s : State) : Result :=
  onDomain domain fun d => s.running fun s =>
    match (s.dom d).state with
    | .poweringDown _ _ pendingWake => s.enterFaulted d .powerOffTimeout pendingWake
    | _ => s

/-- POWER_ON_DEADLINE_END (R101): FAULTED with POWER_ON_TIMEOUT. -/
def execPowerOnDeadlineEnd (domain : Nat) (s : State) : Result :=
  onDomain domain fun d => s.running fun s =>
    match (s.dom d).state with
    | .poweringUp _ => s.enterFaulted d .powerOnTimeout false
    | _ => s

/-- RESUME_DELAY_END (R102). -/
def execResumeDelayEnd (domain : Nat) (s : State) : Result :=
  onDomain domain fun d => s.running fun s =>
    match (s.dom d).state with
    | .resuming _ => s.endResume d
    | _ => s

end Sys2Proof.Machine
end

