-- ==== Sys2Proof/Machine/Session.lean ====
section
/-! DEFINITION. The requests executed by the Command Unit and the Report Queue (chapters 6 and 8). -/

namespace Sys2Proof.Machine

/-- The credit windows W (R127). -/
def credit? (b : Byte) : Option Nat := between? 1 8 b

/-- The part's identity (R161). -/
def identity : List Byte := bytesOf 2 Config.vendorCode.toNat ++ bytesOf 2 Config.partCode.toNat ++ [Config.revision]

/-- The sequence number of the head record, or the next sequence number if the queue is empty (R128). -/
def ReportQueue.headSeq (q : ReportQueue) : BitVec 16 :=
  match q.records with
  | [] => q.nextSeq
  | head :: _ => head.seq

/-- The number of records queued, as a byte. -/
def ReportQueue.queued (q : ReportQueue) : Byte := byte q.records.length

/-- The queue after an accepted OPEN (R128). -/
def ReportQueue.openSession (q : ReportQueue) (t : Millis) (credit : Nat) (timeout : AckTimeout) : ReportQueue :=
  { q.changeSession t with credit := credit, timeout := timeout }

/-- The owner's event of OPEN (R128, R157). -/
def State.ownOpen (s : State) (payload : List Byte) : Verdict :=
  match credit? (payload.getD 0 0), ackTimeout? (payload.getD 1 0) with
  | some credit, some timeout =>
    let q := s.queue.openSession s.time credit timeout
    .done .ok
      (identity ++ [s.unit.resetCause.code] ++ bytesOf 2 q.headSeq.toNat ++ [q.queued, byte credit, timeout.code])
      ((s.setQueue q).setUnit { s.unit with session := .opened })
  | _, _ => .refuse .range

/-- OPEN (R157). -/
def execOpenSession (s : State) : Result := s.running fun s => s.serveAll 0x01 s.ownOpen

/-- The owner's event of CLOSE (R129, R158). -/
def State.ownClose (s : State) : Verdict :=
  let q := s.queue.changeSession s.time
  .done .ok [q.queued] ((s.setQueue q).setUnit { s.unit with session := .closed })

/-- CLOSE (R158). -/
def execCloseSession (s : State) : Result := s.running fun s => s.serveAll 0x02 fun _ => s.ownClose

/-- PING (R160): the payload returned unchanged. -/
def execPing (s : State) : Result := s.running fun s => s.serveAll 0x03 fun payload => .done .ok payload s

/-- IDENTIFY (R161): the identity and the capacities. -/
def execIdentify (s : State) : Result :=
  s.running fun s => s.serveAll 0x04 fun _ => .done .ok (identity ++ [24, 16, 12, 8, 6, 32]) s

/-- The session state that the taking of the request in hand left (R151, R162), told from the one at its execution: no taking leaves
SILENT, so a session that is SILENT was made so by a SILENT claim taken since, in OPEN (R159). Nothing but a link reset changes it
otherwise, and that discards the reply (R154). -/
def Session.leftByTaking : Session → Session
  | .closed => .closed
  | .opened => .opened
  | .silent => .opened

/-- The items of READ_STATUS in the order of R175. -/
def State.statusPart (s : State) : List Byte :=
  [s.unit.session.leftByTaking.code, s.unit.resetCause.code, s.link.rate.code, byte s.queue.sentCount,
    byte (s.queue.records.length - s.queue.sentCount)] ++
  bytesOf 2 s.queue.nextSeq.toNat ++ bytesOf 8 s.queue.tally.count.toNat ++ bytesOf 2 s.queue.tally.kinds.toNat ++
  [byte s.queue.credit, s.queue.timeout.code, byte s.queue.retries, flagByte s.alert] ++ bytesOf 4 s.time.toNat ++
  allDomains.map fun d => (s.dom d).state.code

/-- READ_STATUS (R162), its items read as one instant's picture (log entry 12). -/
def execReadStatus (s : State) : Result := s.running fun s => s.serveAll 0x05 fun _ => .done .ok s.statusPart s

/-- The owner's event of SET_REPORTING (R127). -/
def State.ownReporting (s : State) (payload : List Byte) : Verdict :=
  match credit? (payload.getD 0 0), ackTimeout? (payload.getD 1 0) with
  | some credit, some timeout =>
    if credit < s.queue.sentCount then .refuse .windowBusy
    else
      .done .ok [byte s.queue.credit, s.queue.timeout.code, byte s.queue.sentCount]
        (s.setQueue ({ s.queue with credit := credit, timeout := timeout } : ReportQueue).restartTimer)
  | _, _ => .refuse .range

/-- SET_REPORTING (R127). -/
def execSetReporting (s : State) : Result := s.running fun s => s.serveAll 0x08 s.ownReporting

/-- The owner's event of ACK (R124). -/
def State.ownAck (s : State) (payload : List Byte) : Verdict :=
  match s.queue.acknowledge? (word16 (payload.getD 0 0) (payload.getD 1 0)) with
  | none => .refuse .badAck
  | some (removed, q) => .done .ok ([byte removed, q.queued] ++ bytesOf 2 q.nextSeq.toNat) (s.setQueue q)

/-- ACK (R124). -/
def execAck (s : State) : Result := s.running fun s => s.serveAll 0x09 s.ownAck

/-! ## RESET (R163 to R165) -/

/-- The RESET scopes (R172). -/
inductive Scope where
  | full
  | soft
deriving DecidableEq, Repr

/-- A RESET scope. -/
def scope? (b : Byte) : Option Scope := if b = 1 then some .full else if b = 2 then some .soft else none

/-- Every taker of a soft reset (R164). -/
def allSoftBlocks : List SoftBlock :=
  [.snoopPort, .captureFifo, .lineMonitor, .windowTable, .classMap, .timerBank, .domainGovernor 0, .domainGovernor 1,
    .domainGovernor 2, .domainGovernor 3, .domainGovernor 4, .domainGovernor 5]

/-- A line takes the soft reset: its hold ends without a pulse, its configuration returns to OFF on C0, its levels are kept
(R10). -/
def State.softResetLine (s : State) (l : LineId) : State :=
  let released := s.lineReleases l
  released.setLine l { released.line l with qualifier := .off, cls := 0 }

/-- A block takes the soft reset (R164). -/
def State.softReset (s : State) : SoftBlock → State
  | .snoopPort => { s with snoop := { memory := false, io := false, config := false } }
  | .captureFifo => { s with fifo := [] }
  | .lineMonitor => allLines.foldl State.softResetLine s
  | .windowTable => { s with windows := Vector.replicate 24 Window.default, fallthrough := none }
  | .classMap => { s with classes := mapBank (fun r => { r with last := none }) s.classes }
  | .timerBank => { s with timers := Vector.replicate 8 Timer.default }
  | .domainGovernor d => s.setDom d { s.dom d with config := DomainConfig.default, hold := false, refusals := 0 }

/-- One block's event of the soft reset in hand (R164, log entry 10): a block that has taken it takes it no second time, and when
every block has, the reply is made. -/
def State.softStep (s : State) (r : Request) (block : SoftBlock) : State :=
  if s.unit.softTaken.contains block then s
  else
    let taken := s.softReset block
    let progress := block :: s.unit.softTaken
    if allSoftBlocks.all progress.contains then
      (taken.setUnit { s.unit with softTaken := [] }).answer r (answered .ok []) false
    else taken.setUnit { s.unit with softTaken := progress }

/-- RESET_SOFT (R163, R164): one block's event of the RESET with scope SOFT in hand. A scope that is neither is refused. -/
def execResetSoft (block : SoftBlock) (s : State) : Result :=
  s.running fun s =>
    s.requestEvent 0x06 fun r =>
      match scope? (r.payload.getD 0 0) with
      | some .soft => s.softStep r block
      | some .full => s
      | none => s.answer r (refusal .range) false

/-- The execution of a RESET with scope FULL (R165): its OK reply is made, the one whose end is the event of the full reset, and the
full reset is pending. -/
def State.serveFullReset (s : State) (r : Request) : State :=
  (s.setUnit { s.unit with fullResetPending := true }).answer r (answered .ok []) true

/-- RESET_FULL (R163, R165): the RESET with scope FULL in hand. A scope that is neither is refused. -/
def execResetFull (s : State) : Result :=
  s.running fun s =>
    s.requestEvent 0x06 fun r =>
      match scope? (r.payload.getD 0 0) with
      | some .full => s.serveFullReset r
      | some .soft => s
      | none => s.answer r (refusal .range) false

end Sys2Proof.Machine
end

