-- ==== Sys2Proof/Machine/Dispatch.lean ====
section
/-! DEFINITION. One arm per command of the table, each one direct call of its meaning. -/

namespace Sys2Proof.Machine

def exec (i : Instr) (s : State) : Host.Outcome State Fault Refusal :=
  match i with
  | .addressStrobe address space wr requester => Sys2Proof.Machine.execAddressStrobe address space wr requester s
  | .matchDecision part => Sys2Proof.Machine.execMatchDecision s part
  | .lineRawChange line level => Sys2Proof.Machine.execLineRawChange line level s
  | .recognisedEdge line part => Sys2Proof.Machine.execRecognisedEdge line s part
  | .governorTimeIncrement => Sys2Proof.Machine.execGovernorTimeIncrement s
  | .timerExpiry timer part => Sys2Proof.Machine.execTimerExpiry timer s part
  | .throttlePhaseEnd domain => Sys2Proof.Machine.execThrottlePhaseEnd domain s
  | .handshakeRawChange domain input level => Sys2Proof.Machine.execHandshakeRawChange domain input level s
  | .qackRise domain => Sys2Proof.Machine.execQackRise domain s
  | .qackFall domain => Sys2Proof.Machine.execQackFall domain s
  | .pgoodRise domain => Sys2Proof.Machine.execPgoodRise domain s
  | .pgoodFall domain => Sys2Proof.Machine.execPgoodFall domain s
  | .quiesceDeadlineEnd domain => Sys2Proof.Machine.execQuiesceDeadlineEnd domain s
  | .stopDelayEnd domain => Sys2Proof.Machine.execStopDelayEnd domain s
  | .powerOffDeadlineEnd domain => Sys2Proof.Machine.execPowerOffDeadlineEnd domain s
  | .powerOnDeadlineEnd domain => Sys2Proof.Machine.execPowerOnDeadlineEnd domain s
  | .resumeDelayEnd domain => Sys2Proof.Machine.execResumeDelayEnd domain s
  | .ackTimerExpiry => Sys2Proof.Machine.execAckTimerExpiry s
  | .silentClaim => Sys2Proof.Machine.execSilentClaim s
  | .rxCharacter character => Sys2Proof.Machine.execRxCharacter character s
  | .framingError => Sys2Proof.Machine.execFramingError s
  | .gapError => Sys2Proof.Machine.execGapError s
  | .rxBreak => Sys2Proof.Machine.execRxBreak s
  | .takeRequest => Sys2Proof.Machine.execTakeRequest s
  | .frameBoundary => Sys2Proof.Machine.execFrameBoundary s
  | .openSession => Sys2Proof.Machine.execOpenSession s
  | .closeSession => Sys2Proof.Machine.execCloseSession s
  | .ping => Sys2Proof.Machine.execPing s
  | .identify => Sys2Proof.Machine.execIdentify s
  | .readStatus => Sys2Proof.Machine.execReadStatus s
  | .resetSoft block => Sys2Proof.Machine.execResetSoft block s
  | .resetFull => Sys2Proof.Machine.execResetFull s
  | .setReporting => Sys2Proof.Machine.execSetReporting s
  | .ack => Sys2Proof.Machine.execAck s
  | .setSnoop => Sys2Proof.Machine.execSetSnoop s
  | .setLine part => Sys2Proof.Machine.execSetLine s part
  | .writeWindow => Sys2Proof.Machine.execWriteWindow s
  | .readWindow => Sys2Proof.Machine.execReadWindow s
  | .readHits => Sys2Proof.Machine.execReadHits s
  | .armTrap => Sys2Proof.Machine.execArmTrap s
  | .setFallthrough => Sys2Proof.Machine.execSetFallthrough s
  | .nudge part => Sys2Proof.Machine.execNudge s part
  | .readClasses => Sys2Proof.Machine.execReadClasses s
  | .writeTimer => Sys2Proof.Machine.execWriteTimer s
  | .startTimer => Sys2Proof.Machine.execStartTimer s
  | .stopTimer => Sys2Proof.Machine.execStopTimer s
  | .readTimer => Sys2Proof.Machine.execReadTimer s
  | .writeDomain => Sys2Proof.Machine.execWriteDomain s
  | .readDomain => Sys2Proof.Machine.execReadDomain s
  | .holdOn => Sys2Proof.Machine.execHoldOn s
  | .holdOff => Sys2Proof.Machine.execHoldOff s
  | .forceActive => Sys2Proof.Machine.execForceActive s
  | .force => Sys2Proof.Machine.execForce s
  | .clearFaultUp => Sys2Proof.Machine.execClearFaultUp s
  | .clearFaultDown => Sys2Proof.Machine.execClearFaultDown s
  | .retire => Sys2Proof.Machine.execRetire s
  | .adopt => Sys2Proof.Machine.execAdopt s
  | .powerOnReset vdd vddio => Sys2Proof.Machine.execPowerOnReset vdd vddio s
  | .resetPin => Sys2Proof.Machine.execResetPin s
  | .fullResetEnd rate1 rate0 refclk => Sys2Proof.Machine.execFullResetEnd rate1 rate0 s refclk
  | .characterStartEdge startBitHigh => Sys2Proof.Machine.execCharacterStartEdge s startBitHigh
  | .resetPinRelease => Sys2Proof.Machine.execResetPinRelease s
  | .resetPinRawChange level => Sys2Proof.Machine.execResetPinRawChange level s

end Sys2Proof.Machine
end

