-- ==== Sys2Proof/Safety.lean ====
section
/-! DEFINITION. What a sound state is, block by block: the bounds and agreements that the manual says hold at every moment; and
the terms statements are made in: a running part, a request in hand, a row of commands run one after another. -/

namespace Sys2Proof.Machine

/-! ## Terms of statements -/

/-- No full reset is in progress. -/
abbrev State.Running (s : State) : Prop := s.board.fullReset = none

/-- The part is running and holds in hand a request of the given TYPE and payload whose reply is not made (R150, R153). -/
abbrev State.HasInHand (s : State) (type : Byte) (payload : List Byte) (r : Request) : Prop :=
  s.Running ∧ s.unit.inHand = some r ∧ s.unit.made = none ∧ r.type = type ∧ r.payload = payload

/-- The TYPE of the request whose events a command takes (R153, R170); none for a command that is no request's. -/
def requestType? : Instr → Option Byte
  | .openSession => some 0x01
  | .closeSession => some 0x02
  | .ping => some 0x03
  | .identify => some 0x04
  | .readStatus => some 0x05
  | .resetSoft _ | .resetFull => some 0x06
  | .setReporting => some 0x08
  | .ack => some 0x09
  | .setSnoop => some 0x10
  | .setLine .whole | .setLine .atClassMap => some 0x11
  | .writeWindow => some 0x14
  | .readWindow => some 0x15
  | .readHits => some 0x16
  | .armTrap => some 0x17
  | .setFallthrough => some 0x18
  | .nudge .whole | .nudge .atClassMap => some 0x1A
  | .readClasses => some 0x1B
  | .writeTimer => some 0x20
  | .startTimer => some 0x21
  | .stopTimer => some 0x22
  | .readTimer => some 0x23
  | .writeDomain => some 0x28
  | .readDomain => some 0x29
  | .holdOn | .holdOff => some 0x2A
  | .forceActive | .force => some 0x2B
  | .clearFaultUp | .clearFaultDown => some 0x2C
  | .retire => some 0x2D
  | .adopt => some 0x2E
  | _ => none

/-- Commands run one after another, up to the first that does not complete. -/
def execAll : List Instr → State → Result
  | [], s => .next s
  | c :: rest, s =>
    match exec c s with
    | .next t => execAll rest t
    | .fault f => .fault f
    | .refused x => .refused x

/-- The commands that act while a full reset is in progress: the levels of input pins, and the reset's own events (R180, log
entry 8). -/
def actsDuringReset : Instr → Bool
  | .lineRawChange _ _ | .handshakeRawChange _ _ _ | .resetPinRawChange _ | .resetPin | .resetPinRelease | .powerOnReset _ _
  | .fullResetEnd _ _ _ => true
  | _ => false

/-! ## Observation, windows and the link's queues -/

/-- The capacities of the Capture FIFO (R4), the window records (R16), the request queue (R141) and the reply queue, in which the
request in hand has its place (R143, R151). -/
abbrev State.WithinCapacity (s : State) : Prop :=
  s.fifo.length ≤ 16 ∧
  (∀ w, (s.window w).hits ≤ 65535 ∧ (s.window w).config.span ≤ 32 ∧ (s.window w).config.requesters ≠ some 0) ∧
  s.link.requests.length ≤ 4 ∧ s.link.replies.length + s.unit.inHand.toList.length ≤ 4

/-! ## Timers and holds -/

/-- A timer record's ranges, and what STOPPED, HELD and EXPIRED say of it (R43); a COUNTING timer never stands at 0, and an expiry is
due only at 1 (R44, log entry 6). -/
abbrev Timer.Sound (t : Timer) : Prop :=
  (1 ≤ t.loadCount ∧ t.loadCount ≤ 255) ∧ t.expiries ≤ 15 ∧ t.remaining ≤ 15300000 ∧
  (t.state = .stopped ∨ t.state = .held → t.expiries = 0) ∧ (t.state = .stopped ∨ t.state = .expired → t.remaining = 0) ∧
  (t.state = .counting → 1 ≤ t.remaining) ∧ (t.due = true → t.state = .counting ∧ t.remaining = 1)

/-- Every timer is sound. -/
abbrev State.TimersSound (s : State) : Prop := ∀ t, (s.timer t).Sound

/-- The holder sets are the hold statuses (R36); a line holds its configured class exactly while its level qualifies (R12, R14);
a running timer is HELD exactly while a class of its watch set is held (R48, R54). -/
abbrev State.HoldsAgree (s : State) : Prop :=
  (∀ (l : LineId) (c : ClassId), (s.cls c).holders.getLsbD l.val = true ↔ (s.line l).holding = some c) ∧
  (∀ l, (s.line l).holding =
    if (s.line l).qualifier.holdsAt = some (s.line l).level then some (s.line l).cls else none) ∧
  (∀ t, (s.timer t).state ≠ .stopped → ((s.timer t).state = .held ↔ s.anyHeld (s.timer t).watch = true))

/-! ## Domains -/

/-- A length of 1 to 255 units. -/
abbrev InByteRange (n : Nat) : Prop := 1 ≤ n ∧ n ≤ 255

/-- A ladder's rungs grow strictly deeper (R61); its times and deadlines are 1 to 255 (R57). -/
abbrev DomainConfig.Sound (c : DomainConfig) : Prop :=
  c.ladder.Pairwise (fun a b => a.depth < b.depth) ∧ InByteRange c.throttleOn ∧ InByteRange c.throttleOff ∧
  InByteRange c.quiesceDeadline ∧ InByteRange c.powerOffDeadline ∧ InByteRange c.powerOnDeadline

/-- A step cause of a quiesce: CLEAR begins only power-downs (R57, R64). -/
abbrev Cause.BeginsQuiesce (c : Cause) : Prop := c = .ladder ∨ c = .force

/-- A last wake cause (R57). -/
def Cause.wakesLast : Cause → Bool
  | .cls _ | .host | .qackDrop | .clear | .adopt | .reset => true
  | .quiesceDeadline | .ladder | .force | .retire => false

/-- The running fields that stand with each state: a kept interval is never of length 0 (R85), POWERING_DOWN waits for PGOOD to
fall and POWERING_UP for it to rise (R94, R99). -/
def Domain.stateSound (x : Domain) : Bool :=
  match x.state with
  | .throttled _ length => decide (InByteRange length)
  | .quiescing _ step deadline => decide (step.BeginsQuiesce ∧ InByteRange deadline)
  | .settling _ step delay => decide (step.BeginsQuiesce ∧ delay ≠ .zero)
  | .poweringDown step deadline _ => decide ((step.BeginsQuiesce ∨ step = .clear) ∧ InByteRange deadline ∧ x.pgood = true)
  | .poweringUp deadline => decide (InByteRange deadline ∧ x.pgood = false)
  | .resuming delay => decide (delay ≠ .zero)
  | .active | .standby | .off | .faulted _ _ | .retired _ => true

/-- The largest refusal count of a state: 3 in FAULTED with cause QUIESCE_REFUSED, 2 in every other (R89). -/
def DomainState.refusalLimit : DomainState → Nat
  | .faulted .quiesceRefused _ => 3
  | _ => 2

/-- A domain record is sound (R57). -/
abbrev Domain.Sound (x : Domain) : Prop :=
  x.config.Sound ∧ x.stateSound = true ∧ x.refusals ≤ x.state.refusalLimit ∧ x.lastWake.wakesLast = true

/-- Every domain is sound. -/
abbrev State.DomainsSound (s : State) : Prop := ∀ d, (s.dom d).Sound

/-! ## Report Queue -/

/-- The six counts of a LINK_ERROR detail added up. -/
def LinkCounts.sum (c : LinkCounts) : Nat := c.gap + c.framing + c.check + c.length + c.overrun + c.type

/-- The six counts of a LINK_ERROR record sum to its count (R113). -/
def Record.reasonsSum (r : Record) : Bool :=
  match r.detail with
  | .linkError counts => counts.sum == r.count
  | _ => true

/-- A record's count is 1 to 65535 (R112), and the six counts of a LINK_ERROR record sum to it (R113). -/
abbrev Record.Sound (r : Record) : Prop := (1 ≤ r.count ∧ r.count ≤ 65535) ∧ r.reasonsSum = true

/-- How far a sequence number lies after the head's, modulo 65536. -/
def seqDistance (head n : BitVec 16) : Nat := (n - head).toNat

/-- The records stand in order of strictly increasing sequence number counted from the head, and the next sequence number lies
beyond them all: 65536 from the head where the two are equal (R116). -/
def ReportQueue.inSequence (q : ReportQueue) : Bool :=
  match q.records with
  | [] => true
  | head :: _ =>
    decide
      ((q.records.map fun r => seqDistance head.seq r.seq).Pairwise (· < ·) ∧
       ∀ r ∈ q.records,
         seqDistance head.seq r.seq < (if q.nextSeq = head.seq then 65536 else seqDistance head.seq q.nextSeq))

/-- Two UNSENT records that a report or a fold would have joined: of one kind that merges, with one subject (R114). -/
abbrev Record.Twins (a b : Record) : Prop :=
  a.sent = false ∧ b.sent = false ∧ a.kind = b.kind ∧ a.kind.merges = true ∧ a.subject = b.subject

/-- The capacity of the queue (R115), its order (R116), that no two UNSENT records could be one (R114), the credit window (R121,
R127), the ack timer (R123) and the retry count (R125). -/
abbrev ReportQueue.Sound (q : ReportQueue) : Prop :=
  q.ordinaryCount ≤ 31 ∧ q.records.countP Record.isLoss ≤ 1 ∧ (∀ r ∈ q.records, r.Sound) ∧ q.inSequence = true ∧
  q.records.Pairwise (fun a b => b.sent = true → a.sent = true) ∧ q.records.Pairwise (fun a b => ¬ a.Twins b) ∧
  q.sentCount ≤ q.credit ∧ (1 ≤ q.credit ∧ q.credit ≤ 8) ∧
  q.ackTimer = (if q.sentCount = 0 ∨ q.timeout = .off then none else some q.timeout) ∧
  q.retries ≤ 8 ∧ (q.retries = 8 → q.sentCount = 0)

/-- The queue is sound, records are SENT only in an OPEN session, and a SILENT session stands at retry count 8 (R130, R156). -/
abbrev State.ReportingSound (s : State) : Prop :=
  s.queue.Sound ∧ (s.unit.session ≠ .opened → s.queue.sentCount = 0) ∧ (s.unit.session = .silent → s.queue.retries = 8)

/-- The reports the queue accounts for: the counts of its records and of the tally (R120). -/
def ReportQueue.accounted (q : ReportQueue) : Nat := (q.records.map (·.count)).sum + q.tally.count.toNat

/-! ## The whole part -/

/-- Every block is sound. -/
abbrev State.Sound (s : State) : Prop :=
  s.WithinCapacity ∧ s.TimersSound ∧ s.HoldsAgree ∧ s.DomainsSound ∧ s.ReportingSound

end Sys2Proof.Machine
end

