-- ==== Sys2Proof/Certificates/Slice0/Obligations.lean ====
section
/-! DEFINITION. The statements for the provers. A state is arbitrary unless a premise says otherwise; requests are named by their
TYPE codes and reply bytes by the codes of R172 and R174: a reply beginning 0, 0 is OK, 1, 0 ACCEPTED, and 2, n REFUSED with
reason n (2, 4 is RANGE). -/

open Sys2Proof Sys2Proof.Machine

/-! ## The whole part -/

/-- The queue of commands runs first in, first out, and an empty queue idles. The queue is the model's own (log entry 1). -/
def Obligations.StepRunsFrontCommand : Prop :=
  (∀ (c : Instr) (s : State) (rest : List Instr), s.pending = c :: rest → step s = exec c { s with pending := rest }) ∧
  (∀ s : State, s.pending = [] → step s = .next s)

/-- A command that names a resource of the part answers a next state, with the queue as it was; any other faults by the name of
what it names. The faults are the model's (log entry 7). -/
def Obligations.CompletesExactlyOnPartsResources : Prop :=
  (∀ (c : Instr) (s : State), WellFormed c = true ↔ ∃ t, exec c s = .next t ∧ t.pending = s.pending) ∧
  (∀ (s : State) (n : Nat) (level : Bool) (input : HandshakeInput),
    (12 ≤ n →
      exec (.lineRawChange n level) s = .fault (.noSuchLine n) ∧
      ∀ part, exec (.recognisedEdge n part) s = .fault (.noSuchLine n)) ∧
    (8 ≤ n → ∀ part, exec (.timerExpiry n part) s = .fault (.noSuchTimer n)) ∧
    (6 ≤ n →
      ∀ c ∈ [.throttlePhaseEnd n, .handshakeRawChange n input level, .qackRise n, .qackFall n, .pgoodRise n, .pgoodFall n,
        .quiesceDeadlineEnd n, .stopDelayEnd n, .powerOffDeadlineEnd n, .powerOnDeadlineEnd n, .resumeDelayEnd n],
        exec c s = .fault (.noSuchDomain n)))

/-- Governor time changes only at an increment and at the end of a full reset (R42). -/
def Obligations.GovernorTimeMovers : Prop :=
  ∀ (c : Instr) (s t : State), exec c s = .next t → c ≠ .governorTimeIncrement → (∀ a b k, c ≠ .fullResetEnd a b k) →
    t.time = s.time

/-- A hit count decreases only by a clearing READ_HITS in hand, a WRITE_WINDOW in hand with the clear flag, the Window Table's event of
a soft reset in hand, or the end of a full reset in progress (R22). -/
def Obligations.HitsDecreaseOnlyByClearing : Prop :=
  ∀ (c : Instr) (s t : State) (w : WindowId), s.WithinCapacity → exec c s = .next t → (t.window w).hits < (s.window w).hits →
    (∃ r, s.unit.inHand = some r ∧
      (c = .readHits ∧ r.type = 0x16 ∧ r.payload.getD 2 0 = 1 ∨ c = .writeWindow ∧ r.type = 0x14 ∧ r.payload.getD 14 0 = 1 ∨
        c = .resetSoft .windowTable ∧ r.type = 0x06 ∧ r.payload.getD 0 0 = 2)) ∨
    s.board.fullReset ≠ none ∧ ∃ a b k, c = .fullResetEnd a b k

/-- While a full reset is in progress every command but the levels of input pins and the reset's own events changes nothing. The
manual's silence on them is filled by log entry 8. -/
def Obligations.FullResetSuspendsCommands : Prop :=
  ∀ (c : Instr) (s : State) (cause : ResetCause), s.board.fullReset = some cause → WellFormed c = true →
    actsDuringReset c = false → exec c s = .next s

/-- What the manual says a full reset by power-on leaves. POWERING_UP and not RESUMING is for PGOOD at LOW (log entry 2); no expiry is
due, and no expiry or notice on its way, by the model's own fields (log entries 6, 23 and 24). -/
def Obligations.ResetValues : Prop :=
  State.reset.snoop = { memory := false, io := false, config := false } ∧ State.reset.fifo = [] ∧
  (∀ l, (State.reset.line l).qualifier = .off ∧ (State.reset.line l).cls = 0 ∧ (State.reset.line l).holding = none) ∧
  (∀ w, State.reset.window w =
    { config := { enabled := false, space := .any, base := 0, span := 0, direction := .either, requesters := none, cls := none,
                  action := .count }
      armed := true, hits := 0 }) ∧
  State.reset.fallthrough = none ∧ (∀ c, State.reset.cls c = { holders := 0, last := none }) ∧ State.reset.time = 0 ∧
  (∀ i, State.reset.timer i =
    { loadCount := 1, unit := .s1, mode := .single, watch := 0, report := false, state := .stopped, remaining := 0,
      expiries := 0, due := false }) ∧
  State.reset.handed = [] ∧ State.reset.notices = [] ∧
  (∀ d, (State.reset.dom d).config =
      { boundTimer := none, ladder := [], wakeSet := 0, throttleOn := 8, throttleOff := 8, quiesceDeadline := 50,
        stopDelay := .ms1, powerOffDeadline := 100, powerOnDeadline := 100, resumeDelay := .us100 } ∧
    (State.reset.dom d).state = .poweringUp 100 ∧ (State.reset.dom d).hold = false ∧ (State.reset.dom d).refusals = 0 ∧
    (State.reset.dom d).lastWake = .reset) ∧
  State.reset.queue.records =
    [{ seq := 0, sent := false, resent := false, first := 0, last := 0, subject := none, count := 1,
       detail := .restart .powerOn 1 }] ∧
  State.reset.queue.nextSeq = 1 ∧ State.reset.queue.credit = 4 ∧ State.reset.queue.timeout = .ms200 ∧
  State.reset.queue.ackTimer = none ∧ State.reset.queue.retries = 0 ∧ State.reset.queue.tally.count = 0 ∧
  State.reset.queue.tally.kinds = 0 ∧
  State.reset.link.frameRx = .hunt ∧ State.reset.link.gapRunning = false ∧ State.reset.link.requests = [] ∧
  State.reset.link.replies = [] ∧ State.reset.link.tx = none ∧
  State.reset.unit.session = .closed ∧ State.reset.unit.inHand = none ∧ State.reset.unit.made = none ∧
  State.reset.unit.discard = false ∧ State.reset.unit.fullResetPending = false ∧ State.reset.unit.resetCause = .powerOn

/-- The state after reset is sound in every block. -/
def Obligations.ResetIsSound : Prop := State.reset.Sound

/-! ## Invariants of every step -/

/-- Every step keeps the capacities of the Capture FIFO and the link's queues, the ranges of the window records, and the ranges and
states of the timer records: among them that no COUNTING timer stands at 0 (R44) and that an expiry is due only at 1, the model's own
field (log entry 6). -/
def Obligations.StepKeepsRanges : Prop :=
  (∀ s t : State, s.WithinCapacity → step s = .next t → t.WithinCapacity) ∧
  (∀ s t : State, s.TimersSound → step s = .next t → t.TimersSound)

/-- Every step keeps lines, classes and timers in agreement on what is held. -/
def Obligations.StepKeepsHoldsAgree : Prop := ∀ s t : State, s.HoldsAgree → step s = .next t → t.HoldsAgree

/-- Every step keeps every domain record sound. -/
def Obligations.StepKeepsDomainsSound : Prop := ∀ s t : State, s.DomainsSound → step s = .next t → t.DomainsSound

/-- Every step keeps the Report Queue and the session sound. -/
def Obligations.StepKeepsReportingSound : Prop := ∀ s t : State, s.ReportingSound → step s = .next t → t.ReportingSound

/-! ## Observation and matching (chapters 1 and 2) -/

/-- A strobe of an enabled space makes an observation, appended while the FIFO holds fewer than 16 and lost with an OBS_OVERRUN
report otherwise; any other strobe is ignored. -/
def Obligations.StrobeMakesObservation : Prop :=
  ∀ (s : State) (address : BitVec 32) (pins : BitVec 2) (wr : Bool) (requester : BitVec 4), s.Running →
    (∀ (space : Space) (enabled : Bool),
      (pins = 0 ∧ space = .memory ∧ enabled = s.snoop.memory ∨ pins = 1 ∧ space = .io ∧ enabled = s.snoop.io ∨
        pins = 2 ∧ space = .config ∧ enabled = s.snoop.config) →
      exec (.addressStrobe address pins wr requester) s =
        .next
          (if enabled = false then s
           else if s.fifo.length < 16 then
             { s with
               fifo := s.fifo ++
                 [{ address := address, space := space, direction := if wr = true then .write else .read,
                    requester := requester, time := s.time }] }
           else { s with queue := s.queue.take s.time { subject := none, time := s.time, detail := .obsOverrun } })) ∧
    (pins = 3 → exec (.addressStrobe address pins wr requester) s = .next s)

/-- R19 and R20: the five conditions of a match, the block of a window, and that the capture time plays no part. -/
def Obligations.WindowMatchesItsBlock : Prop :=
  (∀ (w : WindowConfig) (o : Observation),
    (w.matches o = true ↔
      w.enabled = true ∧ (w.space = .any ∨ w.space = .only o.space) ∧ inBlock w.base o.address w.span = true ∧
      (w.direction = .either ∨ w.direction = .only o.direction) ∧
      (w.requesters = none ∨ ∃ tags, w.requesters = some tags ∧ tags.getLsbD o.requester.toNat = true)) ∧
    ∀ time, w.matches { o with time := time } = w.matches o) ∧
  (∀ (base address : BitVec 32) (k : Nat), k ≤ 32 →
    (inBlock base address k = true ↔ ∀ i, k ≤ i → base.getLsbD i = address.getLsbD i) ∧
    (inBlock base address k = true ↔
      base.toNat / 2 ^ k * 2 ^ k ≤ address.toNat ∧ address.toNat < base.toNat / 2 ^ k * 2 ^ k + 2 ^ k))

/-- The first window that matches decides: its hit is counted to at most 65535, a TRAP_ONCE window is disarmed, and no other window
changes; with no match no window changes. The observation leaves the FIFO, and beyond windows and FIFO only classes, timers, domains
and the Report Queue can change, and the notices on their way where the pulse is taken at the Class Map alone (log entry 24). -/
def Obligations.FirstMatchDecides : Prop :=
  ∀ (s : State) (o : Observation) (rest : List Observation) (part : PulsePart), part = .whole ∨ part = .atClassMap → s.Running →
    s.fifo = o :: rest →
    (∀ w : WindowId, (s.window w).config.matches o = true → (∀ v, v < w → (s.window v).config.matches o = false) →
      ∃ t, exec (.matchDecision part) s = .next t ∧ t.fifo = rest ∧ (part = .whole → t.notices = s.notices) ∧
        t.window w =
          { config := (s.window w).config, hits := min ((s.window w).hits + 1) 65535,
            armed := if (s.window w).config.action = .trapOnce then false else (s.window w).armed } ∧
        (∀ v, v ≠ w → t.window v = s.window v) ∧
        { t with
          fifo := s.fifo, windows := s.windows, classes := s.classes, timers := s.timers, domains := s.domains
          queue := s.queue, notices := s.notices, freeDraws := s.freeDraws } = s) ∧
    ((∀ w : WindowId, (s.window w).config.matches o = false) →
      ∃ t, exec (.matchDecision part) s = .next t ∧ t.fifo = rest ∧ (part = .whole → t.notices = s.notices) ∧
        { t with
          fifo := s.fifo, classes := s.classes, timers := s.timers, domains := s.domains, queue := s.queue
          notices := s.notices, freeDraws := s.freeDraws } = s)

/-- What a decision hands on, by the action and class of the deciding window (R23, R24) or by the fallthrough class (R21). With a
pulse and a trap report together, the Report Queue takes the trap report and each domain whose wake set holds the class takes its
wake, each once, in some order (R25: the manual gives none, log entry 3). With the pulse at the Class Map alone its notices are on their
way, and the report is taken (log entry 24). -/
def Obligations.DecisionHandsOnByAction : Prop :=
  ∀ (s : State) (o : Observation) (rest : List Observation), s.Running → s.fifo = o :: rest →
    (∀ w : WindowId, (s.window w).config.matches o = true → (∀ v, v < w → (s.window v).config.matches o = false) →
      let x := s.window w
      let counted :=
        ({ s with fifo := rest } : State).setWindow w
          { x with hits := min (x.hits + 1) 65535, armed := if x.config.action = .trapOnce then false else x.armed }
      let trap : Report :=
        { subject := some w.val, time := o.time, detail := .trap o.address o.space o.direction o.requester }
      let reports := x.config.action = .trapEach ∨ x.config.action = .trapOnce ∧ x.armed = true
      (x.config.action = .exclude → exec .matchDecision s = .next counted) ∧
      (x.config.cls = none → ¬ reports → exec .matchDecision s = .next counted) ∧
      (x.config.cls = none → reports → exec .matchDecision s = .next (counted.report trap)) ∧
      (∀ c, x.config.cls = some c → x.config.action ≠ .exclude → ¬ reports →
        exec .matchDecision s = .next (counted.pulse c)) ∧
      (∀ c, x.config.cls = some c → reports →
        ∃ t, exec .matchDecision s = .next t ∧ t.classes = (counted.pulse c).classes ∧ t.timers = (counted.pulse c).timers ∧
          t.domains = (counted.pulse c).domains ∧
          (∃ (u : State) (order : List (Option DomainId)),
            order.Perm (none :: (allDomains.filter fun d => (s.dom d).config.wakeSet.has c).map some) ∧
            (∀ i, u.timer i = if (s.timer i).watch.has c = true then (s.timer i).reload else s.timer i) ∧
            { u with classes := s.classes, timers := s.timers, freeDraws := s.freeDraws } = counted ∧
            t = order.foldl (fun v taker => match taker with | none => v.report trap | some d => v.wake d (.cls c)) u) ∧
          { t with
            classes := s.classes, timers := s.timers, domains := s.domains, queue := s.queue
            freeDraws := s.freeDraws } = counted) ∧
      let spread := if x.config.action = .exclude then counted else (x.config.cls.map fun c => counted.spreadPulse c false).getD counted
      (reports → exec (.matchDecision .atClassMap) s = .next (spread.report trap)) ∧
      (¬ reports → exec (.matchDecision .atClassMap) s = .next spread)) ∧
    ((∀ w : WindowId, (s.window w).config.matches o = false) →
      exec .matchDecision s =
        .next
          (match s.fallthrough with
           | none => { s with fifo := rest }
           | some c => ({ s with fifo := rest } : State).pulse c) ∧
      exec (.matchDecision .atClassMap) s =
        .next
          (match s.fallthrough with
           | none => { s with fifo := rest }
           | some c => ({ s with fifo := rest } : State).spreadPulse c false))

/-! ## Lines and classes (chapters 1 and 3) -/

/-- The raw levels of the lines, the handshake inputs and RESET# are tracked, and nothing else changes (R9, R84, R180). That they
are tracked during a full reset too is log entry 8. -/
def Obligations.RawLevelsAreTracked : Prop :=
  ∀ (s : State) (l : LineId) (d : DomainId) (level : Bool),
    exec (.lineRawChange l.val level) s = .next (s.setLine l { s.line l with raw := level }) ∧
    exec (.handshakeRawChange d.val .qack level) s = .next (s.setDom d { s.dom d with qackRaw := level }) ∧
    exec (.handshakeRawChange d.val .pgood level) s = .next (s.setDom d { s.dom d with pgoodRaw := level }) ∧
    exec (.resetPinRawChange level) s = .next (s.setBoard { s.board with resetRaw := level })

/-- A recognised edge acts by the line's qualifier: a pulse (R11), the beginning of a hold or its end (R12), its notices taken in the
step or left on their way (log entry 24). -/
def Obligations.RecognisedEdgeActs : Prop :=
  ∀ (s : State) (l : LineId), s.Running → (s.line l).raw ≠ (s.line l).level →
    let x := s.line l
    let moved := s.setLine l { x with level := x.raw }
    let held := (moved.setLine l { x with level := x.raw, holding := some x.cls }).beginHold l x.cls
    let released :=
      match x.holding with
      | none => moved
      | some c => (moved.setLine l { x with level := x.raw, holding := none }).endHold l c
    let spreadHeld := (moved.setLine l { x with level := x.raw, holding := some x.cls }).spreadHold l x.cls false
    exec (.recognisedEdge l.val .atClassMap) s =
      .next
        (match x.qualifier with
         | .off => moved
         | .rise => if x.raw = true then moved.spreadPulse x.cls false else moved
         | .fall => if x.raw = false then moved.spreadPulse x.cls false else moved
         | .edge => moved.spreadPulse x.cls false
         | .high => if x.raw = true then spreadHeld else released
         | .low => if x.raw = false then spreadHeld else released) ∧
    exec (.recognisedEdge l.val) s =
      .next
        (match x.qualifier with
         | .off => moved
         | .rise => if x.raw = true then moved.pulse x.cls else moved
         | .fall => if x.raw = false then moved.pulse x.cls else moved
         | .edge => moved.pulse x.cls
         | .high => if x.raw = true then held else released
         | .low => if x.raw = false then held else released)

/-- A class pulse stamps the class, reloads the timers that watch it and those bound to a domain it wakes, and wakes each domain
whose wake set holds the class (R37, R47, R49, R66). The stamp and the watchers' reloads change neither domains nor queue; from there
the state comes by the wakes of those domains alone, each taken once, in some order (the manual gives none, log entry 3), so that the
Report Queue takes the reports of these wakes and no other. At the Class Map alone the pulse stamps the class and leaves a notice on its
way to each of these listeners; a listener then takes the oldest on its way to it, against its record as it stands: the reload if its
watch set holds the class, the wake if its wake set does (R69), so that other events, an expiry among them (R49), may come between (log
entry 24). NUDGE gives one pulse, and answers with the class's last activity time before it and the listeners it reached (R40). What is
still on its way from it, or from a SET_LINE, is taken when its reply joins, before any later request (R40, log entry 24): with each such
notice its listener takes those on their way to it before, oldest first, the listeners in some order, and none of a request is left. -/
def Obligations.PulseReachesListeners : Prop :=
  (∀ (s : State) (c : ClassId),
    (s.pulse c).cls c = { s.cls c with last := some s.time } ∧ (∀ e, e ≠ c → (s.pulse c).cls e = s.cls e) ∧
    (∀ i, (s.pulse c).timer i =
      if (s.timer i).watch.has c = true ∨
          ∃ d, (s.dom d).config.wakeSet.has c = true ∧ (s.dom d).config.boundTimer = some i ∧
            ∀ from_, (s.dom d).state ≠ .retired from_
      then (s.timer i).reload else s.timer i) ∧
    (∀ d, (s.pulse c).dom d = if (s.dom d).config.wakeSet.has c = true then (s.wake d (.cls c)).dom d else s.dom d) ∧
    (∃ (u : State) (order : List DomainId),
      order.Perm (allDomains.filter fun d => (s.dom d).config.wakeSet.has c) ∧
      { u with classes := s.classes, timers := s.timers, freeDraws := s.freeDraws } = s ∧
      (∀ i, u.timer i = if (s.timer i).watch.has c = true then (s.timer i).reload else s.timer i) ∧
      s.pulse c = order.foldl (fun v d => v.wake d (.cls c)) u) ∧
    { s.pulse c with
      classes := s.classes, timers := s.timers, domains := s.domains, queue := s.queue, freeDraws := s.freeDraws } = s ∧
    ∀ ofRequest, s.spreadPulse c ofRequest =
      { s.setCls c { s.cls c with last := some s.time } with
        notices := s.notices ++
          ((allTimers.filter fun i => (s.timer i).watch.has c).map fun i =>
            { listener := .timer i, cls := c, ofRequest := ofRequest }) ++
          (allDomains.filter fun d => (s.dom d).config.wakeSet.has c).map fun d =>
            { listener := .domain d, cls := c, ofRequest := ofRequest } }) ∧
  (∀ (s : State) (x : Listener) (l : LineId) (command : Instr), s.Running →
    command ∈ [.matchDecision (.atListener x), .recognisedEdge l.val (.atListener x), .setLine (.atListener x),
      .nudge (.atListener x)] →
    (∀ (before after : List Notice) (c : ClassId) (ofRequest : Bool),
      s.notices = before ++ { listener := x, cls := c, ofRequest := ofRequest } :: after →
      (∀ n ∈ before, n.listener ≠ x) →
      let gone : State := { s with notices := before ++ after }
      exec command s =
        .next
          (match x with
           | .timer i => if (s.timer i).watch.has c = true then gone.setTimer i (s.timer i).reload else gone
           | .domain d => if (s.dom d).config.wakeSet.has c = true then gone.wake d (.cls c) else gone)) ∧
    ((∀ n ∈ s.notices, n.listener ≠ x) → exec command s = .next s)) ∧
  (∀ (s : State) (r : Request) (b : Byte), s.HasInHand 0x1A [b] r →
    (∀ h : b.toNat < 16,
      exec .nudge s =
        .next
          ((s.pulse ⟨b.toNat, h⟩).answer r
            (0 :: 0 :: (optionalTime (s.cls ⟨b.toNat, h⟩).last ++
              [setByte (allTimers.filter fun i => (s.timer i).watch.has ⟨b.toNat, h⟩),
               setByte (allDomains.filter fun d => (s.dom d).config.wakeSet.has ⟨b.toNat, h⟩)])) false) ∧
      exec (.nudge .atClassMap) s =
        .next
          ((s.spreadPulse ⟨b.toNat, h⟩ true).answer r
            (0 :: 0 :: (optionalTime (s.cls ⟨b.toNat, h⟩).last ++
              [setByte (allTimers.filter fun i => (s.timer i).watch.has ⟨b.toNat, h⟩),
               setByte (allDomains.filter fun d => (s.dom d).config.wakeSet.has ⟨b.toNat, h⟩)])) false)) ∧
    (16 ≤ b.toNat →
      exec .nudge s = .next (s.answer r [2, 4] false) ∧ exec (.nudge .atClassMap) s = .next (s.answer r [2, 4] false))) ∧
  (∀ (s : State) (r : Request) (reply : Reply) (part : PulsePart), part = .whole ∨ part = .atClassMap → s.Running →
    s.unit.inHand = some r → s.unit.made = some reply →
    ∃ (order : List Listener) (n : Nat) (u : State),
      order.Perm (awaited s.notices) ∧
      execAll (order.map fun x => .nudge (.atListener x)) { s with freeDraws := n } = .next u ∧
      (∀ m ∈ u.notices, m.ofRequest = false) ∧ u.unit = s.unit ∧
      (r.type = 0x1A → exec (.nudge part) s = .next (u.joinReply reply)) ∧
      (r.type = 0x11 → exec (.setLine part) s = .next (u.joinReply reply))) ∧
  (∀ (ns : List Notice) (x : Listener),
    (x ∈ awaited ns ↔ ∃ m ∈ ns, m.ofRequest = true ∧ m.listener = x) ∧
    ∀ (before after : List Notice) (m : Notice), ns = before ++ m :: after → m.ofRequest = true → m.listener = x →
      (∀ k ∈ after, ¬ (k.ofRequest = true ∧ k.listener = x)) →
      (awaited ns).count x = (before.filter (·.listener == x)).length + 1)

/-- The beginning of a hold joins the line to the holders and stamps the class; its timers take a reload, with the class becoming
held where it was not (R38, R48); each domain whose wake set holds the class takes a wake, once, in some order (log entry 3), with the
reports of these wakes and no other; and a timer that does not watch the class, bound to a domain so woken, takes its restart claim
(R49). The end of a hold releases the timers that no class of their watch set still holds, and reaches nothing else (R39, R48). With its
wakes on their way the beginning reaches the Class Map and the timers (log entry 24); so does SET_LINE, which is otherwise what it is
with the wakes taken. -/
def Obligations.HoldsBeginAndEnd : Prop :=
  (∀ (s : State) (l : LineId) (c : ClassId),
    let met (i : TimerId) :=
      if (s.timer i).watch.has c = true then
        (if (s.cls c).holders = 0 then (s.timer i).becomeHeld else (s.timer i).reload)
      else s.timer i
    (∀ ofRequest, let t := s.spreadHold l c ofRequest
     t.cls c = { holders := (s.cls c).holders ||| ((1 : BitVec 12) <<< l.val), last := some s.time } ∧
     (∀ e, e ≠ c → t.cls e = s.cls e) ∧ (∀ i, t.timer i = met i) ∧
     t.notices = s.notices ++
       ((allDomains.filter fun d => (s.dom d).config.wakeSet.has c).map fun d =>
         { listener := .domain d, cls := c, ofRequest := ofRequest }) ∧
     { t with classes := s.classes, timers := s.timers, notices := s.notices } = s) ∧
    (let t := s.beginHold l c
     t.cls c = { holders := (s.cls c).holders ||| ((1 : BitVec 12) <<< l.val), last := some s.time } ∧
     (∀ e, e ≠ c → t.cls e = s.cls e) ∧
     (∀ i, t.timer i =
       if (s.timer i).watch.has c = false ∧
           ∃ d, (s.dom d).config.wakeSet.has c = true ∧ (s.dom d).config.boundTimer = some i ∧
             ∀ from_, (s.dom d).state ≠ .retired from_
       then (s.timer i).reload else met i) ∧
     (∀ d, t.dom d = if (s.dom d).config.wakeSet.has c = true then (s.wake d (.cls c)).dom d else s.dom d) ∧
     (∃ (u : State) (order : List DomainId),
       order.Perm (allDomains.filter fun d => (s.dom d).config.wakeSet.has c) ∧
       { u with classes := s.classes, timers := s.timers, freeDraws := s.freeDraws } = s ∧ (∀ i, u.timer i = met i) ∧
       t = order.foldl (fun v d => v.wake d (.cls c)) u) ∧
     { t with
       classes := s.classes, timers := s.timers, domains := s.domains, queue := s.queue, freeDraws := s.freeDraws } = s) ∧
    (let t := s.endHold l c
     t.cls c = { s.cls c with holders := (s.cls c).holders &&& ~~~((1 : BitVec 12) <<< l.val) } ∧
     (∀ e, e ≠ c → t.cls e = s.cls e) ∧
     (∀ i, t.timer i =
       if (t.cls c).holders = 0 ∧ (s.timer i).watch.has c = true ∧ (s.timer i).state = .held ∧
           t.anyHeld (s.timer i).watch = false
       then
         { s.timer i with
           state := .counting, remaining := (s.timer i).loadCount * (s.timer i).unit.millis, expiries := 0, due := false }
       else s.timer i) ∧
     { t with classes := s.classes, timers := s.timers } = s)) ∧
  (∀ (s : State) (r : Request) (b q c : Byte), s.HasInHand 0x11 [b, q, c] r →
    (∀ (h : b.toNat < 12) (hc : c.toNat < 16),
      let l : LineId := ⟨b.toNat, h⟩
      let x := s.line l
      let ended :=
        match x.holding with
        | none => s
        | some old => (s.setLine l { x with holding := none }).endHold l old
      (q = 4 ∧ x.level = true ∨ q = 5 ∧ x.level = false →
        exec (.setLine .atClassMap) s =
          .next
            ((State.spreadHold
                (ended.setLine l
                  { x with holding := some ⟨c.toNat, hc⟩, qualifier := if q = 4 then .high else .low, cls := ⟨c.toNat, hc⟩ })
                l ⟨c.toNat, hc⟩ true).answer r [0, 0, flagByte x.level, 1, c] false)) ∧
      (¬ (q = 4 ∧ x.level = true ∨ q = 5 ∧ x.level = false) → exec (.setLine .atClassMap) s = exec .setLine s)) ∧
    (12 ≤ b.toNat ∨ 16 ≤ c.toNat → exec (.setLine .atClassMap) s = exec .setLine s))

/-! ## Time and timers (chapter 3) -/

/-- The tables of R47 and R48: what a reload, a class becoming held and a release do to a timer in each state. A timer they load has
no expiry due, by the model's own field (log entry 6). -/
def Obligations.TimerTakesNotices : Prop :=
  ∀ (x : Timer),
    let load := x.loadCount * x.unit.millis
    x.reload =
      (match x.state with
       | .stopped => x
       | .held => { x with expiries := 0 }
       | .counting | .expired => { x with state := .counting, remaining := load, expiries := 0, due := false }) ∧
    x.becomeHeld =
      (match x.state with
       | .stopped => x
       | .held => { x with expiries := 0 }
       | .counting | .expired => { x with state := .held, remaining := load, expiries := 0, due := false }) ∧
    (∀ stillHeld, x.release stillHeld =
      if x.state = .held ∧ stillHeld = false then { x with state := .counting, remaining := load, expiries := 0, due := false }
      else x)

/-- An increment adds one millisecond, modulo 2^32, and counts every COUNTING timer down by one (R42, R44), but for one at 1, whose
expiry is now due: it reaches 0 in the event of its expiry (log entry 6). Before that, in the same step, what is outstanding from the
increment before is taken: every due expiry as its TIMER_EXPIRY takes it, and every expiry on its way to a domain as that domain takes
it (log entry 23), each once, in some order (log entry 3), so that none is left. With nothing outstanding nothing else changes. -/
def Obligations.IncrementCountsDown : Prop :=
  ∀ s : State, s.Running →
    let ticked (x : Timer) : Timer :=
      if x.state = .counting then (if x.remaining ≤ 1 then { x with due := true } else { x with remaining := x.remaining - 1 })
      else x
    (∃ (n : Nat) (order : List Instr) (taken t : State),
      order.Perm
        ((s.handed.map fun x => .timerExpiry x.timer.val (.atDomain x.domain)) ++
          (allTimers.filter fun i => (s.timer i).state == .counting && (s.timer i).due).map fun i => .timerExpiry i.val .whole) ∧
      execAll order { s with freeDraws := n } = .next taken ∧ taken.handed = [] ∧
      (∀ i, ¬ ((taken.timer i).state = .counting ∧ (taken.timer i).due = true)) ∧
      { taken with
        timers := s.timers, handed := s.handed, domains := s.domains, queue := s.queue, freeDraws := s.freeDraws } = s ∧
      exec .governorTimeIncrement s = .next t ∧ t.time = s.time + 1 ∧ (∀ i, t.timer i = ticked (taken.timer i)) ∧
      { t with time := taken.time, timers := taken.timers } = taken) ∧
    (s.handed = [] → (∀ i, ¬ ((s.timer i).state = .counting ∧ (s.timer i).due = true)) →
      ∃ t, exec .governorTimeIncrement s = .next t ∧ t.time = s.time + 1 ∧ (∀ i, t.timer i = ticked (s.timer i)) ∧
        { t with time := s.time, timers := s.timers } = s)

/-- The event in which a COUNTING timer whose expiry is due reaches 0 and expires (R44): the count rises to at most 15 and the mode
decides what follows; the Report Queue takes the EXPIRY report, where the report flag is on, and each bound domain takes the expiry
against its own record, each once, in some order (R45, R46; log entry 3); no other timer or domain changes. A timer with no expiry
due does not expire (log entry 6). Taken in parts (log entry 23), the timer expires and the Report Queue takes the report, and the
expiry is on its way to the domains bound at that moment; a domain then meets the oldest on its way to it from the timer, and takes it
against its record as it stands if that still names the timer as bound (R62, R78), and a wake between the two leaves the expiry on its
way (R69). -/
def Obligations.ExpiryReachesBoundDomains : Prop :=
  ∀ (s : State) (i : TimerId), s.Running →
    let x := s.timer i
    let count := min (x.expiries + 1) 15
    let expired : Timer :=
      match x.mode with
      | .single => { x with state := .expired, remaining := 0, expiries := count, due := false }
      | .repeating => { x with remaining := x.loadCount * x.unit.millis, expiries := count, due := false }
    let report : Report := { subject := some i.val, time := s.time, detail := .expiry count }
    (x.state = .counting ∧ x.due = true →
      ∃ t, exec (.timerExpiry i.val) s = .next t ∧ t.timer i = expired ∧
        (∀ j, j ≠ i → t.timer j = s.timer j) ∧
        (∀ d, t.dom d = if (s.dom d).config.boundTimer = some i then (s.takeExpiry d count).dom d else s.dom d) ∧
        (∃ (n : Nat) (order : List (Option DomainId)),
          order.Perm
            ((if x.report = true then [none] else []) ++
              (allDomains.filter fun d => (s.dom d).config.boundTimer == some i).map some) ∧
          t =
            order.foldl (fun v taker => match taker with | none => v.report report | some d => v.takeExpiry d count)
              { s.setTimer i expired with freeDraws := n }) ∧
        { t with timers := s.timers, domains := s.domains, queue := s.queue, freeDraws := s.freeDraws } = s) ∧
    (¬ (x.state = .counting ∧ x.due = true) →
      exec (.timerExpiry i.val) s = .next s ∧ exec (.timerExpiry i.val .atTimer) s = .next s) ∧
    (x.state = .counting ∧ x.due = true →
      let reported := if x.report = true then (s.setTimer i expired).report report else s.setTimer i expired
      exec (.timerExpiry i.val .atTimer) s =
        .next
          { reported with
            handed := s.handed ++
              (allDomains.filter fun d => (s.dom d).config.boundTimer == some i).map fun d =>
                { timer := i, domain := d, count := count } }) ∧
    (∀ d : DomainId,
      (∀ (before after : List HandedExpiry) (n : Nat),
        s.handed = before ++ { timer := i, domain := d, count := n } :: after →
        (∀ y ∈ before, ¬ (y.timer = i ∧ y.domain = d)) →
        let gone : State := { s with handed := before ++ after }
        exec (.timerExpiry i.val (.atDomain d)) s =
          .next (if (s.dom d).config.boundTimer = some i then gone.takeExpiry d n else gone)) ∧
      ((∀ y ∈ s.handed, ¬ (y.timer = i ∧ y.domain = d)) → exec (.timerExpiry i.val (.atDomain d)) s = .next s) ∧
      ∀ cause, (s.wake d cause).handed = s.handed)

/-- START_TIMER, STOP_TIMER and READ_TIMER (R51, R52, R55), each refused with RANGE above T7. A timer they load or stop has no expiry
due, by the model's own field (log entry 6). -/
def Obligations.TimerRequests : Prop :=
  ∀ (s : State) (r : Request) (b : Byte),
    (∀ h : b.toNat < 8,
      let i : TimerId := ⟨b.toNat, h⟩
      let x := s.timer i
      let load := x.loadCount * x.unit.millis
      let started : Timer :=
        match x.state with
        | .stopped | .expired =>
          { x with
            state := if s.anyHeld x.watch = true then .held else .counting, remaining := load, expiries := 0, due := false }
        | .counting => { x with remaining := load, expiries := 0, due := false }
        | .held => { x with expiries := 0 }
      (s.HasInHand 0x21 [b] r →
        exec .startTimer s =
          .next ((s.setTimer i started).answer r
            ([0, 0, started.state.code] ++ bytesOf 4 started.remaining ++ [byte started.expiries]) false)) ∧
      (s.HasInHand 0x22 [b] r →
        exec .stopTimer s =
          .next ((s.setTimer i { x with state := .stopped, remaining := 0, expiries := 0, due := false }).answer r
            [0, 0, x.state.code, byte x.expiries] false)) ∧
      (s.HasInHand 0x23 [b] r →
        exec .readTimer s =
          .next (s.answer r
            ([0, 0, byte x.loadCount, x.unit.code] ++ bytesOf 4 load ++ [x.mode.code] ++ bytesOf 2 x.watch.toNat ++
              [flagByte x.report, x.state.code] ++ bytesOf 4 x.remaining ++ [byte x.expiries] ++
              [setByte (allDomains.filter fun d => (s.dom d).config.boundTimer == some i)]) false))) ∧
    (8 ≤ b.toNat →
      (s.HasInHand 0x21 [b] r → exec .startTimer s = .next (s.answer r [2, 4] false)) ∧
      (s.HasInHand 0x22 [b] r → exec .stopTimer s = .next (s.answer r [2, 4] false)) ∧
      (s.HasInHand 0x23 [b] r → exec .readTimer s = .next (s.answer r [2, 4] false)))

/-- WRITE_TIMER's checks (R53) and its three steps (R54). A timer it loads has no expiry due, by the model's own field (log
entry 6). -/
def Obligations.WriteTimerInThreeSteps : Prop :=
  ∀ (s : State) (r : Request) (b n u m w0 w1 rep restart : Byte), s.HasInHand 0x20 [b, n, u, m, w0, w1, rep, restart] r →
    (∀ h : b.toNat < 8, 1 ≤ n.toNat → rep.toNat ≤ 1 → restart.toNat ≤ 1 →
      ∀ (unit : TimerUnit) (mode : TimerMode), unit.code = u → mode.code = m →
        let i : TimerId := ⟨b.toNat, h⟩
        let x := s.timer i
        let watch : ClassSet := w1 ++ w0
        let load := n.toNat * unit.millis
        let replaced : Timer :=
          { x with loadCount := n.toNat, unit := unit, mode := mode, report := decide (rep = 1), watch := watch }
        let met : Timer :=
          if s.anyHeld watch = true ∧ (x.state = .counting ∨ x.state = .expired) then
            { replaced with state := .held, remaining := load, expiries := 0, due := false }
          else if s.anyHeld watch = false ∧ x.state = .held then
            { replaced with state := .counting, remaining := load, expiries := 0, due := false }
          else replaced
        let after := if restart = 1 then met.start (s.anyHeld watch) else met
        exec .writeTimer s =
          .next ((s.setTimer i after).answer r
            ([0, 0, after.state.code] ++ bytesOf 4 after.remaining ++ [byte after.expiries]) false)) ∧
    ((8 ≤ b.toNat ∨ n = 0 ∨ 2 ≤ rep.toNat ∨ 2 ≤ restart.toNat ∨ 5 ≤ u.toNat ∨ 2 ≤ m.toNat) →
      exec .writeTimer s = .next (s.answer r [2, 4] false))

/-! ## Domains (chapters 4 and 5) -/

/-- R59: the outputs of each state; CLKEN is never on while PWREN is off; and where QREQ is asserted. With them the part's other
outputs and its pins: CTS while at most two requests wait (R142), ALERT while a FAULT or LOSS record is queued (R131), the levels of
R181 while a full reset is in progress, and the pins' polarities (R182 and the pin table), ALERT# open drain. With VDDIO out of its
range the pins are high impedance (R181; at other times than power-on log entry 22). -/
def Obligations.OutputsFollowState : Prop :=
  (∀ (s : State) (d : DomainId), s.Running →
    let levels (clken pwren qreq : Bool) := s.outputs d = { clken := clken, pwren := pwren, qreq := qreq }
    (match (s.dom d).state with
     | .active => levels true true false
     | .throttled .onPhase _ => levels true true false
     | .throttled .offPhase _ => levels false true false
     | .quiescing _ _ _ => levels true true true
     | .settling _ _ _ => levels true true true
     | .standby => levels false true true
     | .poweringDown _ _ _ => levels false false true
     | .off => levels false false true
     | .poweringUp _ => levels false true true
     | .resuming _ => levels true true true
     | .faulted .quiesceRefused _ => levels true true false
     | .faulted .powerOffTimeout _ => levels false false true
     | .faulted .powerOnTimeout _ => levels false false true
     | .faulted .powerLost _ => levels false false true
     | .retired fromActive => levels fromActive fromActive (!fromActive)) ∧
    ((s.outputs d).clken = true → (s.outputs d).pwren = true)) ∧
  (∀ s : State,
    (s.Running → (s.cts = true ↔ s.link.requests.length ≤ 2) ∧
      (s.alert = true ↔ ∃ y ∈ s.queue.records, y.kind = .fault ∨ y.kind = .loss)) ∧
    (∀ cause, s.board.fullReset = some cause →
      (∀ d, s.outputs d = { clken := false, pwren := true, qreq := true }) ∧ s.cts = false ∧ s.alert = false) ∧
    (s.board.vddio = true →
      (∀ d, s.clkenPin d = (if (s.outputs d).clken = true then .high else .low) ∧
        s.pwrenPin d = (if (s.outputs d).pwren = true then .high else .low) ∧
        s.qreqPin d = (if (s.outputs d).qreq = true then .high else .low)) ∧
      s.ctsPin = (if s.cts = true then .low else .high) ∧
      s.alertPin = (if s.alert = true then .low else .highImpedance) ∧
      (∀ frame, s.Running → s.link.tx = some frame → s.txLine = .sends frame.characters) ∧
      (s.link.tx = none ∨ s.board.fullReset ≠ none → s.txLine = .restsHigh)) ∧
    (s.board.vddio = false →
      (∀ d, s.clkenPin d = .highImpedance ∧ s.pwrenPin d = .highImpedance ∧ s.qreqPin d = .highImpedance) ∧
      s.ctsPin = .highImpedance ∧ s.alertPin = .highImpedance ∧ s.txLine = .highImpedance))

/-- R60: the comparison depth of each state, by which an expiry is ignored where there is none, and which READ_DOMAIN reports at
position 25 of its record. -/
def Obligations.ComparisonDepthTable : Prop :=
  ∀ (s : State) (d : DomainId),
    (s.dom d).state.comparisonDepth =
      (match (s.dom d).state with
       | .active => some 0
       | .throttled _ _ => some 1
       | .quiescing target _ _ | .settling target _ _ => some (match target with | .standby => 2 | .off => 3)
       | .standby => some 2
       | .poweringDown _ _ _ | .off => some 3
       | .poweringUp _ | .resuming _ | .faulted _ _ | .retired _ => none) ∧
    ((s.dom d).state.comparisonDepth = none → ∀ count, s.takeExpiry d count = s) ∧
    (s.domainPart d)[25]? =
      some (match (s.dom d).state.comparisonDepth with | none => 0xFF | some depth => BitVec.ofNat 8 depth)

/-- How a domain takes an expiry that asks for rung k+1: ignored under the hold flag, while held awake, beyond the ladder and for a
rung not deeper (R62), and otherwise by the table of R63. -/
def Obligations.LadderStepTable : Prop :=
  ∀ (s : State) (d : DomainId) (k : Nat),
    let x := s.dom d
    let into (y : DomainState) := s.setDom d { x with state := y }
    let reported (y : DomainState) (entered : Entered) :=
      (into y).report { subject := some d.val, time := s.time, detail := .domain entered .ladder }
    (x.hold = true ∨ s.heldAwake d = true ∨ x.config.ladder.length ≤ k → s.takeExpiry d (k + 1) = s) ∧
    (∀ rung, x.hold = false → s.heldAwake d = false → x.config.ladder[k]? = some rung →
      s.takeExpiry d (k + 1) =
        (match x.state, rung with
         | .active, .throttled => reported (.throttled .onPhase x.config.throttleOn) .throttled
         | .active, .standby => into (.quiescing .standby .ladder x.config.quiesceDeadline)
         | .active, .off => into (.quiescing .off .ladder x.config.quiesceDeadline)
         | .throttled _ _, .standby => into (.quiescing .standby .ladder x.config.quiesceDeadline)
         | .throttled _ _, .off => into (.quiescing .off .ladder x.config.quiesceDeadline)
         | .quiescing .standby _ deadline, .off => into (.quiescing .off .ladder deadline)
         | .settling .standby _ delay, .off => into (.settling .off .ladder delay)
         | .standby, .off =>
           if x.pgood = true then into (.poweringDown .ladder x.config.powerOffDeadline false) else reported .off .off
         | _, _ => s))

/-- How a domain takes a wake, by the tables of R66 and R67: the state it enters, the last wake cause, the DOMAIN report and the
restart claim; with zero delays and PGOOD high it passes on at once (R85, R99, R102). -/
def Obligations.WakeTable : Prop :=
  ∀ (s : State) (d : DomainId) (cause : Cause),
    let x := s.dom d
    let claimed (u : State) :=
      match x.config.boundTimer with
      | none => u
      | some i => u.setTimer i (s.timer i).reload
    let into (y : DomainState) := s.setDom d { x with state := y, lastWake := cause }
    let activated (refusals : Nat) :=
      (s.setDom d { x with state := .active, lastWake := cause, refusals := refusals }).report
        { subject := some d.val, time := s.time, detail := .domain .active cause }
    let resumed := if x.config.resumeDelay = .zero then activated 0 else into (.resuming x.config.resumeDelay)
    s.wake d cause =
      (match x.state with
       | .active | .poweringUp _ | .resuming _ => claimed s
       | .throttled _ _ | .quiescing _ _ _ | .settling _ _ _ => claimed (activated x.refusals)
       | .standby => claimed resumed
       | .poweringDown step deadline _ => claimed (into (.poweringDown step deadline true))
       | .off => claimed (if x.pgood = true then resumed else into (.poweringUp x.config.powerOnDeadline))
       | .faulted fault _ => claimed (s.setDom d { x with state := .faulted fault true })
       | .retired _ => s)

/-- The recognised edges of QACK: the acknowledge in QUIESCING (R87, R91, R94), a wake in SETTLING and STANDBY (R92, R93), and
elsewhere only the recognised level (R84). -/
def Obligations.QackEdges : Prop :=
  ∀ (s : State) (d : DomainId), s.Running →
    let x := s.dom d
    (x.qackRaw = true → x.qack = false →
      exec (.qackRise d.val) s =
        .next
          (match x.state with
           | .quiescing target step _ =>
             let into (y : DomainState) := s.setDom d { x with qack := true, refusals := 0, state := y }
             let reported (y : DomainState) (entered : Entered) :=
               (into y).report { subject := some d.val, time := s.time, detail := .domain entered step }
             if x.config.stopDelay = .zero then
               match target with
               | .standby => reported .standby .standby
               | .off =>
                 if x.pgood = true then into (.poweringDown step x.config.powerOffDeadline false) else reported .off .off
             else into (.settling target step x.config.stopDelay)
           | _ => s.setDom d { x with qack := true })) ∧
    (x.qackRaw = false → x.qack = true →
      exec (.qackFall d.val) s =
        .next
          (match x.state with
           | .settling _ _ _ | .standby => (s.setDom d { x with qack := false }).wake d .qackDrop
           | _ => s.setDom d { x with qack := false }))

/-- The recognised edges of PGOOD: the end of a power-up (R100, R102) and of a power-down (R95), power lost in the powered states
(R103), and elsewhere only the recognised level (R84). -/
def Obligations.PgoodEdges : Prop :=
  ∀ (s : State) (d : DomainId), s.Running →
    let x := s.dom d
    (x.pgoodRaw = true → x.pgood = false →
      exec (.pgoodRise d.val) s =
        .next
          (match x.state with
           | .poweringUp _ =>
             if x.config.resumeDelay = .zero then
               (s.setDom d { x with pgood := true, refusals := 0, state := .active }).report
                 { subject := some d.val, time := s.time, detail := .domain .active x.lastWake }
             else s.setDom d { x with pgood := true, state := .resuming x.config.resumeDelay }
           | _ => s.setDom d { x with pgood := true })) ∧
    (x.pgoodRaw = false → x.pgood = true →
      let into (y : DomainState) := s.setDom d { x with pgood := false, state := y }
      let lost :=
        (into (.faulted .powerLost false)).report
          { subject := some d.val, time := s.time,
            detail := .fault .powerLost { clken := false, pwren := false, qreq := true } }
      exec (.pgoodFall d.val) s =
        .next
          (match x.state with
           | .poweringDown step _ pendingWake =>
             (into (if pendingWake = true then .poweringUp x.config.powerOnDeadline else .off)).report
               { subject := some d.val, time := s.time, detail := .domain .off step }
           | .active | .throttled _ _ | .quiescing _ _ _ | .settling _ _ _ | .standby | .resuming _ => lost
           | .off | .poweringUp _ | .faulted _ _ | .retired _ => s.setDom d { x with pgood := false }))

/-- The ends of the quiesce deadline, which refuses the quiesce: ACTIVE with a REFUSAL report and then a DOMAIN report, or on the third
refusal in a row FAULTED with a FAULT report (R88); of the stop delay, where the target decides (R91, R94); and of the resume delay
(R102). -/
def Obligations.DeadlinesAndDelaysEnd : Prop :=
  (∀ (s : State) (d : DomainId) (target : Target) (step : Cause) (deadline : Nat), s.Running →
    (s.dom d).state = .quiescing target step deadline →
    let x := s.dom d
    (x.refusals < 2 →
      exec (.quiesceDeadlineEnd d.val) s =
        .next
          (((s.setDom d { x with refusals := x.refusals + 1, state := .active }).report
            { subject := some d.val, time := s.time, detail := .refusal (x.refusals + 1) }).report
            { subject := some d.val, time := s.time, detail := .domain .active .quiesceDeadline })) ∧
    (x.refusals = 2 →
      exec (.quiesceDeadlineEnd d.val) s =
        .next
          ((s.setDom d { x with refusals := 3, state := .faulted .quiesceRefused false }).report
            { subject := some d.val, time := s.time,
              detail := .fault .quiesceRefused { clken := true, pwren := true, qreq := false } }))) ∧
  (∀ (s : State) (d : DomainId), s.Running →
    let x := s.dom d
    (∀ target step delay, x.state = .settling target step delay →
      exec (.stopDelayEnd d.val) s =
        .next
          (match target with
           | .standby =>
             (s.setDom d { x with state := .standby }).report
               { subject := some d.val, time := s.time, detail := .domain .standby step }
           | .off =>
             if x.pgood = true then s.setDom d { x with state := .poweringDown step x.config.powerOffDeadline false }
             else
               (s.setDom d { x with state := .off }).report
                 { subject := some d.val, time := s.time, detail := .domain .off step })) ∧
    (∀ delay, x.state = .resuming delay →
      exec (.resumeDelayEnd d.val) s =
        .next
          ((s.setDom d { x with state := .active, refusals := 0 }).report
            { subject := some d.val, time := s.time, detail := .domain .active x.lastWake })))

/-- R97: the power-off deadline faults the domain with POWER_OFF_TIMEOUT, its outputs as POWERING_DOWN set them, a pending wake
becoming wake-seen; a FAULT report is made and no other; and a later fall of PGOOD is ignored but for the recognised level, which
READ_DOMAIN then reports, low, in bit 1 of position 30 of the FAULTED domain's record. -/
def Obligations.PowerOffDeadlineFaults : Prop :=
  ∀ (s : State) (d : DomainId) (step : Cause) (deadline : Nat) (pendingWake : Bool), s.Running →
    (s.dom d).state = .poweringDown step deadline pendingWake →
    let x := s.dom d
    let faulted := s.setDom d { x with state := .faulted .powerOffTimeout pendingWake }
    exec (.powerOffDeadlineEnd d.val) s =
      .next (faulted.report
        { subject := some d.val, time := s.time,
          detail := .fault .powerOffTimeout { clken := false, pwren := false, qreq := true } }) ∧
    faulted.outputs d = { clken := false, pwren := false, qreq := true } ∧ faulted.outputs d = s.outputs d ∧
    (faulted.dom d).state.target? = none ∧ (faulted.dom d).state.stepCause? = none ∧
    (faulted.dom d).state.pendingWake = false ∧ (faulted.dom d).state.wakeSeen = pendingWake ∧
    (∀ u : State, u.Running → (u.dom d).state = .faulted .powerOffTimeout pendingWake → (u.dom d).pgoodRaw = false →
      (u.dom d).pgood = true →
      let fallen := u.setDom d { u.dom d with pgood := false }
      exec (.pgoodFall d.val) u = .next fallen ∧
      (fallen.domainPart d)[30]? = some (if (u.dom d).qack = true then 1 else 0))

/-- R101: the power-on deadline faults the domain with POWER_ON_TIMEOUT, its outputs off, off and on; a FAULT report is made and no
other; and a later rise of PGOOD is ignored but for the recognised level, which READ_DOMAIN then reports, high, in bit 1 of
position 30 of the FAULTED domain's record. -/
def Obligations.PowerOnDeadlineFaults : Prop :=
  ∀ (s : State) (d : DomainId) (deadline : Nat), s.Running → (s.dom d).state = .poweringUp deadline →
    let x := s.dom d
    let faulted := s.setDom d { x with state := .faulted .powerOnTimeout false }
    exec (.powerOnDeadlineEnd d.val) s =
      .next (faulted.report
        { subject := some d.val, time := s.time,
          detail := .fault .powerOnTimeout { clken := false, pwren := false, qreq := true } }) ∧
    faulted.outputs d = { clken := false, pwren := false, qreq := true } ∧
    (∀ u : State, u.Running → (∃ seen, (u.dom d).state = .faulted .powerOnTimeout seen) → (u.dom d).pgoodRaw = true →
      (u.dom d).pgood = false →
      let risen := u.setDom d { u.dom d with pgood := true }
      exec (.pgoodRise d.val) u = .next risen ∧
      (risen.domainPart d)[30]? = some (if (u.dom d).qack = true then 3 else 2))

/-- The end of a throttle phase turns CLKEN and begins the other phase with its configured length (R70, R71). An event that has not
arisen changes nothing, which is the model's choice (log entry 5; for the end of an interval R85): the end of an interval outside the
state that runs it, an edge without a candidate, RESET# among them, a decision on an empty FIFO, a start edge inside a character, a gap
error or an ack timer expiry with the timer stopped, a SILENT claim with none handed; and a request command with no request of its
TYPE in hand, or with one that the other command of its pair executes (log entry 9). -/
def Obligations.PhaseEndsAndStaleEvents : Prop :=
  (∀ (s : State) (d : DomainId), s.Running →
    let x := s.dom d
    (∀ length, x.state = .throttled .onPhase length →
      exec (.throttlePhaseEnd d.val) s = .next (s.setDom d { x with state := .throttled .offPhase x.config.throttleOff })) ∧
    (∀ length, x.state = .throttled .offPhase length →
      exec (.throttlePhaseEnd d.val) s = .next (s.setDom d { x with state := .throttled .onPhase x.config.throttleOn })) ∧
    ((∀ p n, x.state ≠ .throttled p n) → exec (.throttlePhaseEnd d.val) s = .next s) ∧
    ((∀ t c n, x.state ≠ .quiescing t c n) → exec (.quiesceDeadlineEnd d.val) s = .next s) ∧
    ((∀ t c n, x.state ≠ .settling t c n) → exec (.stopDelayEnd d.val) s = .next s) ∧
    ((∀ c n w, x.state ≠ .poweringDown c n w) → exec (.powerOffDeadlineEnd d.val) s = .next s) ∧
    ((∀ n, x.state ≠ .poweringUp n) → exec (.powerOnDeadlineEnd d.val) s = .next s) ∧
    ((∀ n, x.state ≠ .resuming n) → exec (.resumeDelayEnd d.val) s = .next s) ∧
    (x.qackRaw = x.qack → exec (.qackRise d.val) s = .next s ∧ exec (.qackFall d.val) s = .next s) ∧
    (x.pgoodRaw = x.pgood → exec (.pgoodRise d.val) s = .next s ∧ exec (.pgoodFall d.val) s = .next s) ∧
    (∀ part, part = .whole ∨ part = .atClassMap →
      (∀ l, (s.line l).raw = (s.line l).level → exec (.recognisedEdge l.val part) s = .next s) ∧
      (s.fifo = [] → exec (.matchDecision part) s = .next s)) ∧
    (∀ high, s.link.charRx = .inCharacter → exec (.characterStartEdge high) s = .next s) ∧
    (s.link.gapRunning = false → exec .gapError s = .next s) ∧
    (s.queue.ackTimer = none → exec .ackTimerExpiry s = .next s) ∧
    (s.unit.silentClaim = false → exec .silentClaim s = .next s) ∧
    (∀ c type, requestType? c = some type → (∀ r, s.unit.inHand = some r → r.type ≠ type) → exec c s = .next s)) ∧
  (∀ s : State,
    (s.board.resetRaw = true ∨ s.board.resetLevel = false → exec .resetPin s = .next s) ∧
    (s.board.resetRaw = false ∨ s.board.resetLevel = true → exec .resetPinRelease s = .next s)) ∧
  (∀ (s : State) (r : Request) (b v : Byte) (block : SoftBlock),
    (s.HasInHand 0x2A [b, 0] r → exec .holdOn s = .next s) ∧ (s.HasInHand 0x2A [b, 1] r → exec .holdOff s = .next s) ∧
    (s.HasInHand 0x2B [b, 0] r → exec .force s = .next s) ∧
    (s.HasInHand 0x2B [b, v] r → v ≠ 0 → exec .forceActive s = .next s) ∧
    (s.HasInHand 0x2C [b, 1] r → exec .clearFaultUp s = .next s) ∧
    (s.HasInHand 0x2C [b, 0] r → exec .clearFaultDown s = .next s) ∧
    (s.HasInHand 0x06 [1] r → exec (.resetSoft block) s = .next s) ∧ (s.HasInHand 0x06 [2] r → exec .resetFull s = .next s) ∧
    (s.HasInHand 0x06 [2] r → block ∈ s.unit.softTaken → exec (.resetSoft block) s = .next s))

/-! ## Requests to the domains (chapters 4 and 5) -/

/-- HOLD (R72): ON sets the flag and wakes the domain with cause HOST outside ACTIVE, FAULTED and RETIRED; OFF clears it. RANGE above
D5 or for a value that is neither, which either command answers (log entry 9). -/
def Obligations.HoldSetsFlag : Prop :=
  ∀ (s : State) (r : Request) (b : Byte),
    (∀ h : b.toNat < 6,
      let d : DomainId := ⟨b.toNat, h⟩
      let x := s.dom d
      let flagged := s.setDom d { x with hold := true }
      let after :=
        match x.state with
        | .active | .faulted _ _ | .retired _ => flagged
        | _ => flagged.wake d .host
      (s.HasInHand 0x2A [b, 1] r →
        exec .holdOn s = .next (after.answer r [0, 0, flagByte x.hold, (after.dom d).state.code] false)) ∧
      (s.HasInHand 0x2A [b, 0] r →
        exec .holdOff s =
          .next ((s.setDom d { x with hold := false }).answer r [0, 0, flagByte x.hold, x.state.code] false))) ∧
    (6 ≤ b.toNat →
      (s.HasInHand 0x2A [b, 1] r → exec .holdOn s = .next (s.answer r [2, 4] false)) ∧
      (s.HasInHand 0x2A [b, 0] r → exec .holdOff s = .next (s.answer r [2, 4] false))) ∧
    (∀ v, 2 ≤ v.toNat → s.HasInHand 0x2A [b, v] r →
      exec .holdOn s = .next (s.answer r [2, 4] false) ∧ exec .holdOff s = .next (s.answer r [2, 4] false))

/-- FORCE (R73, R74): the checks in their order, the wake that target ACTIVE is, and the step toward a deeper target. -/
def Obligations.ForceMovesDomain : Prop :=
  ∀ (s : State) (r : Request) (b : Byte),
    (∀ h : b.toNat < 6,
      let d : DomainId := ⟨b.toNat, h⟩
      let x := s.dom d
      (s.HasInHand 0x2B [b, 0] r →
        let after := s.wake d .host
        exec .forceActive s =
          .next
            (match x.state with
             | .retired _ => s.answer r [2, 0x0C] false
             | .faulted _ _ => s.answer r [2, 0x0A] false
             | _ =>
               after.answer r
                 [match (after.dom d).state with
                   | .active | .throttled _ _ | .standby | .off => 0
                   | _ => 1,
                  0, (after.dom d).state.code] false)) ∧
      (∀ (k : Byte) (target : Rung), s.HasInHand 0x2B [b, k] r →
        (k = 1 ∧ target = .throttled ∨ k = 2 ∧ target = .standby ∨ k = 3 ∧ target = .off) →
        let into (y : DomainState) := s.setDom d { x with state := y }
        let reported (y : DomainState) (entered : Entered) :=
          (into y).report { subject := some d.val, time := s.time, detail := .domain entered .force }
        exec .force s =
          .next
            (match x.state, target with
             | .retired _, _ => s.answer r [2, 0x0C] false
             | .faulted _ _, _ => s.answer r [2, 0x0A] false
             | .quiescing _ _ _, _ | .settling _ _ _, _ | .poweringDown _ _ _, _ | .poweringUp _, _ | .resuming _, _ =>
               s.answer r [2, 8] false
             | state, target =>
               if x.hold = true then s.answer r [2, 9] false
               else
                 match state, target with
                 | .active, .throttled =>
                   (reported (.throttled .onPhase x.config.throttleOn) .throttled).answer r [0, 0, 1] false
                 | .active, .standby | .throttled _ _, .standby =>
                   (into (.quiescing .standby .force x.config.quiesceDeadline)).answer r [1, 0, 2] false
                 | .active, .off | .throttled _ _, .off =>
                   (into (.quiescing .off .force x.config.quiesceDeadline)).answer r [1, 0, 2] false
                 | .throttled _ _, .throttled => s.answer r [0, 0, 1] false
                 | .standby, .standby => s.answer r [0, 0, 4] false
                 | .standby, .off =>
                   if x.pgood = true then
                     (into (.poweringDown .force x.config.powerOffDeadline false)).answer r [1, 0, 5] false
                   else (reported .off .off).answer r [0, 0, 6] false
                 | .off, .off => s.answer r [0, 0, 6] false
                 | _, _ => s.answer r [2, 6] false))) ∧
    (6 ≤ b.toNat → s.HasInHand 0x2B [b, 0] r → exec .forceActive s = .next (s.answer r [2, 4] false)) ∧
    (∀ k : Byte, k ≠ 0 → (4 ≤ k.toNat ∨ 6 ≤ b.toNat) → s.HasInHand 0x2B [b, k] r →
      exec .force s = .next (s.answer r [2, 4] false))

/-- CLEAR_FAULT (R108 to R110): NOT_FAULTED elsewhere; UP to ACTIVE from QUIESCE_REFUSED and into a power-up from any other cause;
DOWN into a power-down. The refusal count becomes 0 and the reply carries cause and wake-seen. RANGE above D5 or for a recovery that
is neither, which either command answers (log entry 9). -/
def Obligations.ClearFaultRecovers : Prop :=
  ∀ (s : State) (r : Request) (b : Byte),
    (∀ h : b.toNat < 6,
      let d : DomainId := ⟨b.toNat, h⟩
      let x := s.dom d
      let report (entered : Entered) : Report :=
        { subject := some d.val, time := s.time, detail := .domain entered .clear }
      (∀ fault seen, x.state = .faulted fault seen → s.HasInHand 0x2C [b, 0] r →
        let up (y : DomainState) := s.setDom d { x with refusals := 0, lastWake := .clear, state := y }
        exec .clearFaultUp s =
          .next
            (if fault = .quiesceRefused ∨ x.pgood = true ∧ x.config.resumeDelay = .zero then
               ((up .active).report (report .active)).answer r [0, 0, fault.code, flagByte seen, 0] false
             else if x.pgood = true then
               (up (.resuming x.config.resumeDelay)).answer r [1, 0, fault.code, flagByte seen, 8] false
             else (up (.poweringUp x.config.powerOnDeadline)).answer r [1, 0, fault.code, flagByte seen, 7] false)) ∧
      (∀ fault seen, x.state = .faulted fault seen → s.HasInHand 0x2C [b, 1] r →
        let down (y : DomainState) := s.setDom d { x with refusals := 0, state := y }
        exec .clearFaultDown s =
          .next
            (if x.pgood = true then
               (down (.poweringDown .clear x.config.powerOffDeadline false)).answer r
                 [1, 0, fault.code, flagByte seen, 5] false
             else ((down .off).report (report .off)).answer r [0, 0, fault.code, flagByte seen, 6] false)) ∧
      ((∀ fault seen, x.state ≠ .faulted fault seen) →
        (s.HasInHand 0x2C [b, 0] r → exec .clearFaultUp s = .next (s.answer r [2, 0x0B] false)) ∧
        (s.HasInHand 0x2C [b, 1] r → exec .clearFaultDown s = .next (s.answer r [2, 0x0B] false)))) ∧
    (6 ≤ b.toNat →
      (s.HasInHand 0x2C [b, 0] r → exec .clearFaultUp s = .next (s.answer r [2, 4] false)) ∧
      (s.HasInHand 0x2C [b, 1] r → exec .clearFaultDown s = .next (s.answer r [2, 4] false))) ∧
    (∀ v, 2 ≤ v.toNat → s.HasInHand 0x2C [b, v] r →
      exec .clearFaultUp s = .next (s.answer r [2, 4] false) ∧ exec .clearFaultDown s = .next (s.answer r [2, 4] false))

/-- RETIRE (R75) from ACTIVE or OFF, the outputs kept, and ADOPT (R76) back into the state whose outputs they are; STATE elsewhere
and RANGE above D5. -/
def Obligations.RetireAndAdopt : Prop :=
  ∀ (s : State) (r : Request) (b : Byte),
    (∀ h : b.toNat < 6,
      let d : DomainId := ⟨b.toNat, h⟩
      let x := s.dom d
      let report (entered : Entered) (cause : Cause) : Report :=
        { subject := some d.val, time := s.time, detail := .domain entered cause }
      (s.HasInHand 0x2D [b] r →
        let retired (fromActive : Bool) := s.setDom d { x with state := .retired fromActive }
        exec .retire s =
          .next
            (match x.state with
             | .active => ((retired true).report (report .retired .retire)).answer r [0, 0] false
             | .off => ((retired false).report (report .retired .retire)).answer r [0, 0] false
             | _ => s.answer r [2, 0x0D] false) ∧
        (x.state = .active ∨ x.state = .off → (retired (decide (x.state = .active))).outputs d = s.outputs d)) ∧
      (s.HasInHand 0x2E [b] r →
        let adopted (y : DomainState) := s.setDom d { x with refusals := 0, lastWake := .adopt, state := y }
        exec .adopt s =
          .next
            (match x.state with
             | .retired true =>
               (((adopted .active).report (report .active .adopt)).claimRestart d).answer r [0, 0, 0] false
             | .retired false => ((adopted .off).report (report .off .adopt)).answer r [0, 0, 6] false
             | _ => s.answer r [2, 0x0D] false) ∧
        (∀ fromActive, x.state = .retired fromActive →
          (adopted (if fromActive = true then .active else .off)).outputs d = s.outputs d))) ∧
    (6 ≤ b.toNat →
      (s.HasInHand 0x2D [b] r → exec .retire s = .next (s.answer r [2, 4] false)) ∧
      (s.HasInHand 0x2E [b] r → exec .adopt s = .next (s.answer r [2, 4] false)))

/-- WRITE_DOMAIN's two steps of checks (R77), and that it replaces the configuration alone (R78), its reply the domain's record
after it (R176). -/
def Obligations.WriteDomainReplacesConfiguration : Prop :=
  ∀ (s : State) (r : Request) (b bt n r1 r2 r3 w0 w1 on off qd sd pfd pnd rd : Byte),
    s.HasInHand 0x28 [b, bt, n, r1, r2, r3, w0, w1, on, off, qd, sd, pfd, pnd, rd, 0] r →
    let rungs := ([r1, r2, r3].take n.toNat).map BitVec.toNat
    let inRange :=
      b.toNat < 6 ∧ (bt = 0xFF ∨ bt.toNat < 8) ∧ n.toNat ≤ 3 ∧ (∀ k ∈ rungs, k ≤ 3) ∧ on ≠ 0 ∧ off ≠ 0 ∧ qd ≠ 0 ∧ pfd ≠ 0 ∧
      pnd ≠ 0 ∧ sd.toNat ≤ 3 ∧ rd.toNat ≤ 3
    (¬ inRange → exec .writeDomain s = .next (s.answer r [2, 4] false)) ∧
    (inRange → ¬ (0 :: rungs).Pairwise (· < ·) → exec .writeDomain s = .next (s.answer r [2, 6] false)) ∧
    (∀ h : b.toNat < 6, inRange → (0 :: rungs).Pairwise (· < ·) →
      ∀ c : DomainConfig, c.boundTimer.map (·.val) = (if bt = 0xFF then none else some bt.toNat) →
        c.ladder.map Rung.depth = rungs → c.wakeSet = w1 ++ w0 → c.throttleOn = on.toNat → c.throttleOff = off.toNat →
        c.quiesceDeadline = qd.toNat → c.stopDelay.code = sd → c.powerOffDeadline = pfd.toNat →
        c.powerOnDeadline = pnd.toNat → c.resumeDelay.code = rd →
        let after := s.setDom ⟨b.toNat, h⟩ { s.dom ⟨b.toNat, h⟩ with config := c }
        exec .writeDomain s = .next (after.answer r (0 :: 0 :: after.domainPart ⟨b.toNat, h⟩) false))

/-! ## Reads (R31, R41, R79, R162) -/

/-- R31: READ_WINDOW returns the window's whole record in the layout of R175, changes nothing else, and is refused with RANGE above
W23. -/
def Obligations.ReadWindowReturnsRecord : Prop :=
  ∀ (s : State) (r : Request) (b : Byte), s.HasInHand 0x15 [b] r →
    (∀ h : b.toNat < 24,
      let w := s.window ⟨b.toNat, h⟩
      exec .readWindow s =
        .next (s.answer r
          ([0, 0, flagByte w.config.enabled, w.config.space.code] ++ bytesOf 4 w.config.base.toNat ++
            [byte w.config.span, w.config.direction.code] ++
            (match w.config.requesters with
             | none => [0, 0, 0]
             | some tags => 1 :: bytesOf 2 tags.toNat) ++
            [match w.config.cls with
              | none => 0xFF
              | some c => byte c.val,
             w.config.action.code, flagByte w.armed] ++ bytesOf 2 w.hits) false)) ∧
    (24 ≤ b.toNat → exec .readWindow s = .next (s.answer r [2, 4] false))

/-- READ_CLASSES, READ_STATUS and READ_DOMAIN answer from the state as it stands and change nothing else (R41, R162, R79; the items
of READ_STATUS as one instant's picture is log entry 12); the session state of READ_STATUS is the one its taking left, so that a
SILENT claim taken since does not show (R162). The domain record that READ_DOMAIN and WRITE_DOMAIN return has the 31
positions of R176. -/
def Obligations.ReadsAnswerAndChangeNothing : Prop :=
  ∀ (s : State) (r : Request),
    (s.HasInHand 0x1B [] r →
      exec .readClasses s =
        .next (s.answer r
          ([0, 0] ++ bytesOf 4 s.time.toNat ++
            allClasses.flatMap fun c => bytesOf 2 (s.cls c).holders.toNat ++ optionalTime (s.cls c).last) false)) ∧
    (s.HasInHand 0x05 [] r →
      exec .readStatus s =
        .next (s.answer r
          ([0, 0, if s.unit.session = .closed then 0 else 1, s.unit.resetCause.code, s.link.rate.code, byte s.queue.sentCount,
            byte (s.queue.records.length - s.queue.sentCount)] ++ bytesOf 2 s.queue.nextSeq.toNat ++
            bytesOf 8 s.queue.tally.count.toNat ++ bytesOf 2 s.queue.tally.kinds.toNat ++
            [byte s.queue.credit, s.queue.timeout.code, byte s.queue.retries,
             flagByte (s.queue.records.any fun x => x.kind == .fault || x.kind == .loss)] ++ bytesOf 4 s.time.toNat ++
            allDomains.map fun d => (s.dom d).state.code) false)) ∧
    (∀ b : Byte, s.HasInHand 0x29 [b] r →
      (∀ h : b.toNat < 6,
        exec .readDomain s = .next (s.answer r (0 :: 0 :: s.domainPart ⟨b.toNat, h⟩) false)) ∧
      (6 ≤ b.toNat → exec .readDomain s = .next (s.answer r [2, 4] false))) ∧
    (∀ d : DomainId,
      let x := s.dom d
      let c := x.config
      let rung (k : Nat) : Byte :=
        match c.ladder[k]? with | some .throttled => 1 | some .standby => 2 | some .off => 3 | none => 0xFF
      let cause : Cause → Byte
        | .cls _ => 1 | .host => 2 | .qackDrop => 3 | .clear => 4 | .adopt => 5 | .reset => 6 | .quiesceDeadline => 7
        | .ladder => 8 | .force => 9 | .retire => 10
      let delay : Delay → Byte | .zero => 0 | .us100 => 1 | .ms1 => 2 | .ms10 => 3
      let bit (b : Bool) (k : Nat) : Nat := if b = true then 2 ^ k else 0
      s.domainPart d =
        [match x.state with
          | .active => 0 | .throttled _ _ => 1 | .quiescing _ _ _ => 2 | .settling _ _ _ => 3 | .standby => 4
          | .poweringDown _ _ _ => 5 | .off => 6 | .poweringUp _ => 7 | .resuming _ => 8 | .faulted _ _ => 9 | .retired _ => 10,
         match x.state with
          | .quiescing .standby _ _ | .settling .standby _ _ => 2
          | .quiescing .off _ _ | .settling .off _ _ | .poweringDown _ _ _ => 3
          | _ => 0xFF,
         match x.state with
          | .quiescing _ step _ | .settling _ step _ | .poweringDown step _ _ => cause step
          | _ => 0xFF,
         match c.boundTimer with | none => 0xFF | some i => byte i.val,
         byte c.ladder.length, rung 0, rung 1, rung 2, c.wakeSet.setWidth 8, (c.wakeSet >>> 8).setWidth 8,
         if x.hold = true then 1 else 0,
         match x.state with | .poweringDown _ _ true => 1 | _ => 0,
         byte x.refusals,
         match x.state with
          | .faulted .quiesceRefused _ => 1 | .faulted .powerOffTimeout _ => 2 | .faulted .powerOnTimeout _ => 3
          | .faulted .powerLost _ => 4 | _ => 0xFF,
         match x.state with | .faulted _ true => 1 | _ => 0,
         cause x.lastWake,
         match x.lastWake with | .cls k => byte k.val | _ => 0xFF,
         byte c.throttleOn, byte c.throttleOff, byte c.quiesceDeadline, delay c.stopDelay, byte c.powerOffDeadline,
         byte c.powerOnDeadline, delay c.resumeDelay,
         match x.state with
          | .quiescing _ _ n | .poweringDown _ n _ | .poweringUp n => byte n
          | .settling _ _ kept | .resuming kept => delay kept
          | _ => 0xFF,
         match x.state.comparisonDepth with | none => 0xFF | some depth => byte depth,
         if ∃ k : ClassId, c.wakeSet.getLsbD k.val = true ∧ (s.cls k).holders ≠ 0 then 1 else 0,
         byte (bit (s.outputs d).clken 0 + bit (s.outputs d).pwren 1 + bit (s.outputs d).qreq 2),
         match x.state with | .throttled .onPhase _ => 1 | .throttled .offPhase _ => 2 | _ => 0,
         match x.state with | .throttled _ n => byte n | _ => 0,
         byte (bit x.qack 0 + bit x.pgood 1)])

/-! ## Requests to the observation blocks (chapters 1 and 2) -/

/-- SET_SNOOP replaces the three enables (R3), SET_FALLTHROUGH the fallthrough class (R35), and ARM_TRAP arms a window (R34); each is
refused with RANGE for a value its field does not define. -/
def Obligations.SnoopFallthroughAndArm : Prop :=
  ∀ (s : State) (r : Request),
    (∀ m i c : Byte, s.HasInHand 0x10 [m, i, c] r →
      exec .setSnoop s =
        .next
          (if m.toNat ≤ 1 ∧ i.toNat ≤ 1 ∧ c.toNat ≤ 1 then
             ({ s with snoop := { memory := decide (m = 1), io := decide (i = 1), config := decide (c = 1) } } : State).answer r
               [0, 0, m, i, c] false
           else s.answer r [2, 4] false)) ∧
    (∀ b : Byte, s.HasInHand 0x18 [b] r →
      let before : Byte :=
        match s.fallthrough with
        | none => 0xFF
        | some c => byte c.val
      (∀ h : b.toNat < 16,
        exec .setFallthrough s = .next (({ s with fallthrough := some ⟨b.toNat, h⟩ } : State).answer r [0, 0, before] false)) ∧
      (b = 0xFF → exec .setFallthrough s = .next (({ s with fallthrough := none } : State).answer r [0, 0, before] false)) ∧
      (16 ≤ b.toNat → b ≠ 0xFF → exec .setFallthrough s = .next (s.answer r [2, 4] false))) ∧
    (∀ b : Byte, s.HasInHand 0x17 [b] r →
      (∀ h : b.toNat < 24,
        exec .armTrap s =
          .next ((s.setWindow ⟨b.toNat, h⟩ { s.window ⟨b.toNat, h⟩ with armed := true }).answer r
            [0, 0, flagByte (s.window ⟨b.toNat, h⟩).armed] false)) ∧
      (24 ≤ b.toNat → exec .armTrap s = .next (s.answer r [2, 4] false)))

/-- SET_LINE's checks (R13) and its order (R14): a hold ends, the configuration is replaced, and a hold begins where the recognised
level qualifies; the reply carries the level and the hold left. -/
def Obligations.SetLineReconfigures : Prop :=
  ∀ (s : State) (r : Request) (b q c : Byte), s.HasInHand 0x11 [b, q, c] r →
    (∀ (h : b.toNat < 12) (hc : c.toNat < 16) (qualifier : Qualifier),
      ([.off, .rise, .fall, .edge, .high, .low] : List Qualifier)[q.toNat]? = some qualifier →
      let l : LineId := ⟨b.toNat, h⟩
      let cls : ClassId := ⟨c.toNat, hc⟩
      let x := s.line l
      let ended :=
        match x.holding with
        | none => s
        | some old => (s.setLine l { x with holding := none }).endHold l old
      let y : Line := { x with holding := none, qualifier := qualifier, cls := cls }
      let holds := qualifier = .high ∧ x.level = true ∨ qualifier = .low ∧ x.level = false
      exec .setLine s =
        .next
          (if holds then
             (((ended.setLine l y).setLine l { y with holding := some cls }).beginHold l cls).answer r
               [0, 0, flagByte x.level, 1, c] false
           else (ended.setLine l y).answer r [0, 0, flagByte x.level, 0, 0xFF] false)) ∧
    (12 ≤ b.toNat ∨ 16 ≤ c.toNat ∨ 6 ≤ q.toNat → exec .setLine s = .next (s.answer r [2, 4] false))

/-- WRITE_WINDOW's checks (R28), and its replacing of the configuration, arming, and clearing under the clear flag, the reply
carrying the hit count before (R29). -/
def Obligations.WriteWindowReplacesConfiguration : Prop :=
  ∀ (s : State) (r : Request) (b en sf b0 b1 b2 b3 k dir rp q0 q1 cl act clr : Byte),
    s.HasInHand 0x14 [b, en, sf, b0, b1, b2, b3, k, dir, rp, q0, q1, cl, act, clr, 0] r →
    let inRange :=
      b.toNat < 24 ∧ en.toNat ≤ 1 ∧ sf.toNat ≤ 3 ∧ k.toNat ≤ 32 ∧ dir.toNat ≤ 2 ∧ rp.toNat ≤ 1 ∧
      (cl = 0xFF ∨ cl.toNat < 16) ∧ act.toNat ≤ 3 ∧ clr.toNat ≤ 1
    let emptySet := rp = 1 ∧ q0 = 0 ∧ q1 = 0
    (¬ inRange → exec .writeWindow s = .next (s.answer r [2, 4] false)) ∧
    (inRange → emptySet → exec .writeWindow s = .next (s.answer r [2, 5] false)) ∧
    (∀ h : b.toNat < 24, inRange → ¬ emptySet →
      ∀ c : WindowConfig, c.enabled = decide (en = 1) → c.space.code = sf → c.base = b3 ++ b2 ++ b1 ++ b0 →
        c.span = k.toNat → c.direction.code = dir → c.requesters = (if rp = 1 then some (q1 ++ q0) else none) →
        c.cls.map (·.val) = (if cl = 0xFF then none else some cl.toNat) → c.action.code = act →
        let w : WindowId := ⟨b.toNat, h⟩
        exec .writeWindow s =
          .next ((s.setWindow w { config := c, armed := true, hits := if clr = 1 then 0 else (s.window w).hits }).answer r
            ([0, 0] ++ bytesOf 2 (s.window w).hits) false))

/-- READ_HITS (R32) takes its windows one at a time in index order, each count read, and set to 0 under the clear flag, in one step
(R33); after the last the reply carries the counts. One command is one window's step, the counts standing in the state between
(log entry 10). -/
def Obligations.ReadHitsStepsThroughWindows : Prop :=
  ∀ (s : State) (r : Request) (first number clear : Byte), s.HasInHand 0x16 [first, number, clear] r →
    (∀ h : first.toNat + s.unit.hitsRead.length < 24, first.toNat + number.toNat ≤ 24 →
      s.unit.hitsRead.length < number.toNat → clear.toNat ≤ 1 →
      let w : WindowId := ⟨first.toNat + s.unit.hitsRead.length, h⟩
      let counts := s.unit.hitsRead ++ [(s.window w).hits]
      let read := if clear = 1 then s.setWindow w { s.window w with hits := 0 } else s
      exec .readHits s =
        .next
          (if s.unit.hitsRead.length + 1 = number.toNat then
             (read.setUnit { s.unit with hitsRead := [] }).answer r (0 :: 0 :: counts.flatMap (bytesOf 2)) false
           else read.setUnit { s.unit with hitsRead := counts })) ∧
    (number = 0 ∨ 24 < first.toNat + number.toNat ∨ 2 ≤ clear.toNat →
      exec .readHits s = .next (s.answer r [2, 4] false))

/-! ## Report Queue (chapter 6) -/

/-- How the queue takes a report (R114, R115): into the UNSENT record of its kind and subject, as lost where that record's count is
full, appended at the tail with the next sequence number, or as lost at the governor time of the taking, and not at the time the
report carries, which is the model's reading (log entry 20). The kinds that coalesce and what becomes of the detail, by the tables of R113
and R114: EXPIRY and DOMAIN take the newer, LINK_ERROR adds its counts, TRAP and OBS_OVERRUN keep the older. And how n reports are
counted as lost, by the table of R118, none changing nothing; a tally sum beyond 64 bits is a free value (log entry 4), which the
kinds and the times do not wait on. -/
def Obligations.QueueTakesReportOrLoss : Prop :=
  (∀ (q : ReportQueue) (now : Millis) (x : Report),
    let kind := x.detail.kind
    let twin (y : Record) := y.sent = false ∧ y.kind = kind ∧ y.subject = x.subject
    (∀ (before after : List Record) (y : Record), kind.merges = true → q.records = before ++ y :: after →
      (∀ z ∈ before, ¬ twin z) → twin y →
      q.take now x =
        if y.count < 65535 then
          { q with
            records := before ++
              { y with count := y.count + 1, last := x.time, detail := y.detail.join x.detail } :: after }
        else q.countLost 1 kind now) ∧
    ((kind.merges = false ∨ ∀ z ∈ q.records, ¬ twin z) →
      q.take now x =
        if q.ordinaryCount < 31 ∧ (∀ head, q.records.head? = some head → head.seq ≠ q.nextSeq) then
          { q with
            records := q.records ++
              [{ seq := q.nextSeq, sent := false, resent := false, first := x.time, last := x.time, subject := x.subject,
                 count := 1, detail := x.detail }]
            nextSeq := q.nextSeq + 1 }
        else q.countLost 1 kind now)) ∧
  (∀ kind : Kind,
    kind.merges = true ↔ kind = .trap ∨ kind = .expiry ∨ kind = .domain ∨ kind = .obsOverrun ∨ kind = .linkError) ∧
  (∀ older newer : Detail, older.kind = newer.kind → older.kind.merges = true →
    older.join newer =
      (match older, newer with
       | .linkError a, .linkError b =>
         .linkError
           { gap := a.gap + b.gap, framing := a.framing + b.framing, check := a.check + b.check, length := a.length + b.length,
             overrun := a.overrun + b.overrun, type := a.type + b.type }
       | .trap _ _ _ _, _ | .obsOverrun, _ => older
       | _, _ => newer)) ∧
  (∀ (q : ReportQueue) (n : Nat) (kind : Kind) (t : Millis),
    (∀ (before after : List Record) (y : Record) (kinds : BitVec 16), q.records = before ++ y :: after →
      (∀ z ∈ before, z.kind ≠ .loss) → y.detail = .loss kinds →
      q.countLost n kind t =
        if y.sent = true then { q with tally := q.tally.take n kind t }
        else
          { q with
            records := before ++
              { y with
                count := min (y.count + n) 65535, last := t
                detail := .loss (kinds ||| ((1 : BitVec 16) <<< kind.code)) } :: after
            tally := q.tally.take (y.count + n - 65535) kind t }) ∧
    ((∀ z ∈ q.records, z.kind ≠ .loss) →
      q.countLost n kind t =
        if ∀ head, q.records.head? = some head → head.seq ≠ q.nextSeq then
          { q with
            records := q.records ++
              [{ seq := q.nextSeq, sent := false, resent := false, first := t, last := t, subject := none,
                 count := min n 65535, detail := .loss ((1 : BitVec 16) <<< kind.code) }]
            nextSeq := q.nextSeq + 1
            tally := q.tally.take (n - 65535) kind t }
        else { q with tally := q.tally.take n kind t }) ∧
    (∀ y : Tally, y.take 0 kind t = y) ∧
    (∀ (y : Tally) (m : Nat), 0 < m →
      (y.count.toNat + m < 2 ^ 64 → (y.take m kind t).count.toNat = y.count.toNat + m) ∧
      (y.take m kind t).kinds = y.kinds ||| ((1 : BitVec 16) <<< kind.code) ∧
      (y.take m kind t).first = (if y.count = 0 then t else y.first) ∧ (y.take m kind t).last = t))

/-- Every report is accounted for in one condition (R120): a report taken adds one to the counts of records and tally, a reversion
with its folds and losses keeps their sum, and an acknowledgement takes away exactly the counts of the records it removes. The sum is
taken to fit the tally's 64 bits, beyond which its count is a free value (log entry 4). -/
def Obligations.EveryReportIsAccounted : Prop :=
  (∀ (q : ReportQueue) (now : Millis) (x : Report), q.accounted + 1 < 2 ^ 64 → (q.take now x).accounted = q.accounted + 1) ∧
  (∀ (q : ReportQueue) (t : Millis), q.accounted < 2 ^ 64 → (q.revert t).accounted = q.accounted) ∧
  (∀ (q after : ReportQueue) (n : BitVec 16) (removed : Nat), q.acknowledge? n = some (removed, after) →
    after.accounted + ((q.records.take removed).map (·.count)).sum = q.accounted)

/-- A reversion (R126): every SENT record becomes UNSENT, RESENT being set where a record that was SENT stays and as it was where one
that was UNSENT stays; the ack timer stops, and records are folded until no two could be one; a record that stays keeps its sequence
number, place, subject, kind and first time, and a LOSS record may be appended. The records are folded one after another: each goes
into the oldest before it of its kind and subject, stays where there is none, or is counted as lost where the sum does not fit; the
losses are counted after the folds (log entry 16). -/
def Obligations.ReversionFolds : Prop :=
  ∀ (q : ReportQueue) (t : Millis),
    let reverted (r : Record) : Record := if r.sent = true then { r with sent := false, resent := true } else r
    let after := q.revert t
    (∀ r ∈ after.records, r.sent = false) ∧ after.records.Pairwise (fun a b => ¬ a.Twins b) ∧ after.ackTimer = none ∧
    (∃ kept : List Record, kept.Sublist q.records ∧
      let marks (r : Record) (resent : Bool) := (r.seq, resent, r.subject, r.kind, r.first)
      (after.records.map (fun y => marks y y.resent) = kept.map (fun r => marks r (r.sent || r.resent)) ∨
        after.records.map (fun y => marks y y.resent) =
          kept.map (fun r => marks r (r.sent || r.resent)) ++ [(q.nextSeq, false, none, .loss, t)])) ∧
    ((q.records.map reverted).Pairwise (fun a b => ¬ a.Twins b) →
      after = { q with records := q.records.map reverted, ackTimer := none }) ∧
    (let folded := foldRecords (q.records.map reverted)
     after = folded.2.foldl (fun p y => p.countLost y.2 y.1 t) { q with records := folded.1, ackTimer := none }) ∧
    foldRecords [] = ([], []) ∧
    (∀ (earlier : List Record) (b : Record), b.sent = false →
      let so := foldRecords earlier
      ((∀ a ∈ so.1, ¬ a.Twins b) → foldRecords (earlier ++ [b]) = (so.1 ++ [b], so.2)) ∧
      (∀ (before mid : List Record) (a : Record), so.1 = before ++ a :: mid → (∀ z ∈ before, ¬ z.Twins b) → a.Twins b →
        foldRecords (earlier ++ [b]) =
          if a.count + b.count ≤ 65535 then
            (before ++ { a with count := a.count + b.count, last := b.last, detail := a.detail.join b.detail } :: mid, so.2)
          else (so.1, so.2 ++ [(b.kind, b.count)])))

/-- An ack timer expiry reverts and raises the retry count to at most 8, at 8 handing the SILENT claim (R125); the claim makes an OPEN
session SILENT while the retry count is still 8 (R159). Between the two the claim stands in one flag (log entry 17). -/
def Obligations.AckTimeoutsLeadToSilence : Prop :=
  ∀ s : State, s.Running →
    (∀ timeout, s.queue.ackTimer = some timeout →
      let expired := s.setQueue { s.queue.revert s.time with retries := min (s.queue.retries + 1) 8 }
      exec .ackTimerExpiry s =
        .next (if 7 ≤ s.queue.retries then expired.setUnit { s.unit with silentClaim := true } else expired)) ∧
    (s.unit.silentClaim = true →
      exec .silentClaim s =
        .next (s.setUnit
          { s.unit with
            silentClaim := false
            session := if s.unit.session = .opened ∧ s.queue.retries = 8 then .silent else s.unit.session }))

/-- ACK (R124): the records through the named SENT one are removed, the retry count becomes 0, the ack timer restarts or stops, and a
LOSS record is made from the tally where none is left; BAD_ACK where no SENT record has the number. SET_REPORTING (R127): RANGE, then
WINDOW_BUSY; else the settings are replaced, and the ack timer restarts or stops where records are SENT. That a tally emptied keeps
its times is the model's choice (log entry 2). -/
def Obligations.AckAndSetReporting : Prop :=
  (∀ (s : State) (r : Request) (lo hi : Byte), s.HasInHand 0x09 [lo, hi] r →
    let q := s.queue
    (∀ (before after : List Record) (x : Record), q.records = before ++ x :: after → x.sent = true → x.seq = hi ++ lo →
      (∀ y ∈ before, ¬ (y.sent = true ∧ y.seq = hi ++ lo)) →
      let cut : ReportQueue :=
        { q with
          records := after, retries := 0
          ackTimer := if (∃ y ∈ after, y.sent = true) ∧ q.timeout ≠ .off then some q.timeout else none }
      let n := min q.tally.count.toNat 65535
      let left := q.tally.count - BitVec.ofNat 64 n
      let drained : ReportQueue :=
        if (∃ y ∈ after, y.kind = .loss) ∨ q.tally.count = 0 then cut
        else
          { cut with
            records := after ++
              [{ seq := q.nextSeq, sent := false, resent := false, first := q.tally.first, last := q.tally.last,
                 subject := none, count := n, detail := .loss q.tally.kinds }]
            nextSeq := q.nextSeq + 1
            tally := { q.tally with count := left, kinds := if left = 0 then 0 else q.tally.kinds } }
      exec .ack s =
        .next ((s.setQueue drained).answer r
          ([0, 0, byte (before.length + 1), byte drained.records.length] ++ bytesOf 2 drained.nextSeq.toNat) false)) ∧
    ((∀ x ∈ q.records, ¬ (x.sent = true ∧ x.seq = hi ++ lo)) → exec .ack s = .next (s.answer r [2, 0x0F] false))) ∧
  (∀ (s : State) (r : Request) (w a : Byte), s.HasInHand 0x08 [w, a] r →
    let q := s.queue
    (∀ timeout : AckTimeout, timeout.code = a → 1 ≤ w.toNat → w.toNat ≤ 8 →
      exec .setReporting s =
        .next
          (if w.toNat < q.sentCount then s.answer r [2, 0x0E] false
           else
             (s.setQueue
               { q with
                 credit := w.toNat, timeout := timeout
                 ackTimer := if q.sentCount = 0 ∨ timeout = .off then none else some timeout }).answer r
               [0, 0, byte q.credit, q.timeout.code, byte q.sentCount] false)) ∧
    (w = 0 ∨ 9 ≤ w.toNat ∨ 8 ≤ a.toNat → exec .setReporting s = .next (s.answer r [2, 4] false)))

/-! ## Management link (chapter 7) -/

/-- The arbiter at a frame boundary (R145): the oldest reply, else the record on offer, which becomes SENT (R121), its frame in the
layout of R177, else nothing. At the end of a RESET FULL's reply no frame begins and the full reset begins (R165); that it lasts until
FULL_RESET_END, every other register keeping its value meanwhile, is the model's choice (log entries 14 and 8). -/
def Obligations.BoundaryChoosesFrame : Prop :=
  ∀ s : State, s.Running →
    let sends (characters : List Byte) (resets : Bool) : Link → Link :=
      fun k => { k with tx := some { characters := characters, resets := resets } }
    let kind : Detail → Byte
      | .restart _ _ => 1 | .trap _ _ _ _ => 2 | .expiry _ => 3 | .domain _ _ => 4 | .refusal _ => 5 | .fault _ _ => 6
      | .obsOverrun => 7 | .linkError _ => 8 | .loss _ => 9
    let cause : Cause → Byte
      | .cls _ => 1 | .host => 2 | .qackDrop => 3 | .clear => 4 | .adopt => 5 | .reset => 6 | .quiesceDeadline => 7
      | .ladder => 8 | .force => 9 | .retire => 10
    let bit (b : Bool) (k : Nat) : Nat := if b = true then 2 ^ k else 0
    let detail : Detail → List Byte
      | .restart reset revision =>
        [match reset with | .powerOn => 0 | .pin => 1 | .host => 2, revision]
      | .trap address space direction requester =>
        bytesOf 4 address.toNat ++
          [match space with | .memory => 0 | .io => 1 | .config => 2,
           match direction with | .read => 0 | .write => 1, byte requester.toNat]
      | .expiry count => [byte count]
      | .domain entered transition =>
        [match entered with | .active => 0 | .throttled => 1 | .standby => 4 | .off => 6 | .retired => 10, cause transition,
         match transition with | .cls k => byte k.val | _ => 0xFF]
      | .refusal count => [byte count]
      | .fault fault outputs =>
        [match fault with | .quiesceRefused => 1 | .powerOffTimeout => 2 | .powerOnTimeout => 3 | .powerLost => 4,
         byte (bit outputs.clken 0 + bit outputs.pwren 1 + bit outputs.qreq 2)]
      | .obsOverrun => []
      | .linkError k =>
        bytesOf 2 k.gap ++ bytesOf 2 k.framing ++ bytesOf 2 k.check ++ bytesOf 2 k.length ++ bytesOf 2 k.overrun ++
          bytesOf 2 k.type
      | .loss kinds => bytesOf 2 kinds.toNat
    ((∀ frame, s.link.tx = some frame → frame.resets = false) →
      (∀ y rest, s.link.replies = y :: rest →
        exec .frameBoundary s =
          .next (s.setLink (sends (frameOf (y.type :: y.tag :: y.payload)) y.resets { s.link with replies := rest }))) ∧
      (∀ (before after : List Record) (x : Record), s.link.replies = [] → s.unit.session = .opened → s.queue.retries < 8 →
        s.queue.sentCount < s.queue.credit → s.queue.records = before ++ x :: after → (∀ y ∈ before, y.sent = true) →
        x.sent = false →
        exec .frameBoundary s =
          .next
            ((s.setQueue
              { s.queue with
                records := before ++ { x with sent := true } :: after
                ackTimer :=
                  if s.queue.sentCount = 0 then (if s.queue.timeout = .off then none else some s.queue.timeout)
                  else s.queue.ackTimer }).setLink
              (sends (frameOf
                ([0x70, 0] ++ bytesOf 2 x.seq.toNat ++ [kind x.detail, if x.resent = true then 1 else 0] ++
                  bytesOf 4 x.first.toNat ++ bytesOf 4 x.last.toNat ++
                  [match x.subject with
                    | none => 0xFF
                    | some i => byte i] ++ bytesOf 2 x.count ++ detail x.detail)) false s.link))) ∧
      (s.link.replies = [] →
        (s.unit.session ≠ .opened ∨ 8 ≤ s.queue.retries ∨ s.queue.credit ≤ s.queue.sentCount ∨
          ∀ y ∈ s.queue.records, y.sent = true) →
        exec .frameBoundary s = .next (s.setLink { s.link with tx := none }))) ∧
    (∀ frame, s.link.tx = some frame → frame.resets = true →
      exec .frameBoundary s =
        .next
          { s with
            board := { s.board with fullReset := some .host }
            link := { s.link with tx := none }
            unit := { s.unit with inHand := none, made := none, discard := false, fullResetPending := false } })

/-- The frame receiver takes a character by its state (R135 to R139), each error handing a LINK_ERROR report with its reason
(R140). A FRAMING error and a GAP error abandon the partial frame (R134, R138); a start edge begins a character and stops the gap timer
(R134, R138), but for one whose start bit samples high, which is noise: the character receiver waits again (R134) and the gap timer
runs on (the model's reading, log entry 11). -/
def Obligations.ReceiverTakesCharacter : Prop :=
  (∀ (s : State) (b : Byte), s.Running →
    let into (f : FrameRx) (gap : Bool) : State :=
      { s with link := { s.link with charRx := .waiting, frameRx := f, gapRunning := gap } }
    let error (counts : LinkCounts) : State :=
      (into .hunt false).report { subject := none, time := s.time, detail := .linkError counts }
    let none' : LinkCounts := { gap := 0, framing := 0, check := 0, length := 0, overrun := 0, type := 0 }
    (s.link.frameRx = .hunt →
      exec (.rxCharacter b) s = .next (if b = 0xC3 then into .length true else into .hunt s.link.gapRunning)) ∧
    (s.link.frameRx = .length →
      exec (.rxCharacter b) s =
        .next (if 2 ≤ b.toNat ∧ b.toNat ≤ 248 then into (.body b []) true else error { none' with length := 1 })) ∧
    (∀ len received, s.link.frameRx = .body len received →
      exec (.rxCharacter b) s =
        .next
          (if received.length + 1 < len.toNat then into (.body len (received ++ [b])) true
           else into (.check len (received ++ [b]) none) true)) ∧
    (∀ len received, s.link.frameRx = .check len received none →
      exec (.rxCharacter b) s = .next (into (.check len received (some b)) true)) ∧
    (∀ len type tag payload low, s.link.frameRx = .check len (type :: tag :: payload) (some low) →
      exec (.rxCharacter b) s =
        .next
          (if crc (len :: type :: tag :: payload) ≠ b ++ low then error { none' with check := 1 }
           else if 0x70 ≤ type.toNat then error { none' with type := 1 }
           else if s.link.requests.length < 4 then
             (into .hunt false).setLink
               { (into .hunt false).link with
                 requests := s.link.requests ++ [{ type := type, tag := tag, payload := payload }] }
           else error { none' with overrun := 1 }))) ∧
  (∀ s : State, s.Running →
    let report (counts : LinkCounts) : Report := { subject := none, time := s.time, detail := .linkError counts }
    exec .framingError s =
      .next
        (({ s with link := { s.link with charRx := .waiting, frameRx := .hunt, gapRunning := false } } : State).report
          (report { gap := 0, framing := 1, check := 0, length := 0, overrun := 0, type := 0 })) ∧
    (s.link.gapRunning = true →
      exec .gapError s =
        .next
          (({ s with link := { s.link with frameRx := .hunt, gapRunning := false } } : State).report
            (report { gap := 1, framing := 0, check := 0, length := 0, overrun := 0, type := 0 }))) ∧
    (s.link.charRx ≠ .inCharacter →
      exec (.characterStartEdge false) s =
        .next { s with link := { s.link with charRx := .inCharacter, gapRunning := false } } ∧
      exec (.characterStartEdge true) s = .next { s with link := { s.link with charRx := .waiting } }))

/-- The receiver reads what the transmitter's framing writes (R135 to R139, R144): the characters of a frame around any request, taken
one by one from HUNT, put that request at the tail of the request queue and leave the rest of the part as it was. -/
def Obligations.FramedRequestIsReceived : Prop :=
  ∀ (s : State) (type tag : Byte) (payload : List Byte), s.Running → s.link.frameRx = .hunt → s.link.requests.length < 4 →
    type.toNat < 0x70 → payload.length ≤ 246 →
    execAll ((frameOf (type :: tag :: payload)).map .rxCharacter) s =
      .next
        { s with
          link :=
            { s.link with
              charRx := .waiting, frameRx := .hunt, gapRunning := false
              requests := s.link.requests ++ [{ type := type, tag := tag, payload := payload }] } }

/-- A break's link reset (R147, R159, R129): the receiver to HUNT, both queues emptied, the session CLOSED, the discard mark set with a
request in hand, the records reverted; a frame in transmission goes on. Where it discards a RESET FULL's reply the full reset begins
(R165), and the frame in transmission is then cut, which is the model's reading (log entry 19). That a break is taken in every phase of
the character receiver, and its claims at the queue and the Command Unit in the same event, is log entry 11. -/
def Obligations.BreakResetsLink : Prop :=
  ∀ s : State, s.Running →
    let broken : State :=
      { s with
        link := { s.link with charRx := .afterBreak, frameRx := .hunt, gapRunning := false, requests := [], replies := [] }
        unit := { s.unit with session := .closed, discard := s.unit.inHand.isSome }
        queue := { s.queue.revert s.time with retries := 0 } }
    exec .rxBreak s =
      .next
        (if ∃ y ∈ s.link.replies, y.resets = true then
           { broken with
             board := { s.board with fullReset := some .host }
             link := { broken.link with tx := none }
             unit := { broken.unit with inHand := none, made := none, discard := false, fullResetPending := false } }
         else broken)

/-! ## Command Unit (chapter 8) -/

/-- The taking of a request (R151): only when ready, the oldest first; a SILENT session reopens; then the checks of R152 in their
order, by the codes and lengths of R170, refuse it or leave it in hand. An execution makes a reply with its request's TYPE plus 0x80
and TAG (R153, R155), which then, in an event of its own, joins the reply queue at its tail, or under the discard mark is discarded,
with the full reset taking place where it is a RESET FULL's (R165); no request is in hand from that event (R153). That the joining is
taken by a further command of the request's TYPE is the model's choice (log entry 9), and how the full reset begins log entries 8 and
19. What a NUDGE or SET_LINE with notices on their way takes before the joining (log entry 24), PulseReachesListeners says. -/
def Obligations.RequestIsTakenCheckedAnswered : Prop :=
  (∀ s : State, s.Running →
    (∀ (r : Request) (rest : List Request), s.link.requests = r :: rest → s.unit.inHand = none →
      s.unit.fullResetPending = false → s.link.replies.length < 4 →
      let lengths : List (Nat × Nat) :=
        [(0x01, 2), (0x02, 0), (0x04, 0), (0x05, 0), (0x06, 1), (0x08, 2), (0x09, 2), (0x10, 3), (0x11, 3), (0x14, 16),
         (0x15, 1), (0x16, 3), (0x17, 1), (0x18, 1), (0x1A, 1), (0x1B, 0), (0x20, 8), (0x21, 1), (0x22, 1), (0x23, 1),
         (0x28, 16), (0x29, 1), (0x2A, 2), (0x2B, 2), (0x2C, 2), (0x2D, 1), (0x2E, 1)]
      let known := r.type.toNat = 0x03 ∨ r.type.toNat ∈ lengths.map Prod.fst
      let fits := (r.type.toNat = 0x03 ∧ r.payload.length ≤ 240) ∨ (r.type.toNat, r.payload.length) ∈ lengths
      let reserved := (r.type.toNat = 0x14 ∨ r.type.toNat = 0x28) ∧ r.payload.getLast? ≠ some 0
      let closed := s.unit.session = .closed ∧ r.type.toNat ∉ [0x01, 0x03, 0x04, 0x05, 0x06]
      let reopened : State :=
        { s with
          link := { s.link with requests := rest }
          unit := { s.unit with session := if s.unit.session = .silent then .opened else s.unit.session }
          queue := { s.queue with retries := if s.unit.session = .silent then 0 else s.queue.retries } }
      let refused (reason : Byte) : State :=
        reopened.setLink
          { reopened.link with
            replies := s.link.replies ++ [{ type := r.type + 0x80, tag := r.tag, payload := [2, reason], resets := false }] }
      exec .takeRequest s =
        .next
          (if ¬ known then refused 1
           else if ¬ fits then refused 2
           else if reserved then refused 3
           else if closed then refused 7
           else reopened.setUnit { reopened.unit with inHand := some r, made := none, discard := false })) ∧
    (s.link.requests = [] ∨ s.unit.inHand.isSome = true ∨ s.unit.fullResetPending = true ∨ 4 ≤ s.link.replies.length →
      exec .takeRequest s = .next s)) ∧
  (∀ (s : State) (r : Request) (payload : List Byte) (resets : Bool),
    s.answer r payload resets =
      { s with
        unit :=
          { s.unit with made := some { type := r.type + 0x80, tag := r.tag, payload := payload, resets := resets } } }) ∧
  (∀ (c : Instr) (s : State) (r : Request) (reply : Reply), requestType? c = some r.type → s.Running →
    s.unit.inHand = some r → s.unit.made = some reply →
    (r.type = 0x11 ∨ r.type = 0x1A → ∀ n ∈ s.notices, n.ofRequest = false) →
    exec c s =
      .next
        (if s.unit.discard = false then
           { s with
             link := { s.link with replies := s.link.replies ++ [reply] }
             unit := { s.unit with inHand := none, made := none, discard := false } }
         else if reply.resets = false then
           { s with unit := { s.unit with inHand := none, made := none, discard := false } }
         else
           { s with
             board := { s.board with fullReset := some .host }
             link := { s.link with tx := none }
             unit := { s.unit with inHand := none, made := none, discard := false, fullResetPending := false } }))

/-- OPEN (R128, R157): RANGE for its settings; else the records revert, the retry count becomes 0, the settings are taken and the
session is OPEN, the reply naming part, reset cause, head and settings. CLOSE (R129, R158): the records revert, the retry count
becomes 0 and the session is CLOSED. -/
def Obligations.OpenAndClose : Prop :=
  ∀ (s : State) (r : Request),
    (∀ (w a : Byte), s.HasInHand 0x01 [w, a] r →
      (∀ timeout : AckTimeout, timeout.code = a → 1 ≤ w.toNat → w.toNat ≤ 8 →
        let q : ReportQueue := { s.queue.revert s.time with retries := 0, credit := w.toNat, timeout := timeout }
        let head := match q.records with | [] => q.nextSeq | x :: _ => x.seq
        exec .openSession s =
          .next (((s.setQueue q).setUnit { s.unit with session := .opened }).answer r
            ([0, 0, 0x1C, 0x5A, 0x16, 0x24, 0x01, s.unit.resetCause.code] ++ bytesOf 2 head.toNat ++
              [byte q.records.length, w, a]) false)) ∧
      (w = 0 ∨ 9 ≤ w.toNat ∨ 8 ≤ a.toNat → exec .openSession s = .next (s.answer r [2, 4] false))) ∧
    (s.HasInHand 0x02 [] r →
      let q : ReportQueue := { s.queue.revert s.time with retries := 0 }
      exec .closeSession s =
        .next (((s.setQueue q).setUnit { s.unit with session := .closed }).answer r [0, 0, byte q.records.length] false))

/-- R160 and R161: PING and IDENTIFY pass the checks in every session state, PING with 0 to 240 bytes and no more; they change nothing;
PING returns its payload unchanged, IDENTIFY the identity and the capacities, the revision being that of the RESTART record; and a
PING taken while SILENT reopens the session. -/
def Obligations.PingAndIdentifyAnswer : Prop :=
  (∀ (r : Request) (session : Session),
    (r.type = 0x03 → r.payload.length ≤ 240 → r.refusedFor session = none) ∧
    (r.type = 0x03 → 240 < r.payload.length → r.refusedFor session = some .badLength) ∧
    (r.type = 0x04 → r.payload = [] → r.refusedFor session = none)) ∧
  (∀ (s : State) (r : Request) (payload : List Byte), s.HasInHand 0x03 payload r →
    exec .ping s = .next (s.answer r (0 :: 0 :: payload) false)) ∧
  (∀ (s : State) (r : Request), s.HasInHand 0x04 [] r →
    exec .identify s = .next (s.answer r [0, 0, 0x1C, 0x5A, 0x16, 0x24, 0x01, 24, 16, 12, 8, 6, 32] false)) ∧
  (∀ cause, ∃ x rest, (ReportQueue.restarted cause).records = x :: rest ∧ x.detail = .restart cause 0x01) ∧
  (∀ (s : State) (r : Request) (rest : List Request), s.Running → s.unit.session = .silent → s.link.requests = r :: rest →
    r.type = 0x03 → s.unit.inHand = none → s.unit.fullResetPending = false → s.link.replies.length < 4 →
    ∃ t, exec .takeRequest s = .next t ∧ t.unit.session = .opened ∧ t.queue.retries = 0)

/-- The soft reset, block by block (R164), of the RESET with scope SOFT in hand: what each block's event does and that it leaves all
else, the Line Monitor's ended holds releasing the timers that were HELD (R39, R48), that the reply is made with the last of them, and
RANGE for a scope that is neither, which either command of RESET answers (log entry 9). One command is one block's event, the blocks
done standing in the state between (log entry 10). -/
def Obligations.SoftResetBlockByBlock : Prop :=
  ∀ (s : State) (r : Request),
    (∀ block : SoftBlock, s.HasInHand 0x06 [2] r → block ∉ s.unit.softTaken →
      let t := s.softReset block
      exec (.resetSoft block) s =
        .next
          (if ∀ other ∈ allSoftBlocks, other = block ∨ other ∈ s.unit.softTaken then
             (t.setUnit { s.unit with softTaken := [] }).answer r [0, 0] false
           else t.setUnit { s.unit with softTaken := block :: s.unit.softTaken })) ∧
    (∀ block, block ∈ allSoftBlocks) ∧
    s.softReset .snoopPort = { s with snoop := { memory := false, io := false, config := false } } ∧
    s.softReset .captureFifo = { s with fifo := [] } ∧
    (∀ l, (s.softReset .lineMonitor).line l =
      { s.line l with qualifier := .off, cls := 0, holding := none }) ∧
    (∀ c, ((s.softReset .lineMonitor).cls c).last = (s.cls c).last) ∧
    (let released (x : Timer) : Timer :=
       { x with state := .counting, remaining := x.loadCount * x.unit.millis, expiries := 0, due := false }
     (∀ i, (s.softReset .lineMonitor).timer i = s.timer i ∨
       (s.timer i).state = .held ∧ (s.softReset .lineMonitor).timer i = released (s.timer i)) ∧
     (s.HoldsAgree →
       (∀ c, ((s.softReset .lineMonitor).cls c).holders = 0) ∧
       ∀ i, (s.softReset .lineMonitor).timer i =
         if (s.timer i).state = .held then released (s.timer i) else s.timer i)) ∧
    { s.softReset .lineMonitor with lines := s.lines, classes := s.classes, timers := s.timers } = s ∧
    s.softReset .windowTable = { s with windows := State.reset.windows, fallthrough := none } ∧
    (∀ c, (s.softReset .classMap).cls c = { s.cls c with last := none }) ∧
    { s.softReset .classMap with classes := s.classes } = s ∧
    s.softReset .timerBank = { s with timers := State.reset.timers } ∧
    (∀ d, s.softReset (.domainGovernor d) =
      s.setDom d { s.dom d with config := (State.reset.dom d).config, hold := false, refusals := 0 }) ∧
    (∀ (b : Byte) (block : SoftBlock), b ≠ 1 → b ≠ 2 → s.HasInHand 0x06 [b] r →
      exec (.resetSoft block) s = .next (s.answer r [2, 4] false) ∧ exec .resetFull s = .next (s.answer r [2, 4] false))

/-! ## Full reset by pin and supplies (chapter 11) -/

/-- The beginnings of a full reset: a RESET with scope FULL, whose execution makes the OK reply whose end is the full reset, and whose
reply, discarded under the discard mark, begins it in that event (R165); a recognised low on RESET# with cause PIN unless one is in
progress, and a supply entering or leaving its range with cause POWER_ON whatever is in progress (R180), the supplies coming with the
command (log entry 14). A request in hand is abandoned (R154) and a frame in transmission is cut: R149 says so of power-on and RESET#,
and log entry 19 of the reply discarded. That every other register keeps its value until the reset ends is log entry 8. The recognised
high of RESET# follows its raw level. -/
def Obligations.FullResetBegins : Prop :=
  (∀ (s : State) (r : Request),
    (s.HasInHand 0x06 [1] r →
      exec .resetFull s =
        .next
          { s with
            unit :=
              { s.unit with
                made := some { type := 0x86, tag := r.tag, payload := [0, 0], resets := true }, fullResetPending := true } }) ∧
    (∀ reply : Reply, s.Running → s.unit.inHand = some r → r.type = 0x06 → s.unit.made = some reply → reply.resets = true →
      s.unit.discard = true →
      exec .resetFull s =
        .next
          { s with
            board := { s.board with fullReset := some .host }
            link := { s.link with tx := none }
            unit := { s.unit with inHand := none, made := none, discard := false, fullResetPending := false } })) ∧
  (∀ s : State,
    (∀ (vdd vddio : Bool),
      exec (.powerOnReset vdd vddio) s =
        .next
          { s with
            board := { s.board with fullReset := some .powerOn, vdd := vdd, vddio := vddio }
            link := { s.link with tx := none }
            unit := { s.unit with inHand := none, made := none, discard := false, fullResetPending := false } }) ∧
    (s.board.resetRaw = false → s.board.resetLevel = true → s.board.fullReset = none →
      exec .resetPin s =
        .next
          { s with
            board := { s.board with fullReset := some .pin, resetLevel := false }
            link := { s.link with tx := none }
            unit := { s.unit with inHand := none, made := none, discard := false, fullResetPending := false } }) ∧
    (∀ cause, s.board.resetRaw = false → s.board.resetLevel = true → s.board.fullReset = some cause →
      exec .resetPin s = .next { s with board := { s.board with resetLevel := false } }) ∧
    (s.board.resetRaw = true → s.board.resetLevel = false →
      exec .resetPinRelease s = .next { s with board := { s.board with resetLevel := true } }))

/-- The end of a full reset (R180), which waits for RESET# high, both supplies and, at power-on, REFCLK: every block at its full-reset
state, straps and input levels sampled, each domain in POWERING_UP or, with PGOOD high, RESUMING (R82, R99), the RESTART record alone in the
queue (R132), the cause kept (R166). The straps and whether REFCLK runs come with the command (log entry 14), every block takes its
state in this event alone (log entry 8), and the command changes nothing with no reset in progress (log entry 5) or before it may end.
RESET# keeps its levels (log entry 21), and no expiry or notice is on its way, by the model's own fields (log entries 23 and 24). -/
def Obligations.FullResetEnds : Prop :=
  ∀ (s : State) (rate1 rate0 refclk : Bool),
    (∀ cause, s.board.fullReset = some cause → s.board.resetLevel = true → s.board.vdd = true → s.board.vddio = true →
      (cause = .powerOn → refclk = true) →
      ∃ t, exec (.fullResetEnd rate1 rate0 refclk) s = .next t ∧ t.time = 0 ∧
        t.queue = { State.reset.queue with records := t.queue.records } ∧
        t.queue.records =
          [{ seq := 0, sent := false, resent := false, first := 0, last := 0, subject := none, count := 1,
             detail := .restart cause 0x01 }] ∧
        t.link =
          { State.reset.link with
            rate := if rate1 = true then (if rate0 = true then .r3000000 else .r1000000)
                    else (if rate0 = true then .r460800 else .r115200) } ∧
        t.unit = { State.reset.unit with resetCause := cause } ∧ t.board = { s.board with fullReset := none } ∧
        t.snoop = State.reset.snoop ∧ t.fifo = [] ∧ t.windows = State.reset.windows ∧ t.fallthrough = none ∧
        t.classes = State.reset.classes ∧ t.timers = State.reset.timers ∧ t.handed = [] ∧ t.notices = [] ∧
        (∀ l, t.line l =
          { raw := (s.line l).raw, level := (s.line l).raw, qualifier := .off, cls := 0, holding := none }) ∧
        (∀ d, t.dom d =
          { state := if (s.dom d).pgoodRaw = true then .resuming .us100 else .poweringUp 100
            config := (State.reset.dom d).config, hold := false, refusals := 0, lastWake := .reset
            qackRaw := (s.dom d).qackRaw, qack := (s.dom d).qackRaw
            pgoodRaw := (s.dom d).pgoodRaw, pgood := (s.dom d).pgoodRaw })) ∧
    (s.board.fullReset = none ∨ s.board.resetLevel = false ∨ s.board.vdd = false ∨ s.board.vddio = false ∨
        s.board.fullReset = some .powerOn ∧ refclk = false →
      exec (.fullResetEnd rate1 rate0 refclk) s = .next s)
end

