-- ==== Sys2Proof/Laws/State.lean ====
section
/-! SUPPORT. What each update of the state does to each field and to each table, one lemma per field per update, so that no
proof unfolds a record update. -/

namespace Sys2Proof.Machine

/-! ## setLine -/

@[simp] theorem State.setLine_snoop (s : State) (l : LineId) (x : Line) : (s.setLine l x).snoop = s.snoop := rfl
@[simp] theorem State.setLine_fifo (s : State) (l : LineId) (x : Line) : (s.setLine l x).fifo = s.fifo := rfl
@[simp] theorem State.setLine_lines (s : State) (l : LineId) (x : Line) : (s.setLine l x).lines = s.lines.set l x := rfl
@[simp] theorem State.setLine_windows (s : State) (l : LineId) (x : Line) : (s.setLine l x).windows = s.windows := rfl
@[simp] theorem State.setLine_fallthrough (s : State) (l : LineId) (x : Line) : (s.setLine l x).fallthrough = s.fallthrough := rfl
@[simp] theorem State.setLine_classes (s : State) (l : LineId) (x : Line) : (s.setLine l x).classes = s.classes := rfl
@[simp] theorem State.setLine_time (s : State) (l : LineId) (x : Line) : (s.setLine l x).time = s.time := rfl
@[simp] theorem State.setLine_timers (s : State) (l : LineId) (x : Line) : (s.setLine l x).timers = s.timers := rfl
@[simp] theorem State.setLine_domains (s : State) (l : LineId) (x : Line) : (s.setLine l x).domains = s.domains := rfl
@[simp] theorem State.setLine_queue (s : State) (l : LineId) (x : Line) : (s.setLine l x).queue = s.queue := rfl
@[simp] theorem State.setLine_link (s : State) (l : LineId) (x : Line) : (s.setLine l x).link = s.link := rfl
@[simp] theorem State.setLine_unit (s : State) (l : LineId) (x : Line) : (s.setLine l x).unit = s.unit := rfl
@[simp] theorem State.setLine_board (s : State) (l : LineId) (x : Line) : (s.setLine l x).board = s.board := rfl
@[simp] theorem State.setLine_handed (s : State) (l : LineId) (x : Line) : (s.setLine l x).handed = s.handed := rfl
@[simp] theorem State.setLine_notices (s : State) (l : LineId) (x : Line) : (s.setLine l x).notices = s.notices := rfl
@[simp] theorem State.setLine_freeDraws (s : State) (l : LineId) (x : Line) : (s.setLine l x).freeDraws = s.freeDraws := rfl
@[simp] theorem State.setLine_pending (s : State) (l : LineId) (x : Line) : (s.setLine l x).pending = s.pending := rfl
@[simp] theorem State.setLine_window (s : State) (l : LineId) (x : Line) (w' : WindowId) : (s.setLine l x).window w' = s.window w' := rfl
@[simp] theorem State.setLine_cls (s : State) (l : LineId) (x : Line) (c' : ClassId) : (s.setLine l x).cls c' = s.cls c' := rfl
@[simp] theorem State.setLine_timer (s : State) (l : LineId) (x : Line) (i' : TimerId) : (s.setLine l x).timer i' = s.timer i' := rfl
@[simp] theorem State.setLine_dom (s : State) (l : LineId) (x : Line) (d' : DomainId) : (s.setLine l x).dom d' = s.dom d' := rfl

/-! ## setWindow -/

@[simp] theorem State.setWindow_snoop (s : State) (w : WindowId) (x : Window) : (s.setWindow w x).snoop = s.snoop := rfl
@[simp] theorem State.setWindow_fifo (s : State) (w : WindowId) (x : Window) : (s.setWindow w x).fifo = s.fifo := rfl
@[simp] theorem State.setWindow_lines (s : State) (w : WindowId) (x : Window) : (s.setWindow w x).lines = s.lines := rfl
@[simp] theorem State.setWindow_windows (s : State) (w : WindowId) (x : Window) : (s.setWindow w x).windows = s.windows.set w x := rfl
@[simp] theorem State.setWindow_fallthrough (s : State) (w : WindowId) (x : Window) : (s.setWindow w x).fallthrough = s.fallthrough := rfl
@[simp] theorem State.setWindow_classes (s : State) (w : WindowId) (x : Window) : (s.setWindow w x).classes = s.classes := rfl
@[simp] theorem State.setWindow_time (s : State) (w : WindowId) (x : Window) : (s.setWindow w x).time = s.time := rfl
@[simp] theorem State.setWindow_timers (s : State) (w : WindowId) (x : Window) : (s.setWindow w x).timers = s.timers := rfl
@[simp] theorem State.setWindow_domains (s : State) (w : WindowId) (x : Window) : (s.setWindow w x).domains = s.domains := rfl
@[simp] theorem State.setWindow_queue (s : State) (w : WindowId) (x : Window) : (s.setWindow w x).queue = s.queue := rfl
@[simp] theorem State.setWindow_link (s : State) (w : WindowId) (x : Window) : (s.setWindow w x).link = s.link := rfl
@[simp] theorem State.setWindow_unit (s : State) (w : WindowId) (x : Window) : (s.setWindow w x).unit = s.unit := rfl
@[simp] theorem State.setWindow_board (s : State) (w : WindowId) (x : Window) : (s.setWindow w x).board = s.board := rfl
@[simp] theorem State.setWindow_handed (s : State) (w : WindowId) (x : Window) : (s.setWindow w x).handed = s.handed := rfl
@[simp] theorem State.setWindow_notices (s : State) (w : WindowId) (x : Window) : (s.setWindow w x).notices = s.notices := rfl
@[simp] theorem State.setWindow_freeDraws (s : State) (w : WindowId) (x : Window) : (s.setWindow w x).freeDraws = s.freeDraws := rfl
@[simp] theorem State.setWindow_pending (s : State) (w : WindowId) (x : Window) : (s.setWindow w x).pending = s.pending := rfl
@[simp] theorem State.setWindow_line (s : State) (w : WindowId) (x : Window) (l' : LineId) : (s.setWindow w x).line l' = s.line l' := rfl
@[simp] theorem State.setWindow_cls (s : State) (w : WindowId) (x : Window) (c' : ClassId) : (s.setWindow w x).cls c' = s.cls c' := rfl
@[simp] theorem State.setWindow_timer (s : State) (w : WindowId) (x : Window) (i' : TimerId) : (s.setWindow w x).timer i' = s.timer i' := rfl
@[simp] theorem State.setWindow_dom (s : State) (w : WindowId) (x : Window) (d' : DomainId) : (s.setWindow w x).dom d' = s.dom d' := rfl

/-! ## setCls -/

@[simp] theorem State.setCls_snoop (s : State) (c : ClassId) (x : ClassRecord) : (s.setCls c x).snoop = s.snoop := rfl
@[simp] theorem State.setCls_fifo (s : State) (c : ClassId) (x : ClassRecord) : (s.setCls c x).fifo = s.fifo := rfl
@[simp] theorem State.setCls_lines (s : State) (c : ClassId) (x : ClassRecord) : (s.setCls c x).lines = s.lines := rfl
@[simp] theorem State.setCls_windows (s : State) (c : ClassId) (x : ClassRecord) : (s.setCls c x).windows = s.windows := rfl
@[simp] theorem State.setCls_fallthrough (s : State) (c : ClassId) (x : ClassRecord) : (s.setCls c x).fallthrough = s.fallthrough := rfl
@[simp] theorem State.setCls_classes (s : State) (c : ClassId) (x : ClassRecord) : (s.setCls c x).classes = s.classes.set c x := rfl
@[simp] theorem State.setCls_time (s : State) (c : ClassId) (x : ClassRecord) : (s.setCls c x).time = s.time := rfl
@[simp] theorem State.setCls_timers (s : State) (c : ClassId) (x : ClassRecord) : (s.setCls c x).timers = s.timers := rfl
@[simp] theorem State.setCls_domains (s : State) (c : ClassId) (x : ClassRecord) : (s.setCls c x).domains = s.domains := rfl
@[simp] theorem State.setCls_queue (s : State) (c : ClassId) (x : ClassRecord) : (s.setCls c x).queue = s.queue := rfl
@[simp] theorem State.setCls_link (s : State) (c : ClassId) (x : ClassRecord) : (s.setCls c x).link = s.link := rfl
@[simp] theorem State.setCls_unit (s : State) (c : ClassId) (x : ClassRecord) : (s.setCls c x).unit = s.unit := rfl
@[simp] theorem State.setCls_board (s : State) (c : ClassId) (x : ClassRecord) : (s.setCls c x).board = s.board := rfl
@[simp] theorem State.setCls_handed (s : State) (c : ClassId) (x : ClassRecord) : (s.setCls c x).handed = s.handed := rfl
@[simp] theorem State.setCls_notices (s : State) (c : ClassId) (x : ClassRecord) : (s.setCls c x).notices = s.notices := rfl
@[simp] theorem State.setCls_freeDraws (s : State) (c : ClassId) (x : ClassRecord) : (s.setCls c x).freeDraws = s.freeDraws := rfl
@[simp] theorem State.setCls_pending (s : State) (c : ClassId) (x : ClassRecord) : (s.setCls c x).pending = s.pending := rfl
@[simp] theorem State.setCls_line (s : State) (c : ClassId) (x : ClassRecord) (l' : LineId) : (s.setCls c x).line l' = s.line l' := rfl
@[simp] theorem State.setCls_window (s : State) (c : ClassId) (x : ClassRecord) (w' : WindowId) : (s.setCls c x).window w' = s.window w' := rfl
@[simp] theorem State.setCls_timer (s : State) (c : ClassId) (x : ClassRecord) (i' : TimerId) : (s.setCls c x).timer i' = s.timer i' := rfl
@[simp] theorem State.setCls_dom (s : State) (c : ClassId) (x : ClassRecord) (d' : DomainId) : (s.setCls c x).dom d' = s.dom d' := rfl

/-! ## setTimer -/

@[simp] theorem State.setTimer_snoop (s : State) (i : TimerId) (x : Timer) : (s.setTimer i x).snoop = s.snoop := rfl
@[simp] theorem State.setTimer_fifo (s : State) (i : TimerId) (x : Timer) : (s.setTimer i x).fifo = s.fifo := rfl
@[simp] theorem State.setTimer_lines (s : State) (i : TimerId) (x : Timer) : (s.setTimer i x).lines = s.lines := rfl
@[simp] theorem State.setTimer_windows (s : State) (i : TimerId) (x : Timer) : (s.setTimer i x).windows = s.windows := rfl
@[simp] theorem State.setTimer_fallthrough (s : State) (i : TimerId) (x : Timer) : (s.setTimer i x).fallthrough = s.fallthrough := rfl
@[simp] theorem State.setTimer_classes (s : State) (i : TimerId) (x : Timer) : (s.setTimer i x).classes = s.classes := rfl
@[simp] theorem State.setTimer_time (s : State) (i : TimerId) (x : Timer) : (s.setTimer i x).time = s.time := rfl
@[simp] theorem State.setTimer_timers (s : State) (i : TimerId) (x : Timer) : (s.setTimer i x).timers = s.timers.set i x := rfl
@[simp] theorem State.setTimer_domains (s : State) (i : TimerId) (x : Timer) : (s.setTimer i x).domains = s.domains := rfl
@[simp] theorem State.setTimer_queue (s : State) (i : TimerId) (x : Timer) : (s.setTimer i x).queue = s.queue := rfl
@[simp] theorem State.setTimer_link (s : State) (i : TimerId) (x : Timer) : (s.setTimer i x).link = s.link := rfl
@[simp] theorem State.setTimer_unit (s : State) (i : TimerId) (x : Timer) : (s.setTimer i x).unit = s.unit := rfl
@[simp] theorem State.setTimer_board (s : State) (i : TimerId) (x : Timer) : (s.setTimer i x).board = s.board := rfl
@[simp] theorem State.setTimer_handed (s : State) (i : TimerId) (x : Timer) : (s.setTimer i x).handed = s.handed := rfl
@[simp] theorem State.setTimer_notices (s : State) (i : TimerId) (x : Timer) : (s.setTimer i x).notices = s.notices := rfl
@[simp] theorem State.setTimer_freeDraws (s : State) (i : TimerId) (x : Timer) : (s.setTimer i x).freeDraws = s.freeDraws := rfl
@[simp] theorem State.setTimer_pending (s : State) (i : TimerId) (x : Timer) : (s.setTimer i x).pending = s.pending := rfl
@[simp] theorem State.setTimer_line (s : State) (i : TimerId) (x : Timer) (l' : LineId) : (s.setTimer i x).line l' = s.line l' := rfl
@[simp] theorem State.setTimer_window (s : State) (i : TimerId) (x : Timer) (w' : WindowId) : (s.setTimer i x).window w' = s.window w' := rfl
@[simp] theorem State.setTimer_cls (s : State) (i : TimerId) (x : Timer) (c' : ClassId) : (s.setTimer i x).cls c' = s.cls c' := rfl
@[simp] theorem State.setTimer_dom (s : State) (i : TimerId) (x : Timer) (d' : DomainId) : (s.setTimer i x).dom d' = s.dom d' := rfl

/-! ## setDom -/

@[simp] theorem State.setDom_snoop (s : State) (d : DomainId) (x : Domain) : (s.setDom d x).snoop = s.snoop := rfl
@[simp] theorem State.setDom_fifo (s : State) (d : DomainId) (x : Domain) : (s.setDom d x).fifo = s.fifo := rfl
@[simp] theorem State.setDom_lines (s : State) (d : DomainId) (x : Domain) : (s.setDom d x).lines = s.lines := rfl
@[simp] theorem State.setDom_windows (s : State) (d : DomainId) (x : Domain) : (s.setDom d x).windows = s.windows := rfl
@[simp] theorem State.setDom_fallthrough (s : State) (d : DomainId) (x : Domain) : (s.setDom d x).fallthrough = s.fallthrough := rfl
@[simp] theorem State.setDom_classes (s : State) (d : DomainId) (x : Domain) : (s.setDom d x).classes = s.classes := rfl
@[simp] theorem State.setDom_time (s : State) (d : DomainId) (x : Domain) : (s.setDom d x).time = s.time := rfl
@[simp] theorem State.setDom_timers (s : State) (d : DomainId) (x : Domain) : (s.setDom d x).timers = s.timers := rfl
@[simp] theorem State.setDom_domains (s : State) (d : DomainId) (x : Domain) : (s.setDom d x).domains = s.domains.set d x := rfl
@[simp] theorem State.setDom_queue (s : State) (d : DomainId) (x : Domain) : (s.setDom d x).queue = s.queue := rfl
@[simp] theorem State.setDom_link (s : State) (d : DomainId) (x : Domain) : (s.setDom d x).link = s.link := rfl
@[simp] theorem State.setDom_unit (s : State) (d : DomainId) (x : Domain) : (s.setDom d x).unit = s.unit := rfl
@[simp] theorem State.setDom_board (s : State) (d : DomainId) (x : Domain) : (s.setDom d x).board = s.board := rfl
@[simp] theorem State.setDom_handed (s : State) (d : DomainId) (x : Domain) : (s.setDom d x).handed = s.handed := rfl
@[simp] theorem State.setDom_notices (s : State) (d : DomainId) (x : Domain) : (s.setDom d x).notices = s.notices := rfl
@[simp] theorem State.setDom_freeDraws (s : State) (d : DomainId) (x : Domain) : (s.setDom d x).freeDraws = s.freeDraws := rfl
@[simp] theorem State.setDom_pending (s : State) (d : DomainId) (x : Domain) : (s.setDom d x).pending = s.pending := rfl
@[simp] theorem State.setDom_line (s : State) (d : DomainId) (x : Domain) (l' : LineId) : (s.setDom d x).line l' = s.line l' := rfl
@[simp] theorem State.setDom_window (s : State) (d : DomainId) (x : Domain) (w' : WindowId) : (s.setDom d x).window w' = s.window w' := rfl
@[simp] theorem State.setDom_cls (s : State) (d : DomainId) (x : Domain) (c' : ClassId) : (s.setDom d x).cls c' = s.cls c' := rfl
@[simp] theorem State.setDom_timer (s : State) (d : DomainId) (x : Domain) (i' : TimerId) : (s.setDom d x).timer i' = s.timer i' := rfl

/-! ## setDomState -/

@[simp] theorem State.setDomState_snoop (s : State) (d : DomainId) (x : DomainState) : (s.setDomState d x).snoop = s.snoop := rfl
@[simp] theorem State.setDomState_fifo (s : State) (d : DomainId) (x : DomainState) : (s.setDomState d x).fifo = s.fifo := rfl
@[simp] theorem State.setDomState_lines (s : State) (d : DomainId) (x : DomainState) : (s.setDomState d x).lines = s.lines := rfl
@[simp] theorem State.setDomState_windows (s : State) (d : DomainId) (x : DomainState) : (s.setDomState d x).windows = s.windows := rfl
@[simp] theorem State.setDomState_fallthrough (s : State) (d : DomainId) (x : DomainState) : (s.setDomState d x).fallthrough = s.fallthrough := rfl
@[simp] theorem State.setDomState_classes (s : State) (d : DomainId) (x : DomainState) : (s.setDomState d x).classes = s.classes := rfl
@[simp] theorem State.setDomState_time (s : State) (d : DomainId) (x : DomainState) : (s.setDomState d x).time = s.time := rfl
@[simp] theorem State.setDomState_timers (s : State) (d : DomainId) (x : DomainState) : (s.setDomState d x).timers = s.timers := rfl
@[simp] theorem State.setDomState_domains (s : State) (d : DomainId) (x : DomainState) : (s.setDomState d x).domains = s.domains.set d { s.dom d with state := x } := rfl
@[simp] theorem State.setDomState_queue (s : State) (d : DomainId) (x : DomainState) : (s.setDomState d x).queue = s.queue := rfl
@[simp] theorem State.setDomState_link (s : State) (d : DomainId) (x : DomainState) : (s.setDomState d x).link = s.link := rfl
@[simp] theorem State.setDomState_unit (s : State) (d : DomainId) (x : DomainState) : (s.setDomState d x).unit = s.unit := rfl
@[simp] theorem State.setDomState_board (s : State) (d : DomainId) (x : DomainState) : (s.setDomState d x).board = s.board := rfl
@[simp] theorem State.setDomState_handed (s : State) (d : DomainId) (x : DomainState) : (s.setDomState d x).handed = s.handed := rfl
@[simp] theorem State.setDomState_notices (s : State) (d : DomainId) (x : DomainState) : (s.setDomState d x).notices = s.notices := rfl
@[simp] theorem State.setDomState_freeDraws (s : State) (d : DomainId) (x : DomainState) : (s.setDomState d x).freeDraws = s.freeDraws := rfl
@[simp] theorem State.setDomState_pending (s : State) (d : DomainId) (x : DomainState) : (s.setDomState d x).pending = s.pending := rfl
@[simp] theorem State.setDomState_line (s : State) (d : DomainId) (x : DomainState) (l' : LineId) : (s.setDomState d x).line l' = s.line l' := rfl
@[simp] theorem State.setDomState_window (s : State) (d : DomainId) (x : DomainState) (w' : WindowId) : (s.setDomState d x).window w' = s.window w' := rfl
@[simp] theorem State.setDomState_cls (s : State) (d : DomainId) (x : DomainState) (c' : ClassId) : (s.setDomState d x).cls c' = s.cls c' := rfl
@[simp] theorem State.setDomState_timer (s : State) (d : DomainId) (x : DomainState) (i' : TimerId) : (s.setDomState d x).timer i' = s.timer i' := rfl

/-! ## setQueue -/

@[simp] theorem State.setQueue_snoop (s : State) (q : ReportQueue) : (s.setQueue q).snoop = s.snoop := rfl
@[simp] theorem State.setQueue_fifo (s : State) (q : ReportQueue) : (s.setQueue q).fifo = s.fifo := rfl
@[simp] theorem State.setQueue_lines (s : State) (q : ReportQueue) : (s.setQueue q).lines = s.lines := rfl
@[simp] theorem State.setQueue_windows (s : State) (q : ReportQueue) : (s.setQueue q).windows = s.windows := rfl
@[simp] theorem State.setQueue_fallthrough (s : State) (q : ReportQueue) : (s.setQueue q).fallthrough = s.fallthrough := rfl
@[simp] theorem State.setQueue_classes (s : State) (q : ReportQueue) : (s.setQueue q).classes = s.classes := rfl
@[simp] theorem State.setQueue_time (s : State) (q : ReportQueue) : (s.setQueue q).time = s.time := rfl
@[simp] theorem State.setQueue_timers (s : State) (q : ReportQueue) : (s.setQueue q).timers = s.timers := rfl
@[simp] theorem State.setQueue_domains (s : State) (q : ReportQueue) : (s.setQueue q).domains = s.domains := rfl
@[simp] theorem State.setQueue_queue (s : State) (q : ReportQueue) : (s.setQueue q).queue = q := rfl
@[simp] theorem State.setQueue_link (s : State) (q : ReportQueue) : (s.setQueue q).link = s.link := rfl
@[simp] theorem State.setQueue_unit (s : State) (q : ReportQueue) : (s.setQueue q).unit = s.unit := rfl
@[simp] theorem State.setQueue_board (s : State) (q : ReportQueue) : (s.setQueue q).board = s.board := rfl
@[simp] theorem State.setQueue_handed (s : State) (q : ReportQueue) : (s.setQueue q).handed = s.handed := rfl
@[simp] theorem State.setQueue_notices (s : State) (q : ReportQueue) : (s.setQueue q).notices = s.notices := rfl
@[simp] theorem State.setQueue_freeDraws (s : State) (q : ReportQueue) : (s.setQueue q).freeDraws = s.freeDraws := rfl
@[simp] theorem State.setQueue_pending (s : State) (q : ReportQueue) : (s.setQueue q).pending = s.pending := rfl
@[simp] theorem State.setQueue_line (s : State) (q : ReportQueue) (l' : LineId) : (s.setQueue q).line l' = s.line l' := rfl
@[simp] theorem State.setQueue_window (s : State) (q : ReportQueue) (w' : WindowId) : (s.setQueue q).window w' = s.window w' := rfl
@[simp] theorem State.setQueue_cls (s : State) (q : ReportQueue) (c' : ClassId) : (s.setQueue q).cls c' = s.cls c' := rfl
@[simp] theorem State.setQueue_timer (s : State) (q : ReportQueue) (i' : TimerId) : (s.setQueue q).timer i' = s.timer i' := rfl
@[simp] theorem State.setQueue_dom (s : State) (q : ReportQueue) (d' : DomainId) : (s.setQueue q).dom d' = s.dom d' := rfl

/-! ## setLink -/

@[simp] theorem State.setLink_snoop (s : State) (k : Link) : (s.setLink k).snoop = s.snoop := rfl
@[simp] theorem State.setLink_fifo (s : State) (k : Link) : (s.setLink k).fifo = s.fifo := rfl
@[simp] theorem State.setLink_lines (s : State) (k : Link) : (s.setLink k).lines = s.lines := rfl
@[simp] theorem State.setLink_windows (s : State) (k : Link) : (s.setLink k).windows = s.windows := rfl
@[simp] theorem State.setLink_fallthrough (s : State) (k : Link) : (s.setLink k).fallthrough = s.fallthrough := rfl
@[simp] theorem State.setLink_classes (s : State) (k : Link) : (s.setLink k).classes = s.classes := rfl
@[simp] theorem State.setLink_time (s : State) (k : Link) : (s.setLink k).time = s.time := rfl
@[simp] theorem State.setLink_timers (s : State) (k : Link) : (s.setLink k).timers = s.timers := rfl
@[simp] theorem State.setLink_domains (s : State) (k : Link) : (s.setLink k).domains = s.domains := rfl
@[simp] theorem State.setLink_queue (s : State) (k : Link) : (s.setLink k).queue = s.queue := rfl
@[simp] theorem State.setLink_link (s : State) (k : Link) : (s.setLink k).link = k := rfl
@[simp] theorem State.setLink_unit (s : State) (k : Link) : (s.setLink k).unit = s.unit := rfl
@[simp] theorem State.setLink_board (s : State) (k : Link) : (s.setLink k).board = s.board := rfl
@[simp] theorem State.setLink_handed (s : State) (k : Link) : (s.setLink k).handed = s.handed := rfl
@[simp] theorem State.setLink_notices (s : State) (k : Link) : (s.setLink k).notices = s.notices := rfl
@[simp] theorem State.setLink_freeDraws (s : State) (k : Link) : (s.setLink k).freeDraws = s.freeDraws := rfl
@[simp] theorem State.setLink_pending (s : State) (k : Link) : (s.setLink k).pending = s.pending := rfl
@[simp] theorem State.setLink_line (s : State) (k : Link) (l' : LineId) : (s.setLink k).line l' = s.line l' := rfl
@[simp] theorem State.setLink_window (s : State) (k : Link) (w' : WindowId) : (s.setLink k).window w' = s.window w' := rfl
@[simp] theorem State.setLink_cls (s : State) (k : Link) (c' : ClassId) : (s.setLink k).cls c' = s.cls c' := rfl
@[simp] theorem State.setLink_timer (s : State) (k : Link) (i' : TimerId) : (s.setLink k).timer i' = s.timer i' := rfl
@[simp] theorem State.setLink_dom (s : State) (k : Link) (d' : DomainId) : (s.setLink k).dom d' = s.dom d' := rfl

/-! ## setUnit -/

@[simp] theorem State.setUnit_snoop (s : State) (u : CommandUnit) : (s.setUnit u).snoop = s.snoop := rfl
@[simp] theorem State.setUnit_fifo (s : State) (u : CommandUnit) : (s.setUnit u).fifo = s.fifo := rfl
@[simp] theorem State.setUnit_lines (s : State) (u : CommandUnit) : (s.setUnit u).lines = s.lines := rfl
@[simp] theorem State.setUnit_windows (s : State) (u : CommandUnit) : (s.setUnit u).windows = s.windows := rfl
@[simp] theorem State.setUnit_fallthrough (s : State) (u : CommandUnit) : (s.setUnit u).fallthrough = s.fallthrough := rfl
@[simp] theorem State.setUnit_classes (s : State) (u : CommandUnit) : (s.setUnit u).classes = s.classes := rfl
@[simp] theorem State.setUnit_time (s : State) (u : CommandUnit) : (s.setUnit u).time = s.time := rfl
@[simp] theorem State.setUnit_timers (s : State) (u : CommandUnit) : (s.setUnit u).timers = s.timers := rfl
@[simp] theorem State.setUnit_domains (s : State) (u : CommandUnit) : (s.setUnit u).domains = s.domains := rfl
@[simp] theorem State.setUnit_queue (s : State) (u : CommandUnit) : (s.setUnit u).queue = s.queue := rfl
@[simp] theorem State.setUnit_link (s : State) (u : CommandUnit) : (s.setUnit u).link = s.link := rfl
@[simp] theorem State.setUnit_unit (s : State) (u : CommandUnit) : (s.setUnit u).unit = u := rfl
@[simp] theorem State.setUnit_board (s : State) (u : CommandUnit) : (s.setUnit u).board = s.board := rfl
@[simp] theorem State.setUnit_handed (s : State) (u : CommandUnit) : (s.setUnit u).handed = s.handed := rfl
@[simp] theorem State.setUnit_notices (s : State) (u : CommandUnit) : (s.setUnit u).notices = s.notices := rfl
@[simp] theorem State.setUnit_freeDraws (s : State) (u : CommandUnit) : (s.setUnit u).freeDraws = s.freeDraws := rfl
@[simp] theorem State.setUnit_pending (s : State) (u : CommandUnit) : (s.setUnit u).pending = s.pending := rfl
@[simp] theorem State.setUnit_line (s : State) (u : CommandUnit) (l' : LineId) : (s.setUnit u).line l' = s.line l' := rfl
@[simp] theorem State.setUnit_window (s : State) (u : CommandUnit) (w' : WindowId) : (s.setUnit u).window w' = s.window w' := rfl
@[simp] theorem State.setUnit_cls (s : State) (u : CommandUnit) (c' : ClassId) : (s.setUnit u).cls c' = s.cls c' := rfl
@[simp] theorem State.setUnit_timer (s : State) (u : CommandUnit) (i' : TimerId) : (s.setUnit u).timer i' = s.timer i' := rfl
@[simp] theorem State.setUnit_dom (s : State) (u : CommandUnit) (d' : DomainId) : (s.setUnit u).dom d' = s.dom d' := rfl

/-! ## setBoard -/

@[simp] theorem State.setBoard_snoop (s : State) (b : Board) : (s.setBoard b).snoop = s.snoop := rfl
@[simp] theorem State.setBoard_fifo (s : State) (b : Board) : (s.setBoard b).fifo = s.fifo := rfl
@[simp] theorem State.setBoard_lines (s : State) (b : Board) : (s.setBoard b).lines = s.lines := rfl
@[simp] theorem State.setBoard_windows (s : State) (b : Board) : (s.setBoard b).windows = s.windows := rfl
@[simp] theorem State.setBoard_fallthrough (s : State) (b : Board) : (s.setBoard b).fallthrough = s.fallthrough := rfl
@[simp] theorem State.setBoard_classes (s : State) (b : Board) : (s.setBoard b).classes = s.classes := rfl
@[simp] theorem State.setBoard_time (s : State) (b : Board) : (s.setBoard b).time = s.time := rfl
@[simp] theorem State.setBoard_timers (s : State) (b : Board) : (s.setBoard b).timers = s.timers := rfl
@[simp] theorem State.setBoard_domains (s : State) (b : Board) : (s.setBoard b).domains = s.domains := rfl
@[simp] theorem State.setBoard_queue (s : State) (b : Board) : (s.setBoard b).queue = s.queue := rfl
@[simp] theorem State.setBoard_link (s : State) (b : Board) : (s.setBoard b).link = s.link := rfl
@[simp] theorem State.setBoard_unit (s : State) (b : Board) : (s.setBoard b).unit = s.unit := rfl
@[simp] theorem State.setBoard_board (s : State) (b : Board) : (s.setBoard b).board = b := rfl
@[simp] theorem State.setBoard_handed (s : State) (b : Board) : (s.setBoard b).handed = s.handed := rfl
@[simp] theorem State.setBoard_notices (s : State) (b : Board) : (s.setBoard b).notices = s.notices := rfl
@[simp] theorem State.setBoard_freeDraws (s : State) (b : Board) : (s.setBoard b).freeDraws = s.freeDraws := rfl
@[simp] theorem State.setBoard_pending (s : State) (b : Board) : (s.setBoard b).pending = s.pending := rfl
@[simp] theorem State.setBoard_line (s : State) (b : Board) (l' : LineId) : (s.setBoard b).line l' = s.line l' := rfl
@[simp] theorem State.setBoard_window (s : State) (b : Board) (w' : WindowId) : (s.setBoard b).window w' = s.window w' := rfl
@[simp] theorem State.setBoard_cls (s : State) (b : Board) (c' : ClassId) : (s.setBoard b).cls c' = s.cls c' := rfl
@[simp] theorem State.setBoard_timer (s : State) (b : Board) (i' : TimerId) : (s.setBoard b).timer i' = s.timer i' := rfl
@[simp] theorem State.setBoard_dom (s : State) (b : Board) (d' : DomainId) : (s.setBoard b).dom d' = s.dom d' := rfl

/-! ## mapTimers -/

@[simp] theorem State.mapTimers_snoop (s : State) (f : Timer → Timer) : (s.mapTimers f).snoop = s.snoop := rfl
@[simp] theorem State.mapTimers_fifo (s : State) (f : Timer → Timer) : (s.mapTimers f).fifo = s.fifo := rfl
@[simp] theorem State.mapTimers_lines (s : State) (f : Timer → Timer) : (s.mapTimers f).lines = s.lines := rfl
@[simp] theorem State.mapTimers_windows (s : State) (f : Timer → Timer) : (s.mapTimers f).windows = s.windows := rfl
@[simp] theorem State.mapTimers_fallthrough (s : State) (f : Timer → Timer) : (s.mapTimers f).fallthrough = s.fallthrough := rfl
@[simp] theorem State.mapTimers_classes (s : State) (f : Timer → Timer) : (s.mapTimers f).classes = s.classes := rfl
@[simp] theorem State.mapTimers_time (s : State) (f : Timer → Timer) : (s.mapTimers f).time = s.time := rfl
@[simp] theorem State.mapTimers_timers (s : State) (f : Timer → Timer) : (s.mapTimers f).timers = mapBank f s.timers := rfl
@[simp] theorem State.mapTimers_domains (s : State) (f : Timer → Timer) : (s.mapTimers f).domains = s.domains := rfl
@[simp] theorem State.mapTimers_queue (s : State) (f : Timer → Timer) : (s.mapTimers f).queue = s.queue := rfl
@[simp] theorem State.mapTimers_link (s : State) (f : Timer → Timer) : (s.mapTimers f).link = s.link := rfl
@[simp] theorem State.mapTimers_unit (s : State) (f : Timer → Timer) : (s.mapTimers f).unit = s.unit := rfl
@[simp] theorem State.mapTimers_board (s : State) (f : Timer → Timer) : (s.mapTimers f).board = s.board := rfl
@[simp] theorem State.mapTimers_handed (s : State) (f : Timer → Timer) : (s.mapTimers f).handed = s.handed := rfl
@[simp] theorem State.mapTimers_notices (s : State) (f : Timer → Timer) : (s.mapTimers f).notices = s.notices := rfl
@[simp] theorem State.mapTimers_freeDraws (s : State) (f : Timer → Timer) : (s.mapTimers f).freeDraws = s.freeDraws := rfl
@[simp] theorem State.mapTimers_pending (s : State) (f : Timer → Timer) : (s.mapTimers f).pending = s.pending := rfl
@[simp] theorem State.mapTimers_line (s : State) (f : Timer → Timer) (l' : LineId) : (s.mapTimers f).line l' = s.line l' := rfl
@[simp] theorem State.mapTimers_window (s : State) (f : Timer → Timer) (w' : WindowId) : (s.mapTimers f).window w' = s.window w' := rfl
@[simp] theorem State.mapTimers_cls (s : State) (f : Timer → Timer) (c' : ClassId) : (s.mapTimers f).cls c' = s.cls c' := rfl
@[simp] theorem State.mapTimers_dom (s : State) (f : Timer → Timer) (d' : DomainId) : (s.mapTimers f).dom d' = s.dom d' := rfl

end Sys2Proof.Machine
end

