-- ==== Sys2Proof/Laws/Tables.lean ====
section
/-! SUPPORT. Reading a table after an update, replacing an entry twice, and the small lemmas of the list operations, of
hand-off orders, and of the guards a command passes through. -/

namespace Sys2Proof.Machine

/-! ## Banks -/

theorem get_eq {α : Type} {n : Nat} (v : Vector α n) (i : Fin n) : v.get i = v[i.val] := rfl

theorem mapBank_get {α β : Type} {n : Nat} (f : α → β) (v : Vector α n) (i : Fin n) :
    (mapBank f v).get i = f (v.get i) := by
  simp [mapBank, get_eq]

theorem set_get {α : Type} {n : Nat} (v : Vector α n) (i j : Fin n) (x : α) :
    (v.set i x).get j = if j = i then x else v.get j := by
  simp [get_eq, Vector.getElem_set, Fin.ext_iff, eq_comm]

theorem set_set {α : Type} {n : Nat} (v : Vector α n) (i : Fin n) (x y : α) : (v.set i x).set i y = v.set i y := by
  simp

theorem set_get_self {α : Type} {n : Nat} (v : Vector α n) (i : Fin n) : v.set i (v.get i) = v := by
  simp [get_eq]

theorem bank_ext {α : Type} {n : Nat} {v w : Vector α n} (h : ∀ i : Fin n, v.get i = w.get i) : v = w := by
  ext j hj
  exact h ⟨j, hj⟩

/-! ## Reading an entry after an update of its own table -/

@[simp] theorem State.line_setLine (s : State) (l m : LineId) (x : Line) :
    (s.setLine l x).line m = if m = l then x else s.line m := set_get ..
@[simp] theorem State.window_setWindow (s : State) (w v : WindowId) (x : Window) :
    (s.setWindow w x).window v = if v = w then x else s.window v := set_get ..
@[simp] theorem State.cls_setCls (s : State) (c e : ClassId) (x : ClassRecord) :
    (s.setCls c x).cls e = if e = c then x else s.cls e := set_get ..
@[simp] theorem State.timer_setTimer (s : State) (i j : TimerId) (x : Timer) :
    (s.setTimer i x).timer j = if j = i then x else s.timer j := set_get ..
@[simp] theorem State.dom_setDom (s : State) (d e : DomainId) (x : Domain) :
    (s.setDom d x).dom e = if e = d then x else s.dom e := set_get ..
@[simp] theorem State.dom_setDomState (s : State) (d e : DomainId) (x : DomainState) :
    (s.setDomState d x).dom e = if e = d then { s.dom d with state := x } else s.dom e := set_get ..
@[simp] theorem State.timer_mapTimers (s : State) (f : Timer → Timer) (i : TimerId) :
    (s.mapTimers f).timer i = f (s.timer i) := mapBank_get ..

/-! ## Replacing an entry twice, and by itself -/

@[simp] theorem State.setLine_setLine (s : State) (l : LineId) (x y : Line) :
    (s.setLine l x).setLine l y = s.setLine l y := by simp [State.setLine]
@[simp] theorem State.setWindow_setWindow (s : State) (w : WindowId) (x y : Window) :
    (s.setWindow w x).setWindow w y = s.setWindow w y := by simp [State.setWindow]
@[simp] theorem State.setCls_setCls (s : State) (c : ClassId) (x y : ClassRecord) :
    (s.setCls c x).setCls c y = s.setCls c y := by simp [State.setCls]
@[simp] theorem State.setTimer_setTimer (s : State) (i : TimerId) (x y : Timer) :
    (s.setTimer i x).setTimer i y = s.setTimer i y := by simp [State.setTimer]
@[simp] theorem State.setDom_setDom (s : State) (d : DomainId) (x y : Domain) :
    (s.setDom d x).setDom d y = s.setDom d y := by simp [State.setDom]
@[simp] theorem State.setDom_setDomState (s : State) (d : DomainId) (x : Domain) (y : DomainState) :
    (s.setDom d x).setDomState d y = s.setDom d { x with state := y } := by simp [State.setDomState]
@[simp] theorem State.setDomState_setDomState (s : State) (d : DomainId) (x y : DomainState) :
    (s.setDomState d x).setDomState d y = s.setDomState d y := by simp [State.setDomState]
@[simp] theorem State.setDomState_setDom (s : State) (d : DomainId) (x : DomainState) (y : Domain) :
    (s.setDomState d x).setDom d y = s.setDom d y := by simp [State.setDomState]

theorem State.setLine_self (s : State) (l : LineId) : s.setLine l (s.line l) = s := by
  simp [State.setLine, State.line, set_get_self]
theorem State.setTimer_self (s : State) (i : TimerId) : s.setTimer i (s.timer i) = s := by
  simp [State.setTimer, State.timer, set_get_self]
theorem State.setDom_self (s : State) (d : DomainId) : s.setDom d (s.dom d) = s := by
  simp [State.setDom, State.dom, set_get_self]

/-! ## Equal entries make equal tables -/

theorem State.lines_ext {s t : State} (h : ∀ l, s.line l = t.line l) : s.lines = t.lines := bank_ext h
theorem State.windows_ext {s t : State} (h : ∀ w, s.window w = t.window w) : s.windows = t.windows := bank_ext h
theorem State.classes_ext {s t : State} (h : ∀ c, s.cls c = t.cls c) : s.classes = t.classes := bank_ext h
theorem State.timers_ext {s t : State} (h : ∀ i, s.timer i = t.timer i) : s.timers = t.timers := bank_ext h
theorem State.domains_ext {s t : State} (h : ∀ d, s.dom d = t.dom d) : s.domains = t.domains := bank_ext h

/-! ## The lists of all indices -/

@[simp] theorem mem_allClasses (c : ClassId) : c ∈ allClasses := by revert c; decide
@[simp] theorem mem_allLines (l : LineId) : l ∈ allLines := by revert l; decide
@[simp] theorem mem_allTimers (i : TimerId) : i ∈ allTimers := by revert i; decide
@[simp] theorem mem_allDomains (d : DomainId) : d ∈ allDomains := by revert d; decide
@[simp] theorem mem_allWindows (w : WindowId) : w ∈ allWindows := by revert w; decide

theorem allTimers_nodup : allTimers.Nodup := by decide
theorem allDomains_nodup : allDomains.Nodup := by decide
theorem allLines_nodup : allLines.Nodup := by decide
theorem allWindows_sorted : allWindows.Pairwise (· < ·) := by decide

/-! ## The first entry that satisfies a test -/

theorem updateFirst_at {α : Type} (p : α → Bool) (f : α → α) (before after : List α) (x : α)
    (hb : ∀ z ∈ before, p z = false) (hx : p x = true) :
    updateFirst p f (before ++ x :: after) = before ++ f x :: after := by
  induction before with
  | nil => simp [updateFirst, hx]
  | cons y ys ih =>
    simp only [List.mem_cons, forall_eq_or_imp] at hb
    simp [updateFirst, hb.1, ih hb.2]

theorem updateFirst_none {α : Type} (p : α → Bool) (f : α → α) (xs : List α) (h : ∀ z ∈ xs, p z = false) :
    updateFirst p f xs = xs := by
  induction xs with
  | nil => rfl
  | cons y ys ih =>
    simp only [List.mem_cons, forall_eq_or_imp] at h
    simp [updateFirst, h.1, ih h.2]

theorem find?_at {α : Type} (p : α → Bool) (before after : List α) (x : α) (hb : ∀ z ∈ before, p z = false)
    (hx : p x = true) : (before ++ x :: after).find? p = some x :=
  List.find?_eq_some_iff_append.2 ⟨hx, before, after, rfl, fun z hz => by simp [hb z hz]⟩

/-! ## Free orders -/

theorem insertByKey_perm {α : Type} (x : Nat × α) (xs : List (Nat × α)) : (insertByKey x xs).Perm (x :: xs) := by
  induction xs with
  | nil => simp [insertByKey]
  | cons y ys ih =>
    unfold insertByKey
    split
    · rfl
    · exact (ih.cons y).trans (List.Perm.swap x y ys)

/-- A free order is an order: the same entries, each as often. -/
theorem freeOrder_perm {α : Type} (draw : Nat) (xs : List α) : (freeOrder draw xs).Perm xs := by
  have sorted (ys : List (Nat × α)) : (ys.foldr insertByKey []).Perm ys := by
    induction ys with
    | nil => rfl
    | cons y ys ih => exact (insertByKey_perm y _).trans (ih.cons y)
  refine ((sorted _).map Prod.snd).trans ?_
  rw [List.map_map]
  have key : (Prod.snd ∘ fun x : α × Nat => (Config.freeKey draw x.2, x.1)) = Prod.fst := rfl
  rw [key, List.zipIdx_map_fst]

/-! ## Guards -/

@[simp] theorem onLine_val (l : LineId) (f : LineId → Result) : onLine l.val f = f l := by simp [onLine]
@[simp] theorem onTimer_val (i : TimerId) (f : TimerId → Result) : onTimer i.val f = f i := by simp [onTimer]
@[simp] theorem onDomain_val (d : DomainId) (f : DomainId → Result) : onDomain d.val f = f d := by simp [onDomain]

theorem onLine_absent {n : Nat} (h : 12 ≤ n) (f : LineId → Result) : onLine n f = .fault (.noSuchLine n) := by
  simp [onLine, Nat.not_lt.2 h]
theorem onTimer_absent {n : Nat} (h : 8 ≤ n) (f : TimerId → Result) : onTimer n f = .fault (.noSuchTimer n) := by
  simp [onTimer, Nat.not_lt.2 h]
theorem onDomain_absent {n : Nat} (h : 6 ≤ n) (f : DomainId → Result) : onDomain n f = .fault (.noSuchDomain n) := by
  simp [onDomain, Nat.not_lt.2 h]

/-- A command on a line that answers a next state names a line of the part. -/
theorem onLine_next {n : Nat} {f : LineId → Result} {t : State} (h : onLine n f = .next t) :
    ∃ l : LineId, l.val = n ∧ f l = .next t := by
  unfold onLine at h
  split at h
  · exact ⟨_, rfl, h⟩
  · cases h

/-- A command on a timer that answers a next state names a timer of the part. -/
theorem onTimer_next {n : Nat} {f : TimerId → Result} {t : State} (h : onTimer n f = .next t) :
    ∃ i : TimerId, i.val = n ∧ f i = .next t := by
  unfold onTimer at h
  split at h
  · exact ⟨_, rfl, h⟩
  · cases h

/-- A command on a domain that answers a next state names a domain of the part. -/
theorem onDomain_next {n : Nat} {f : DomainId → Result} {t : State} (h : onDomain n f = .next t) :
    ∃ d : DomainId, d.val = n ∧ f d = .next t := by
  unfold onDomain at h
  split at h
  · exact ⟨_, rfl, h⟩
  · cases h

theorem State.running_of {s : State} (h : s.board.fullReset = none) (effect : State → State) :
    s.running effect = .next (effect s) := by simp [State.running, h]

theorem State.running_during {s : State} {cause : ResetCause} (h : s.board.fullReset = some cause)
    (effect : State → State) : s.running effect = .next s := by simp [State.running, h]

/-- What a command of a running part leaves: the state itself during a full reset, and its effect otherwise. -/
theorem State.running_cases {s t : State} {effect : State → State} (h : s.running effect = .next t) :
    t = s ∨ s.board.fullReset = none ∧ t = effect s := by
  unfold State.running at h
  cases hr : s.board.fullReset <;> simp_all

end Sys2Proof.Machine
end

