-- ==== Sys2Proof/Laws/Commands.lean ====
section
/-! SUPPORT. The request in hand: how its execution, its reply and its fields come out. -/

namespace Sys2Proof.Machine

/-! ## Executing the request in hand -/

theorem State.HasInHand.running {s : State} {type : Byte} {payload : List Byte} {r : Request}
    (h : s.HasInHand type payload r) (effect : State → State) : s.running effect = .next (effect s) :=
  State.running_of h.1 effect

/-- The next event of a request in hand whose reply is not made is its execution. -/
theorem State.HasInHand.requestEvent {s : State} {type : Byte} {payload : List Byte} {r : Request}
    (h : s.HasInHand type payload r) (execution : Request → State) : s.requestEvent type execution = execution r := by
  obtain ⟨_, inHand, made, rfl, rfl⟩ := h
  simp [State.requestEvent, inHand, made]

/-- The execution of the request in hand is its owner's decision on its payload. -/
theorem State.HasInHand.serve {s : State} {type : Byte} {payload : List Byte} {r : Request}
    (h : s.HasInHand type payload r) (owner : List Byte → Option Verdict) :
    s.serve type owner = s.conclude r (owner payload) := by
  rw [State.serve, h.requestEvent, h.2.2.2.2]

theorem State.HasInHand.serveAll {s : State} {type : Byte} {payload : List Byte} {r : Request}
    (h : s.HasInHand type payload r) (owner : List Byte → Verdict) :
    s.serveAll type owner = s.conclude r (some (owner payload)) := h.serve _

@[simp] theorem State.conclude_none (s : State) (r : Request) : s.conclude r none = s := rfl
@[simp] theorem State.conclude_refuse (s : State) (r : Request) (reason : Reason) :
    s.conclude r (some (.refuse reason)) = s.answer r [2, reason.code] false := rfl
@[simp] theorem State.conclude_done (s after : State) (r : Request) (status : Status) (part : List Byte) :
    s.conclude r (some (.done status part after)) = after.answer r (status.code :: 0 :: part) false := rfl

/-- The event of a request in hand whose reply is made is the joining of the reply. -/
theorem State.requestEvent_made {s : State} {type : Byte} {r : Request} {reply : Reply} (inHand : s.unit.inHand = some r)
    (ht : r.type = type) (made : s.unit.made = some reply) (execution : Request → State) :
    s.requestEvent type execution = s.joinReply reply := by
  simp [State.requestEvent, inHand, ht, made]

/-- Without a request of the TYPE in hand none of its events arises. -/
theorem State.requestEvent_none {s : State} {type : Byte} (h : ∀ r, s.unit.inHand = some r → r.type ≠ type)
    (execution : Request → State) : s.requestEvent type execution = s := by
  unfold State.requestEvent
  split
  · rfl
  · exact if_neg (h _ ‹_›)

/-- What an event of a request can do: nothing, the joining of its reply, or its execution. -/
theorem State.requestEvent_cases (s : State) (type : Byte) (execution : Request → State) :
    s.requestEvent type execution = s ∨
    ∃ r, s.unit.inHand = some r ∧ r.type = type ∧
      ((∃ reply, s.unit.made = some reply ∧ s.requestEvent type execution = s.joinReply reply) ∨
       s.unit.made = none ∧ s.requestEvent type execution = execution r) := by
  unfold State.requestEvent
  cases hr : s.unit.inHand with
  | none => exact .inl rfl
  | some r =>
    by_cases ht : r.type = type
    · refine .inr ⟨r, rfl, ht, ?_⟩
      simp only [ht, if_true]
      cases hm : s.unit.made with
      | none => exact .inr ⟨rfl, rfl⟩
      | some reply => exact .inl ⟨reply, rfl, rfl⟩
    · exact .inl (if_neg ht)

/-- What the event of a request executed in one event can do: nothing, the joining of its reply, or a reply made on the state its
owner leaves. -/
theorem State.serve_cases (s : State) (type : Byte) (owner : List Byte → Option Verdict) :
    s.serve type owner = s ∨
    ∃ r, s.unit.inHand = some r ∧ r.type = type ∧
      ((∃ reply, s.unit.made = some reply ∧ s.serve type owner = s.joinReply reply) ∨
       (∃ reason, owner r.payload = some (.refuse reason) ∧ s.serve type owner = s.answer r [2, reason.code] false) ∨
       ∃ status part after, owner r.payload = some (.done status part after) ∧
         s.serve type owner = after.answer r (status.code :: 0 :: part) false) := by
  unfold State.serve
  rcases s.requestEvent_cases type fun r => s.conclude r (owner r.payload) with e | ⟨r, hr, ht, ⟨y, hy, e⟩ | ⟨_, e⟩⟩
  · exact .inl e
  · exact .inr ⟨r, hr, ht, .inl ⟨y, hy, e⟩⟩
  · rw [e]
    rcases ho : owner r.payload with _ | (reason | ⟨status, part, after⟩)
    · exact .inl rfl
    · exact .inr ⟨r, hr, ht, .inr (.inl ⟨reason, ho, rfl⟩)⟩
    · exact .inr ⟨r, hr, ht, .inr (.inr ⟨status, part, after, ho, rfl⟩)⟩

/-- The joining of a reply: at the tail, or, under the discard mark, nowhere, and then with a full reset where the reply is a RESET
FULL's. -/
theorem State.joinReply_cases (s : State) (reply : Reply) :
    (s.unit.discard = false ∧
      s.joinReply reply =
        (s.setUnit { s.unit with inHand := none, made := none, discard := false }).setLink
          { s.link with replies := s.link.replies ++ [reply] }) ∨
    (s.unit.discard = true ∧ reply.resets = false ∧
      s.joinReply reply = s.setUnit { s.unit with inHand := none, made := none, discard := false }) ∨
    (s.unit.discard = true ∧ reply.resets = true ∧ s.joinReply reply = s.beginFullReset .host) := by
  unfold State.joinReply
  cases hd : s.unit.discard
  · exact .inl ⟨rfl, rfl⟩
  · cases hr : reply.resets
    · exact .inr (.inl ⟨rfl, rfl, rfl⟩)
    · exact .inr (.inr ⟨rfl, rfl, rfl⟩)

/-! ## The reply -/

@[simp] theorem State.answer_snoop (s : State) (r : Request) (p : List Byte) (b : Bool) : (s.answer r p b).snoop = s.snoop := rfl
@[simp] theorem State.answer_fifo (s : State) (r : Request) (p : List Byte) (b : Bool) : (s.answer r p b).fifo = s.fifo := rfl
@[simp] theorem State.answer_lines (s : State) (r : Request) (p : List Byte) (b : Bool) : (s.answer r p b).lines = s.lines := rfl
@[simp] theorem State.answer_windows (s : State) (r : Request) (p : List Byte) (b : Bool) :
    (s.answer r p b).windows = s.windows := rfl
@[simp] theorem State.answer_fallthrough (s : State) (r : Request) (p : List Byte) (b : Bool) :
    (s.answer r p b).fallthrough = s.fallthrough := rfl
@[simp] theorem State.answer_classes (s : State) (r : Request) (p : List Byte) (b : Bool) :
    (s.answer r p b).classes = s.classes := rfl
@[simp] theorem State.answer_time (s : State) (r : Request) (p : List Byte) (b : Bool) : (s.answer r p b).time = s.time := rfl
@[simp] theorem State.answer_timers (s : State) (r : Request) (p : List Byte) (b : Bool) :
    (s.answer r p b).timers = s.timers := rfl
@[simp] theorem State.answer_domains (s : State) (r : Request) (p : List Byte) (b : Bool) :
    (s.answer r p b).domains = s.domains := rfl
@[simp] theorem State.answer_link (s : State) (r : Request) (p : List Byte) (b : Bool) : (s.answer r p b).link = s.link := rfl
@[simp] theorem State.answer_unit (s : State) (r : Request) (p : List Byte) (b : Bool) :
    (s.answer r p b).unit = { s.unit with made := some (r.reply p b) } := rfl
@[simp] theorem State.answer_queue (s : State) (r : Request) (p : List Byte) (b : Bool) : (s.answer r p b).queue = s.queue := rfl
@[simp] theorem State.answer_board (s : State) (r : Request) (p : List Byte) (b : Bool) : (s.answer r p b).board = s.board := rfl
@[simp] theorem State.answer_freeDraws (s : State) (r : Request) (p : List Byte) (b : Bool) :
    (s.answer r p b).freeDraws = s.freeDraws := rfl
@[simp] theorem State.answer_pending (s : State) (r : Request) (p : List Byte) (b : Bool) :
    (s.answer r p b).pending = s.pending := rfl
@[simp] theorem State.answer_line (s : State) (r : Request) (p : List Byte) (b : Bool) (l : LineId) :
    (s.answer r p b).line l = s.line l := rfl
@[simp] theorem State.answer_window (s : State) (r : Request) (p : List Byte) (b : Bool) (w : WindowId) :
    (s.answer r p b).window w = s.window w := rfl
@[simp] theorem State.answer_cls (s : State) (r : Request) (p : List Byte) (b : Bool) (c : ClassId) :
    (s.answer r p b).cls c = s.cls c := rfl
@[simp] theorem State.answer_timer (s : State) (r : Request) (p : List Byte) (b : Bool) (i : TimerId) :
    (s.answer r p b).timer i = s.timer i := rfl
@[simp] theorem State.answer_dom (s : State) (r : Request) (p : List Byte) (b : Bool) (d : DomainId) :
    (s.answer r p b).dom d = s.dom d := rfl

/-! ## Fields of requests -/

theorem index?_of_lt {n : Nat} {b : Byte} (h : b.toNat < n) : index? n b = some ⟨b.toNat, h⟩ := by simp [index?, h]
theorem index?_of_le {n : Nat} {b : Byte} (h : n ≤ b.toNat) : index? n b = none := by simp [index?, h]
theorem indexOrNone?_absent (n : Nat) : indexOrNone? n 0xFF = some none := by simp [indexOrNone?]
theorem indexOrNone?_of_lt {n : Nat} {b : Byte} (hb : b ≠ 0xFF) (h : b.toNat < n) :
    indexOrNone? n b = some (some ⟨b.toNat, h⟩) := by rw [indexOrNone?, if_neg hb, index?_of_lt h]; rfl
theorem indexOrNone?_of_le {n : Nat} {b : Byte} (hb : b ≠ 0xFF) (h : n ≤ b.toNat) : indexOrNone? n b = none := by
  rw [indexOrNone?, if_neg hb, index?_of_le h]; rfl

theorem between?_of_mem {lo hi : Nat} {b : Byte} (h : lo ≤ b.toNat ∧ b.toNat ≤ hi) : between? lo hi b = some b.toNat := by
  simp [between?, h]
theorem between?_of_not_mem {lo hi : Nat} {b : Byte} (h : ¬ (lo ≤ b.toNat ∧ b.toNat ≤ hi)) : between? lo hi b = none := by
  simp only [between?, h, if_false]

theorem flag?_of_le {b : Byte} (h : b.toNat ≤ 1) : flag? b = some (decide (b = 1)) := by
  revert h; revert b; decide
theorem flag?_of_lt {b : Byte} (h : 2 ≤ b.toNat) : flag? b = none := by
  revert h; revert b; decide

@[simp] theorem flag?_flagByte (b : Bool) : flag? (flagByte b) = some b := by cases b <;> rfl
@[simp] theorem spaceFilter?_code (x : SpaceFilter) : spaceFilter? x.code = some x := by
  rcases x with (_ | _ | _) | _ <;> rfl
@[simp] theorem directionFilter?_code (x : DirectionFilter) : directionFilter? x.code = some x := by
  rcases x with (_ | _) | _ <;> rfl
@[simp] theorem action?_code (x : Action) : action? x.code = some x := by cases x <;> rfl
@[simp] theorem timerUnit?_code (x : TimerUnit) : timerUnit? x.code = some x := by cases x <;> rfl
@[simp] theorem timerMode?_code (x : TimerMode) : timerMode? x.code = some x := by cases x <;> rfl
@[simp] theorem delay?_code (x : Delay) : delay? x.code = some x := by cases x <;> rfl
@[simp] theorem ackTimeout?_code (x : AckTimeout) : ackTimeout? x.code = some x := by cases x <;> rfl

theorem spaceFilter?_of_lt {b : Byte} (h : 4 ≤ b.toNat) : spaceFilter? b = none := by revert h; revert b; decide
theorem directionFilter?_of_lt {b : Byte} (h : 3 ≤ b.toNat) : directionFilter? b = none := by revert h; revert b; decide
theorem action?_of_lt {b : Byte} (h : 4 ≤ b.toNat) : action? b = none := by revert h; revert b; decide
theorem timerUnit?_of_lt {b : Byte} (h : 5 ≤ b.toNat) : timerUnit? b = none := by revert h; revert b; decide
theorem timerMode?_of_lt {b : Byte} (h : 2 ≤ b.toNat) : timerMode? b = none := by revert h; revert b; decide
theorem delay?_of_lt {b : Byte} (h : 4 ≤ b.toNat) : delay? b = none := by revert h; revert b; decide
theorem ackTimeout?_of_lt {b : Byte} (h : 8 ≤ b.toNat) : ackTimeout? b = none := by revert h; revert b; decide
theorem qualifier?_of_lt {b : Byte} (h : 6 ≤ b.toNat) : qualifier? b = none := by revert h; revert b; decide

/-- The qualifier codes are the positions of the list of R172. -/
theorem qualifier?_eq (b : Byte) :
    qualifier? b = ([.off, .rise, .fall, .edge, .high, .low] : List Qualifier)[b.toNat]? := by
  revert b; decide

end Sys2Proof.Machine
end

