-- ==== Sys2Proof/Laws/Notices.lean ====
section
/-! SUPPORT. What the shared operations of chapters 3 to 5 change and what they leave: a report, the entries to domain states, a
wake, an expiry, and the hand-offs of one event in whatever order. -/

namespace Sys2Proof.Machine

/-! ## Frames -/

/-- What notices to domains, timers and the Report Queue leave unchanged. -/
structure State.SameOutside (s t : State) : Prop where
  snoop : t.snoop = s.snoop
  fifo : t.fifo = s.fifo
  lines : t.lines = s.lines
  windows : t.windows = s.windows
  fallthrough : t.fallthrough = s.fallthrough
  classes : t.classes = s.classes
  time : t.time = s.time
  notices : t.notices = s.notices
  handed : t.handed = s.handed
  link : t.link = s.link
  unit : t.unit = s.unit
  board : t.board = s.board
  pending : t.pending = s.pending

theorem State.SameOutside.rfl' (s : State) : s.SameOutside s := by constructor <;> rfl

theorem State.SameOutside.trans {s t u : State} (h : s.SameOutside t) (k : t.SameOutside u) : s.SameOutside u := by
  obtain ⟨_, _, _, _, _, _, _, _, _, _, _, _, _⟩ := h
  obtain ⟨_, _, _, _, _, _, _, _, _, _, _, _, _⟩ := k
  constructor <;> simp_all

theorem State.SameOutside.line {s t : State} (h : s.SameOutside t) (l : LineId) : t.line l = s.line l := by
  simp [State.line, h.lines]
theorem State.SameOutside.window {s t : State} (h : s.SameOutside t) (w : WindowId) : t.window w = s.window w := by
  simp [State.window, h.windows]
theorem State.SameOutside.cls {s t : State} (h : s.SameOutside t) (c : ClassId) : t.cls c = s.cls c := by
  simp [State.cls, h.classes]
theorem State.SameOutside.anyHeld {s t : State} (h : s.SameOutside t) (set : ClassSet) : t.anyHeld set = s.anyHeld set := by
  simp [State.anyHeld, State.held, h.cls]

theorem State.setDom_sameOutside (s : State) (d : DomainId) (x : Domain) : s.SameOutside (s.setDom d x) := by constructor <;> rfl
theorem State.setDomState_sameOutside (s : State) (d : DomainId) (x : DomainState) : s.SameOutside (s.setDomState d x) := by
  constructor <;> rfl
theorem State.setTimer_sameOutside (s : State) (i : TimerId) (x : Timer) : s.SameOutside (s.setTimer i x) := by
  constructor <;> rfl
theorem State.mapTimers_sameOutside (s : State) (f : Timer → Timer) : s.SameOutside (s.mapTimers f) := by
  constructor <;> rfl
theorem State.report_sameOutside (s : State) (r : Report) : s.SameOutside (s.report r) := by constructor <;> rfl

/-! ## A report reaches the queue alone -/

@[simp] theorem State.report_queue (s : State) (r : Report) : (s.report r).queue = s.queue.take s.time r := rfl
@[simp] theorem State.report_snoop (s : State) (r : Report) : (s.report r).snoop = s.snoop := rfl
@[simp] theorem State.report_fifo (s : State) (r : Report) : (s.report r).fifo = s.fifo := rfl
@[simp] theorem State.report_lines (s : State) (r : Report) : (s.report r).lines = s.lines := rfl
@[simp] theorem State.report_windows (s : State) (r : Report) : (s.report r).windows = s.windows := rfl
@[simp] theorem State.report_fallthrough (s : State) (r : Report) : (s.report r).fallthrough = s.fallthrough := rfl
@[simp] theorem State.report_classes (s : State) (r : Report) : (s.report r).classes = s.classes := rfl
@[simp] theorem State.report_time (s : State) (r : Report) : (s.report r).time = s.time := rfl
@[simp] theorem State.report_timers (s : State) (r : Report) : (s.report r).timers = s.timers := rfl
@[simp] theorem State.report_domains (s : State) (r : Report) : (s.report r).domains = s.domains := rfl
@[simp] theorem State.report_link (s : State) (r : Report) : (s.report r).link = s.link := rfl
@[simp] theorem State.report_unit (s : State) (r : Report) : (s.report r).unit = s.unit := rfl
@[simp] theorem State.report_board (s : State) (r : Report) : (s.report r).board = s.board := rfl
@[simp] theorem State.report_freeDraws (s : State) (r : Report) : (s.report r).freeDraws = s.freeDraws := rfl
@[simp] theorem State.report_pending (s : State) (r : Report) : (s.report r).pending = s.pending := rfl
@[simp] theorem State.report_line (s : State) (r : Report) (l : LineId) : (s.report r).line l = s.line l := rfl
@[simp] theorem State.report_window (s : State) (r : Report) (w : WindowId) : (s.report r).window w = s.window w := rfl
@[simp] theorem State.report_cls (s : State) (r : Report) (c : ClassId) : (s.report r).cls c = s.cls c := rfl
@[simp] theorem State.report_timer (s : State) (r : Report) (i : TimerId) : (s.report r).timer i = s.timer i := rfl
@[simp] theorem State.report_dom (s : State) (r : Report) (d : DomainId) : (s.report r).dom d = s.dom d := rfl

/-! ## Domain steps: what an entry to a state leaves -/

/-- One domain's record and the queue may change, and nothing else. -/
structure State.OnlyDomain (s t : State) (d : DomainId) : Prop where
  outside : s.SameOutside t
  timers : t.timers = s.timers
  freeDraws : t.freeDraws = s.freeDraws
  other : ∀ e, e ≠ d → t.dom e = s.dom e

theorem State.OnlyDomain.rfl' (s : State) (d : DomainId) : s.OnlyDomain s d := ⟨.rfl' s, rfl, rfl, fun _ _ => rfl⟩

theorem State.OnlyDomain.trans {s t u : State} {d : DomainId} (h : s.OnlyDomain t d) (k : t.OnlyDomain u d) :
    s.OnlyDomain u d :=
  ⟨h.outside.trans k.outside, k.timers.trans h.timers, k.freeDraws.trans h.freeDraws,
   fun e he => (k.other e he).trans (h.other e he)⟩

theorem State.setDom_onlyDomain (s : State) (d : DomainId) (x : Domain) : s.OnlyDomain (s.setDom d x) d :=
  ⟨s.setDom_sameOutside d x, rfl, rfl, fun e he => by simp [he]⟩
theorem State.setDomState_onlyDomain (s : State) (d : DomainId) (x : DomainState) : s.OnlyDomain (s.setDomState d x) d :=
  s.setDom_onlyDomain d _
theorem State.report_onlyDomain (s : State) (r : Report) (d : DomainId) : s.OnlyDomain (s.report r) d :=
  ⟨s.report_sameOutside r, rfl, rfl, fun _ _ => rfl⟩

theorem State.enterActive_onlyDomain (s : State) (d : DomainId) (c : Cause) : s.OnlyDomain (s.enterActive d c) d :=
  (s.setDomState_onlyDomain d _).trans (State.report_onlyDomain _ _ d)
theorem State.enterThrottled_onlyDomain (s : State) (d : DomainId) (c : Cause) : s.OnlyDomain (s.enterThrottled d c) d :=
  (s.setDomState_onlyDomain d _).trans (State.report_onlyDomain _ _ d)
theorem State.enterQuiescing_onlyDomain (s : State) (d : DomainId) (t : Target) (c : Cause) :
    s.OnlyDomain (s.enterQuiescing d t c) d := s.setDomState_onlyDomain d _
theorem State.enterFaulted_onlyDomain (s : State) (d : DomainId) (f : FaultCause) (seen : Bool) :
    s.OnlyDomain (s.enterFaulted d f seen) d := (s.setDomState_onlyDomain d _).trans (State.report_onlyDomain _ _ d)
theorem State.endResume_onlyDomain (s : State) (d : DomainId) : s.OnlyDomain (s.endResume d) d :=
  (s.setDom_onlyDomain d _).trans (State.enterActive_onlyDomain _ d _)
theorem State.enterResuming_onlyDomain (s : State) (d : DomainId) : s.OnlyDomain (s.enterResuming d) d := by
  unfold State.enterResuming
  dsimp only
  split
  · exact (s.setDomState_onlyDomain d _).trans (State.endResume_onlyDomain _ d)
  · exact s.setDomState_onlyDomain d _
theorem State.enterPoweringUp_onlyDomain (s : State) (d : DomainId) : s.OnlyDomain (s.enterPoweringUp d) d := by
  unfold State.enterPoweringUp
  dsimp only
  split
  · exact (s.setDomState_onlyDomain d _).trans (State.enterResuming_onlyDomain _ d)
  · exact s.setDomState_onlyDomain d _
theorem State.enterOff_onlyDomain (s : State) (d : DomainId) (c : Cause) (w : Bool) : s.OnlyDomain (s.enterOff d c w) d := by
  have entered : s.OnlyDomain ((s.setDomState d .off).reportDomain d .off c) d :=
    (s.setDomState_onlyDomain d _).trans (State.report_onlyDomain _ _ d)
  unfold State.enterOff
  dsimp only
  split
  · exact entered.trans (State.enterPoweringUp_onlyDomain _ d)
  · exact entered
theorem State.enterPoweringDown_onlyDomain (s : State) (d : DomainId) (c : Cause) :
    s.OnlyDomain (s.enterPoweringDown d c) d := by
  unfold State.enterPoweringDown
  dsimp only
  split
  · exact s.setDomState_onlyDomain d _
  · exact (s.setDomState_onlyDomain d _).trans (State.enterOff_onlyDomain _ d c false)
theorem State.endStopDelay_onlyDomain (s : State) (d : DomainId) (t : Target) (c : Cause) :
    s.OnlyDomain (s.endStopDelay d t c) d := by
  cases t
  · exact (s.setDomState_onlyDomain d _).trans (State.report_onlyDomain _ _ d)
  · exact s.enterPoweringDown_onlyDomain d c
theorem State.enterSettling_onlyDomain (s : State) (d : DomainId) (t : Target) (c : Cause) :
    s.OnlyDomain (s.enterSettling d t c) d := by
  unfold State.enterSettling
  dsimp only
  split
  · exact (s.setDomState_onlyDomain d _).trans (State.endStopDelay_onlyDomain _ d t c)
  · exact s.setDomState_onlyDomain d _
theorem State.takeExpiry_onlyDomain (s : State) (d : DomainId) (n : Nat) : s.OnlyDomain (s.takeExpiry d n) d := by
  unfold State.takeExpiry
  repeat' split
  all_goals first
    | exact .rfl' s d
    | exact s.enterThrottled_onlyDomain d _
    | exact s.enterQuiescing_onlyDomain d _ _
    | exact s.setDomState_onlyDomain d _
    | exact s.enterPoweringDown_onlyDomain d _

/-! ## A wake: one domain, and the restart claim on its bound timer -/

/-- A wake is a step of the domain, and then, outside RETIRED, the restart claim (R66, R67). -/
theorem State.wake_eq_claim (s : State) (d : DomainId) (c : Cause) :
    ∃ t, s.OnlyDomain t d ∧ (t.dom d).config = (s.dom d).config ∧
      s.wake d c = if ∃ b, (s.dom d).state = .retired b then t else t.claimRestart d := by
  have lastWake (t : State) : t.OnlyDomain (t.setLastWake d c) d := t.setDom_onlyDomain d _
  unfold State.wake
  rcases hd : s.dom d with ⟨st, cf, ho, re, lw, a1, a2, a3, a4⟩
  cases st with
  | retired b => exact ⟨s, .rfl' s d, by simp [hd], by simp⟩
  | active => exact ⟨s, .rfl' s d, by simp [hd], by simp⟩
  | poweringUp n => exact ⟨s, .rfl' s d, by simp [hd], by simp⟩
  | resuming n => exact ⟨s, .rfl' s d, by simp [hd], by simp⟩
  | throttled p n =>
    exact ⟨_, (lastWake s).trans (State.enterActive_onlyDomain _ d c),
      by simp [State.enterActive, State.reportDomain, State.setLastWake, hd], by simp⟩
  | quiescing p n m =>
    exact ⟨_, (lastWake s).trans (State.enterActive_onlyDomain _ d c),
      by simp [State.enterActive, State.reportDomain, State.setLastWake, hd], by simp⟩
  | settling p n m =>
    exact ⟨_, (lastWake s).trans (State.enterActive_onlyDomain _ d c),
      by simp [State.enterActive, State.reportDomain, State.setLastWake, hd], by simp⟩
  | standby =>
    refine ⟨_, (lastWake s).trans (State.enterResuming_onlyDomain _ d), ?_, by simp⟩
    by_cases hz : cf.resumeDelay = .zero <;>
      simp [State.enterResuming, State.endResume, State.enterActive, State.reportDomain, State.setLastWake, hd, hz]
  | poweringDown p n m =>
    exact ⟨_, (lastWake s).trans (State.setDomState_onlyDomain _ d (.poweringDown p n true)),
      by simp [State.setLastWake, hd], by simp⟩
  | off =>
    refine ⟨_, (lastWake s).trans (State.enterPoweringUp_onlyDomain _ d), ?_, by simp⟩
    by_cases hz : cf.resumeDelay = .zero <;> cases a4 <;>
      simp [State.enterPoweringUp, State.enterResuming, State.endResume, State.enterActive, State.reportDomain,
        State.setLastWake, hd, hz]
  | faulted f w => exact ⟨_, s.setDomState_onlyDomain d (.faulted f true), by simp [hd], by simp⟩

theorem State.claimRestart_sameOutside (s : State) (d : DomainId) : s.SameOutside (s.claimRestart d) := by
  unfold State.claimRestart
  split
  · exact .rfl' s
  · exact s.setTimer_sameOutside _ _
@[simp] theorem State.claimRestart_domains (s : State) (d : DomainId) : (s.claimRestart d).domains = s.domains := by
  unfold State.claimRestart; split <;> rfl
@[simp] theorem State.claimRestart_queue (s : State) (d : DomainId) : (s.claimRestart d).queue = s.queue := by
  unfold State.claimRestart; split <;> rfl
@[simp] theorem State.claimRestart_dom (s : State) (d e : DomainId) : (s.claimRestart d).dom e = s.dom e := by
  simp [State.dom]
@[simp] theorem State.claimRestart_freeDraws (s : State) (d : DomainId) : (s.claimRestart d).freeDraws = s.freeDraws := by
  unfold State.claimRestart; split <;> rfl
theorem State.claimRestart_timer (s : State) (d : DomainId) (i : TimerId) :
    (s.claimRestart d).timer i = if (s.dom d).config.boundTimer = some i then (s.timer i).reload else s.timer i := by
  unfold State.claimRestart
  cases h : (s.dom d).config.boundTimer with
  | none => simp
  | some j =>
    by_cases hij : i = j
    · subst hij; simp
    · simp [hij, Ne.symm hij]

theorem State.wake_sameOutside (s : State) (d : DomainId) (c : Cause) : s.SameOutside (s.wake d c) := by
  obtain ⟨t, only, _, eq⟩ := s.wake_eq_claim d c
  rw [eq]
  split
  · exact only.outside
  · exact only.outside.trans (t.claimRestart_sameOutside d)

theorem State.wake_dom_other (s : State) {d e : DomainId} (h : e ≠ d) (c : Cause) : (s.wake d c).dom e = s.dom e := by
  obtain ⟨t, only, _, eq⟩ := s.wake_eq_claim d c
  rw [eq]
  split <;> simp [only.other e h]

theorem State.wake_freeDraws (s : State) (d : DomainId) (c : Cause) : (s.wake d c).freeDraws = s.freeDraws := by
  obtain ⟨t, only, _, eq⟩ := s.wake_eq_claim d c
  rw [eq]
  split <;> simp [only.freeDraws]

/-- A wake reloads the domain's bound timer, unless the domain is RETIRED, and no other timer (R49, R67). -/
theorem State.wake_timer (s : State) (d : DomainId) (c : Cause) (i : TimerId) :
    (s.wake d c).timer i =
      if (s.dom d).config.boundTimer = some i ∧ ∀ b, (s.dom d).state ≠ .retired b then (s.timer i).reload else s.timer i := by
  obtain ⟨t, only, config, eq⟩ := s.wake_eq_claim d c
  have same : t.timer i = s.timer i := by simp [State.timer, only.timers]
  rw [eq]
  by_cases hr : ∃ b, (s.dom d).state = .retired b
  · rw [if_pos hr, if_neg (by rintro ⟨_, h⟩; exact h _ hr.choose_spec), same]
  · rw [if_neg hr, State.claimRestart_timer, config, same]
    simp only [not_exists] at hr
    simp [hr]

/-- What a wake does to its domain's record depends on that record alone. -/
theorem State.wake_dom_congr {s t : State} {d : DomainId} (h : s.dom d = t.dom d) (c : Cause) :
    (s.wake d c).dom d = (t.wake d c).dom d := by
  have claim (u v : State) (k : u.dom d = v.dom d) : (u.claimRestart d).dom d = (v.claimRestart d).dom d := by simp [k]
  unfold State.wake
  rcases hd : t.dom d with ⟨st, cf, ho, re, lw, a1, a2, a3, a4⟩
  rw [hd] at h
  simp only [h]
  cases st <;> by_cases hz : cf.resumeDelay = .zero <;> cases a4 <;>
    simp [State.setLastWake, State.enterActive, State.reportDomain, State.enterResuming, State.endResume,
      State.enterPoweringUp, h, hd, hz]

/-- A timer that has taken a reload takes another without change. -/
@[simp] theorem Timer.reload_reload (t : Timer) : t.reload.reload = t.reload := by
  rcases t with ⟨a, b, c, d, e, st, g, h⟩
  cases st <;> simp [Timer.reload, Timer.countFromLoad, Timer.load]

/-! ## An expiry at one domain -/

theorem State.heldAwake_congr {s t : State} {d : DomainId} (h : s.dom d = t.dom d) (k : s.classes = t.classes) :
    s.heldAwake d = t.heldAwake d := by
  simp [State.heldAwake, State.anyHeld, State.held, State.cls, h, k]

/-- What an expiry does to its domain's record depends on that record and on what is held. -/
theorem State.takeExpiry_dom_congr {s t : State} {d : DomainId} (h : s.dom d = t.dom d) (k : s.classes = t.classes)
    (n : Nat) : (s.takeExpiry d n).dom d = (t.takeExpiry d n).dom d := by
  have awake := State.heldAwake_congr h k
  unfold State.takeExpiry
  rcases hd : t.dom d with ⟨st, cf, ho, re, lw, a1, a2, a3, a4⟩
  rw [hd] at h
  simp only [h, awake]
  split
  · split
    · simp [h, hd]
    · split <;>
        simp [State.enterThrottled, State.enterQuiescing, State.enterPoweringDown, State.enterOff, State.reportDomain, h, hd]
      cases a4 <;> simp [h, hd]
  · simp [h, hd]

/-! ## Hand-offs -/

/-- A hand-off leaves everything outside the domains, the timers and the queue. -/
theorem State.take_sameOutside (s : State) (h : HandOff) : s.SameOutside (s.take h) := by
  cases h with
  | wake d c => exact s.wake_sameOutside d c
  | expiry d n => exact (s.takeExpiry_onlyDomain d n).outside
  | report r => exact s.report_sameOutside r

theorem State.foldl_take_sameOutside (hs : List HandOff) (s : State) : s.SameOutside (hs.foldl State.take s) := by
  induction hs generalizing s with
  | nil => exact .rfl' s
  | cons h hs ih => exact (s.take_sameOutside h).trans (ih _)

/-- The hand-offs of one event are taken one after another in some order of them, which may cost a draw. -/
theorem State.handOver_fold (s : State) (hs : List HandOff) :
    ∃ (order : List HandOff) (n : Nat), order.Perm hs ∧ s.handOver hs = order.foldl State.take { s with freeDraws := n } := by
  unfold State.handOver
  split
  · exact ⟨[], s.freeDraws, .rfl, rfl⟩
  · exact ⟨[_], s.freeDraws, .rfl, rfl⟩
  · exact ⟨_, s.freeDraws + 1, freeOrder_perm _ _, rfl⟩

/-- An order of a mapped list is the mapping of an order of the list. -/
theorem perm_map_split {α β : Type} {f : α → β} {xs : List α} {order : List β} (h : order.Perm (xs.map f)) :
    ∃ ys : List α, ys.Perm xs ∧ order = ys.map f := by
  have pairs : List.Forall₂ (fun b a => b = f a) (xs.map f) xs := by simp [List.forall₂_map_left_iff]
  obtain ⟨ys, eq, perm⟩ := List.perm_comp_forall₂ h pairs
  refine ⟨ys, perm, ?_⟩
  clear perm pairs h
  induction eq with
  | nil => rfl
  | cons hb _ ih => rw [List.map_cons, ← hb, ← ih]

/-- The hand-offs of one event, named by their takers, are taken one after another in some order of the takers. -/
theorem State.handOver_map {α : Type} (s : State) (f : α → HandOff) (takers : List α) :
    ∃ (order : List α) (n : Nat), order.Perm takers ∧
      s.handOver (takers.map f) = order.foldl (fun v x => v.take (f x)) { s with freeDraws := n } := by
  obtain ⟨order, n, perm, eq⟩ := s.handOver_fold (takers.map f)
  obtain ⟨ys, hys, rfl⟩ := perm_map_split perm
  exact ⟨ys, n, hys, by rw [eq, List.foldl_map]⟩

theorem State.handOver_sameOutside (s : State) (hs : List HandOff) : s.SameOutside (s.handOver hs) := by
  obtain ⟨order, n, _, eq⟩ := s.handOver_fold hs
  rw [eq]
  exact State.SameOutside.trans (by constructor <;> rfl) (State.foldl_take_sameOutside order _)

/-- The domain a hand-off is for, if any. -/
def HandOff.domain? : HandOff → Option DomainId
  | .wake d _ => some d
  | .expiry d _ => some d
  | .report _ => none

theorem State.take_dom_other (s : State) (h : HandOff) {e : DomainId} (he : h.domain? ≠ some e) :
    (s.take h).dom e = s.dom e := by
  cases h with
  | wake d c => exact s.wake_dom_other (fun k => he (by simp [HandOff.domain?, k])) c
  | expiry d n => exact (s.takeExpiry_onlyDomain d n).other e (fun k => he (by simp [HandOff.domain?, k]))
  | report r => rfl

theorem State.take_dom_congr {s t : State} (h : HandOff) {d : DomainId} (eq : s.dom d = t.dom d)
    (k : s.classes = t.classes) : (s.take h).dom d = (t.take h).dom d := by
  by_cases hd : h.domain? = some d
  · cases h with
    | wake e c => simp only [HandOff.domain?, Option.some.injEq] at hd; subst hd; exact State.wake_dom_congr eq c
    | expiry e n => simp only [HandOff.domain?, Option.some.injEq] at hd; subst hd; exact State.takeExpiry_dom_congr eq k n
    | report r => exact eq
  · rw [State.take_dom_other _ _ hd, State.take_dom_other _ _ hd, eq]

/-- A domain for which none of the hand-offs is keeps its record. -/
theorem State.foldl_take_dom_none (hs : List HandOff) (s : State) {d : DomainId} (h : ∀ x ∈ hs, x.domain? ≠ some d) :
    (hs.foldl State.take s).dom d = s.dom d := by
  induction hs generalizing s with
  | nil => rfl
  | cons x xs ih =>
    simp only [List.mem_cons, forall_eq_or_imp] at h
    rw [List.foldl_cons, ih _ h.2, State.take_dom_other _ _ h.1]

/-- A domain for which exactly one of the hand-offs is takes it as if it came alone, whatever the order. -/
theorem State.foldl_take_dom_one (hs : List HandOff) (s : State) {d : DomainId} {x : HandOff} (mem : x ∈ hs)
    (nodup : (hs.map HandOff.domain?).countP (· == some d) = 1) (hx : x.domain? = some d) :
    (hs.foldl State.take s).dom d = (s.take x).dom d := by
  induction hs generalizing s with
  | nil => cases mem
  | cons y ys ih =>
    by_cases hy : y.domain? = some d
    · have rest : ∀ z ∈ ys, z.domain? ≠ some d := by
        intro z hz he
        have : 0 < (ys.map HandOff.domain?).countP (· == some d) :=
          List.countP_pos_iff.2 ⟨_, List.mem_map_of_mem hz, by simp [he]⟩
        simp only [List.map_cons, List.countP_cons, hy, beq_self_eq_true, if_true] at nodup
        omega
      have : x = y := by
        rcases List.mem_cons.1 mem with h | h
        · exact h
        · exact absurd hx (rest x h)
      subst this
      rw [List.foldl_cons, State.foldl_take_dom_none ys _ rest]
    · have hmem : x ∈ ys := by
        rcases List.mem_cons.1 mem with h | h
        · exact absurd (h ▸ hx) hy
        · exact h
      have hcount : (ys.map HandOff.domain?).countP (· == some d) = 1 := by
        simpa [List.countP_cons, hy] using nodup
      rw [List.foldl_cons, ih _ hmem hcount]
      exact State.take_dom_congr x (State.take_dom_other _ _ hy) (s.take_sameOutside y).classes

/-! ### Timers -/

/-- The domain record's part that a restart claim reads is left by every hand-off: its binding, and whether it is RETIRED. -/
theorem State.take_claims (s : State) (h : HandOff) (e : DomainId) :
    ((s.take h).dom e).config = (s.dom e).config ∧
    ((∃ b, ((s.take h).dom e).state = .retired b) ↔ ∃ b, (s.dom e).state = .retired b) := by
  by_cases he : h.domain? = some e
  swap
  · simp [State.take_dom_other s h he]
  cases h with
  | report r => simp [State.take]
  | wake d c =>
    simp only [HandOff.domain?, Option.some.injEq] at he
    subst he
    simp only [State.take, State.wake]
    rcases hd : s.dom d with ⟨st, cf, ho, re, lw, a1, a2, a3, a4⟩
    cases st <;> by_cases hz : cf.resumeDelay = .zero <;> cases a4 <;>
      simp [State.setLastWake, State.enterActive, State.reportDomain, State.enterResuming, State.endResume,
        State.enterPoweringUp, hd, hz]
  | expiry d n =>
    simp only [HandOff.domain?, Option.some.injEq] at he
    subst he
    simp only [State.take, State.takeExpiry]
    rcases hd : s.dom d with ⟨st, cf, ho, re, lw, a1, a2, a3, a4⟩
    split
    · split
      · simp [hd]
      · split <;>
          simp_all [State.enterThrottled, State.enterQuiescing, State.enterPoweringDown, State.enterOff, State.reportDomain]
        cases a4 <;> simp [hd]
    · simp [hd]

/-- Timer `i` is the one a wake's restart claim reloads, in a state. -/
def State.claims (s : State) (i : TimerId) : HandOff → Prop
  | .wake d _ => (s.dom d).config.boundTimer = some i ∧ ∀ b, (s.dom d).state ≠ .retired b
  | .expiry _ _ => False
  | .report _ => False

theorem State.take_timer (s : State) (h : HandOff) (i : TimerId) :
    (s.claims i h → (s.take h).timer i = (s.timer i).reload) ∧ (¬ s.claims i h → (s.take h).timer i = s.timer i) := by
  cases h with
  | wake d c =>
    simp only [State.claims, State.take, s.wake_timer d c i]
    exact ⟨fun k => if_pos k, fun k => if_neg k⟩
  | expiry d n =>
    have same : (s.takeExpiry d n).timer i = s.timer i := by simp [State.timer, (s.takeExpiry_onlyDomain d n).timers]
    exact ⟨False.elim, fun _ => same⟩
  | report r => exact ⟨False.elim, fun _ => rfl⟩

theorem State.claims_take (s : State) (h k : HandOff) (i : TimerId) : (s.take h).claims i k ↔ s.claims i k := by
  cases k with
  | wake d c =>
    obtain ⟨config, retired⟩ := s.take_claims h d
    simp only [State.claims, config]
    exact and_congr_right fun _ => by simpa [not_exists] using not_congr retired
  | expiry d n => rfl
  | report r => rfl

/-- After hand-offs in any order a timer has taken a reload where a restart claim came on it, and is as before where none did. -/
theorem State.foldl_take_timer (hs : List HandOff) (s : State) (i : TimerId) :
    ((∃ h ∈ hs, s.claims i h) → (hs.foldl State.take s).timer i = (s.timer i).reload) ∧
    ((∀ h ∈ hs, ¬ s.claims i h) → (hs.foldl State.take s).timer i = s.timer i) := by
  induction hs generalizing s with
  | nil => simp
  | cons h hs ih =>
    obtain ⟨claimed, unclaimed⟩ := ih (s.take h)
    obtain ⟨here, notHere⟩ := s.take_timer h i
    simp only [s.claims_take h] at claimed unclaimed
    simp only [List.foldl_cons, List.mem_cons, exists_eq_or_imp, forall_eq_or_imp]
    refine ⟨?_, fun ⟨k, ks⟩ => by rw [unclaimed ks, notHere k]⟩
    by_cases later : ∃ x ∈ hs, s.claims i x
    · intro _
      rw [claimed later]
      by_cases k : s.claims i h
      · rw [here k, Timer.reload_reload]
      · rw [notHere k]
    · rintro (k | k)
      · push Not at later
        rw [unclaimed later, here k]
      · exact absurd k later

/-! ## Pulses -/

theorem State.pulseTimers_timer (s : State) (c : ClassId) (i : TimerId) :
    (s.pulseTimers c).timer i = if (s.timer i).watch.has c = true then (s.timer i).reload else s.timer i :=
  s.stampClass c |>.timer_mapTimers _ i
theorem State.pulseTimers_cls (s : State) (c e : ClassId) :
    (s.pulseTimers c).cls e = if e = c then { s.cls c with last := some s.time } else s.cls e := State.cls_setCls ..
@[simp] theorem State.pulseTimers_dom (s : State) (c : ClassId) (d : DomainId) : (s.pulseTimers c).dom d = s.dom d := rfl
@[simp] theorem State.pulseTimers_wakesOf (s : State) (c e : ClassId) : (s.pulseTimers c).wakesOf e = s.wakesOf e := rfl

theorem mem_wakesOf {s : State} {c : ClassId} {h : HandOff} :
    h ∈ s.wakesOf c ↔ ∃ d, (s.dom d).config.wakeSet.has c = true ∧ h = .wake d (.cls c) := by
  simp only [State.wakesOf, State.wakers, List.mem_map, List.mem_filter, mem_allDomains, true_and, eq_comm]

/-- Each domain a pulse wakes has one wake among the hand-offs. -/
theorem wakesOf_count (s : State) (c : ClassId) (d : DomainId) :
    ((s.wakesOf c).map HandOff.domain?).countP (· == some d) = if (s.dom d).config.wakeSet.has c = true then 1 else 0 := by
  have all : ∀ p : DomainId → Bool,
      (((allDomains.filter p).map fun d => HandOff.wake d (.cls c)).map HandOff.domain?).countP (· == some d) =
        if p d then 1 else 0 := by
    intro p
    rw [List.map_map, List.countP_map]
    have : ((fun x => x == some d) ∘ HandOff.domain? ∘ fun d => HandOff.wake d (.cls c)) = fun e => e == d := by
      funext e; simp [HandOff.domain?]
    rw [this, ← List.count_eq_countP]
    by_cases hp : p d
    · rw [if_pos hp]
      exact List.count_eq_one_of_mem (allDomains_nodup.filter _) (by simp [hp])
    · rw [if_neg hp]
      exact List.count_eq_zero.2 (by simp [hp])
  exact all _

/-- Wakes handed over together with hand-offs for no domain: each woken domain takes its wake as if it came alone, and each timer
that a restart claim comes on takes one reload, whatever the order (R37, R49, R66). -/
theorem State.handOver_wakesOf (s : State) (c : ClassId) (others : List HandOff)
    (hothers : ∀ h ∈ others, ∃ r, h = .report r) :
    (∀ d, (s.handOver (others ++ s.wakesOf c)).dom d =
      if (s.dom d).config.wakeSet.has c = true then (s.wake d (.cls c)).dom d else s.dom d) ∧
    (∀ i, (s.handOver (others ++ s.wakesOf c)).timer i =
      if ∃ d, (s.dom d).config.wakeSet.has c = true ∧ (s.dom d).config.boundTimer = some i ∧
          ∀ b, (s.dom d).state ≠ .retired b
      then (s.timer i).reload else s.timer i) := by
  obtain ⟨order, n, perm, eq⟩ := s.handOver_fold (others ++ s.wakesOf c)
  have none_of_others (d : DomainId) : ∀ h ∈ others, h.domain? ≠ some d := by
    intro h hh
    obtain ⟨r, rfl⟩ := hothers h hh
    simp [HandOff.domain?]
  rw [eq]
  refine ⟨fun d => ?_, fun i => ?_⟩
  · by_cases hw : (s.dom d).config.wakeSet.has c = true
    · rw [if_pos hw]
      have count : (order.map HandOff.domain?).countP (· == some d) = 1 := by
        rw [(perm.map _).countP_eq, List.map_append, List.countP_append, wakesOf_count, if_pos hw,
          List.countP_eq_zero.2]
        simpa using none_of_others d
      have mem : HandOff.wake d (.cls c) ∈ order :=
        perm.mem_iff.2 (List.mem_append_right _ (mem_wakesOf.2 ⟨d, hw, rfl⟩))
      rw [State.foldl_take_dom_one order _ mem count rfl]
      exact State.wake_dom_congr (t := s) (by simp [State.dom]) _
    · rw [if_neg hw, State.foldl_take_dom_none]
      · simp [State.dom]
      · intro h hh
        rcases List.mem_append.1 (perm.mem_iff.1 hh) with ho | hk
        · exact none_of_others d h ho
        · obtain ⟨e, he, rfl⟩ := mem_wakesOf.1 hk
          simp only [HandOff.domain?, ne_eq, Option.some.injEq]
          rintro rfl
          exact hw he
  · obtain ⟨claimed, unclaimed⟩ := State.foldl_take_timer order { s with freeDraws := n } i
    split
    case isTrue h =>
      obtain ⟨d, hw, hb, hr⟩ := h
      exact claimed ⟨_, perm.mem_iff.2 (List.mem_append_right _ (mem_wakesOf.2 ⟨d, hw, rfl⟩)), hb, hr⟩
    case isFalse h =>
      refine unclaimed fun x hx => ?_
      rcases List.mem_append.1 (perm.mem_iff.1 hx) with ho | hk
      · obtain ⟨r, rfl⟩ := hothers x ho
        exact id
      · obtain ⟨d, hd, rfl⟩ := mem_wakesOf.1 hk
        exact fun ⟨hb, hr⟩ => h ⟨d, hd, hb, hr⟩

/-- Hand-offs that are all reports reach the queue alone. -/
theorem State.handOver_report (s : State) (r : Report) : s.handOver [.report r] = s.report r := rfl

end Sys2Proof.Machine
end

