-- ==== Sys2Proof/Laws/Queue.lean ====
section
/-! SUPPORT. What the Report Queue's operations can do: one list of cases per operation, and what each leaves of the settings. -/

namespace Sys2Proof.Machine

/-! ## Searching the records -/

/-- A search that finds an entry splits the list at the first that satisfies the test. -/
theorem find?_split {α : Type} {p : α → Bool} {xs : List α} {x : α} (h : xs.find? p = some x) :
    ∃ before after, xs = before ++ x :: after ∧ (∀ z ∈ before, p z = false) ∧ p x = true := by
  obtain ⟨hx, before, after, eq, hb⟩ := List.find?_eq_some_iff_append.1 h
  exact ⟨before, after, eq, fun z hz => by simpa using hb z hz, hx⟩

theorem Record.matches_iff (kind : Kind) (subject : Option Nat) (r : Record) :
    Record.matches kind subject r = true ↔ r.sent = false ∧ r.kind = kind ∧ r.subject = subject := by
  simp [Record.matches]

theorem Record.isLoss_iff (r : Record) : r.isLoss = true ↔ r.kind = .loss := by simp [Record.isLoss]

theorem ReportQueue.seqFree_iff (q : ReportQueue) :
    q.seqFree = true ↔ ∀ head, q.records.head? = some head → head.seq ≠ q.nextSeq := by
  unfold ReportQueue.seqFree
  cases q.records <;> simp

/-! ## What joining keeps -/

@[simp] theorem Detail.join_kind (a b : Detail) : (a.join b).kind = a.kind := by
  cases a <;> cases b <;> rfl

@[simp] theorem Record.absorb_kind (r : Record) (n : Nat) (t : Millis) (d : Detail) : (r.absorb n t d).kind = r.kind :=
  Detail.join_kind _ _
@[simp] theorem Record.absorb_sent (r : Record) (n : Nat) (t : Millis) (d : Detail) : (r.absorb n t d).sent = r.sent := rfl
@[simp] theorem Record.absorb_seq (r : Record) (n : Nat) (t : Millis) (d : Detail) : (r.absorb n t d).seq = r.seq := rfl
@[simp] theorem Record.absorb_subject (r : Record) (n : Nat) (t : Millis) (d : Detail) :
    (r.absorb n t d).subject = r.subject := rfl
@[simp] theorem Record.absorb_count (r : Record) (n : Nat) (t : Millis) (d : Detail) :
    (r.absorb n t d).count = r.count + n := rfl

@[simp] theorem Record.takeLoss_kind (r : Record) (n : Nat) (k : Kind) (t : Millis) : (r.takeLoss n k t).kind = r.kind := by
  rcases r with ⟨a, b, c, d, e, f, g, detail⟩
  cases detail <;> rfl
@[simp] theorem Record.takeLoss_sent (r : Record) (n : Nat) (k : Kind) (t : Millis) : (r.takeLoss n k t).sent = r.sent := rfl
@[simp] theorem Record.takeLoss_seq (r : Record) (n : Nat) (k : Kind) (t : Millis) : (r.takeLoss n k t).seq = r.seq := rfl
@[simp] theorem Record.takeLoss_subject (r : Record) (n : Nat) (k : Kind) (t : Millis) :
    (r.takeLoss n k t).subject = r.subject := rfl

@[simp] theorem Record.revert_sent (r : Record) : r.revert.sent = false := by
  unfold Record.revert; cases h : r.sent <;> simp [h]
@[simp] theorem Record.revert_kind (r : Record) : r.revert.kind = r.kind := by unfold Record.revert; split <;> rfl
@[simp] theorem Record.revert_seq (r : Record) : r.revert.seq = r.seq := by unfold Record.revert; split <;> rfl
@[simp] theorem Record.revert_subject (r : Record) : r.revert.subject = r.subject := by unfold Record.revert; split <;> rfl
@[simp] theorem Record.revert_count (r : Record) : r.revert.count = r.count := by unfold Record.revert; split <;> rfl
@[simp] theorem Record.revert_last (r : Record) : r.revert.last = r.last := by unfold Record.revert; split <;> rfl
@[simp] theorem Record.revert_detail (r : Record) : r.revert.detail = r.detail := by unfold Record.revert; split <;> rfl

/-! ## Counting losses (R118) -/

/-- Reports counted as lost go into the UNSENT LOSS record, into a new one, or into the tally alone. -/
theorem ReportQueue.countLost_cases (q : ReportQueue) (n : Nat) (kind : Kind) (t : Millis) :
    (∃ before y after, q.records = before ++ y :: after ∧ (∀ z ∈ before, z.kind ≠ .loss) ∧ y.kind = .loss ∧ y.sent = false ∧
      q.countLost n kind t =
        { q with records := before ++ y.takeLoss n kind t :: after, tally := q.tally.take (y.count + n - maxCount) kind t }) ∨
    ((∀ z ∈ q.records, z.kind ≠ .loss) ∧ q.seqFree = true ∧
      q.countLost n kind t =
        { q.append t t none (min n maxCount) (.loss kind.bit) with tally := q.tally.take (n - maxCount) kind t }) ∨
    q.countLost n kind t = { q with tally := q.tally.take n kind t } := by
  unfold ReportQueue.countLost
  cases hf : q.records.find? Record.isLoss with
  | none =>
    have hn : ∀ z ∈ q.records, z.kind ≠ .loss := fun z hz => by simpa [Record.isLoss] using List.find?_eq_none.1 hf z hz
    cases hs : q.seqFree
    · exact .inr (.inr (by simp))
    · exact .inr (.inl ⟨hn, rfl, by simp⟩)
  | some y =>
    cases hy : y.sent
    · obtain ⟨before, after, eq, hb, hl⟩ := find?_split hf
      refine .inl ⟨before, y, after, eq, fun z hz => by simpa [Record.isLoss] using hb z hz, y.isLoss_iff.1 hl, hy, ?_⟩
      simp only [hy, Bool.false_eq_true, if_false, eq, updateFirst_at _ _ _ _ _ hb hl]
    · exact .inr (.inr (by simp [hy]))

/-! ## Taking a report (R114, R115) -/

/-- A report joins an UNSENT record of its kind and subject, becomes a record at the tail, or is counted as lost. -/
theorem ReportQueue.take_cases (q : ReportQueue) (now : Millis) (r : Report) :
    (∃ before y after, q.records = before ++ y :: after ∧
      (∀ z ∈ before, Record.matches r.detail.kind r.subject z = false) ∧ Record.matches r.detail.kind r.subject y = true ∧
      r.detail.kind.merges = true ∧ y.count < maxCount ∧
      q.take now r = { q with records := before ++ y.absorb 1 r.time r.detail :: after }) ∨
    (q.ordinaryCount < 31 ∧ q.seqFree = true ∧
      (r.detail.kind.merges = true → ∀ z ∈ q.records, Record.matches r.detail.kind r.subject z = false) ∧
      q.take now r = q.append r.time r.time r.subject 1 r.detail) ∨
    q.take now r = q.countLost 1 r.detail.kind now := by
  unfold ReportQueue.take
  dsimp only
  cases hf : (if r.detail.kind.merges then q.records.find? (Record.matches r.detail.kind r.subject) else none) with
  | none =>
    by_cases hc : (decide (q.ordinaryCount < 31) && q.seqFree) = true
    · have h := Bool.and_eq_true_iff.1 hc
      refine .inr (.inl ⟨by simpa using h.1, h.2, fun hm z hz => ?_, by simp [hc]⟩)
      rw [if_pos hm] at hf
      exact eq_false_of_ne_true (List.find?_eq_none.1 hf z hz)
    · exact .inr (.inr (by simp [hc]))
  | some y =>
    by_cases hm : r.detail.kind.merges = true
    · rw [if_pos hm] at hf
      by_cases hc : y.count < maxCount
      · obtain ⟨before, after, eq, hb, hy⟩ := find?_split hf
        exact .inl ⟨before, y, after, eq, hb, hy, hm, hc, by simp only [hc, if_true, eq, updateFirst_at _ _ _ _ _ hb hy]⟩
      · exact .inr (.inr (by simp [hc]))
    · rw [if_neg hm] at hf
      cases hf

/-! ## Settings -/

/-- The credit window, the ack timeout, the ack timer and the retry count of two queues are the same. -/
structure ReportQueue.SameSettings (p q : ReportQueue) : Prop where
  credit : q.credit = p.credit
  timeout : q.timeout = p.timeout
  ackTimer : q.ackTimer = p.ackTimer
  retries : q.retries = p.retries

theorem ReportQueue.countLost_settings (q : ReportQueue) (n : Nat) (kind : Kind) (t : Millis) :
    q.SameSettings (q.countLost n kind t) := by
  rcases q.countLost_cases n kind t with ⟨_, _, _, _, _, _, _, eq⟩ | ⟨_, _, eq⟩ | eq <;> rw [eq] <;> constructor <;> rfl

theorem ReportQueue.take_settings (q : ReportQueue) (now : Millis) (r : Report) : q.SameSettings (q.take now r) := by
  rcases q.take_cases now r with ⟨_, _, _, _, _, _, _, _, eq⟩ | ⟨_, _, _, eq⟩ | eq
  · rw [eq]; constructor <;> rfl
  · rw [eq]; constructor <;> rfl
  · rw [eq]; exact q.countLost_settings _ _ _

/-! ## Folding (R126) -/

/-- A record of a reverted list stays beside those before it, joins the oldest of its kind and subject, or is to be lost. -/
theorem foldRecord_cases (records : List Record) (lost : List (Kind × Nat)) (r : Record) :
    ((r.kind.merges = true → ∀ z ∈ records, Record.matches r.kind r.subject z = false) ∧
      foldRecord (records, lost) r = (records ++ [r], lost)) ∨
    (∃ before y after, records = before ++ y :: after ∧ (∀ z ∈ before, Record.matches r.kind r.subject z = false) ∧
      Record.matches r.kind r.subject y = true ∧ r.kind.merges = true ∧ y.count + r.count ≤ maxCount ∧
      foldRecord (records, lost) r = (before ++ y.absorb r.count r.last r.detail :: after, lost)) ∨
    ((∃ y ∈ records, Record.matches r.kind r.subject y = true ∧ maxCount < y.count + r.count) ∧ r.kind.merges = true ∧
      foldRecord (records, lost) r = (records, lost ++ [(r.kind, r.count)])) := by
  unfold foldRecord
  dsimp only
  cases hf : (if r.kind.merges then records.find? (Record.matches r.kind r.subject) else none) with
  | none =>
    refine .inl ⟨fun hm z hz => ?_, rfl⟩
    rw [if_pos hm] at hf
    exact eq_false_of_ne_true (List.find?_eq_none.1 hf z hz)
  | some y =>
    by_cases hm : r.kind.merges = true
    · rw [if_pos hm] at hf
      by_cases hc : y.count + r.count ≤ maxCount
      · obtain ⟨before, after, eq, hb, hy⟩ := find?_split hf
        refine .inr (.inl ⟨before, y, after, eq, hb, hy, hm, hc, ?_⟩)
        simp only [hc, if_true, eq, updateFirst_at _ _ _ _ _ hb hy]
      · exact .inr (.inr ⟨⟨y, List.mem_of_find?_eq_some hf, List.find?_some hf, by omega⟩, hm, by simp [hc]⟩)
    · rw [if_neg hm] at hf
      cases hf

/-- A property of the list so far that each of the three ways to fold a record keeps holds of the folded list. -/
theorem foldRecords_induct (P : List Record × List (Kind × Nat) → Prop) (empty : P ([], []))
    (step : ∀ acc r, P acc → P (foldRecord acc r)) (records : List Record) : P (foldRecords records) := by
  unfold foldRecords
  suffices ∀ acc, P acc → P (records.foldl foldRecord acc) from this _ empty
  induction records with
  | nil => exact fun _ h => h
  | cons r rs ih => exact fun acc h => ih _ (step acc r h)

/-- What a fold leaves of a record that stays: its sequence number, marks, subject, kind and first time. -/
def Record.marks (r : Record) : BitVec 16 × Bool × Bool × Option Nat × Kind × Millis :=
  (r.seq, r.sent, r.resent, r.subject, r.kind, r.first)

@[simp] theorem Record.absorb_marks (r : Record) (n : Nat) (t : Millis) (d : Detail) : (r.absorb n t d).marks = r.marks := by
  simp [Record.marks, Record.absorb, Record.kind]

/-- The records a fold leaves are some of the list's, in its order, with their marks. -/
theorem foldRecords_marks (records : List Record) :
    ∃ kept : List Record, kept.Sublist records ∧ (foldRecords records).1.map Record.marks = kept.map Record.marks := by
  suffices ∀ (acc : List Record × List (Kind × Nat)) (kept : List Record), acc.1.map Record.marks = kept.map Record.marks →
      ∃ more : List Record, more.Sublist records ∧
        (records.foldl foldRecord acc).1.map Record.marks = (kept ++ more).map Record.marks from this ([], []) [] rfl
  induction records with
  | nil => exact fun acc kept h => ⟨[], .refl _, by simpa using h⟩
  | cons r rs ih =>
    rintro ⟨records, lost⟩ kept h
    rw [List.foldl_cons]
    rcases foldRecord_cases records lost r with ⟨_, eq⟩ | ⟨before, y, after, split, _, _, _, _, eq⟩ | ⟨_, _, eq⟩
    · obtain ⟨more, sub, hmore⟩ := ih (records ++ [r], lost) (kept ++ [r]) (by simpa using h)
      exact ⟨r :: more, sub.cons_cons r, by rw [eq, hmore]; simp⟩
    · obtain ⟨more, sub, hmore⟩ := ih (before ++ y.absorb r.count r.last r.detail :: after, lost) kept
        (by simpa [split] using h)
      exact ⟨more, sub.cons r, by rw [eq, hmore]⟩
    · obtain ⟨more, sub, hmore⟩ := ih (records, lost ++ [(r.kind, r.count)]) kept h
      exact ⟨more, sub.cons r, by rw [eq, hmore]⟩

/-- A property that counting losses keeps, and that the folded queue has, holds of the reverted queue. -/
theorem ReportQueue.revert_induct (P : ReportQueue → Prop) (q : ReportQueue) (t : Millis)
    (folded : P { q with records := (foldRecords (q.records.map Record.revert)).1, ackTimer := none })
    (step : ∀ p n kind, P p → P (p.countLost n kind t)) : P (q.revert t) := by
  suffices ∀ (lost : List (Kind × Nat)) (p : ReportQueue), P p →
      P (lost.foldl (fun q lost => q.countLost lost.2 lost.1 t) p) from this _ _ folded
  intro lost
  induction lost with
  | nil => exact fun _ h => h
  | cons x xs ih => exact fun p h => ih _ (step p x.2 x.1 h)

/-! ## Acknowledgement (R124) -/

/-- An acknowledgement removes the records through the first SENT one of its number. -/
theorem acknowledged?_cases {n : BitVec 16} {records left : List Record} {removed : Nat}
    (h : acknowledged? n records = some (removed, left)) :
    ∃ before x, records = before ++ x :: left ∧ x.sent = true ∧ x.seq = n ∧ removed = before.length + 1 ∧
      ∀ y ∈ before, ¬ (y.sent = true ∧ y.seq = n) := by
  induction records generalizing removed with
  | nil => cases h
  | cons y ys ih =>
    unfold acknowledged? at h
    split at h
    case isTrue hy =>
      simp only [Option.some.injEq, Prod.mk.injEq] at h
      obtain ⟨rfl, rfl⟩ := h
      exact ⟨[], y, rfl, hy.1, hy.2, rfl, by simp⟩
    case isFalse hy =>
      simp only [Option.map_eq_some_iff, Prod.mk.injEq, Prod.exists] at h
      obtain ⟨m, rest, hm, rfl, rfl⟩ := h
      obtain ⟨before, x, rfl, hs, hn, rfl, hb⟩ := ih hm
      exact ⟨y :: before, x, rfl, hs, hn, rfl, by simpa using ⟨by simpa using hy, by simpa using hb⟩⟩

/-- No SENT record has the number. -/
theorem acknowledged?_none {n : BitVec 16} {records : List Record} (h : ∀ y ∈ records, ¬ (y.sent = true ∧ y.seq = n)) :
    acknowledged? n records = none := by
  induction records with
  | nil => rfl
  | cons y ys ih =>
    simp only [List.mem_cons, forall_eq_or_imp] at h
    rw [acknowledged?, if_neg h.1, ih h.2]
    rfl

/-- After the records are cut, a LOSS record is made from the tally where none is left, and not otherwise. -/
theorem ReportQueue.drainTally_cases (q : ReportQueue) :
    q.drainTally = q ∧ ((∃ z ∈ q.records, z.kind = .loss) ∨ q.tally.count = 0) ∨
    (∀ z ∈ q.records, z.kind ≠ .loss) ∧ q.tally.count ≠ 0 ∧
      q.drainTally =
        { q.append q.tally.first q.tally.last none (min q.tally.count.toNat maxCount) (.loss q.tally.kinds) with
          tally :=
            { q.tally with
              count := q.tally.count - BitVec.ofNat 64 (min q.tally.count.toNat maxCount)
              kinds := if q.tally.count - BitVec.ofNat 64 (min q.tally.count.toNat maxCount) = 0 then 0
                       else q.tally.kinds } } := by
  unfold ReportQueue.drainTally
  by_cases hc : (q.records.any Record.isLoss || q.tally.count == 0) = true
  · refine .inl ⟨if_pos hc, ?_⟩
    simpa [Record.isLoss] using hc
  · refine .inr ?_
    have h : (∀ z ∈ q.records, z.kind ≠ .loss) ∧ q.tally.count ≠ 0  := by simpa [Record.isLoss] using hc
    exact ⟨h.1, h.2, if_neg hc⟩

end Sys2Proof.Machine
end

