-- ==== Sys2Proof/Laws/QueueSound.lean ====
section
/-! SUPPORT. The Report Queue's operations keep it sound. -/

namespace Sys2Proof.Machine

theorem LinkCounts.sum_plus (a b : LinkCounts) : (a.plus b).sum = a.sum + b.sum := by
  simp only [LinkCounts.sum, LinkCounts.plus]; omega

/-- A report and a record that joins it keep the record's reasons and count together (R113). -/
theorem Record.Sound.absorb {r : Record} (h : r.Sound) {n : Nat} (hn : r.count + n ≤ maxCount) (t : Millis) {d : Detail}
    (kind : r.detail.kind = d.kind) (reasons : ∀ c, d = .linkError c → c.sum = n) : (r.absorb n t d).Sound := by
  refine ⟨⟨le_trans h.1.1 (Nat.le_add_right _ _), hn⟩, ?_⟩
  have hr := h.2
  rcases r with ⟨a, b, c, e, f, g, count, detail⟩
  cases detail with
  | linkError x =>
    cases d with
    | linkError y =>
      have hy := reasons y rfl
      simp only [Record.reasonsSum, beq_iff_eq] at hr
      simp [Record.reasonsSum, Record.absorb, Detail.join, LinkCounts.sum_plus, hr, hy]
    | _ => cases kind
  | _ => cases d <;> simp_all [Record.reasonsSum, Record.absorb, Detail.join, Detail.kind]

theorem Record.Sound.takeLoss {r : Record} (h : r.Sound) (loss : r.kind = .loss) (n : Nat) (k : Kind) (t : Millis) :
    (r.takeLoss n k t).Sound := by
  refine ⟨⟨?_, Nat.min_le_right _ _⟩, ?_⟩
  · exact Nat.le_min.2 ⟨le_trans h.1.1 (Nat.le_add_right _ _), by decide⟩
  · rcases r with ⟨a, b, c, e, f, g, count, detail⟩
    cases detail <;> simp_all [Record.kind, Detail.kind, Record.reasonsSum, Record.takeLoss]

theorem Record.Sound.revert {r : Record} (h : r.Sound) : r.revert.Sound := by
  unfold Record.revert; split <;> exact h

/-! ## Sequence numbers (R116) -/

/-- Sequence numbers in order from the first of them, below the next one. -/
def inOrder (next : BitVec 16) : List (BitVec 16) → Prop
  | [] => True
  | head :: rest =>
    (head :: rest).Pairwise (fun a b => seqDistance head a < seqDistance head b) ∧
    ∀ n ∈ head :: rest, seqDistance head n < (if next = head then 65536 else seqDistance head next)

theorem ReportQueue.inSequence_iff (q : ReportQueue) : q.inSequence = true ↔ inOrder q.nextSeq (q.records.map (·.seq)) := by
  unfold ReportQueue.inSequence
  cases q.records with
  | nil => simp [inOrder]
  | cons x xs => simp [inOrder, List.pairwise_map]

/-- A new record's number comes after those there. -/
theorem inOrder.append {next : BitVec 16} {xs : List (BitVec 16)} (h : inOrder next xs)
    (free : ∀ head, xs.head? = some head → head ≠ next) : inOrder (next + 1) (xs ++ [next]) := by
  cases xs with
  | nil =>
    simp only [List.nil_append, inOrder, List.pairwise_singleton, List.mem_singleton, true_and]
    rintro n rfl
    simp only [seqDistance]
    split <;> bv_omega
  | cons head rest =>
    obtain ⟨sorted, below⟩ := h
    have apart : next ≠ head := (free head rfl).symm
    rw [if_neg apart] at below
    refine ⟨?_, ?_⟩
    · show ((head :: rest) ++ [next]).Pairwise _
      rw [List.pairwise_append]
      exact ⟨sorted, by simp, fun a ha b hb => by rw [List.mem_singleton.1 hb]; exact below a ha⟩
    · intro n (hn : n ∈ (head :: rest) ++ [next])
      rw [List.mem_append, List.mem_singleton] at hn
      have hle : seqDistance head n ≤ seqDistance head next := by
        rcases hn with hn | rfl
        · exact (below n hn).le
        · rfl
      simp only [seqDistance] at hle ⊢
      split <;> bv_omega

/-- Records removed from the front leave the rest in order. -/
theorem inOrder.drop {next : BitVec 16} (before rest : List (BitVec 16)) (h : inOrder next (before ++ rest)) :
    inOrder next rest := by
  induction before with
  | nil => exact h
  | cons head before ih =>
    apply ih
    rw [List.cons_append] at h
    obtain ⟨sorted, below⟩ := h
    rcases hr : before ++ rest with _ | ⟨first, others⟩
    · trivial
    · rw [hr] at sorted below
      have sorted' := (List.pairwise_cons.1 sorted).2
      have hfirst := below first (by simp)
      have up := (List.pairwise_cons.1 sorted).1 first (by simp)
      refine ⟨?_, ?_⟩
      · refine sorted'.imp_of_mem fun {a b} ha hb hab => ?_
        have ga : seqDistance head first ≤ seqDistance head a := by
          rcases List.mem_cons.1 ha with rfl | ha
          · rfl
          · exact ((List.pairwise_cons.1 sorted').1 a ha).le
        have gb : seqDistance head first ≤ seqDistance head b := by
          rcases List.mem_cons.1 hb with rfl | hb
          · rfl
          · exact ((List.pairwise_cons.1 sorted').1 b hb).le
        simp only [seqDistance] at *
        bv_omega
      · intro n hn
        have gn : seqDistance head first ≤ seqDistance head n := by
          rcases List.mem_cons.1 hn with rfl | hn
          · rfl
          · exact ((List.pairwise_cons.1 sorted').1 n hn).le
        have bn := below n (List.mem_cons_of_mem _ hn)
        simp only [seqDistance] at *
        split at bn <;> split <;> bv_omega

/-- The next number is free once records are removed from the front. -/
theorem inOrder.drop_free {next first head : BitVec 16} (before rest : List (BitVec 16))
    (h : inOrder next (head :: before ++ first :: rest)) : first ≠ next := by
  obtain ⟨sorted, below⟩ := h
  have up := (List.pairwise_cons.1 sorted).1 first (by simp)
  have under := below first (by simp)
  rintro rfl
  simp only [seqDistance] at up under
  split at under <;> bv_omega

/-- A part of the records that keeps the first of them is in order. -/
theorem inOrder.sublist {next head : BitVec 16} {xs ys : List (BitVec 16)} (h : inOrder next (head :: ys))
    (sub : (head :: xs).Sublist (head :: ys)) : inOrder next (head :: xs) :=
  ⟨h.1.sublist sub, fun n hn => h.2 n (sub.mem hn)⟩

/-! ## The records of a sound queue -/

/-- What soundness says of the records and the next sequence number. -/
structure ReportQueue.RecordsSound (q : ReportQueue) : Prop where
  ordinary : q.ordinaryCount ≤ 31
  loss : q.records.countP Record.isLoss ≤ 1
  each : ∀ r ∈ q.records, r.Sound
  sequence : q.inSequence = true
  sentFirst : q.records.Pairwise (fun a b => b.sent = true → a.sent = true)
  apart : q.records.Pairwise (fun a b => ¬ a.Twins b)

theorem ReportQueue.Sound.records {q : ReportQueue} (h : q.Sound) : q.RecordsSound :=
  ⟨h.1, h.2.1, h.2.2.1, h.2.2.2.1, h.2.2.2.2.1, h.2.2.2.2.2.1⟩

/-- A queue is sound whose records are, with the settings of a sound queue and no more records SENT. -/
theorem ReportQueue.RecordsSound.sound {p q : ReportQueue} (h : q.RecordsSound) (k : p.Sound) (settings : p.SameSettings q)
    (sent : q.sentCount = p.sentCount) : q.Sound := by
  obtain ⟨credit, timeout, ackTimer, retries⟩ := settings
  obtain ⟨_, _, _, _, _, _, k⟩ := k
  exact ⟨h.ordinary, h.loss, h.each, h.sequence, h.sentFirst, h.apart, by rw [sent, credit, timeout, ackTimer, retries]; exact k⟩

theorem Record.isLoss_congr {a b : Record} (h : a.kind = b.kind) : a.isLoss = b.isLoss := by simp [Record.isLoss, h]

theorem Record.Twins.symm {a b : Record} (h : a.Twins b) : b.Twins a :=
  ⟨h.2.1, h.1, h.2.2.1.symm, h.2.2.1 ▸ h.2.2.2.1, h.2.2.2.2.symm⟩

/-- A record changed in its count, times and detail alone, and still sound, leaves the records sound. -/
theorem ReportQueue.RecordsSound.replace {q : ReportQueue} (h : q.RecordsSound) {before after : List Record} {y z : Record}
    (eq : q.records = before ++ y :: after) (seq : z.seq = y.seq) (sent : z.sent = y.sent) (kind : z.kind = y.kind)
    (subject : z.subject = y.subject) (sound : z.Sound) (tally : Tally) :
    ({ q with records := before ++ z :: after, tally := tally } : ReportQueue).RecordsSound ∧
    ({ q with records := before ++ z :: after, tally := tally } : ReportQueue).sentCount = q.sentCount := by
  have left (x : Record) : z.Twins x ↔ y.Twins x := by simp [Record.Twins, sent, kind, subject]
  have right (x : Record) : x.Twins z ↔ x.Twins y := by simp [Record.Twins, sent, kind, subject]
  have isLoss : z.isLoss = y.isLoss := Record.isLoss_congr kind
  refine ⟨⟨?_, ?_, ?_, ?_, ?_, ?_⟩, ?_⟩
  · simpa [ReportQueue.ordinaryCount, eq, List.countP_cons, isLoss] using h.ordinary
  · simpa [eq, List.countP_cons, isLoss] using h.loss
  · intro r hr
    have each := h.each
    rw [eq] at each
    rcases List.mem_append.1 hr with hr | hr
    · exact each r (by simp [hr])
    · rcases List.mem_cons.1 hr with rfl | hr
      · exact sound
      · exact each r (by simp [hr])
  · rw [ReportQueue.inSequence_iff]
    have := h.sequence
    rw [ReportQueue.inSequence_iff, eq] at this
    simpa [seq] using this
  · have := h.sentFirst
    rw [eq] at this
    simpa [List.pairwise_append, sent] using this
  · have := h.apart
    rw [eq] at this
    simpa only [List.pairwise_append, List.pairwise_cons, List.mem_cons, forall_eq_or_imp, left, right] using this
  · simp [ReportQueue.sentCount, eq, List.countP_cons, sent]

/-- A sound new record at the tail leaves the records sound where there is room, its number is free, and no record could take it. -/
theorem ReportQueue.RecordsSound.append {q : ReportQueue} (h : q.RecordsSound) (first last : Millis) (subject : Option Nat)
    {count : Nat} {detail : Detail} (range : 1 ≤ count ∧ count ≤ 65535) (reasons : ∀ c, detail = .linkError c → c.sum = count)
    (free : q.seqFree = true)
    (room : (detail.kind = .loss ∧ ∀ z ∈ q.records, z.kind ≠ .loss) ∨ (detail.kind ≠ .loss ∧ q.ordinaryCount < 31))
    (alone : detail.kind.merges = true → ∀ z ∈ q.records, Record.matches detail.kind subject z = false) (tally : Tally) :
    ({ q.append first last subject count detail with tally := tally } : ReportQueue).RecordsSound ∧
    ({ q.append first last subject count detail with tally := tally } : ReportQueue).sentCount = q.sentCount := by
  refine ⟨⟨?_, ?_, ?_, ?_, ?_, ?_⟩, ?_⟩
  · rcases room with ⟨loss, _⟩ | ⟨_, less⟩
    · simpa [ReportQueue.append, ReportQueue.ordinaryCount, Record.isLoss, Record.kind, loss] using h.ordinary
    · have : ({ q.append first last subject count detail with tally := tally } : ReportQueue).ordinaryCount
          ≤ q.ordinaryCount + 1 := by
        simp only [ReportQueue.append, ReportQueue.ordinaryCount, List.countP_append, List.countP_singleton]
        split <;> omega
      omega
  · rcases room with ⟨loss, none⟩ | ⟨ordinary, _⟩
    · have : q.records.countP Record.isLoss = 0 :=
        List.countP_eq_zero.2 fun z hz => by simpa [Record.isLoss] using none z hz
      simp only [ReportQueue.append, List.countP_append, this, List.countP_singleton]
      split <;> omega
    · simpa [ReportQueue.append, Record.isLoss, Record.kind, ordinary] using h.loss
  · intro r hr
    rcases List.mem_append.1 hr with hr | hr
    · exact h.each r hr
    · rw [List.mem_singleton.1 hr]
      refine ⟨range, ?_⟩
      unfold Record.reasonsSum
      cases detail with
      | linkError c => simpa using reasons c rfl
      | _ => rfl
  · rw [ReportQueue.inSequence_iff]
    have := h.sequence
    rw [ReportQueue.inSequence_iff] at this
    simp only [ReportQueue.append, List.map_append, List.map_cons, List.map_nil]
    refine this.append fun head hh => ?_
    rw [ReportQueue.seqFree_iff] at free
    rw [List.head?_map] at hh
    obtain ⟨x, hx, rfl⟩ := Option.map_eq_some_iff.1 hh
    exact free x hx
  · simp only [ReportQueue.append, List.pairwise_append]
    exact ⟨h.sentFirst, by simp, by simp⟩
  · simp only [ReportQueue.append, List.pairwise_append]
    refine ⟨h.apart, by simp, fun a ha b hb twins => ?_⟩
    rw [List.mem_singleton.1 hb] at twins
    obtain ⟨unsent, _, kind, merges, same⟩ := twins
    have kind' : a.kind = detail.kind := kind
    have := alone (kind' ▸ merges) a ha
    simp [Record.matches, unsent, kind', same] at this
  · simp [ReportQueue.append, ReportQueue.sentCount]

theorem ReportQueue.RecordsSound.countLost {q : ReportQueue} (h : q.RecordsSound) {n : Nat} (hn : 1 ≤ n) (kind : Kind)
    (t : Millis) : (q.countLost n kind t).RecordsSound ∧ (q.countLost n kind t).sentCount = q.sentCount := by
  rcases q.countLost_cases n kind t with ⟨before, y, after, eq, _, loss, _, e⟩ | ⟨none, free, e⟩ | e
  · rw [e]
    exact h.replace (z := y.takeLoss n kind t) eq rfl rfl (y.takeLoss_kind n kind t) rfl
      ((h.each y (by simp [eq])).takeLoss loss n kind t) _
  · rw [e]
    exact h.append t t _ ⟨Nat.le_min.2 ⟨hn, by decide⟩, Nat.min_le_right _ _⟩ (by simp) free (.inl ⟨rfl, none⟩)
      (by simp [Detail.kind, Kind.merges]) _
  · rw [e]
    exact ⟨⟨h.1, h.2, h.3, h.4, h.5, h.6⟩, rfl⟩

/-- A queue stays sound that counts reports as lost. -/
theorem ReportQueue.Sound.countLost {q : ReportQueue} (h : q.Sound) {n : Nat} (hn : 1 ≤ n) (kind : Kind) (t : Millis) :
    (q.countLost n kind t).Sound :=
  (h.records.countLost hn kind t).1.sound h (q.countLost_settings n kind t) (h.records.countLost hn kind t).2

/-- A queue stays sound that takes a report of an ordinary kind, a LINK_ERROR report with one reason. -/
theorem ReportQueue.Sound.take {q : ReportQueue} (h : q.Sound) (now : Millis) (r : Report) (ordinary : r.detail.kind ≠ .loss)
    (reasons : ∀ c, r.detail = .linkError c → c.sum = 1) : (q.take now r).Sound := by
  rcases q.take_cases now r with ⟨before, y, after, eq, _, hy, _, room, e⟩ | ⟨room, free, alone, e⟩ | e
  · rw [e]
    have kind : y.kind = r.detail.kind := ((Record.matches_iff _ _ _).1 hy).2.1
    have sound := (h.records.each y (by simp [eq])).absorb (n := 1) room r.time kind reasons
    obtain ⟨records, sent⟩ :=
      h.records.replace (z := y.absorb 1 r.time r.detail) eq rfl rfl (y.absorb_kind _ _ _) rfl sound q.tally
    exact records.sound h ⟨rfl, rfl, rfl, rfl⟩ sent
  · rw [e]
    obtain ⟨records, sent⟩ :=
      h.records.append r.time r.time r.subject ⟨le_rfl, by decide⟩ reasons free (.inr ⟨ordinary, room⟩) alone q.tally
    exact records.sound h ⟨rfl, rfl, rfl, rfl⟩ sent
  · rw [e]
    exact h.countLost le_rfl _ _

/-! ## Reversion (R126) -/

/-- What is true of a list of records and the losses left over while reverted records are folded. -/
structure FoldSound (from_ : List Record) (acc : List Record × List (Kind × Nat)) : Prop where
  unsent : ∀ r ∈ acc.1, r.sent = false
  each : ∀ r ∈ acc.1, r.Sound
  apart : acc.1.Pairwise (fun a b => ¬ a.Twins b)
  lost : ∀ x ∈ acc.2, 1 ≤ x.2
  keeps : (acc.1.map (·.seq)).Sublist (from_.map (·.seq))
  head : acc.1.head?.map (·.seq) = from_.head?.map (·.seq)
  losses : acc.1.countP Record.isLoss ≤ from_.countP Record.isLoss
  ordinary : acc.1.countP (!·.isLoss) ≤ from_.countP (!·.isLoss)

theorem Kind.merges_not_loss {k : Kind} (h : k.merges = true) : k ≠ .loss := by rintro rfl; cases h

theorem FoldSound.step {from_ : List Record} {acc : List Record × List (Kind × Nat)} (h : FoldSound from_ acc) {r : Record}
    (unsent : r.sent = false) (sound : r.Sound) : FoldSound (from_ ++ [r]) (foldRecord acc r) := by
  have nil (hacc : acc.1 = []) : from_ = [] := by
    have := h.head
    rw [hacc] at this
    cases from_ <;> simp_all
  rcases foldRecord_cases acc.1 acc.2 r with ⟨alone, e⟩ | ⟨before, y, after, eq, _, hy, merges, fits, e⟩ | ⟨⟨y, hy, _⟩, _, e⟩
  · rw [show foldRecord acc r = _ from e]
    refine ⟨?_, ?_, ?_, h.lost, ?_, ?_, ?_, ?_⟩
    · intro x hx
      rcases List.mem_append.1 hx with hx | hx
      · exact h.unsent x hx
      · rw [List.mem_singleton.1 hx]; exact unsent
    · intro x hx
      rcases List.mem_append.1 hx with hx | hx
      · exact h.each x hx
      · rw [List.mem_singleton.1 hx]; exact sound
    · rw [List.pairwise_append]
      refine ⟨h.apart, by simp, fun a ha b hb twins => ?_⟩
      rw [List.mem_singleton.1 hb] at twins
      obtain ⟨ua, _, kind, merges, same⟩ := twins
      have := alone (kind ▸ merges) a ha
      simp [Record.matches, ua, kind, same] at this
    · simpa using h.keeps.append_right [r.seq]
    · cases hacc : acc.1 with
      | nil =>
        simp [nil hacc]
      | cons a as =>
        have := h.head
        rw [hacc] at this
        cases hf : from_ with
        | nil => rw [hf] at this; cases this
        | cons b bs => rw [hf] at this; simpa using this
    · simpa [List.countP_append] using h.losses
    · simpa [List.countP_append] using h.ordinary
  · rw [show foldRecord acc r = _ from e]
    obtain ⟨uy, ky, sy⟩ := (Record.matches_iff _ _ _).1 hy
    have reasons : ∀ c, r.detail = .linkError c → c.sum = r.count := by
      intro c hc
      have := sound.2
      simpa [Record.reasonsSum, hc] using this
    have joined := (h.each y (by simp [eq])).absorb (n := r.count) fits r.last ky reasons
    have left (x : Record) : (y.absorb r.count r.last r.detail).Twins x ↔ y.Twins x := by simp [Record.Twins]
    have right (x : Record) : x.Twins (y.absorb r.count r.last r.detail) ↔ x.Twins y := by simp [Record.Twins]
    have isLoss : (y.absorb r.count r.last r.detail).isLoss = y.isLoss := Record.isLoss_congr (y.absorb_kind _ _ _)
    refine ⟨?_, ?_, ?_, h.lost, ?_, ?_, ?_, ?_⟩
    · have := h.unsent
      rw [eq] at this
      simpa [or_imp, forall_and] using this
    · intro x hx
      have each := h.each
      rw [eq] at each
      rcases List.mem_append.1 hx with hx | hx
      · exact each x (by simp [hx])
      · rcases List.mem_cons.1 hx with rfl | hx
        · exact joined
        · exact each x (by simp [hx])
    · have := h.apart
      rw [eq] at this
      simpa only [List.pairwise_append, List.pairwise_cons, List.mem_cons, forall_eq_or_imp, left, right] using this
    · have := h.keeps
      rw [eq] at this
      rw [List.map_append (l₁ := from_)]
      exact (by simpa using this : List.Sublist _ (from_.map (·.seq))).trans (List.sublist_append_left _ _)
    · have := h.head
      rw [eq] at this
      cases hf : from_ with
      | nil => rw [hf] at this; cases before <;> simp at this
      | cons b bs => rw [hf] at this; cases before <;> simpa using this
    · have := h.losses
      rw [eq] at this
      simp only [List.countP_append, List.countP_cons, isLoss] at this ⊢
      omega
    · have := h.ordinary
      rw [eq] at this
      simp only [List.countP_append, List.countP_cons, isLoss] at this ⊢
      omega
  · rw [show foldRecord acc r = _ from e]
    refine ⟨h.unsent, h.each, h.apart, ?_, ?_, ?_, ?_, ?_⟩
    · intro x hx
      rcases List.mem_append.1 hx with hx | hx
      · exact h.lost x hx
      · rw [List.mem_singleton.1 hx]; exact sound.1.1
    · rw [List.map_append]
      exact h.keeps.trans (List.sublist_append_left _ _)
    · have := h.head
      cases hf : from_ with
      | nil =>
        rw [hf] at this
        cases hacc : acc.1 with
        | nil => rw [hacc] at hy; cases hy
        | cons a as => rw [hacc] at this; cases this
      | cons b bs => rw [hf] at this; simpa using this
    · exact h.losses.trans (by simp)
    · exact h.ordinary.trans (by simp)

/-- Reverted records fold to records that are sound, UNSENT and apart, in their order, the first of them still the first. -/
theorem foldRecords_sound {records : List Record} (unsent : ∀ r ∈ records, r.sent = false) (sound : ∀ r ∈ records, r.Sound) :
    FoldSound records (foldRecords records) := by
  suffices ∀ (rest done : List Record) (acc : List Record × List (Kind × Nat)), FoldSound done acc →
      (∀ r ∈ rest, r.sent = false) → (∀ r ∈ rest, r.Sound) → FoldSound (done ++ rest) (rest.foldl foldRecord acc) by
    simpa [foldRecords] using
      this records [] ([], []) ⟨by simp, by simp, by simp, by simp, by simp, rfl, by simp, by simp⟩ unsent sound
  intro rest
  induction rest with
  | nil => intro done acc h _ _; simpa using h
  | cons r rs ih =>
    intro done acc h unsent sound
    simp only [List.mem_cons, forall_eq_or_imp] at unsent sound
    simpa using ih (done ++ [r]) _ (h.step unsent.1 sound.1) unsent.2 sound.2

/-- A sound queue reverted has sound records, none of them SENT, its ack timer stopped and its other settings kept. -/
theorem ReportQueue.Sound.revert {q : ReportQueue} (h : q.Sound) (t : Millis) :
    (q.revert t).RecordsSound ∧ (q.revert t).sentCount = 0 ∧ (q.revert t).ackTimer = none ∧
    (q.revert t).credit = q.credit ∧ (q.revert t).timeout = q.timeout ∧ (q.revert t).retries = q.retries := by
  have folded : FoldSound (q.records.map Record.revert) (foldRecords (q.records.map Record.revert)) := by
    refine foldRecords_sound (by simp) fun r hr => ?_
    obtain ⟨x, hx, rfl⟩ := List.mem_map.1 hr
    exact (h.records.each x hx).revert
  have seqs : (q.records.map Record.revert).map (·.seq) = q.records.map (·.seq) := by simp
  have kinds (p : Record → Bool) (hp : ∀ r, p r.revert = p r) : (q.records.map Record.revert).countP p = q.records.countP p := by
    rw [List.countP_map]; congr 1; funext r; exact hp r
  have isLoss (r : Record) : r.revert.isLoss = r.isLoss := Record.isLoss_congr r.revert_kind
  have start : ({ q with records := (foldRecords (q.records.map Record.revert)).1, ackTimer := none } : ReportQueue).RecordsSound := by
    refine ⟨?_, ?_, folded.each, ?_, ?_, folded.apart⟩
    · exact folded.ordinary.trans ((kinds _ fun r => by simp [isLoss]).trans_le h.records.ordinary)
    · exact folded.losses.trans ((kinds _ isLoss).trans_le h.records.loss)
    · rw [ReportQueue.inSequence_iff]
      have order := h.records.sequence
      rw [ReportQueue.inSequence_iff, ← seqs] at order
      have keeps := folded.keeps
      have head := folded.head
      revert order keeps head
      rw [← List.head?_map, ← List.head?_map]
      generalize (q.records.map Record.revert).map (·.seq) = ys
      show _ → _ → _ → inOrder q.nextSeq ((foldRecords (q.records.map Record.revert)).1.map (·.seq))
      generalize (foldRecords (q.records.map Record.revert)).1.map (·.seq) = xs
      intro order keeps head
      cases xs with
      | nil => trivial
      | cons a xs =>
        cases ys with
        | nil => cases keeps
        | cons b ys =>
          obtain rfl : a = b := by simpa using head
          exact order.sublist keeps
    · exact List.pairwise_of_forall_mem_list fun a ha b hb sent => by rw [folded.unsent b hb] at sent; cases sent
  unfold ReportQueue.revert
  dsimp only
  have lost := folded.lost
  revert lost start
  have none : ({ q with records := (foldRecords (q.records.map Record.revert)).1, ackTimer := none } : ReportQueue).sentCount = 0 := by
    refine List.countP_eq_zero.2 fun r hr => ?_
    simp [folded.unsent r hr]
  revert none
  generalize (foldRecords (q.records.map Record.revert)).2 = losses
  generalize hp : ({ q with records := (foldRecords (q.records.map Record.revert)).1, ackTimer := none } : ReportQueue) = p
  have settings : p.ackTimer = none ∧ p.credit = q.credit ∧ p.timeout = q.timeout ∧ p.retries = q.retries := by
    subst hp; exact ⟨rfl, rfl, rfl, rfl⟩
  clear hp
  intro none start lost
  induction losses generalizing p with
  | nil => exact ⟨start, none, settings⟩
  | cons x xs ih =>
    simp only [List.mem_cons, forall_eq_or_imp] at lost
    obtain ⟨records, sent⟩ := start.countLost lost.1 x.1 t
    obtain ⟨credit, timeout, ackTimer, retries⟩ := p.countLost_settings x.2 x.1 t
    exact ih _ ⟨ackTimer.trans settings.1, credit.trans settings.2.1, timeout.trans settings.2.2.1,
      retries.trans settings.2.2.2⟩ (sent.trans none) records lost.2

/-! ## Settings, choice and acknowledgement -/

/-- Settings that agree with the records make sound records a sound queue. -/
theorem ReportQueue.RecordsSound.withSettings {q : ReportQueue} (h : q.RecordsSound) (window : q.sentCount ≤ q.credit)
    (credit : 1 ≤ q.credit ∧ q.credit ≤ 8)
    (timer : q.ackTimer = if q.sentCount = 0 ∨ q.timeout = .off then none else some q.timeout)
    (retries : q.retries ≤ 8 ∧ (q.retries = 8 → q.sentCount = 0)) : q.Sound :=
  ⟨h.ordinary, h.loss, h.each, h.sequence, h.sentFirst, h.apart, window, credit, timer, retries.1, retries.2⟩

/-- A sound queue reverted is sound with any settings in their ranges, its ack timer stopped. -/
theorem ReportQueue.Sound.revert_with {q : ReportQueue} (h : q.Sound) (t : Millis) {credit retries : Nat}
    (timeout : AckTimeout) (range : 1 ≤ credit ∧ credit ≤ 8) (hr : retries ≤ 8) :
    ({ q.revert t with credit := credit, timeout := timeout, retries := retries } : ReportQueue).Sound := by
  obtain ⟨records, sent, timer, _⟩ := h.revert t
  have sent' : ({ q.revert t with credit := credit, timeout := timeout, retries := retries } : ReportQueue).sentCount = 0 :=
    sent
  refine ReportQueue.RecordsSound.withSettings ⟨records.1, records.2, records.3, records.4, records.5, records.6⟩ ?_ range ?_
    ⟨hr, fun _ => sent'⟩
  · rw [sent']; exact Nat.zero_le _
  · rw [if_pos (.inl sent')]; exact timer

theorem ReportQueue.Sound.changeSession {q : ReportQueue} (h : q.Sound) (t : Millis) :
    (q.changeSession t).Sound ∧ (q.changeSession t).sentCount = 0 := by
  obtain ⟨_, sent, _, credit, timeout, _⟩ := h.revert t
  have := h.revert_with t (credit := (q.revert t).credit) (retries := 0) (q.revert t).timeout
    (by rw [credit]; exact h.2.2.2.2.2.2.2.1) (Nat.zero_le _)
  exact ⟨this, sent⟩

theorem ReportQueue.Sound.expire {q : ReportQueue} (h : q.Sound) (t : Millis) :
    (q.expire t).Sound ∧ (q.expire t).sentCount = 0 := by
  obtain ⟨_, sent, _, credit, timeout, _⟩ := h.revert t
  have := h.revert_with t (credit := (q.revert t).credit) (retries := min (q.retries + 1) 8) (q.revert t).timeout
    (by rw [credit]; exact h.2.2.2.2.2.2.2.1) (Nat.min_le_right _ _)
  exact ⟨this, sent⟩

/-- Sound records whose ack timer is restarted make a sound queue. -/
theorem ReportQueue.RecordsSound.restartTimer {q : ReportQueue} (h : q.RecordsSound) (window : q.sentCount ≤ q.credit)
    (credit : 1 ≤ q.credit ∧ q.credit ≤ 8) (retries : q.retries ≤ 8 ∧ (q.retries = 8 → q.sentCount = 0)) :
    q.restartTimer.Sound := by
  have records : q.restartTimer.RecordsSound := by
    unfold ReportQueue.restartTimer ReportQueue.startTimer
    split <;> exact ⟨h.1, h.2, h.3, h.4, h.5, h.6⟩
  have sent : q.restartTimer.sentCount = q.sentCount := by
    unfold ReportQueue.restartTimer ReportQueue.startTimer
    split <;> rfl
  have rest : q.restartTimer.credit = q.credit ∧ q.restartTimer.retries = q.retries ∧ q.restartTimer.timeout = q.timeout ∧
      q.restartTimer.ackTimer = if q.sentCount = 0 ∨ q.timeout = .off then none else some q.timeout := by
    unfold ReportQueue.restartTimer ReportQueue.startTimer
    by_cases h0 : q.sentCount = 0 <;> by_cases ht : q.timeout = .off <;> simp [h0, ht]
  obtain ⟨c, r, t, timer⟩ := rest
  exact records.withSettings (by rw [sent, c]; exact window) (by rw [c]; exact credit) (by rw [sent, t]; exact timer)
    (by rw [sent, r]; exact retries)

/-- The record on offer chosen: it is SENT and comes after the SENT ones, and the queue stays sound (R121). -/
theorem ReportQueue.Sound.choose {q : ReportQueue} (h : q.Sound) {session : Session} {r : Record}
    (offer : q.onOffer session = some r) : q.choose.Sound ∧ session = .opened := by
  unfold ReportQueue.onOffer at offer
  split at offer
  swap
  · cases offer
  case isTrue ready =>
    obtain ⟨isOpen, below, less⟩ := ready
    refine ⟨?_, isOpen⟩
    obtain ⟨before, after, eq, allSent, unsent⟩ := find?_split offer
    have unsent' : r.sent = false := by simpa using unsent
    have allSent' : ∀ z ∈ before, z.sent = true := fun z hz => by simpa using allSent z hz
    have restUnsent : ∀ z ∈ after, z.sent = false := by
      have first := h.records.sentFirst
      rw [eq, List.pairwise_append, List.pairwise_cons] at first
      intro z hz
      cases hs : z.sent
      · rfl
      · rw [first.2.1.1 z hz hs] at unsent'
        cases unsent'
    have sentBefore : q.sentCount = before.length := by
      have b : before.countP (·.sent) = before.length := List.countP_eq_length.2 allSent'
      have a : after.countP (·.sent) = 0 := List.countP_eq_zero.2 fun z hz => by simp [restUnsent z hz]
      simp [ReportQueue.sentCount, eq, List.countP_append, unsent', a, b]
    have marked : updateFirst (!·.sent) (fun r => { r with sent := true }) q.records =
        before ++ { r with sent := true } :: after := by
      rw [eq]
      exact updateFirst_at _ _ _ _ _ allSent unsent
    have records : ({ q with records := before ++ { r with sent := true } :: after } : ReportQueue).RecordsSound := by
      refine ⟨?_, ?_, ?_, ?_, ?_, ?_⟩
      · have := h.records.ordinary
        simpa [ReportQueue.ordinaryCount, eq, List.countP_cons, Record.isLoss, Record.kind] using this
      · have := h.records.loss
        simpa [eq, List.countP_cons, Record.isLoss, Record.kind] using this
      · intro x hx
        have each := h.records.each
        rw [eq] at each
        rcases List.mem_append.1 hx with hx | hx
        · exact each x (by simp [hx])
        · rcases List.mem_cons.1 hx with rfl | hx
          · exact each r (by simp)
          · exact each x (by simp [hx])
      · rw [ReportQueue.inSequence_iff]
        have := h.records.sequence
        rw [ReportQueue.inSequence_iff, eq] at this
        simpa using this
      · simp only [List.pairwise_append, List.pairwise_cons, List.mem_cons, forall_eq_or_imp]
        refine ⟨?_, ⟨fun _ _ _ => trivial, ?_⟩, fun a ha => ⟨fun _ => allSent' a ha, fun _ _ _ => allSent' a ha⟩⟩
        · exact List.pairwise_of_forall_mem_list fun a ha _ _ _ => allSent' a ha
        · exact List.pairwise_of_forall_mem_list fun _ _ b hb sent => by rw [restUnsent b hb] at sent; cases sent
      · have := h.records.apart
        rw [eq] at this
        simp only [List.pairwise_append, List.pairwise_cons, List.mem_cons, forall_eq_or_imp] at this ⊢
        obtain ⟨b, ⟨_, a⟩, c⟩ := this
        refine ⟨b, ⟨fun _ _ twins => Bool.noConfusion twins.1, a⟩, fun x hx => ⟨fun twins => Bool.noConfusion twins.2.1, (c x hx).2⟩⟩
    have sent : ({ q with records := before ++ { r with sent := true } :: after } : ReportQueue).sentCount = q.sentCount + 1 := by
      rw [sentBefore]
      have b : before.countP (·.sent) = before.length := List.countP_eq_length.2 allSent'
      have a : after.countP (·.sent) = 0 := List.countP_eq_zero.2 fun z hz => by simp [restUnsent z hz]
      simp [ReportQueue.sentCount, List.countP_append, a, b]
    obtain ⟨_, _, _, _, _, _, _, credit, timer, retries, _⟩ := h
    have done (ackTimer : Option AckTimeout) (ht : ackTimer = if q.timeout = .off then none else some q.timeout) :
        ({ q with records := before ++ { r with sent := true } :: after, ackTimer := ackTimer } : ReportQueue).Sound := by
      have sent' : ({ q with records := before ++ { r with sent := true } :: after, ackTimer := ackTimer } :
          ReportQueue).sentCount = q.sentCount + 1 := sent
      refine ReportQueue.RecordsSound.withSettings
        ⟨records.1, records.2, records.3, records.4, records.5, records.6⟩ ?_ credit ?_ ⟨retries, ?_⟩
      · rw [sent']; exact less
      · rw [sent']; simpa using ht
      · intro full; simp only at full; omega
    unfold ReportQueue.choose
    rw [marked]
    split
    case isTrue => exact done _ rfl
    case isFalse some =>
      refine done _ ?_
      rw [timer]
      simp [some]

/-- A sound queue acknowledged is sound; a record was SENT (R124). -/
theorem ReportQueue.Sound.acknowledge {q p : ReportQueue} (h : q.Sound) {n : BitVec 16} {removed : Nat}
    (e : q.acknowledge? n = some (removed, p)) : p.Sound ∧ 0 < q.sentCount := by
  unfold ReportQueue.acknowledge? at e
  simp only [Option.map_eq_some_iff, Prod.mk.injEq, Prod.exists] at e
  obtain ⟨_, left, cut, _, rfl⟩ := e
  obtain ⟨before, x, eq, sentX, _, _, _⟩ := acknowledged?_cases cut
  have records : ({ q with records := left, retries := 0 } : ReportQueue).RecordsSound := by
    have sub : left.Sublist q.records := by
      rw [eq]
      exact (List.sublist_cons_self _ _).trans (List.sublist_append_right _ _)
    refine ⟨?_, ?_, ?_, ?_, ?_, ?_⟩
    · exact (sub.countP_le (p := (!·.isLoss))).trans h.records.ordinary
    · exact (sub.countP_le (p := Record.isLoss)).trans h.records.loss
    · exact fun r hr => h.records.each r (sub.mem hr)
    · rw [ReportQueue.inSequence_iff]
      have order := h.records.sequence
      rw [ReportQueue.inSequence_iff, eq] at order
      exact inOrder.drop ((before ++ [x]).map (·.seq)) _ (by simpa using order)
    · exact h.records.sentFirst.sublist sub
    · exact h.records.apart.sublist sub
  have fewer : ({ q with records := left, retries := 0 } : ReportQueue).sentCount ≤ q.sentCount := by
    show left.countP _ ≤ q.records.countP _
    rw [eq]
    exact ((List.sublist_cons_self _ _).trans (List.sublist_append_right _ _)).countP_le
  have cutSound : ({ q with records := left, retries := 0 } : ReportQueue).restartTimer.Sound :=
    records.restartTimer (fewer.trans h.2.2.2.2.2.2.1) h.2.2.2.2.2.2.2.1 ⟨Nat.zero_le _, fun full => Nat.noConfusion full⟩
  have restarted : ({ q with records := left, retries := 0 } : ReportQueue).restartTimer.records = left ∧
      ({ q with records := left, retries := 0 } : ReportQueue).restartTimer.nextSeq = q.nextSeq := by
    unfold ReportQueue.restartTimer ReportQueue.startTimer
    split <;> exact ⟨rfl, rfl⟩
  generalize ({ q with records := left, retries := 0 } : ReportQueue).restartTimer = c at cutSound restarted
  refine ⟨?_, ?_⟩
  · rcases c.drainTally_cases with ⟨same, _⟩ | ⟨noLoss, some, drained⟩
    · rw [same]; exact cutSound
    · rw [drained]
      have free : c.seqFree = true := by
        rw [ReportQueue.seqFree_iff, restarted.1, restarted.2]
        intro head hh
        cases left with
        | nil => cases hh
        | cons y ys =>
          obtain rfl : y = head := by simpa using hh
          have order := h.records.sequence
          rw [ReportQueue.inSequence_iff, eq] at order
          cases before with
          | nil => exact inOrder.drop_free (head := x.seq) [] (ys.map (·.seq)) (by simpa using order)
          | cons b bs =>
            exact inOrder.drop_free (head := b.seq) ((bs ++ [x]).map (·.seq)) (ys.map (·.seq)) (by simpa using order)
      have count : 1 ≤ min c.tally.count.toNat maxCount := by
        refine Nat.le_min.2 ⟨?_, by decide⟩
        rcases Nat.eq_zero_or_pos c.tally.count.toNat with zero | pos
        · exact absurd (BitVec.eq_of_toNat_eq zero) some
        · exact pos
      obtain ⟨grown, sent⟩ := cutSound.records.append c.tally.first c.tally.last none (detail := .loss c.tally.kinds)
        ⟨count, Nat.min_le_right _ _⟩ (by simp) free (.inl ⟨rfl, noLoss⟩) (by simp [Detail.kind, Kind.merges])
        { c.tally with
          count := c.tally.count - BitVec.ofNat 64 (min c.tally.count.toNat maxCount)
          kinds := if c.tally.count - BitVec.ofNat 64 (min c.tally.count.toNat maxCount) = 0 then 0 else c.tally.kinds }
      exact grown.sound cutSound ⟨rfl, rfl, rfl, rfl⟩ sent
  · rw [ReportQueue.sentCount, eq]
    exact List.countP_pos_iff.2 ⟨x, by simp, sentX⟩

end Sys2Proof.Machine
end

