-- ==== Sys2Proof/Laws/Step.lean ====
section
/-! SUPPORT. What a step can do, the tables of the reset state, and what the events of lines, timers and the full reset leave. -/

namespace Sys2Proof.Machine

/-- A step idles on an empty queue, and otherwise is the front command on the state with the queue's rest. -/
theorem step_cases {s t : State} (h : step s = .next t) :
    (s.pending = [] ∧ t = s) ∨ ∃ c rest, s.pending = c :: rest ∧ exec c { s with pending := rest } = .next t := by
  unfold step at h
  split at h
  case h_1 hp => exact .inl ⟨hp, (Host.Outcome.next.inj h).symm⟩
  case h_2 c rest hp => exact .inr ⟨c, rest, hp, h⟩

/-! ## The reset state -/

theorem replicate_get {α : Type} (n : Nat) (x : α) (i : Fin n) : (Vector.replicate n x).get i = x := by
  simp [get_eq]

@[simp] theorem reset_line (l : LineId) : State.reset.line l = Line.default := replicate_get ..
@[simp] theorem reset_window (w : WindowId) : State.reset.window w = Window.default := replicate_get ..
@[simp] theorem reset_cls (c : ClassId) : State.reset.cls c = { holders := 0, last := none } := replicate_get ..
@[simp] theorem reset_timer (i : TimerId) : State.reset.timer i = Timer.default := replicate_get ..
@[simp] theorem reset_dom (d : DomainId) : State.reset.dom d = Domain.default := replicate_get ..

/-! ## Holds -/

/-- The end of a hold reaches the class record and the timers alone. -/
theorem State.endHold_frame (s : State) (l : LineId) (c : ClassId) :
    { s.endHold l c with classes := s.classes, timers := s.timers } = s := by
  unfold State.endHold
  dsimp only
  split <;> rfl

/-- The beginning of a hold at the Class Map and the timers reaches them alone. -/
theorem State.joinHold_frame (s : State) (l : LineId) (c : ClassId) :
    { s.joinHold l c with classes := s.classes, timers := s.timers } = s := by
  unfold State.joinHold
  dsimp only
  split <;> rfl

theorem State.joinHold_lines (s : State) (l : LineId) (c : ClassId) : (s.joinHold l c).lines = s.lines := by
  unfold State.joinHold
  dsimp only
  split <;> rfl

/-- The beginning of a hold reaches the classes, the timers, the woken domains and the queue. -/
theorem State.beginHold_lines (s : State) (l : LineId) (c : ClassId) : (s.beginHold l c).lines = s.lines :=
  (State.handOver_sameOutside _ _).lines.trans (s.joinHold_lines l c)

theorem State.endHold_lines (s : State) (l : LineId) (c : ClassId) : (s.endHold l c).lines = s.lines := by
  unfold State.endHold
  dsimp only
  split <;> rfl

/-! ## Due expiries -/

/-- Takings that are no wakes leave the timers. -/
theorem State.handOver_timer_of_no_wake (s : State) (hs : List HandOff) (h : ∀ d c, .wake d c ∉ hs) (i : TimerId) :
    (s.handOver hs).timer i = s.timer i := by
  obtain ⟨order, n, perm, eq⟩ := s.handOver_fold hs
  rw [eq]
  refine (State.foldl_take_timer order { s with freeDraws := n } i).2 fun x hx => ?_
  cases x with
  | wake d c => exact absurd (perm.mem_iff.1 hx) (h d c)
  | expiry d n => simp [State.claims]
  | report r => simp [State.claims]

/-- An expiry is its own timer's alone. -/
theorem State.expireTimer_timer (s : State) (i j : TimerId) :
    (s.expireTimer i).timer j = if j = i then (s.timer i).expire else s.timer j := by
  unfold State.expireTimer
  rw [State.handOver_timer_of_no_wake _ _ fun d c h => ?_]
  · simp
  · rcases List.mem_append.1 h with h | h
    · unfold State.expiryReports at h
      split at h <;> simp at h
    · simp [State.expiriesOf] at h

/-- A timer that has expired has no expiry due. -/
@[simp] theorem Timer.expire_expires (t : Timer) : t.expire.expires = false := by
  unfold Timer.expire Timer.expires
  cases t.mode <;> simp

/-- An expiry leaves everything but the timers, the domains, the queue and the draws. -/
theorem State.expireTimer_sameOutside (s : State) (i : TimerId) : s.SameOutside (s.expireTimer i) :=
  (s.setTimer_sameOutside i _).trans (State.handOver_sameOutside _ _)

theorem State.takeDue_sameOutside (s : State) (i : TimerId) : s.SameOutside (s.takeDue i) := by
  unfold State.takeDue
  split
  · exact s.expireTimer_sameOutside i
  · exact .rfl' s

/-- A timer's own part of an expiry leaves everything but that timer, the queue and what is on its way. -/
theorem State.expireAtTimer_frame (s : State) (i : TimerId) : s.SameOutside { s.expireAtTimer i with handed := s.handed } := by
  unfold State.expireAtTimer
  split
  · exact { (s.setTimer_sameOutside i _).trans (State.handOver_sameOutside _ (s.expiryReports i)) with handed := rfl }
  · exact .rfl' s

/-- What a domain's meeting an expiry on its way can do: nothing where none is, and otherwise that one goes, and is taken if the
domain is still bound to its timer. -/
theorem State.takeHanded_cases (s : State) (i : TimerId) (d : DomainId) :
    (s.takeHanded i d = s ∧ ∀ x ∈ s.handed, ¬ (x.timer = i ∧ x.domain = d)) ∨
    ∃ x ∈ s.handed, x.timer = i ∧ x.domain = d ∧
      let gone : State := { s with handed := s.handed.erase x }
      s.takeHanded i d = if (s.dom d).config.boundTimer = some i then gone.takeExpiry d x.count else gone := by
  unfold State.takeHanded
  cases found : s.handed.find? fun x => x.timer == i && x.domain == d with
  | none => exact .inl ⟨rfl, by simpa using found⟩
  | some x =>
    have holds := List.find?_some found
    simp only [Bool.and_eq_true, beq_iff_eq] at holds
    exact .inr ⟨x, List.mem_of_find?_eq_some found, holds.1, holds.2, rfl⟩

theorem State.takeHanded_frame (s : State) (i : TimerId) (d : DomainId) :
    s.SameOutside { s.takeHanded i d with handed := s.handed } := by
  rcases s.takeHanded_cases i d with ⟨eq, -⟩ | ⟨x, -, -, -, eq⟩ <;> rw [eq]
  · exact .rfl' s
  · split
    · have taken := (State.takeExpiry_onlyDomain { s with handed := s.handed.erase x } d x.count).outside
      exact { taken with handed := rfl }
    · constructor <;> rfl

/-- A part of an expiry leaves everything but the timers, the domains, the queue, the draws and what is on its way. -/
theorem State.takePart_frame (s : State) (i : TimerId) (part : ExpiryPart) :
    s.SameOutside { s.takePart i part with handed := s.handed } := by
  cases part with
  | whole => exact { s.takeDue_sameOutside i with handed := rfl }
  | atTimer => exact s.expireAtTimer_frame i
  | atDomain d => exact s.takeHanded_frame i d

theorem State.SameOutside.transHanded {s t u : State} (h : s.SameOutside { t with handed := s.handed })
    (k : t.SameOutside { u with handed := t.handed }) : s.SameOutside { u with handed := s.handed } := by
  obtain ⟨_, _, _, _, _, _, _, _, _, _, _, _, _⟩ := h
  obtain ⟨_, _, _, _, _, _, _, _, _, _, _, _, _⟩ := k
  constructor <;> simp_all

/-- TIMER_EXPIRY of a running part takes the part of the expiry it names. -/
theorem exec_timerExpiry {s : State} (running : s.Running) (i : TimerId) (part : ExpiryPart) :
    exec (.timerExpiry i.val part) s = .next (s.takePart i part) := by
  simp only [exec, execTimerExpiry, onTimer_val]
  rw [State.running_of running]

/-- What is outstanding is taken one part after another, in some order. -/
theorem State.takeOutstanding_fold (s : State) :
    ∃ (order : List (TimerId × ExpiryPart)) (n : Nat), order.Perm s.outstanding ∧
      s.takeOutstanding = order.foldl (fun u x => u.takePart x.1 x.2) { s with freeDraws := n } := by
  unfold State.takeOutstanding
  split
  case h_1 h => exact ⟨[], s.freeDraws, by simp [h], rfl⟩
  case h_2 x h => exact ⟨[x], s.freeDraws, by simp [h], rfl⟩
  case h_3 => exact ⟨_, s.freeDraws + 1, freeOrder_perm _ _, rfl⟩

theorem State.takeOutstanding_frame (s : State) : s.SameOutside { s.takeOutstanding with handed := s.handed } := by
  obtain ⟨order, n, -, eq⟩ := s.takeOutstanding_fold
  have fold (order : List (TimerId × ExpiryPart)) (u : State) :
      u.SameOutside { order.foldl (fun u x => u.takePart x.1 x.2) u with handed := u.handed } := by
    induction order generalizing u with
    | nil => exact .rfl' u
    | cons x xs ih => exact (u.takePart_frame x.1 x.2).transHanded (ih _)
  rw [eq]
  exact State.SameOutside.trans (by constructor <;> rfl) (fold order { s with freeDraws := n })

/-! ## The full reset -/

/-- The power-ups that end a full reset leave everything outside the domains and the queue. -/
theorem State.foldl_enterPoweringUp_sameOutside (ds : List DomainId) (s : State) :
    s.SameOutside (ds.foldl State.enterPoweringUp s) := by
  induction ds generalizing s with
  | nil => exact .rfl' s
  | cons d ds ih => exact (s.enterPoweringUp_onlyDomain d).outside.trans (ih _)

/-- The end of a full reset is the full-reset state but for what entering POWERING_UP does to each domain and the queue. -/
theorem State.endFullReset_sameOutside (s : State) (cause : ResetCause) (rate : Rate) :
    (s.fullyReset cause rate).SameOutside (s.endFullReset cause rate) := State.foldl_enterPoweringUp_sameOutside _ _

theorem State.endFullReset_timers (s : State) (cause : ResetCause) (rate : Rate) :
    (s.endFullReset cause rate).timers = State.reset.timers := by
  have fold (ds : List DomainId) (u : State) : (ds.foldl State.enterPoweringUp u).timers = u.timers := by
    induction ds generalizing u with
    | nil => rfl
    | cons d ds ih => rw [List.foldl_cons, ih, (u.enterPoweringUp_onlyDomain d).timers]
  exact fold _ _

@[simp] theorem State.fullyReset_dom (s : State) (cause : ResetCause) (rate : Rate) (d : DomainId) :
    (s.fullyReset cause rate).dom d = (s.dom d).sampled := mapBank_get ..
@[simp] theorem State.fullyReset_line (s : State) (cause : ResetCause) (rate : Rate) (l : LineId) :
    (s.fullyReset cause rate).line l = (s.line l).sampled := mapBank_get ..

/-! ## Whole-state frames of the hand-offs -/

/-- Notices to takers change the timers, the domains, the queue and the draws alone. -/
theorem State.SameOutside.frame {s t : State} (h : s.SameOutside t) :
    { t with timers := s.timers, domains := s.domains, queue := s.queue, freeDraws := s.freeDraws } = s := by
  obtain ⟨_, _, _, _, _, _, _, _, _, _, _, _, _⟩ := h
  cases s
  cases t
  simp_all

/-- Notices to takers after a change of classes and timers. -/
theorem State.SameOutside.frameFrom {s u t : State} (h : u.SameOutside t)
    (k : { u with classes := s.classes, timers := s.timers } = s) :
    { t with
      classes := s.classes, timers := s.timers, domains := s.domains, queue := s.queue, freeDraws := s.freeDraws } = s := by
  obtain ⟨_, _, _, _, _, _, _, _, _, _, _, _, _⟩ := h
  rw [← k]
  cases u
  cases t
  simp_all

/-- A pulse changes the classes, the timers, the domains, the queue and the draws alone. -/
theorem State.pulse_frame (s : State) (c : ClassId) :
    { s.pulse c with
      classes := s.classes, timers := s.timers, domains := s.domains, queue := s.queue, freeDraws := s.freeDraws } = s :=
  (State.handOver_sameOutside (s.pulseTimers c) (s.wakesOf c)).frameFrom rfl

/-- A decision's hand-offs change the classes, the timers, the domains, the queue and the draws alone. -/
theorem State.decisionHandOffs_frame (s : State) (pulsed : Option ClassId) (reports : List HandOff) :
    { s.decisionHandOffs pulsed reports false with
      classes := s.classes, timers := s.timers, domains := s.domains, queue := s.queue, freeDraws := s.freeDraws } = s := by
  cases pulsed with
  | none => exact (State.handOver_sameOutside s reports).frameFrom (s := s) rfl
  | some c => exact (State.handOver_sameOutside (s.pulseTimers c) (reports ++ s.wakesOf c)).frameFrom (s := s) rfl

/-- The beginning of a hold changes the classes, the timers, the domains, the queue and the draws alone. -/
theorem State.beginHold_frame (s : State) (l : LineId) (c : ClassId) :
    { s.beginHold l c with
      classes := s.classes, timers := s.timers, domains := s.domains, queue := s.queue, freeDraws := s.freeDraws } = s :=
  (State.handOver_sameOutside (s.joinHold l c) (s.wakesOf c)).frameFrom (s.joinHold_frame l c)

/-! ## Notices on their way -/

/-- A pulse at the Class Map alone changes the class and what is on its way. -/
theorem State.spreadPulse_frame (s : State) (c : ClassId) (ofRequest : Bool) :
    { s.spreadPulse c ofRequest with classes := s.classes, notices := s.notices } = s := rfl

/-- The beginning of a hold with its wakes on their way changes the classes, the timers and what is on its way. -/
theorem State.spreadHold_frame (s : State) (l : LineId) (c : ClassId) (ofRequest : Bool) :
    { s.spreadHold l c ofRequest with classes := s.classes, timers := s.timers, notices := s.notices } = s := by
  have frame := s.joinHold_frame l c
  unfold State.spreadHold State.sendWakes
  generalize s.joinHold l c = u at frame ⊢
  cases s
  cases u
  simp_all

/-- What a listener's taking can do: nothing where no notice is on its way to it, and otherwise the oldest goes, and is met. -/
theorem State.takeNotice_cases (s : State) (x : Listener) :
    (s.takeNotice x = s ∧ ∀ n ∈ s.notices, n.listener ≠ x) ∨
    ∃ n ∈ s.notices, n.listener = x ∧ s.takeNotice x = ({ s with notices := s.notices.erase n } : State).hear n := by
  unfold State.takeNotice
  cases found : s.notices.find? (·.listener == x) with
  | none => exact .inl ⟨rfl, by simpa using found⟩
  | some n =>
    have holds := List.find?_some found
    exact .inr ⟨n, List.mem_of_find?_eq_some found, by simpa using holds, rfl⟩

/-- A listener that meets a notice leaves everything but the timers, the domains, the queue and the draws. -/
theorem State.hear_sameOutside (s : State) (n : Notice) : s.SameOutside (s.hear n) := by
  unfold State.hear
  split <;> split
  · exact s.setTimer_sameOutside _ _
  · exact .rfl' s
  · exact s.wake_sameOutside _ _
  · exact .rfl' s

theorem State.takeNotice_frame (s : State) (x : Listener) : s.SameOutside { s.takeNotice x with notices := s.notices } := by
  rcases s.takeNotice_cases x with ⟨eq, -⟩ | ⟨n, -, -, eq⟩ <;> rw [eq]
  · exact .rfl' s
  · have heard := State.hear_sameOutside { s with notices := s.notices.erase n } n
    exact { heard with notices := rfl }

/-- What is on its way after a listener's taking: what was, but for the oldest on its way to it. -/
theorem State.takeNotice_notices (s : State) (x : Listener) :
    (s.takeNotice x).notices = (s.notices.find? (·.listener == x)).elim s.notices s.notices.erase := by
  unfold State.takeNotice
  cases s.notices.find? (·.listener == x) with
  | none => rfl
  | some n => exact (State.hear_sameOutside { s with notices := s.notices.erase n } n).notices

theorem mem_awaited {ns : List Notice} {x : Listener} : x ∈ awaited ns ↔ ∃ n ∈ ns, n.ofRequest = true ∧ n.listener = x := by
  induction ns with
  | nil => simp [awaited]
  | cons m rest ih =>
    unfold awaited
    split
    next h =>
      rw [List.mem_cons, ih]
      constructor
      · rintro (rfl | ⟨n, mem, of, eq⟩)
        · simpa using h
        · exact ⟨n, by simp [mem], of, eq⟩
      · rintro ⟨n, mem, of, eq⟩
        rcases List.mem_cons.1 mem with rfl | mem
        · exact .inl eq.symm
        · exact .inr ⟨n, mem, of, eq⟩
    next h =>
      rw [ih]
      constructor
      · rintro ⟨n, mem, of, eq⟩
        exact ⟨n, by simp [mem], of, eq⟩
      · rintro ⟨n, mem, of, eq⟩
        rcases List.mem_cons.1 mem with rfl | mem
        · exact absurd (by simp [of]) h
        · exact ⟨n, mem, of, eq⟩

/-- A listener's taking settles one of its own entries among the awaited. -/
theorem awaited_perm {ns : List Notice} {x : Listener} {n : Notice} (found : ns.find? (·.listener == x) = some n)
    (mem : x ∈ awaited ns) : (awaited ns).Perm (x :: awaited (ns.erase n)) := by
  induction ns with
  | nil => cases found
  | cons m rest ih =>
    by_cases own : m.listener = x
    · obtain rfl : m = n := by simpa [List.find?_cons, own] using found
      have held : ((m :: rest).any fun k => k.ofRequest && k.listener == m.listener) = true := by
        obtain ⟨k, hk, of, eq⟩ := mem_awaited.1 mem
        exact List.any_eq_true.2 ⟨k, hk, by simp [of, eq, own]⟩
      rw [List.erase_cons_head]
      conv => lhs; unfold awaited
      rw [if_pos held, own]
    · have found : rest.find? (·.listener == x) = some n := by simpa [List.find?_cons, own] using found
      have nx : n.listener = x := by simpa using List.find?_some found
      have ne : m ≠ n := fun e => own (e ▸ nx)
      have mem : x ∈ awaited rest := by
        obtain ⟨k, hk, of, eq⟩ := mem_awaited.1 mem
        rcases List.mem_cons.1 hk with rfl | hk
        · exact absurd eq own
        · exact mem_awaited.2 ⟨k, hk, of, eq⟩
      have same : ((m :: rest.erase n).any fun k => k.ofRequest && k.listener == m.listener) =
          (m :: rest).any fun k => k.ofRequest && k.listener == m.listener := by
        rw [Bool.eq_iff_iff, List.any_eq_true, List.any_eq_true]
        constructor
        · rintro ⟨k, hk, h⟩
          rcases List.mem_cons.1 hk with rfl | hk
          · exact ⟨k, by simp, h⟩
          · exact ⟨k, by simp [List.mem_of_mem_erase hk], h⟩
        · rintro ⟨k, hk, h⟩
          rcases List.mem_cons.1 hk with rfl | hk
          · exact ⟨k, by simp, h⟩
          · refine ⟨k, List.mem_cons_of_mem _ ((List.mem_erase_of_ne ?_).2 hk), h⟩
            rintro rfl
            simp [nx, Ne.symm own] at h
      rw [List.erase_cons_tail (by simpa using ne)]
      have step := ih found mem
      unfold awaited
      rw [same]
      split
      · exact (step.cons _).trans (.swap ..)
      · exact step

/-- What a request's reply waits for is taken, each listener's notices in the order they were handed, in some order of listeners, and
no notice of a request is then on its way. -/
theorem State.takeAwaited_fold (s : State) :
    ∃ (order : List Listener) (n : Nat), order.Perm (awaited s.notices) ∧
      s.takeAwaited = order.foldl State.takeNotice { s with freeDraws := n } ∧
      ∀ m ∈ s.takeAwaited.notices, m.ofRequest = false := by
  have settles (order : List Listener) (u : State) (perm : order.Perm (awaited u.notices)) :
      ∀ m ∈ (order.foldl State.takeNotice u).notices, m.ofRequest = false := by
    induction order generalizing u with
    | nil =>
      intro m mem
      by_contra of
      have : m.listener ∈ awaited u.notices := mem_awaited.2 ⟨m, mem, by simpa using of, rfl⟩
      rw [perm.symm.eq_nil] at this
      cases this
    | cons x xs ih =>
      refine ih _ ?_
      have mem : x ∈ awaited u.notices := perm.mem_iff.1 (by simp)
      rw [u.takeNotice_notices]
      cases found : u.notices.find? (·.listener == x) with
      | none =>
        obtain ⟨k, hk, -, eq⟩ := mem_awaited.1 mem
        exact absurd (List.find?_eq_none.1 found k hk) (by simp [eq])
      | some n => exact (perm.trans (awaited_perm found mem)).cons_inv
  have fold : ∃ (order : List Listener) (n : Nat), order.Perm (awaited s.notices) ∧
      s.takeAwaited = order.foldl State.takeNotice { s with freeDraws := n } := by
    unfold State.takeAwaited
    split
    case h_1 h => exact ⟨[], s.freeDraws, by simp [h], rfl⟩
    case h_2 x h => exact ⟨[x], s.freeDraws, by simp [h], rfl⟩
    case h_3 => exact ⟨_, s.freeDraws + 1, freeOrder_perm _ _, rfl⟩
  obtain ⟨order, n, perm, eq⟩ := fold
  exact ⟨order, n, perm, eq, eq ▸ settles order { s with freeDraws := n } perm⟩

/-- With no notice of a request on its way nothing is awaited. -/
theorem State.takeAwaited_of_none {s : State} (h : ∀ n ∈ s.notices, n.ofRequest = false) : s.takeAwaited = s := by
  have none : awaited s.notices = [] := List.eq_nil_iff_forall_not_mem.2 fun x mem => by
    obtain ⟨n, hn, of, -⟩ := mem_awaited.1 mem
    simp [h n hn] at of
  unfold State.takeAwaited
  rw [none]

theorem State.takeAwaited_frame (s : State) : s.SameOutside { s.takeAwaited with notices := s.notices } := by
  obtain ⟨order, n, -, eq, -⟩ := s.takeAwaited_fold
  have fold (order : List Listener) (u : State) :
      u.SameOutside { order.foldl State.takeNotice u with notices := u.notices } := by
    induction order generalizing u with
    | nil => exact .rfl' u
    | cons x xs ih =>
      have rest := ih (u.takeNotice x)
      exact (u.takeNotice_frame x).trans { rest with notices := rfl }
  rw [eq]
  exact State.SameOutside.trans (by constructor <;> rfl) (fold order { s with freeDraws := n })

/-! ## Requests that give a class pulse -/

/-- The execution is the owner's decision: nothing is waited for before the reply is made. -/
theorem State.HasInHand.servePulse {s : State} {type : Byte} {payload : List Byte} {r : Request}
    (h : s.HasInHand type payload r) (owner : List Byte → Verdict) :
    s.servePulse type owner = s.conclude r (some (owner payload)) := by
  have : s.joining type = false := by simp [State.joining, h.2.2.1]
  rw [State.servePulse, this]
  exact h.serveAll owner

/-- Once the reply is made, what is still on its way from the request is taken, and the reply joins. -/
theorem State.servePulse_made {s : State} {type : Byte} {r : Request} {reply : Reply} (inHand : s.unit.inHand = some r)
    (ht : r.type = type) (made : s.unit.made = some reply) (owner : List Byte → Verdict) :
    s.servePulse type owner = s.takeAwaited.joinReply reply := by
  have joins : s.joining type = true := by simp [State.joining, inHand, made, ht]
  have unit : s.takeAwaited.unit = s.unit := s.takeAwaited_frame.unit
  rw [State.servePulse, if_pos joins]
  exact State.requestEvent_made (unit ▸ inHand) ht (unit ▸ made) _

/-- Without a request of the TYPE in hand nothing happens. -/
theorem State.servePulse_none {s : State} {type : Byte} (h : ∀ r, s.unit.inHand = some r → r.type ≠ type)
    (owner : List Byte → Verdict) : s.servePulse type owner = s := by
  have : s.joining type = false := by
    rw [State.joining, Bool.and_eq_false_iff]
    right
    cases hr : s.unit.inHand with
    | none => rfl
    | some r => simpa using h r hr
  rw [State.servePulse, this]
  exact State.requestEvent_none h _

end Sys2Proof.Machine
end

