-- ==== Sys2Proof/Laws/Reports.lean ====
section
/-! SUPPORT. Which operations reach the Report Queue, and how: each hands it reports of ordinary kinds, one after another. -/

namespace Sys2Proof.Machine

/-- A report as a block hands it: of a kind other than LOSS, and with one reason if it is a LINK_ERROR report (R113). -/
structure Report.Ordinary (r : Report) : Prop where
  kind : r.detail.kind ≠ .loss
  reasons : ∀ c, r.detail = .linkError c → c.sum = 1

/-- A queue after it has taken some ordinary reports, one after another. -/
inductive ReportQueue.Takes (p : ReportQueue) : ReportQueue → Prop where
  | none : ReportQueue.Takes p p
  | more {q : ReportQueue} (now : Millis) (r : Report) : r.Ordinary → ReportQueue.Takes p q → ReportQueue.Takes p (q.take now r)

theorem ReportQueue.Takes.trans {p q r : ReportQueue} (h : p.Takes q) (k : q.Takes r) : p.Takes r := by
  induction k with
  | none => exact h
  | more now x hx _ ih => exact .more now x hx ih

theorem ReportQueue.Takes.sound {p q : ReportQueue} (h : p.Takes q) (k : p.Sound) : q.Sound := by
  induction h with
  | none => exact k
  | more now x hx _ ih => exact ih.take now x hx.kind hx.reasons

theorem ReportQueue.Takes.settings {p q : ReportQueue} (h : p.Takes q) : p.SameSettings q := by
  induction h with
  | none => exact ⟨rfl, rfl, rfl, rfl⟩
  | @more q now x _ _ ih =>
    have := q.take_settings now x
    exact ⟨this.1.trans ih.1, this.2.trans ih.2, this.3.trans ih.3, this.4.trans ih.4⟩

/-- Taking a report never changes how many records are SENT, nor does counting a loss. -/
theorem ReportQueue.countLost_sentCount (q : ReportQueue) (n : Nat) (kind : Kind) (t : Millis) :
    (q.countLost n kind t).sentCount = q.sentCount := by
  rcases q.countLost_cases n kind t with ⟨before, y, after, eq, _, _, _, e⟩ | ⟨_, _, e⟩ | e <;> rw [e]
  · simp only [ReportQueue.sentCount, eq, List.countP_append, List.countP_cons]; rfl
  · simp [ReportQueue.sentCount, ReportQueue.append]
  · rfl

theorem ReportQueue.take_sentCount (q : ReportQueue) (now : Millis) (r : Report) : (q.take now r).sentCount = q.sentCount := by
  rcases q.take_cases now r with ⟨before, y, after, eq, _, _, _, _, e⟩ | ⟨_, _, _, e⟩ | e <;> rw [e]
  · simp only [ReportQueue.sentCount, eq, List.countP_append, List.countP_cons]; rfl
  · simp [ReportQueue.sentCount, ReportQueue.append]
  · exact q.countLost_sentCount _ _ _

theorem ReportQueue.Takes.sentCount {p q : ReportQueue} (h : p.Takes q) : q.sentCount = p.sentCount := by
  induction h with
  | none => rfl
  | more now x _ _ ih => exact (ReportQueue.take_sentCount _ now x).trans ih

/-- The queue of one state after ordinary reports is the queue of another. -/
abbrev State.Reports (s t : State) : Prop := s.queue.Takes t.queue

theorem State.report_reports (s : State) {r : Report} (h : r.Ordinary) : s.Reports (s.report r) := .more s.time r h .none

theorem State.reportDomain_reports (s : State) (d : DomainId) (e : Entered) (c : Cause) :
    s.Reports (s.reportDomain d e c) := s.report_reports ⟨by simp [Detail.kind], by simp⟩
theorem State.reportRefusal_reports (s : State) (d : DomainId) (n : Nat) : s.Reports (s.reportRefusal d n) :=
  s.report_reports ⟨by simp [Detail.kind], by simp⟩
theorem State.reportFault_reports (s : State) (d : DomainId) (f : FaultCause) (o : Outputs) :
    s.Reports (s.reportFault d f o) := s.report_reports ⟨by simp [Detail.kind], by simp⟩

theorem State.enterActive_reports (s : State) (d : DomainId) (c : Cause) : s.Reports (s.enterActive d c) :=
  State.reportDomain_reports (s.setDomState d .active) d _ _
theorem State.enterThrottled_reports (s : State) (d : DomainId) (c : Cause) : s.Reports (s.enterThrottled d c) :=
  State.reportDomain_reports (s.setDomState d _) d _ _
theorem State.enterQuiescing_reports (s : State) (d : DomainId) (t : Target) (c : Cause) :
    s.Reports (s.enterQuiescing d t c) := .none
theorem State.enterFaulted_reports (s : State) (d : DomainId) (f : FaultCause) (b : Bool) :
    s.Reports (s.enterFaulted d f b) := State.reportFault_reports (s.setDomState d _) d _ _
theorem State.endResume_reports (s : State) (d : DomainId) : s.Reports (s.endResume d) :=
  State.enterActive_reports (s.setDom d _) d _
theorem State.enterResuming_reports (s : State) (d : DomainId) : s.Reports (s.enterResuming d) := by
  unfold State.enterResuming
  dsimp only
  split
  · exact State.endResume_reports (s.setDomState d _) d
  · exact .none
theorem State.enterPoweringUp_reports (s : State) (d : DomainId) : s.Reports (s.enterPoweringUp d) := by
  unfold State.enterPoweringUp
  dsimp only
  split
  · exact State.enterResuming_reports (s.setDomState d _) d
  · exact .none
theorem State.enterOff_reports (s : State) (d : DomainId) (c : Cause) (b : Bool) : s.Reports (s.enterOff d c b) := by
  have entered := State.reportDomain_reports (s.setDomState d .off) d .off c
  unfold State.enterOff
  dsimp only
  split
  · exact entered.trans (State.enterPoweringUp_reports _ d)
  · exact entered
theorem State.enterPoweringDown_reports (s : State) (d : DomainId) (c : Cause) : s.Reports (s.enterPoweringDown d c) := by
  unfold State.enterPoweringDown
  dsimp only
  split
  · exact .none
  · exact State.enterOff_reports (s.setDomState d _) d c false
theorem State.endStopDelay_reports (s : State) (d : DomainId) (t : Target) (c : Cause) :
    s.Reports (s.endStopDelay d t c) := by
  cases t
  · exact State.reportDomain_reports (s.setDomState d _) d _ _
  · exact s.enterPoweringDown_reports d c
theorem State.enterSettling_reports (s : State) (d : DomainId) (t : Target) (c : Cause) :
    s.Reports (s.enterSettling d t c) := by
  unfold State.enterSettling
  dsimp only
  split
  · exact State.endStopDelay_reports (s.setDomState d _) d t c
  · exact .none

theorem State.takeExpiry_reports (s : State) (d : DomainId) (n : Nat) : s.Reports (s.takeExpiry d n) := by
  unfold State.takeExpiry
  repeat' split
  all_goals first
    | exact .none
    | exact s.enterThrottled_reports d _
    | exact s.enterPoweringDown_reports d _

theorem State.wake_reports (s : State) (d : DomainId) (c : Cause) : s.Reports (s.wake d c) := by
  have claim {t : State} (h : s.Reports t) : s.Reports (t.claimRestart d) := by simpa [State.Reports] using h
  unfold State.wake
  split
  all_goals first
    | exact .none
    | exact claim .none
    | exact claim (State.enterActive_reports (s.setLastWake d c) d c)
    | exact claim (State.enterResuming_reports (s.setLastWake d c) d)
    | exact claim (State.enterPoweringUp_reports (s.setLastWake d c) d)

theorem State.take_reports (s : State) (h : HandOff) (ordinary : ∀ r, h = .report r → r.Ordinary) : s.Reports (s.take h) := by
  cases h with
  | wake d c => exact s.wake_reports d c
  | expiry d n => exact s.takeExpiry_reports d n
  | report r => exact s.report_reports (ordinary r rfl)

theorem State.handOver_reports (s : State) (hs : List HandOff) (ordinary : ∀ r, .report r ∈ hs → r.Ordinary) :
    s.Reports (s.handOver hs) := by
  obtain ⟨order, n, perm, eq⟩ := s.handOver_fold hs
  rw [eq]
  have all : ∀ r, .report r ∈ order → r.Ordinary := fun r hr => ordinary r (perm.mem_iff.1 hr)
  have start : s.Reports { s with freeDraws := n } := .none
  clear eq perm
  revert start all
  generalize ({ s with freeDraws := n } : State) = u
  induction order generalizing u with
  | nil => exact fun _ h => h
  | cons x xs ih =>
    intro all hu
    exact ih _ (fun r hr => all r (by simp [hr])) (hu.trans (u.take_reports x fun r hr => all r (by simp [hr])))

theorem not_report_mem_wakesOf (s : State) (c : ClassId) (r : Report) : .report r ∉ s.wakesOf c := by
  intro h
  obtain ⟨d, _, hd⟩ := mem_wakesOf.1 h
  cases hd

theorem State.pulse_reports (s : State) (c : ClassId) : s.Reports (s.pulse c) :=
  State.handOver_reports (s.pulseTimers c) _ fun r hr => absurd hr (not_report_mem_wakesOf s c r)

theorem State.beginHold_reports (s : State) (l : LineId) (c : ClassId) : s.Reports (s.beginHold l c) := by
  have taken := (s.joinHold l c).handOver_reports (s.wakesOf c) fun r hr => absurd hr (not_report_mem_wakesOf s c r)
  have same : (s.joinHold l c).queue = s.queue := by
    unfold State.joinHold
    dsimp only
    split <;> rfl
  unfold State.Reports at taken ⊢
  rwa [same] at taken

theorem State.spreadHold_reports (s : State) (l : LineId) (c : ClassId) (ofRequest : Bool) :
    s.Reports (s.spreadHold l c ofRequest) := by
  unfold State.spreadHold State.joinHold
  dsimp only
  split <;> exact .none

theorem State.takeNotice_reports (s : State) (x : Listener) : s.Reports (s.takeNotice x) := by
  rcases s.takeNotice_cases x with ⟨eq, -⟩ | ⟨n, -, -, eq⟩ <;> rw [eq]
  · exact .none
  · unfold State.hear
    split <;> split
    · exact .none
    · exact .none
    · exact State.wake_reports { s with notices := s.notices.erase n } _ _
    · exact .none

theorem State.takeAwaited_reports (s : State) : s.Reports s.takeAwaited := by
  obtain ⟨order, n, -, eq, -⟩ := s.takeAwaited_fold
  rw [eq]
  have start : s.Reports { s with freeDraws := n } := .none
  clear eq
  revert start
  generalize ({ s with freeDraws := n } : State) = u
  induction order generalizing u with
  | nil => exact id
  | cons x xs ih => exact fun h => ih _ (h.trans (u.takeNotice_reports x))

theorem State.expireTimer_reports (s : State) (i : TimerId) : s.Reports (s.expireTimer i) := by
  refine State.handOver_reports (s.setTimer i _) _ fun r hr => ?_
  rcases List.mem_append.1 hr with h | h
  · unfold State.expiryReports at h
    split at h
    · rw [List.mem_singleton] at h
      cases h
      exact ⟨by simp [Detail.kind], by simp⟩
    · cases h
  · simp [State.expiriesOf] at h

theorem State.takeDue_reports (s : State) (i : TimerId) : s.Reports (s.takeDue i) := by
  unfold State.takeDue
  split
  · exact s.expireTimer_reports i
  · exact .none

theorem State.expireAtTimer_reports (s : State) (i : TimerId) : s.Reports (s.expireAtTimer i) := by
  unfold State.expireAtTimer
  split
  · refine State.handOver_reports (s.setTimer i _) (s.expiryReports i) fun r hr => ?_
    unfold State.expiryReports at hr
    split at hr
    · rw [List.mem_singleton] at hr
      cases hr
      exact ⟨by simp [Detail.kind], by simp⟩
    · cases hr
  · exact .none

theorem State.takePart_reports (s : State) (i : TimerId) (part : ExpiryPart) : s.Reports (s.takePart i part) := by
  cases part with
  | whole => exact s.takeDue_reports i
  | atTimer => exact s.expireAtTimer_reports i
  | atDomain d =>
    change s.Reports (s.takeHanded i d)
    rcases s.takeHanded_cases i d with ⟨eq, -⟩ | ⟨x, -, -, -, eq⟩ <;> rw [eq]
    · exact .none
    · split
      · exact State.takeExpiry_reports { s with handed := s.handed.erase x } d x.count
      · exact .none

theorem State.takeOutstanding_reports (s : State) : s.Reports s.takeOutstanding := by
  obtain ⟨order, n, -, eq⟩ := s.takeOutstanding_fold
  have fold (order : List (TimerId × ExpiryPart)) (u : State) :
      u.Reports (order.foldl (fun u x => u.takePart x.1 x.2) u) := by
    induction order generalizing u with
    | nil => exact .none
    | cons x xs ih => exact (u.takePart_reports x.1 x.2).trans (ih _)
  rw [eq]
  exact fold order { s with freeDraws := n }

theorem State.reportRxError_reports (s : State) (e : RxError) : s.Reports (s.reportRxError e) :=
  s.report_reports ⟨by simp [Detail.kind], by cases e <;> simp [RxError.counts, LinkCounts.sum]⟩

theorem State.decide_reports (s : State) (o : Observation) (spread : Bool) : s.Reports (s.decide o spread) := by
  have trap (w : WindowId) : (trapReport w o).Ordinary := ⟨by simp [trapReport, Detail.kind], by simp [trapReport]⟩
  have hands (u : State) (pulsed : Option ClassId) (reports : List HandOff)
      (h : ∀ r, .report r ∈ reports → r.Ordinary) : u.Reports (u.decisionHandOffs pulsed reports spread) := by
    unfold State.decisionHandOffs
    split
    · exact u.handOver_reports _ h
    · split
      · exact State.handOver_reports (u.spreadPulse _ false) _ h
      · refine State.handOver_reports (u.pulseTimers _) _ fun r hr => ?_
        rcases List.mem_append.1 hr with hr | hr
        · exact h r hr
        · exact absurd hr (not_report_mem_wakesOf u _ r)
  unfold State.decide
  split
  · exact hands s _ _ (by simp)
  · refine hands (s.setWindow _ _) _ _ fun r hr => ?_
    split at hr
    · rw [List.mem_singleton] at hr; cases hr; exact trap _
    · cases hr

end Sys2Proof.Machine
end

