-- ==== Sys2Proof/Laws/Sound.lean ====
section
/-! SUPPORT. The shared operations keep timers and domain records sound. -/

namespace Sys2Proof.Machine

/-! ## Timers -/

theorem Timer.default_sound : Timer.default.Sound := by decide

theorem TimerUnit.millis_le (u : TimerUnit) : u.millis ≤ 60000 := by cases u <;> decide

theorem Timer.Sound.load_le {t : Timer} (h : t.Sound) : t.load ≤ 15300000 := by
  have := Nat.mul_le_mul h.1.2 t.unit.millis_le
  simpa [Timer.load] using this

theorem Timer.Sound.load_pos {t : Timer} (h : t.Sound) : 1 ≤ t.load := by
  have := Nat.mul_le_mul h.1.1 (show 1 ≤ t.unit.millis by cases t.unit <;> decide)
  simpa [Timer.load] using this

theorem Timer.Sound.countFromLoad {t : Timer} (h : t.Sound) : t.countFromLoad.Sound :=
  ⟨h.1, Nat.zero_le _, h.load_le, by simp [Timer.countFromLoad], by simp [Timer.countFromLoad], fun _ => h.load_pos,
    by simp [Timer.countFromLoad]⟩

theorem Timer.Sound.holdAtLoad {t : Timer} (h : t.Sound) : t.holdAtLoad.Sound :=
  ⟨h.1, Nat.zero_le _, h.load_le, by simp [Timer.holdAtLoad], by simp [Timer.holdAtLoad], by simp [Timer.holdAtLoad],
    by simp [Timer.holdAtLoad]⟩

theorem Timer.Sound.cleared {t : Timer} (h : t.Sound) : ({ t with expiries := 0 } : Timer).Sound :=
  ⟨h.1, Nat.zero_le _, h.2.2.1, fun _ => rfl, h.2.2.2.2⟩

theorem Timer.Sound.reload {t : Timer} (h : t.Sound) : t.reload.Sound := by
  unfold Timer.reload
  split
  · exact h
  · exact h.countFromLoad
  · exact h.cleared
  · exact h.countFromLoad

theorem Timer.Sound.becomeHeld {t : Timer} (h : t.Sound) : t.becomeHeld.Sound := by
  unfold Timer.becomeHeld
  split
  · exact h
  · exact h.holdAtLoad
  · exact h.cleared
  · exact h.holdAtLoad

theorem Timer.Sound.release {t : Timer} (h : t.Sound) (b : Bool) : (t.release b).Sound := by
  unfold Timer.release
  split
  · cases b
    · exact h.countFromLoad
    · exact h
  all_goals exact h

theorem Timer.Sound.start {t : Timer} (h : t.Sound) (b : Bool) : (t.start b).Sound := by
  have fresh : (if b = true then t.holdAtLoad else t.countFromLoad).Sound := by
    cases b
    · exact h.countFromLoad
    · exact h.holdAtLoad
  unfold Timer.start
  split
  · exact fresh
  · exact fresh
  · exact h.reload
  · exact h.reload

theorem Timer.Sound.expire {t : Timer} (h : t.Sound) (counting : t.state = .counting) : t.expire.Sound := by
  have count : t.nextExpiry ≤ 15 := Nat.min_le_right _ _
  unfold Timer.expire
  split
  · exact ⟨h.1, count, Nat.zero_le _, by simp, by simp, by simp, by simp⟩
  · exact ⟨h.1, count, h.load_le, by simp [counting], by simp [counting], fun _ => h.load_pos, by simp⟩

theorem Timer.Sound.tick {t : Timer} (h : t.Sound) : t.tick.Sound := by
  unfold Timer.tick
  split
  case isTrue counting =>
    have pos := h.2.2.2.2.2.1 counting
    split
    case isTrue last =>
      exact ⟨h.1, h.2.1, h.2.2.1, h.2.2.2.1, h.2.2.2.2.1, h.2.2.2.2.2.1, fun _ => ⟨counting, Nat.le_antisymm last pos⟩⟩
    case isFalse more =>
      refine ⟨h.1, h.2.1, (Nat.sub_le _ _).trans h.2.2.1, by simp [counting], by simp [counting],
        fun _ => Nat.le_sub_one_of_lt (Nat.lt_of_not_le more), fun due => ?_⟩
      have := (h.2.2.2.2.2.2 due).2
      omega
  case isFalse => exact h

theorem Timer.Sound.stopped {t : Timer} (h : t.Sound) :
    ({ t with state := .stopped, remaining := 0, expiries := 0, due := false } : Timer).Sound :=
  ⟨h.1, Nat.zero_le _, Nat.zero_le _, fun _ => rfl, fun _ => rfl, by simp, by simp⟩

theorem Timer.Sound.configure {t : Timer} (h : t.Sound) {n : Nat} (hn : 1 ≤ n ∧ n ≤ 255) (unit : TimerUnit)
    (mode : TimerMode) (watch : ClassSet) (report : Bool) : (t.configure n unit mode watch report).Sound :=
  ⟨hn, h.2⟩

theorem Timer.Sound.meetWatchSet {t : Timer} (h : t.Sound) (b : Bool) : (t.meetWatchSet b).Sound := by
  unfold Timer.meetWatchSet
  cases b <;> split <;> first | exact h | exact h.holdAtLoad | exact h.countFromLoad

/-! ## Domains -/

/-- A record that may enter a state: its configuration, its refusal count and its last wake cause are in their ranges. -/
structure Domain.Fit (x : Domain) : Prop where
  config : x.config.Sound
  refusals : x.refusals ≤ 2
  lastWake : x.lastWake.wakesLast = true

theorem Domain.default_sound : Domain.default.Sound := by decide

theorem DomainState.refusalLimit_ge (x : DomainState) : 2 ≤ x.refusalLimit := by
  unfold DomainState.refusalLimit; split <;> decide

theorem Domain.Fit.sound {x : Domain} (h : x.Fit) (state : x.stateSound = true) : x.Sound :=
  ⟨h.config, state, h.refusals.trans x.state.refusalLimit_ge, h.lastWake⟩

/-- A domain outside FAULTED is fit. -/
theorem Domain.Sound.fit {x : Domain} (h : x.Sound) (notFaulted : ∀ f b, x.state ≠ .faulted f b) : x.Fit := by
  refine ⟨h.1, ?_, h.2.2.2⟩
  have limit := h.2.2.1
  rcases x with ⟨st, cf, ho, re, lw, a1, a2, a3, a4⟩
  cases st with
  | faulted f b => exact absurd rfl (notFaulted f b)
  | _ => exact limit

/-- Any sound domain is fit with its refusal count 0. -/
theorem Domain.Sound.fit_cleared {x : Domain} (h : x.Sound) : ({ x with refusals := 0 } : Domain).Fit :=
  ⟨h.1, Nat.zero_le _, h.2.2.2⟩

theorem Domain.Fit.withLastWake {x : Domain} (h : x.Fit) {c : Cause} (hc : c.wakesLast = true) :
    ({ x with lastWake := c } : Domain).Fit := ⟨h.config, h.refusals, hc⟩

section Entries

variable {s : State} {d : DomainId} (h : (s.dom d).Fit)
include h

theorem State.enterActive_sound (c : Cause) : ((s.enterActive d c).dom d).Sound := by
  simpa [State.enterActive, State.reportDomain] using
    (show ({ s.dom d with state := .active } : Domain).Fit from ⟨h.1, h.2, h.3⟩).sound rfl

theorem State.enterThrottled_sound (c : Cause) : ((s.enterThrottled d c).dom d).Sound := by
  have fit : ({ s.dom d with state := .throttled .onPhase (s.dom d).config.throttleOn } : Domain).Fit := ⟨h.1, h.2, h.3⟩
  simpa [State.enterThrottled, State.reportDomain] using
    fit.sound (by simpa [Domain.stateSound] using h.config.2.1)

theorem State.enterQuiescing_sound (target : Target) {c : Cause} (hc : c.BeginsQuiesce) :
    ((s.enterQuiescing d target c).dom d).Sound := by
  have fit : ({ s.dom d with state := .quiescing target c (s.dom d).config.quiesceDeadline } : Domain).Fit :=
    ⟨h.1, h.2, h.3⟩
  have sound := fit.sound (by simpa [Domain.stateSound] using ⟨hc, h.config.2.2.2.1⟩)
  simpa [State.enterQuiescing] using sound

theorem State.endResume_sound : ((s.endResume d).dom d).Sound := by
  have fit : ({ s.dom d with refusals := 0, state := .active } : Domain).Fit := ⟨h.1, Nat.zero_le _, h.3⟩
  simpa [State.endResume, State.enterActive, State.reportDomain] using fit.sound rfl

theorem State.enterResuming_sound : ((s.enterResuming d).dom d).Sound := by
  unfold State.enterResuming
  dsimp only
  split
  case isTrue =>
    have fit : ({ s.dom d with state := .resuming (s.dom d).config.resumeDelay } : Domain).Fit := ⟨h.1, h.2, h.3⟩
    exact State.endResume_sound (by simpa using fit)
  case isFalse hz =>
    have fit : ({ s.dom d with state := .resuming (s.dom d).config.resumeDelay } : Domain).Fit := ⟨h.1, h.2, h.3⟩
    simpa using fit.sound (by simpa [Domain.stateSound] using hz)

theorem State.enterPoweringUp_sound : ((s.enterPoweringUp d).dom d).Sound := by
  have fit : ({ s.dom d with state := .poweringUp (s.dom d).config.powerOnDeadline } : Domain).Fit := ⟨h.1, h.2, h.3⟩
  unfold State.enterPoweringUp
  dsimp only
  split
  case isTrue => exact State.enterResuming_sound (by simpa using fit)
  case isFalse hp =>
    have range := h.config.2.2.2.2.2
    simpa using fit.sound (by simpa [Domain.stateSound] using ⟨range, by simpa using hp⟩)

theorem State.enterOff_sound (c : Cause) (pendingWake : Bool) : ((s.enterOff d c pendingWake).dom d).Sound := by
  have fit : ({ s.dom d with state := .off } : Domain).Fit := ⟨h.1, h.2, h.3⟩
  unfold State.enterOff
  dsimp only
  split
  · exact State.enterPoweringUp_sound (by simpa [State.reportDomain] using fit)
  · simpa [State.reportDomain] using fit.sound rfl

theorem State.enterPoweringDown_sound {c : Cause} (hc : c.BeginsQuiesce ∨ c = .clear) :
    ((s.enterPoweringDown d c).dom d).Sound := by
  have fit : ({ s.dom d with state := .poweringDown c (s.dom d).config.powerOffDeadline false } : Domain).Fit :=
    ⟨h.1, h.2, h.3⟩
  unfold State.enterPoweringDown
  dsimp only
  split
  case isTrue hp =>
    have range := h.config.2.2.2.2.1
    have sound := fit.sound (by simpa [Domain.stateSound] using ⟨hc, range, hp⟩)
    simpa using sound
  case isFalse => exact State.enterOff_sound (by simpa using fit) c false

theorem State.endStopDelay_sound (target : Target) {c : Cause} (hc : c.BeginsQuiesce) :
    ((s.endStopDelay d target c).dom d).Sound := by
  cases target
  · have fit : ({ s.dom d with state := .standby } : Domain).Fit := ⟨h.1, h.2, h.3⟩
    simpa [State.endStopDelay, State.reportDomain] using fit.sound rfl
  · exact State.enterPoweringDown_sound h (.inl hc)

theorem State.enterSettling_sound (target : Target) {c : Cause} (hc : c.BeginsQuiesce) :
    ((s.enterSettling d target c).dom d).Sound := by
  have fit : ({ s.dom d with state := .settling target c (s.dom d).config.stopDelay } : Domain).Fit := ⟨h.1, h.2, h.3⟩
  unfold State.enterSettling
  dsimp only
  split
  case isTrue => exact State.endStopDelay_sound (by simpa using fit) target hc
  case isFalse hz =>
    have sound := fit.sound (by simpa [Domain.stateSound] using ⟨hc, hz⟩)
    simpa using sound

theorem State.enterFaulted_sound (f : FaultCause) (seen : Bool) : ((s.enterFaulted d f seen).dom d).Sound := by
  have fit : ({ s.dom d with state := .faulted f seen } : Domain).Fit := ⟨h.1, h.2, h.3⟩
  simpa [State.enterFaulted, State.reportFault] using fit.sound rfl

end Entries

/-- A domain that a wake reaches stays sound. -/
theorem State.wake_sound {s : State} {d : DomainId} (h : (s.dom d).Sound) {c : Cause} (hc : c.wakesLast = true) :
    ((s.wake d c).dom d).Sound := by
  have woken (notFaulted : ∀ f b, (s.dom d).state ≠ .faulted f b) : ((s.setLastWake d c).dom d).Fit := by
    simpa [State.setLastWake] using (h.fit notFaulted).withLastWake hc
  unfold State.wake
  split <;> rename_i st
  case h_7 => simpa using State.enterPoweringUp_sound (woken (by simp [st]))
  case h_5 => simpa using State.enterResuming_sound (woken (by simp [st]))
  case h_6 =>
    have fit := woken (by simp [st])
    have state := h.2.1
    simp only [Domain.stateSound, st] at state
    simp only [State.claimRestart_dom, State.dom_setDomState, if_true]
    refine Domain.Fit.sound ⟨fit.1, fit.2, fit.3⟩ ?_
    simpa [Domain.stateSound, State.setLastWake] using state
  case h_10 fault seen =>
    simp only [State.claimRestart_dom, State.dom_setDomState, if_true]
    refine ⟨h.1, rfl, ?_, h.2.2.2⟩
    have limit := h.2.2.1
    rw [st] at limit
    cases fault <;> exact limit
  all_goals first
    | exact h
    | simpa using h
    | simpa using State.enterActive_sound (woken (by simp [st])) c

/-- A domain that takes an expiry stays sound. -/
theorem State.takeExpiry_sound {s : State} {d : DomainId} (h : (s.dom d).Sound) (n : Nat) :
    ((s.takeExpiry d n).dom d).Sound := by
  have ladder : Cause.BeginsQuiesce .ladder := .inl rfl
  have state := h.2.1
  unfold State.takeExpiry
  split
  · split
    · exact h
    · split <;> rename_i st _ _
      case h_6 =>
        have fit := h.fit (by simp [st])
        simp only [Domain.stateSound, st] at state
        simp only [State.dom_setDomState, if_true]
        exact Domain.Fit.sound ⟨fit.1, fit.2, fit.3⟩ (by simp_all [Domain.stateSound])
      case h_7 =>
        have fit := h.fit (by simp [st])
        simp only [Domain.stateSound, st] at state
        simp only [State.dom_setDomState, if_true]
        exact Domain.Fit.sound ⟨fit.1, fit.2, fit.3⟩ (by simp_all [Domain.stateSound])
      all_goals first
        | exact h
        | exact State.enterThrottled_sound (h.fit (by simp [st])) _
        | exact State.enterQuiescing_sound (h.fit (by simp [st])) _ ladder
        | exact State.enterPoweringDown_sound (h.fit (by simp [st])) (.inl ladder)
  · exact h

/-- What touches one domain alone and leaves it sound keeps every domain sound. -/
theorem State.DomainsSound.of_only {s t : State} {d : DomainId} (h : s.DomainsSound)
    (other : ∀ e, e ≠ d → t.dom e = s.dom e) (sound : (t.dom d).Sound) : t.DomainsSound := by
  intro e
  by_cases he : e = d
  · exact he ▸ sound
  · rw [other e he]; exact h e

theorem State.DomainsSound.of_domains {s t : State} (h : s.DomainsSound) (eq : t.domains = s.domains) : t.DomainsSound := by
  intro d
  simpa [State.dom, eq] using h d

/-- A hand-off keeps every domain sound, its wakes carrying a last wake cause. -/
theorem State.take_domainsSound {s : State} (h : s.DomainsSound) (x : HandOff)
    (hx : ∀ d c, x = .wake d c → c.wakesLast = true) : (s.take x).DomainsSound := by
  cases x with
  | wake d c => exact h.of_only (fun e he => s.wake_dom_other he c) (State.wake_sound (h d) (hx d c rfl))
  | expiry d n => exact h.of_only (s.takeExpiry_onlyDomain d n).other (State.takeExpiry_sound (h d) n)
  | report r => exact h

theorem State.handOver_domainsSound {s : State} (h : s.DomainsSound) (hs : List HandOff)
    (hx : ∀ x ∈ hs, ∀ d c, x = .wake d c → c.wakesLast = true) : (s.handOver hs).DomainsSound := by
  obtain ⟨order, n, perm, eq⟩ := s.handOver_fold hs
  rw [eq]
  have start : ({ s with freeDraws := n } : State).DomainsSound := h
  have all : ∀ x ∈ order, ∀ d c, x = .wake d c → c.wakesLast = true := fun x hx' => hx x (perm.mem_iff.1 hx')
  clear eq perm
  revert start all
  generalize ({ s with freeDraws := n } : State) = u
  induction order generalizing u with
  | nil => exact fun h _ => h
  | cons x xs ih =>
    intro hu all
    exact ih _ (State.take_domainsSound hu x (all x (by simp))) fun y hy => all y (by simp [hy])

end Sys2Proof.Machine
end

