-- ==== Sys2Proof/Tests/Slice0.lean ====
section
/-! SUPPORT. Tests of the model. Three parts: ill-formed commands that WellFormed refuses and exec faults on; at most two facts per
command, each about one step of a small state, with expected values from the manual's rules and its worked sequences (chapter 10);
and, for every statement with hypotheses, a state and operands that meet them. -/

namespace Sys2Proof.Tests

open Sys2Proof Sys2Proof.Machine

/-! ## Helpers -/

/-- The command answers a next state, of which `p` holds. -/
def next (c : Instr) (s : State) (p : State → Bool) : Bool :=
  match exec c s with
  | .next t => p t
  | .fault _ => false
  | .refused _ => false

/-- The session is OPEN and a request of TAG 0x21 is in hand. -/
def asking (s : State) (type : Byte) (payload : List Byte) : State :=
  { s with unit := { s.unit with session := .opened, inHand := some { type := type, tag := 0x21, payload := payload } } }

/-- The payload of the reply made to the request in hand. -/
def answer (s : State) : Option (List Byte) := s.unit.made.map (·.payload)

/-- The state once its request in hand is answered with this payload. -/
def answeredWith (s : State) (payload : List Byte) (resets : Bool) : State :=
  match s.unit.inHand with
  | none => s
  | some r => s.answer r payload resets

/-- A domain in a state, otherwise as after a full reset, its PGOOD as given. -/
def inState (x : DomainState) (pgood : Bool) : Domain := { Domain.default with state := x, pgoodRaw := pgood, pgood := pgood }

/-- The reset state with D1 replaced. -/
def withD1 (x : Domain) : State := State.reset.setDom 1 x

/-- The kinds of the queued records, by code. -/
def kinds (s : State) : List Nat := s.queue.records.map (·.kind.code)

/-- W1 of sequence 10.5: MEMORY, base 0x20000000, k 16, class C3, COUNT, with hit count 40. -/
def region : Window :=
  { config := { enabled := true, space := .only .memory, base := 0x20000000, span := 16, direction := .either, requesters := none,
                cls := some 3, action := .count }
    armed := true, hits := 40 }

/-- W0 of sequence 10.5: the page at 0x2000F000, requester set of tag 9, EXCLUDE. -/
def page : Window :=
  { config := { enabled := true, space := .only .memory, base := 0x2000F000, span := 12, direction := .either,
                requesters := some 0x0200, cls := none, action := .exclude }
    armed := true, hits := 0 }

/-- An observation of a MEMORY read. -/
def observed (address : BitVec 32) (requester : BitVec 4) : Observation :=
  { address := address, space := .memory, direction := .read, requester := requester, time := 0 }

/-- The windows of sequence 10.5 with one observation waiting. -/
def watching (o : Observation) : State := { (State.reset.setWindow 0 page).setWindow 1 region with fifo := [o] }

/-- L11 holds C15 at a HIGH level, and a timer that watches C15 is HELD. -/
def heldC15 : State :=
  ((State.reset.setLine 11 { raw := false, level := true, qualifier := .high, cls := 15, holding := some 15 }).setCls 15
    { holders := 0x800, last := some 0 }).setTimer 7 { Timer.default with watch := 0x8000, state := .held, remaining := 1000 }

/-- The same with the domain D1 in STANDBY, whose wake set is C15, bound to T6, which does not watch C15. -/
def heldAwakeD1 : State :=
  heldC15.setDom 1
    { inState .standby true with config := { DomainConfig.default with boundTimer := some 6, wakeSet := 0x8000 } }

/-! ## WellFormed refuses what the part has not -/

theorem test_wellFormed_refuses_line : WellFormed (.lineRawChange 12 true) = false ∧ WellFormed (.recognisedEdge 12) = false ∧
    WellFormed (.lineRawChange 11 true) = true ∧ WellFormed (.recognisedEdge 11) = true := by decide

theorem test_wellFormed_refuses_timer : WellFormed (.timerExpiry 8) = false ∧ WellFormed (.timerExpiry 7) = true := by decide

theorem test_wellFormed_refuses_domain :
    ∀ c ∈ [Instr.throttlePhaseEnd, (.handshakeRawChange · .qack true), .qackRise, .qackFall, .pgoodRise, .pgoodFall,
      .quiesceDeadlineEnd, .stopDelayEnd, .powerOffDeadlineEnd, .powerOnDeadlineEnd, .resumeDelayEnd],
      WellFormed (c 6) = false ∧ WellFormed (c 5) = true := by decide

theorem test_illFormed_faults : exec (.lineRawChange 12 true) State.reset = .fault (.noSuchLine 12) ∧
    exec (.timerExpiry 8) State.reset = .fault (.noSuchTimer 8) ∧
    exec (.qackRise 6) State.reset = .fault (.noSuchDomain 6) := ⟨rfl, rfl, rfl⟩

/-- No row of the table gives bits, so no word spells a command. -/
theorem test_no_word_spells_a_command : decodeTableWord 8 0 = none ∧ State.reset.withFetchWord 8 0 = State.reset := ⟨rfl, rfl⟩

/-- The front of the queue runs first. -/
theorem test_queue_is_first_in_first_out :
    (match step { State.reset with pending := [.lineRawChange 11 true, .matchDecision] } with
     | .next t => t.pending == [.matchDecision] && (t.line 11).raw
     | _ => false) = true := by decide

/-! ## Observation and windows (chapters 1 and 2; sequence 10.5) -/

/-- SP 00 with MEMORY enabled: an observation; WR high is a write (R1, R179). -/
theorem test_addressStrobe_observes :
    next (.addressStrobe 0x20001000 0 true 2) { State.reset with snoop := { memory := true, io := false, config := false } }
      (fun t => t.fifo == [{ address := 0x20001000, space := .memory, direction := .write, requester := 2, time := 0 }])
      = true := by decide

/-- A disabled space makes no observation (R3). -/
theorem test_addressStrobe_disabled :
    next (.addressStrobe 0x20001000 1 true 2) { State.reset with snoop := { memory := true, io := false, config := true } }
      (fun t => t.fifo == []) = true := by decide

/-- O3 of sequence 10.5 falls to the EXCLUDE window W0. -/
theorem test_matchDecision_exclude :
    next .matchDecision (watching (observed 0x2000F030 9))
      (fun t => (t.window 0).hits == 1 && (t.window 1).hits == 40 && t.cls 3 == { holders := 0, last := none }) = true := by decide

/-- An observation outside W0's requester set reaches W1 and pulses C3. -/
theorem test_matchDecision_pulse :
    next .matchDecision (watching (observed 0x2000F010 4))
      (fun t => (t.window 0).hits == 0 && (t.window 1).hits == 41 && t.cls 3 == { holders := 0, last := some 0 }) = true := by
  decide

/-! ## Lines, time and timers (chapters 1 and 3) -/

theorem test_lineRawChange : next (.lineRawChange 3 true) State.reset
    (fun t => (t.line 3).raw && !(t.line 3).level) = true := by decide

/-- A HIGH line whose recognised level goes high holds its class (R12). -/
theorem test_recognisedEdge_holds :
    next (.recognisedEdge 11)
      (State.reset.setLine 11 { raw := true, level := false, qualifier := .high, cls := 15, holding := none })
      (fun t => (t.line 11).holding == some 15 && t.cls 15 == { holders := 0x800, last := some 0 }) = true := by decide

/-- Governor time wraps at 2^32 (R42). -/
theorem test_governorTime_wraps : next .governorTimeIncrement { State.reset with time := 0xFFFFFFFF } (fun t => t.time == 0)
    = true := by decide

/-- A COUNTING timer at 1 takes the increment in the event of its expiry, so that none is seen COUNTING at 0 (R44). -/
theorem test_governorTime_expiryDue :
    next .governorTimeIncrement (State.reset.setTimer 7 { Timer.default with state := .counting, remaining := 1 })
      (fun t => (t.timer 7).state == .counting && (t.timer 7).remaining == 1 && (t.timer 7).due) = true := by decide

/-- A REPEAT timer's expiry loads it again with the next expiry count, and a SINGLE timer's leaves it EXPIRED (R44). -/
theorem test_timerExpiry :
    next (.timerExpiry 2)
      (State.reset.setTimer 2
        { Timer.default with loadCount := 5, mode := .repeating, state := .counting, remaining := 1, expiries := 2, due := true })
      (fun t => (t.timer 2).remaining == 5000 && (t.timer 2).expiries == 3 && (t.timer 2).state == .counting) = true ∧
    next (.timerExpiry 7) (State.reset.setTimer 7 { Timer.default with state := .counting, remaining := 1, due := true })
      (fun t => (t.timer 7).state == .expired && (t.timer 7).remaining == 0 && (t.timer 7).expiries == 1) = true := by decide

/-- D1, ACTIVE after a wake and bound to T6, takes the expiry that T6 handed it before the wake: the step to its first rung (R69). Had
a WRITE_DOMAIN bound it to T5 since, it would let the expiry go (R62, R78). -/
theorem test_timerExpiry_atDomain :
    let handed (bound : TimerId) : State :=
      { withD1 { inState .active true with config := { DomainConfig.default with boundTimer := some bound, ladder := [.standby] } }
        with handed := [{ timer := 6, domain := 1, count := 1 }] }
    next (.timerExpiry 6 (.atDomain 1)) (handed 6)
      (fun t => (t.dom 1).state == .quiescing .standby .ladder 50 && t.handed == []) = true ∧
    next (.timerExpiry 6 (.atDomain 1)) (handed 5) (fun t => (t.dom 1).state == .active && t.handed == []) = true := by decide

/-! ## Domain events (chapters 4 and 5; sequences 10.1 to 10.3) -/

theorem test_throttlePhaseEnd : next (.throttlePhaseEnd 1) (withD1 (inState (.throttled .onPhase 8) true))
    (fun t => (t.dom 1).state == .throttled .offPhase 8 && t.outputs 1 == { clken := false, pwren := true, qreq := false })
    = true := by decide

theorem test_handshakeRawChange : next (.handshakeRawChange 1 .pgood true) State.reset
    (fun t => (t.dom 1).pgoodRaw && !(t.dom 1).pgood && !(t.dom 1).qackRaw) = true := by decide

/-- 12,002.5 ms of sequence 10.1: the acknowledge begins the stop delay. -/
theorem test_qackRise :
    next (.qackRise 1) (withD1 { inState (.quiescing .standby .ladder 50) true with refusals := 2, qackRaw := true })
    (fun t => (t.dom 1).state == .settling .standby .ladder .ms1 && (t.dom 1).refusals == 0 && kinds t == [1]) = true := by decide

/-- A falling QACK wakes STANDBY with cause QACK_DROP (R92, R93). -/
theorem test_qackFall : next (.qackFall 1) (withD1 { inState .standby true with qack := true })
    (fun t => (t.dom 1).state == .resuming .us100 && (t.dom 1).lastWake == .qackDrop) = true := by decide

/-- 38.2 ms of sequence 10.1. -/
theorem test_pgoodRise : next (.pgoodRise 1) (withD1 { inState (.poweringUp 100) false with pgoodRaw := true })
    (fun t => (t.dom 1).state == .resuming .us100 && t.outputs 1 == { clken := true, pwren := true, qreq := true }) = true := by
  decide

/-- 17,030.0 ms of sequence 10.2: a pending wake takes the domain on into POWERING_UP, with an OFF report. -/
theorem test_pgoodFall_pendingWake :
    next (.pgoodFall 1) (withD1 { inState (.poweringDown .ladder 100 true) true with pgoodRaw := false })
      (fun t => (t.dom 1).state == .poweringUp 100 && kinds t == [1, 4]) = true := by decide

/-- PGOOD falling in ACTIVE faults with POWER_LOST (R103). -/
theorem test_pgoodFall_powerLost : next (.pgoodFall 1) (withD1 { inState .active true with pgoodRaw := false })
    (fun t => (t.dom 1).state == .faulted .powerLost false && t.alert) = true := by decide

/-- 50,020 ms of sequence 10.3: REFUSAL, then DOMAIN. -/
theorem test_quiesceDeadlineEnd_refused : next (.quiesceDeadlineEnd 1) (withD1 (inState (.quiescing .standby .ladder 20) true))
    (fun t => (t.dom 1).state == .active && (t.dom 1).refusals == 1 && kinds t == [1, 5, 4]) = true := by decide

/-- 53,320 ms of sequence 10.3: the third refusal faults. -/
theorem test_quiesceDeadlineEnd_faults :
    next (.quiesceDeadlineEnd 1) (withD1 { inState (.quiescing .standby .ladder 20) true with refusals := 2 })
      (fun t => (t.dom 1).state == .faulted .quiesceRefused false && (t.dom 1).refusals == 3 && kinds t == [1, 6]) = true := by
  decide

/-- 12,003.5 ms of sequence 10.1. -/
theorem test_stopDelayEnd : next (.stopDelayEnd 1) (withD1 (inState (.settling .standby .ladder .ms1) true))
    (fun t => (t.dom 1).state == .standby && kinds t == [1, 4]) = true := by decide

theorem test_powerOffDeadlineEnd : next (.powerOffDeadlineEnd 1) (withD1 (inState (.poweringDown .force 100 true) true))
    (fun t => (t.dom 1).state == .faulted .powerOffTimeout true && kinds t == [1, 6]) = true := by decide

theorem test_powerOnDeadlineEnd : next (.powerOnDeadlineEnd 1) State.reset
    (fun t => (t.dom 1).state == .faulted .powerOnTimeout false && t.outputs 1 == { clken := false, pwren := false, qreq := true })
    = true := by decide

/-- 38.3 ms of sequence 10.1. -/
theorem test_resumeDelayEnd : next (.resumeDelayEnd 1) (withD1 (inState (.resuming .us100) true))
    (fun t => (t.dom 1).state == .active && (t.queue.records.getLast?.map (·.detail)) == some (.domain .active .reset)) = true := by
  decide

/-! ## Report Queue (chapter 6) -/

/-- The RESTART record of reset, SENT with the ack timer running. -/
def sentRestart : State :=
  { State.reset with
    queue := { State.reset.queue with
               records := State.reset.queue.records.map fun r => { r with sent := true }
               ackTimer := some .ms200 } }

theorem test_ackTimerExpiry : next .ackTimerExpiry sentRestart
    (fun t => t.queue.retries == 1 && t.queue.ackTimer == none && t.queue.records.all fun r => !r.sent && r.resent) = true := by
  decide

/-- The claim falls away where the retry count is no longer 8 (R159). -/
theorem test_silentClaim :
    next .silentClaim { State.reset with unit := { State.reset.unit with session := .opened, silentClaim := true } }
      (fun t => t.unit.session == .opened && !t.unit.silentClaim) = true := by decide

/-- The first rows of sequence 10.4, on a queue of 31 ordinary records: a DOMAIN and a REFUSAL report are lost into one LOSS record
of kinds 4 and 5. -/
theorem test_losses_are_counted :
    (let trap (n : Nat) : Record :=
       { seq := BitVec.ofNat 16 (100 + n), sent := false, resent := false, first := 1, last := 1, subject := some n, count := 1,
         detail := .trap 0 .memory .read 0 }
     let q : ReportQueue := { ReportQueue.restarted .powerOn with records := (List.range 31).map trap, nextSeq := 131 }
     let full := (q.take 400000 { subject := some 3, time := 400000, detail := .domain .active .host }).take 400006
       { subject := some 4, time := 400006, detail := .refusal 1 }
     full.records.getLast? ==
       some { seq := 131, sent := false, resent := false, first := 400000, last := 400006, subject := none, count := 2,
              detail := .loss 0x30 } && full.nextSeq == 132 && full.tally.count == 0) = true := by decide

/-- A trap that is lost is lost at the time of the taking, not at the observation's capture time (R118). -/
theorem test_loss_is_dated_by_the_taking :
    (let fault (n : Nat) : Record :=
       { seq := BitVec.ofNat 16 n, sent := true, resent := false, first := 1, last := 1, subject := some 0, count := 1,
         detail := .fault .powerLost { clken := false, pwren := false, qreq := true } }
     let q : ReportQueue := { ReportQueue.restarted .powerOn with records := (List.range 31).map fault, nextSeq := 31 }
     let full := q.take 900 { subject := some 3, time := 890, detail := .trap 0 .memory .read 0 }
     (full.records.getLast?.map fun r => (r.first, r.last)) == some (900, 900)) = true := by decide

/-! ## Link (chapter 7) -/

/-- The check value the manual gives for the ASCII bytes 1 to 9 (chapter 7, note to R137). -/
theorem test_crc : crc [0x31, 0x32, 0x33, 0x34, 0x35, 0x36, 0x37, 0x38, 0x39] = 0x29B1 := by decide +kernel

/-- The start character leads HUNT to LENGTH, and only it does (R135, R136). -/
theorem test_rxCharacter : next (.rxCharacter 0xC3) State.reset (fun t => t.link.frameRx == .length && t.link.gapRunning) = true ∧
    next (.rxCharacter 0xC2) State.reset (fun t => t.link.frameRx == .hunt) = true := by decide

theorem test_characterStartEdge :
    next (.characterStartEdge false) { State.reset with link := { State.reset.link with frameRx := .length, gapRunning := true } }
      (fun t => t.link.charRx == .inCharacter && !t.link.gapRunning && t.link.frameRx == .length) = true := by decide

/-- A start bit that samples high is noise: no character begins (R134). -/
theorem test_characterStartEdge_noise : next (.characterStartEdge true) State.reset (fun t => t.link.charRx == .waiting) = true := by
  decide

theorem test_framingError :
    next .framingError { State.reset with link := { State.reset.link with frameRx := .body 2 [], gapRunning := true } }
      (fun t => t.link.frameRx == .hunt && kinds t == [1, 8]) = true := by decide

theorem test_gapError :
    next .gapError { State.reset with link := { State.reset.link with frameRx := .body 2 [], gapRunning := true } }
      (fun t => t.link.frameRx == .hunt && kinds t == [1, 8]) = true := by decide

/-- A break closes the session and empties the request queue, and keeps the RESTART record (R147). -/
theorem test_rxBreak :
    next .rxBreak
      { State.reset with
        link := { State.reset.link with requests := [{ type := 3, tag := 1, payload := [] }] }
        unit := { State.reset.unit with session := .opened } }
      (fun t => t.link.requests == [] && t.unit.session == .closed && kinds t == [1]) = true := by decide

/-- A request of an unknown TYPE is refused UNKNOWN_REQUEST, its reply of TYPE plus 0x80 (R152, R155). -/
theorem test_takeRequest_unknown :
    next .takeRequest { State.reset with link := { State.reset.link with requests := [{ type := 0x2F, tag := 9, payload := [] }] } }
      (fun t => t.link.replies == [{ type := 0xAF, tag := 9, payload := [2, 1], resets := false }] && t.unit.inHand == none)
      = true := by decide

/-- Before OPEN a request to the domains is refused NOT_OPEN (R156). -/
theorem test_takeRequest_notOpen :
    next .takeRequest { State.reset with link := { State.reset.link with requests := [{ type := 0x29, tag := 9, payload := [0] }] } }
      (fun t => t.link.replies.map (·.payload) == [[2, 7]]) = true := by decide

/-- An OPEN session sends the RESTART record, before the reply of the OPEN where that still waits to join (R157): body length 19
(sequence 10.1), TYPE 0x70 (R144, R169). -/
theorem test_frameBoundary_report :
    next .frameBoundary (answeredWith (asking State.reset 0x01 [4, 4]) [0, 0] false)
      (fun t => (t.link.tx.map fun f => (f.characters.take 3, f.characters.length)) == some ([0xC3, 19, 0x70], 23) &&
        t.queue.records.all (·.sent) && t.queue.ackTimer == some .ms200) = true := by decide

/-- Between frames a CLOSED session sends nothing (R121). -/
theorem test_frameBoundary_idle : next .frameBoundary State.reset (fun t => t.link.tx == none) = true := by decide

/-! ## Requests (chapters 8 and 9) -/

/-- OPEN, W 4, 200 ms, as sequence 10.1 answers it, but for the one record that is queued here. -/
theorem test_openSession :
    next .openSession (asking State.reset 0x01 [4, 4])
      (fun t => answer t == some [0, 0, 0x1C, 0x5A, 0x16, 0x24, 0x01, 0, 0, 0, 1, 4, 4] && t.unit.session == .opened) = true := by
  decide

/-- CLOSE reverts the SENT record and answers with the number queued (R158). -/
theorem test_closeSession :
    next .closeSession (asking sentRestart 0x02 [])
      (fun t => answer t == some [0, 0, 1] && t.unit.session == .closed && t.queue.records.all fun r => !r.sent && r.resent)
      = true := by decide

theorem test_ping : next .ping (asking State.reset 0x03 [0xDE, 0xAD]) (fun t => answer t == some [0, 0, 0xDE, 0xAD]) = true := by
  decide

/-- The reply joins the reply queue in an event of its own, and then no request is in hand (R153). -/
theorem test_ping_joins : next .ping (answeredWith (asking State.reset 0x03 []) [0, 0] false)
    (fun t => t.link.replies == [{ type := 0x83, tag := 0x21, payload := [0, 0], resets := false }] && t.unit.inHand == none &&
      t.unit.made == none) = true := by decide

/-- Vendor 0x5A1C, part 0x2416, revision 1, and the capacities 24, 16, 12, 8, 6, 32 (R161). -/
theorem test_identify : next .identify (asking State.reset 0x04 [])
    (fun t => answer t == some [0, 0, 0x1C, 0x5A, 0x16, 0x24, 0x01, 24, 16, 12, 8, 6, 32]) = true := by decide

/-- Right after reset: one UNSENT record, next sequence 1, W 4, 200 ms, every domain POWERING_UP (R162, R175). -/
theorem test_readStatus : next .readStatus (asking State.reset 0x05 [])
    (fun t => answer t == some ([0, 0, 1, 0, 0, 0, 1, 1, 0] ++ List.replicate 10 0 ++ [4, 4, 0, 0, 0, 0, 0, 0] ++
      List.replicate 6 7)) = true := by decide

/-- A SILENT claim came after the taking, in OPEN: OPEN is reported (R162). -/
theorem test_readStatus_silentSince :
    let s := asking State.reset 0x05 []
    next .readStatus { s with unit := { s.unit with session := .silent } } (fun t => (answer t).map (·.take 3) == some [0, 0, 1])
      = true := by decide

theorem test_resetSoft : next (.resetSoft .captureFifo) { asking State.reset 0x06 [2] with fifo := [observed 0 0] }
    (fun t => t.fifo == [] && t.unit.softTaken == [.captureFifo] && answer t == none) = true := by decide

/-- The OK reply made is the one whose end is the full reset, and nothing is reset yet (R165). -/
theorem test_resetFull : next .resetFull (asking State.reset 0x06 [1])
    (fun t => (t.unit.made.map fun y => (y.payload, y.resets)) == some ([0, 0], true) && t.unit.fullResetPending && t.board.fullReset == none) = true := by decide

theorem test_setReporting : next .setReporting (asking State.reset 0x08 [8, 7])
    (fun t => answer t == some [0, 0, 4, 4, 0] && t.queue.credit == 8 && t.queue.timeout == .ms2000) = true := by decide

/-- ACK of the one SENT record (R124). -/
theorem test_ack : next .ack (asking sentRestart 0x09 [0, 0])
    (fun t => answer t == some [0, 0, 1, 0, 1, 0] && t.queue.records == [] && t.queue.ackTimer == none) = true := by decide

/-- An UNSENT record cannot be acknowledged (R124). -/
theorem test_ack_bad : next .ack (asking State.reset 0x09 [0, 0]) (fun t => answer t == some [2, 0x0F]) = true := by decide

theorem test_setSnoop : next .setSnoop (asking State.reset 0x10 [1, 1, 0])
    (fun t => answer t == some [0, 0, 1, 1, 0] && t.snoop == { memory := true, io := true, config := false }) = true := by decide

/-- A LOW line at a low recognised level holds its class at once (R14). -/
theorem test_setLine : next .setLine (asking State.reset 0x11 [11, 5, 15])
    (fun t => answer t == some [0, 0, 0, 1, 15] && (t.line 11).holding == some 15) = true := by decide

/-- The write of W0 in sequence 10.5. -/
theorem test_writeWindow :
    next .writeWindow (asking State.reset 0x14 [0, 1, 0, 0x00, 0xF0, 0x00, 0x20, 12, 2, 1, 0x00, 0x02, 0xFF, 3, 1, 0])
      (fun t => answer t == some [0, 0, 0, 0] && t.window 0 == page) = true := by decide

/-- A present requester set without a member is refused EMPTY_SET (R28). -/
theorem test_writeWindow_emptySet :
    next .writeWindow (asking State.reset 0x14 [0, 1, 0, 0, 0, 0, 0, 0, 2, 1, 0, 0, 0xFF, 3, 1, 0])
      (fun t => answer t == some [2, 5]) = true := by decide

theorem test_readWindow : next .readWindow (asking (State.reset.setWindow 1 region) 0x15 [1])
    (fun t => answer t == some [0, 0, 1, 0, 0, 0, 0, 0x20, 16, 2, 0, 0, 0, 3, 0, 1, 40, 0]) = true := by decide

/-- The second step of READ_HITS over W0 and W1 with the clear flag: counts 2 and 44 (sequence 10.5). -/
theorem test_readHits :
    next .readHits
      (let s := asking (State.reset.setWindow 1 { region with hits := 44 }) 0x16 [0, 2, 1]
       { s with unit := { s.unit with hitsRead := [2] } })
      (fun t => answer t == some [0, 0, 2, 0, 44, 0] && (t.window 1).hits == 0) = true := by decide

theorem test_armTrap : next .armTrap (asking (State.reset.setWindow 23 { Window.default with armed := false }) 0x17 [23])
    (fun t => answer t == some [0, 0, 0] && (t.window 23).armed) = true := by decide

theorem test_setFallthrough : next .setFallthrough (asking State.reset 0x18 [15])
    (fun t => answer t == some [0, 0, 0xFF] && t.fallthrough == some 15) = true := by decide

/-- C15 has no last time before the pulse, and one timer watches it (R40). -/
theorem test_nudge : next .nudge (asking (State.reset.setTimer 7 { Timer.default with watch := 0x8000 }) 0x1A [15])
    (fun t => answer t == some [0, 0, 0, 0, 0, 0, 0, 0x80, 0] && t.cls 15 == { holders := 0, last := some 0 }) = true := by decide

/-- T6 took C15's reload and expired before D1, bound to it, takes the same pulse's wake: the restart claim then finds it EXPIRED and
reloads it (R49). D1 takes the wake by a part of its own, or at the latest when the reply of its NUDGE joins (R40). -/
theorem test_nudge_expiryBeforeClaim :
    let s : State :=
      { heldAwakeD1.setTimer 6 { Timer.default with watch := 0x8000, state := .expired, expiries := 1 } with
        notices := [{ listener := .domain 1, cls := 15, ofRequest := true }] }
    let taken (t : State) : Bool :=
      (t.timer 6).state == .counting && (t.timer 6).remaining == 1000 && (t.timer 6).expiries == 0 &&
        (t.dom 1).state == .resuming .us100 && t.notices == []
    next (.nudge (.atListener (.domain 1))) s taken = true ∧
      next .nudge (answeredWith (asking s 0x1A [15]) [0, 0] false) (fun t => taken t && t.link.replies.length == 1) = true := by
  decide

theorem test_readClasses : next .readClasses (asking { State.reset with time := 0x01020304 } 0x1B [])
    (fun t => answer t == some ([0, 0, 4, 3, 2, 1] ++ List.replicate 112 0)) = true := by decide

/-- T2 of sequence 10.1: STOPPED, remaining 0, expiry count 0. -/
theorem test_writeTimer : next .writeTimer (asking State.reset 0x20 [2, 5, 3, 1, 8, 0, 0, 0])
    (fun t => answer t == some [0, 0, 0, 0, 0, 0, 0, 0] && (t.timer 2).loadCount == 5 && (t.timer 2).mode == .repeating &&
      (t.timer 2).watch == 8) = true := by decide

/-- COUNTING, remaining 5,000 (sequence 10.1). -/
theorem test_startTimer : next .startTimer (asking (State.reset.setTimer 2 { Timer.default with loadCount := 5 }) 0x21 [2])
    (fun t => answer t == some [0, 0, 1, 0x88, 0x13, 0, 0, 0]) = true := by decide

theorem test_stopTimer :
    next .stopTimer (asking (State.reset.setTimer 2 { Timer.default with state := .expired, expiries := 1 }) 0x22 [2])
      (fun t => answer t == some [0, 0, 3, 1] && t.timer 2 == Timer.default) = true := by decide

/-- A timer as after reset: 1 × 1 s, SINGLE, STOPPED, bound to no domain (R55, R56). -/
theorem test_readTimer : next .readTimer (asking State.reset 0x23 [7])
    (fun t => answer t == some [0, 0, 1, 3, 0xE8, 3, 0, 0, 0, 0, 0, 0, 0, 0, 0, 0, 0, 0, 0]) = true := by decide

/-- D1 of sequence 10.1: timer T2, ladder THROTTLED, STANDBY, OFF, wake set of C3. -/
theorem test_writeDomain :
    next .writeDomain (asking (withD1 (inState .active true)) 0x28 [1, 2, 3, 1, 2, 3, 8, 0, 8, 8, 50, 2, 100, 100, 1, 0])
      (fun t => (t.dom 1).config ==
          { DomainConfig.default with boundTimer := some 2, ladder := [.throttled, .standby, .off], wakeSet := 8 } &&
        (answer t).map (·.take 2) == some [0, 0]) = true := by decide

/-- A ladder that does not grow deeper is refused ORDER (R77). -/
theorem test_writeDomain_order :
    next .writeDomain (asking State.reset 0x28 [1, 2, 2, 2, 2, 0, 8, 0, 8, 8, 50, 2, 100, 100, 1, 0])
      (fun t => answer t == some [2, 6]) = true := by decide

theorem test_readDomain : next .readDomain (asking State.reset 0x29 [6]) (fun t => answer t == some [2, 4]) = true ∧
    next .readDomain (asking State.reset 0x29 [5]) (fun t => (answer t).map List.length == some 33) = true := by decide

/-- HOLD ON wakes a throttled domain (R72). -/
theorem test_holdOn : next .holdOn (asking (withD1 (inState (.throttled .onPhase 8) true)) 0x2A [1, 1])
    (fun t => answer t == some [0, 0, 0, 0] && (t.dom 1).hold && (t.dom 1).state == .active) = true := by decide

theorem test_holdOff : next .holdOff (asking (withD1 { inState .standby true with hold := true }) 0x2A [1, 0])
    (fun t => answer t == some [0, 0, 1, 4] && !(t.dom 1).hold) = true := by decide

/-- ACTIVE from OFF with PGOOD low: ACCEPTED, POWERING_UP (R74). -/
theorem test_forceActive : next .forceActive (asking (withD1 (inState .off false)) 0x2B [1, 0])
    (fun t => answer t == some [1, 0, 7] && (t.dom 1).lastWake == .host) = true := by decide

theorem test_force : next .force (asking (withD1 (inState .active true)) 0x2B [1, 3])
    (fun t => answer t == some [1, 0, 2] && (t.dom 1).state == .quiescing .off .force 50) = true := by decide

/-- A held domain refuses a step-down (R73). -/
theorem test_force_held : next .force (asking (withD1 { inState .active true with hold := true }) 0x2B [1, 3])
    (fun t => answer t == some [2, 9]) = true := by decide

/-- 54,800 ms of sequence 10.3. -/
theorem test_clearFaultUp :
    next .clearFaultUp (asking (withD1 { inState (.faulted .quiesceRefused true) true with refusals := 3 }) 0x2C [1, 0])
      (fun t => answer t == some [0, 0, 1, 1, 0] && (t.dom 1).state == .active && (t.dom 1).refusals == 0 &&
        (t.dom 1).lastWake == .clear) = true := by decide

theorem test_clearFaultDown :
    next .clearFaultDown (asking (withD1 { inState (.faulted .quiesceRefused true) true with refusals := 3 }) 0x2C [1, 1])
      (fun t => answer t == some [1, 0, 1, 1, 5] && (t.dom 1).state == .poweringDown .clear 100 false) = true := by decide

/-- RETIRE is refused with STATE in STANDBY (R75). -/
theorem test_retire : next .retire (asking (withD1 (inState .standby true)) 0x2D [1]) (fun t => answer t == some [2, 0x0D]) = true ∧
    next .retire (asking (withD1 (inState .active true)) 0x2D [1]) (fun t => (t.dom 1).state == .retired true) = true := by decide

theorem test_adopt : next .adopt (asking (withD1 (inState (.retired false) false)) 0x2E [1])
    (fun t => answer t == some [0, 0, 6] && (t.dom 1).state == .off && (t.dom 1).lastWake == .adopt) = true := by decide

/-! ## Full reset (chapter 11) -/

theorem test_powerOnReset : next (.powerOnReset false true) State.reset
    (fun t => t.board.fullReset == some .powerOn && !t.board.vdd && t.outputs 0 == { clken := false, pwren := true, qreq := true })
    = true := by decide

theorem test_resetPin : next .resetPin { State.reset with board := { State.reset.board with resetRaw := false } }
    (fun t => t.board.fullReset == some .pin && !t.board.resetLevel) = true := by decide

theorem test_resetPinRelease : next .resetPinRelease { State.reset with board := { State.reset.board with resetLevel := false } }
    (fun t => t.board.resetLevel) = true := by decide

theorem test_resetPinRawChange : next (.resetPinRawChange false) State.reset (fun t => !t.board.resetRaw && t.board.resetLevel)
    = true := by decide

/-- A state in which a full reset of cause POWER_ON is in progress. -/
def resetting : State := { State.reset with board := { State.reset.board with fullReset := some .powerOn } }

/-- The reset state is where a power-on reset ends with its inputs low (R82, R132, R180). -/
theorem test_fullResetEnd : exec (.fullResetEnd false false true) resetting = .next State.reset := by rfl

/-- RATE1 and RATE0 high strap the highest rate (R133), and a power-on reset goes on without REFCLK (R180). -/
theorem test_fullResetEnd_rate : next (.fullResetEnd true true true) resetting (fun t => t.link.rate == .r3000000) = true ∧
    exec (.fullResetEnd true true false) resetting = .next resetting := ⟨by decide, rfl⟩

/-! ## Witnesses: states and operands that meet the hypotheses of the statements -/

/-- The command is the only one that waits. -/
def waiting (c : Instr) (s : State) : State := { s with pending := [c] }

/-- A step of the state with this command waiting answers a next state. -/
def steps (c : Instr) (s : State) : Prop := ∃ t, step (waiting c s) = .next t

/-- A request of any TYPE and payload in hand. -/
theorem asking_hasInHand (type : Byte) (payload : List Byte) :
    (asking State.reset type payload).HasInHand type payload { type := type, tag := 0x21, payload := payload } :=
  ⟨rfl, rfl, rfl, rfl, rfl⟩

theorem test_witness_StepRunsFrontCommand : (waiting .matchDecision State.reset).pending = .matchDecision :: [] ∧
    State.reset.pending = [] := ⟨rfl, rfl⟩

/-- A command on the last domain completes; one on the domain after it is a boundary of the fault clauses. -/
theorem test_witness_CompletesExactlyOnPartsResources : WellFormed (.qackRise 5) = true ∧
    (∃ t, exec (.qackRise 5) State.reset = .next t ∧ t.pending = State.reset.pending) ∧ WellFormed (.qackRise 6) = false :=
  ⟨rfl, ⟨_, rfl, rfl⟩, rfl⟩

theorem test_witness_GovernorTimeMovers : (∃ t, exec .matchDecision (watching (observed 0x2000F030 9)) = .next t) ∧
    Instr.matchDecision ≠ .governorTimeIncrement ∧ ∀ a b k, Instr.matchDecision ≠ .fullResetEnd a b k :=
  ⟨⟨_, rfl⟩, by decide, by decide⟩

theorem test_witness_HitsDecreaseOnlyByClearing :
    let s := asking (State.reset.setWindow 23 { region with hits := 65535 }) 0x16 [23, 1, 1]
    s.WithinCapacity ∧ next .readHits s (fun t => decide ((t.window 23).hits < (s.window 23).hits)) = true := by decide

theorem test_witness_FullResetSuspendsCommands : resetting.board.fullReset = some .powerOn ∧ WellFormed (.timerExpiry 7) = true ∧
    actsDuringReset (.timerExpiry 7) = false := by decide

theorem test_witness_StepKeepsRanges : (waiting .matchDecision (watching (observed 0x2000F030 9))).WithinCapacity ∧
    steps .matchDecision (watching (observed 0x2000F030 9)) := ⟨by decide, _, rfl⟩

theorem test_witness_StepKeepsRanges_timers :
    let s := (State.reset.setTimer 7
      { Timer.default with state := .counting, loadCount := 255, unit := .min1, remaining := 15300000 }).setTimer 6
      { Timer.default with state := .counting, remaining := 1, due := true }
    (waiting .governorTimeIncrement s).TimersSound ∧ steps .governorTimeIncrement s := ⟨by decide, _, rfl⟩

theorem heldC15_holdsAgree : heldC15.HoldsAgree := by decide +kernel

theorem test_witness_StepKeepsHoldsAgree : (waiting (.recognisedEdge 11) heldC15).HoldsAgree ∧
    steps (.recognisedEdge 11) heldC15 :=
  ⟨heldC15_holdsAgree, _, rfl⟩

theorem test_witness_StepKeepsDomainsSound :
    let s := withD1 { inState (.quiescing .off .force 255) true with refusals := 2, qackRaw := true }
    (waiting (.qackRise 1) s).DomainsSound ∧ steps (.qackRise 1) s := ⟨by decide, _, rfl⟩

theorem test_witness_StepKeepsReportingSound :
    let s := asking { sentRestart with queue := { sentRestart.queue with retries := 7 } } 0x03 []
    (waiting .ackTimerExpiry s).ReportingSound ∧ steps .ackTimerExpiry s := ⟨by decide, _, rfl⟩

theorem test_witness_StrobeMakesObservation :
    let s : State := { State.reset with snoop := { memory := true, io := false, config := true },
                                        fifo := List.replicate 16 (observed 0 0) }
    s.Running ∧ ((0 : BitVec 2) = 0 ∧ Space.memory = .memory ∧ true = s.snoop.memory) ∧ ¬ s.fifo.length < 16 ∧
      ((1 : BitVec 2) = 1 ∧ Space.io = .io ∧ false = s.snoop.io) ∧ ((2 : BitVec 2) = 2 ∧ Space.config = .config ∧
      true = s.snoop.config) := by decide

/-- The first address of W0's block, the last, and the one after it, whose own block is W1's only. -/
theorem test_witness_WindowMatchesItsBlock : page.config.matches (observed 0x2000F000 9) = true ∧
    page.config.matches (observed 0x2000FFFF 9) = true ∧ page.config.matches (observed 0x20010000 9) = false ∧
    page.config.matches (observed 0x2000F000 8) = false ∧ inBlock 0 0xFFFFFFFF 32 = true ∧ inBlock 0 1 0 = false := by decide

theorem test_witness_FirstMatchDecides :
    let s := watching (observed 0x2000F030 8)
    s.Running ∧ s.fifo = observed 0x2000F030 8 :: [] ∧ (s.window 1).config.matches (observed 0x2000F030 8) = true ∧
      (∀ v, v < 1 → (s.window v).config.matches (observed 0x2000F030 8) = false) ∧
      ∀ w, ((watching (observed 0x20010000 9)).window w).config.matches (observed 0x20010000 9) = false := by decide

/-- The first window decides, with each action and class that a clause of the statement names. -/
theorem test_witness_DecisionHandsOnByAction :
    let o := observed 0x2000FFFF 9
    let s (c : WindowConfig) : State := { State.reset.setWindow 0 { page with config := c } with fifo := [o] }
    let trap : WindowConfig := { page.config with action := .trapOnce }
    (∀ c ∈ [page.config, trap, { trap with action := .count }, { trap with cls := some 15 },
        { trap with cls := some 15, action := .count }],
      (s c).Running ∧ ((s c).window 0).config.matches o = true) ∧ ((s trap).window 0).armed = true ∧
      (∃ d, (({ s { trap with cls := some 15 } with domains := heldAwakeD1.domains } : State).dom d).config.wakeSet.has 15 = true) :=
  by decide

theorem test_witness_RecognisedEdgeActs : heldC15.Running ∧ (heldC15.line 11).raw ≠ (heldC15.line 11).level := by decide

theorem test_witness_PulseReachesListeners :
    (asking State.reset 0x1A [15]).HasInHand 0x1A [15] { type := 0x1A, tag := 0x21, payload := [15] } ∧ (15 : Byte).toNat < 16 ∧
    (asking State.reset 0x1A [16]).HasInHand 0x1A [16] { type := 0x1A, tag := 0x21, payload := [16] } ∧
      16 ≤ (16 : Byte).toNat := ⟨asking_hasInHand _ _, by decide, asking_hasInHand _ _, by decide⟩

/-- T7 takes C2 before C15, and nothing is on its way to T6. -/
theorem test_witness_PulseReachesListeners_parts :
    let notice (x : Listener) (c : ClassId) : Notice := { listener := x, cls := c }
    let s := { heldAwakeD1 with notices := [notice (.domain 1) 15, notice (.timer 7) 2, notice (.timer 7) 15] }
    s.Running ∧ s.notices = [notice (.domain 1) 15] ++ notice (.timer 7) 2 :: [notice (.timer 7) 15] ∧
      (∀ n ∈ [notice (.domain 1) 15], n.listener ≠ .timer 7) ∧ (∀ n ∈ s.notices, n.listener ≠ .timer 6) ∧
      s.notices = [] ++ notice (.domain 1) 15 :: [notice (.timer 7) 2, notice (.timer 7) 15] := by decide

/-- A reply made to a NUDGE, which waits for T7's notice of C15 and, before it, for that of C2, and not for D1's. -/
theorem test_witness_PulseReachesListeners_joins :
    let notice (x : Listener) (c : ClassId) (ofRequest : Bool) : Notice := { listener := x, cls := c, ofRequest := ofRequest }
    let before := [notice (.domain 1) 15 false, notice (.timer 7) 2 false]
    let s := { answeredWith (asking heldAwakeD1 0x1A [15]) [0, 0] false with notices := before ++ [notice (.timer 7) 15 true] }
    s.Running ∧ s.unit.inHand.map (·.type) = some 0x1A ∧ s.unit.made.isSome = true ∧
      awaited s.notices = [.timer 7, .timer 7] ∧
      (answeredWith (asking heldAwakeD1 0x11 [0, 5, 15]) [0, 0] false).unit.inHand.map (·.type) = some 0x11 ∧
      s.notices = before ++ notice (.timer 7) 15 true :: [] := by decide

theorem test_witness_HoldsBeginAndEnd : (heldAwakeD1.timer 7).watch.has 15 = true ∧ (heldAwakeD1.timer 6).watch.has 15 = false ∧
    ((heldAwakeD1.dom 1).config.wakeSet.has 15 = true ∧ (heldAwakeD1.dom 1).config.boundTimer = some 6 ∧
      ∀ b, (heldAwakeD1.dom 1).state ≠ .retired b) ∧ (heldAwakeD1.dom 2).config.wakeSet.has 15 = false := by decide

theorem test_witness_IncrementCountsDown : heldC15.Running ∧ heldC15.handed = [] ∧
    ∀ i, ¬ ((heldC15.timer i).state = .counting ∧ (heldC15.timer i).due = true) := by decide

/-- Two expiries due and one on its way, of T0, T7 and T6. -/
theorem test_witness_IncrementCountsDown_outstanding :
    let due : Timer := { Timer.default with state := .counting, remaining := 1, due := true }
    let s := { (State.reset.setTimer 0 due).setTimer 7 due with handed := [{ timer := 6, domain := 1, count := 15 }] }
    s.Running ∧ s.outstanding = [(6, .atDomain 1), (0, .whole), (7, .whole)] := by decide

theorem test_witness_ExpiryReachesBoundDomains :
    let s := heldAwakeD1.setTimer 6 { Timer.default with state := .counting, remaining := 1, expiries := 15, due := true }
    s.Running ∧ ((s.timer 6).state = .counting ∧ (s.timer 6).due = true) ∧ (s.dom 1).config.boundTimer = some 6 ∧
      ¬ ((s.timer 7).state = .counting ∧ (s.timer 7).due = true) := by decide

/-- SET_LINE to HIGH on a line at HIGH, to LOW on one at LOW, and to neither; and out of range. -/
theorem test_witness_HoldsBeginAndEnd_setLine :
    (∀ p ∈ [[(11 : Byte), 4, 15], [0, 5, 0], [0, 4, 0], [12, 4, 0], [11, 4, 16]],
      (asking heldC15 0x11 p).HasInHand 0x11 p { type := 0x11, tag := 0x21, payload := p }) ∧
      (heldC15.line 11).level = true ∧ (heldC15.line 0).level = false :=
  ⟨fun _ _ => ⟨rfl, rfl, rfl, rfl, rfl⟩, rfl, rfl⟩

/-- Two expiries of T6 are on their way to D1, the first of them behind one to D0; none of T7's is. -/
theorem test_witness_ExpiryReachesBoundDomains_parts :
    let onWay (d : DomainId) (n : Nat) : HandedExpiry := { timer := 6, domain := d, count := n }
    let s := { State.reset with handed := [onWay 0 15, onWay 1 15, onWay 1 1] }
    s.Running ∧ s.handed = [onWay 0 15] ++ onWay 1 15 :: [onWay 1 1] ∧ (∀ y ∈ [onWay 0 15], ¬ (y.timer = 6 ∧ y.domain = 1)) ∧
      ∀ y ∈ s.handed, ¬ (y.timer = 7 ∧ y.domain = 1) := by decide

/-- A request of each TYPE that a clause names, with the operands of the clause's boundary. -/
theorem test_witness_TimerRequests : (∀ b ∈ [(7 : Byte), 8], ∀ type ∈ [(0x21 : Byte), 0x22, 0x23],
    (asking State.reset type [b]).HasInHand type [b] { type := type, tag := 0x21, payload := [b] }) ∧ (7 : Byte).toNat < 8 ∧
      8 ≤ (8 : Byte).toNat := ⟨fun _ _ _ _ => asking_hasInHand _ _, by decide, by decide⟩

theorem test_witness_WriteTimerInThreeSteps :
    (∀ p ∈ [[(7 : Byte), 255, 4, 1, 0xFF, 0xFF, 1, 1], [8, 1, 0, 0, 0, 0, 0, 0], [0, 0, 0, 0, 0, 0, 0, 0],
        [0, 1, 5, 0, 0, 0, 0, 0], [0, 1, 0, 2, 0, 0, 0, 0], [0, 1, 0, 0, 0, 0, 2, 0], [0, 1, 0, 0, 0, 0, 0, 2]],
      (asking State.reset 0x20 p).HasInHand 0x20 p { type := 0x20, tag := 0x21, payload := p }) ∧
      TimerUnit.min1.code = 4 ∧ TimerMode.repeating.code = 1 := ⟨fun _ _ => asking_hasInHand _ _, rfl, rfl⟩

theorem test_witness_OutputsFollowState : State.reset.Running ∧ (withD1 (inState (.throttled .offPhase 8) true)).Running ∧
    resetting.board.fullReset = some .powerOn ∧ State.reset.board.vddio = true ∧ State.reset.link.tx = none ∧
    (let s : State :=
       { State.reset with link := { State.reset.link with tx := some { characters := [0xC3], resets := false } } }
     s.Running ∧ s.board.vddio = true ∧ s.link.tx = some { characters := [0xC3], resets := false }) ∧
    ({ State.reset.board with vddio := false } : Board).vddio = false := by decide

theorem test_witness_ComparisonDepthTable : (State.reset.dom 5).state.comparisonDepth = none ∧
    ((withD1 (inState .standby true)).dom 1).state.comparisonDepth = some 2 := by decide

theorem test_witness_LadderStepTable :
    let x := { inState .active true with config := { DomainConfig.default with ladder := [.throttled, .standby, .off] } }
    ((withD1 x).dom 1).hold = false ∧ (withD1 x).heldAwake 1 = false ∧ ((withD1 x).dom 1).config.ladder[2]? = some .off ∧
      ((withD1 { x with hold := true }).dom 1).hold = true ∧
      (heldC15.setDom 1 { x with config := { x.config with wakeSet := 0x8000 } }).heldAwake 1 = true ∧
      ((withD1 x).dom 1).config.ladder.length ≤ 3 := by decide

theorem test_witness_QackEdges :
    let rise := withD1 { inState (.quiescing .off .force 1) true with qackRaw := true }
    let fall := withD1 { inState .standby true with qack := true }
    rise.Running ∧ ((rise.dom 1).qackRaw = true ∧ (rise.dom 1).qack = false) ∧ fall.Running ∧
      ((fall.dom 1).qackRaw = false ∧ (fall.dom 1).qack = true) := by decide

theorem test_witness_PgoodEdges :
    let rise := withD1 { inState (.poweringUp 1) false with pgoodRaw := true }
    let fall := withD1 { inState (.poweringDown .clear 1 true) true with pgoodRaw := false }
    rise.Running ∧ ((rise.dom 1).pgoodRaw = true ∧ (rise.dom 1).pgood = false) ∧ fall.Running ∧
      ((fall.dom 1).pgoodRaw = false ∧ (fall.dom 1).pgood = true) := by decide

theorem test_witness_DeadlinesAndDelaysEnd :
    let quiescing (n : Nat) := withD1 { inState (.quiescing .off .force 255) true with refusals := n }
    (quiescing 1).Running ∧ ((quiescing 1).dom 1).state = .quiescing .off .force 255 ∧ ((quiescing 1).dom 1).refusals < 2 ∧
      ((quiescing 2).dom 1).refusals = 2 ∧
      ((withD1 (inState (.settling .off .force .ms10) false)).dom 1).state = .settling .off .force .ms10 ∧
      ((withD1 (inState (.resuming .ms10) true)).dom 1).state = .resuming .ms10 := by decide

theorem test_witness_PowerOffDeadlineFaults :
    let s := withD1 (inState (.poweringDown .ladder 255 true) true)
    let u := withD1 { inState (.faulted .powerOffTimeout true) true with pgoodRaw := false }
    (s.Running ∧ (s.dom 1).state = .poweringDown .ladder 255 true) ∧ u.Running ∧
      (u.dom 1).state = .faulted .powerOffTimeout true ∧ (u.dom 1).pgoodRaw = false ∧ (u.dom 1).pgood = true := by decide

theorem test_witness_PowerOnDeadlineFaults :
    let u := withD1 { inState (.faulted .powerOnTimeout true) false with pgoodRaw := true }
    (State.reset.Running ∧ (State.reset.dom 1).state = .poweringUp 100) ∧ u.Running ∧
      (u.dom 1).state = .faulted .powerOnTimeout true ∧ (u.dom 1).pgoodRaw = true ∧ (u.dom 1).pgood = false := by decide

theorem test_witness_PhaseEndsAndStaleEvents : ((withD1 (inState (.throttled .onPhase 255) true)).dom 1).state =
      .throttled .onPhase 255 ∧ ((withD1 (inState (.throttled .offPhase 1) true)).dom 1).state = .throttled .offPhase 1 ∧
    State.reset.Running ∧ (State.reset.dom 1).state = .poweringUp 100 ∧
    ((withD1 (inState .active true)).dom 1).state = .active ∧ (State.reset.dom 5).qackRaw = (State.reset.dom 5).qack ∧
    (State.reset.dom 5).pgoodRaw = (State.reset.dom 5).pgood ∧ (State.reset.line 11).raw = (State.reset.line 11).level ∧
    State.reset.fifo = [] ∧ ({ State.reset.link with charRx := .inCharacter } : Link).charRx = .inCharacter ∧
    State.reset.link.gapRunning = false ∧ State.reset.queue.ackTimer = none ∧ State.reset.unit.silentClaim = false ∧
    (requestType? .ping = some 0x03 ∧ ∀ r, (asking State.reset 0x04 []).unit.inHand = some r → r.type ≠ 0x03) ∧
    State.reset.board.resetRaw = true ∧ ({ State.reset.board with resetRaw := false } : Board).resetRaw = false := by
  refine ⟨by decide, by decide, by decide, by decide, by decide, by decide, by decide, by decide, by decide, by decide, by decide,
    by decide, by decide, ⟨by decide, ?_⟩, by decide, by decide⟩
  rintro r ⟨⟩
  decide

/-- The requests of the pairs of commands, each with the value that the other command executes, and a block that has taken the soft
reset. -/
theorem test_witness_PhaseEndsAndStaleEvents_pairs :
    (∀ x ∈ [((0x2A : Byte), [(5 : Byte), 0]), (0x2A, [5, 1]), (0x2B, [5, 0]), (0x2B, [5, 255]), (0x2C, [5, 1]), (0x2C, [5, 0]),
        (0x06, [1]), (0x06, [2])],
      (asking State.reset x.1 x.2).HasInHand x.1 x.2 { type := x.1, tag := 0x21, payload := x.2 }) ∧ (255 : Byte) ≠ 0 ∧
    (let s := asking State.reset 0x06 [2]
     let u : State := { s with unit := { s.unit with softTaken := [.domainGovernor 5] } }
     u.HasInHand 0x06 [2] { type := 0x06, tag := 0x21, payload := [2] } ∧ SoftBlock.domainGovernor 5 ∈ u.unit.softTaken) :=
  ⟨fun _ _ => asking_hasInHand _ _, by decide, ⟨rfl, rfl, rfl, rfl, rfl⟩, by decide⟩

/-- D5, and one above it, with each value of a clause. -/
theorem test_witness_HoldSetsFlag : ∀ p ∈ [[(5 : Byte), 1], [5, 0], [6, 1], [6, 0], [0, 2], [0, 255]],
    (asking State.reset 0x2A p).HasInHand 0x2A p { type := 0x2A, tag := 0x21, payload := p } := fun _ _ => asking_hasInHand _ _

theorem test_witness_ForceMovesDomain : (∀ p ∈ [[(5 : Byte), 0], [5, 1], [5, 3], [6, 0], [6, 1], [0, 4], [0, 255]],
    (asking State.reset 0x2B p).HasInHand 0x2B p { type := 0x2B, tag := 0x21, payload := p }) ∧
    ((3 : Byte) = 3 ∧ Rung.off = .off) ∧ (4 : Byte) ≠ 0 ∧ 4 ≤ (4 : Byte).toNat :=
  ⟨fun _ _ => asking_hasInHand _ _, ⟨rfl, rfl⟩, by decide, by decide⟩

theorem test_witness_ClearFaultRecovers :
    let s := withD1 (inState (.faulted .powerLost true) false)
    (s.dom 1).state = .faulted .powerLost true ∧ (asking s 0x2C [1, 0]).HasInHand 0x2C [1, 0] ⟨0x2C, 0x21, [1, 0]⟩ ∧
      (asking s 0x2C [1, 1]).HasInHand 0x2C [1, 1] ⟨0x2C, 0x21, [1, 1]⟩ ∧
      (∀ p ∈ [[(5 : Byte), 0], [5, 1], [6, 0], [6, 1], [0, 2], [0, 255]],
        (asking State.reset 0x2C p).HasInHand 0x2C p { type := 0x2C, tag := 0x21, payload := p }) :=
  ⟨rfl, ⟨rfl, rfl, rfl, rfl, rfl⟩, ⟨rfl, rfl, rfl, rfl, rfl⟩, fun _ _ => asking_hasInHand _ _⟩

theorem test_witness_RetireAndAdopt : (∀ type ∈ [(0x2D : Byte), 0x2E], ∀ b ∈ [(5 : Byte), 6],
    (asking State.reset type [b]).HasInHand type [b] { type := type, tag := 0x21, payload := [b] }) ∧
    ((withD1 (inState (.retired false) false)).dom 1).state = .retired false ∧
    ((withD1 (inState .off false)).dom 1).state = .off := ⟨fun _ _ _ _ => asking_hasInHand _ _, rfl, rfl⟩

theorem test_witness_WriteDomainReplacesConfiguration :
    let p : List Byte := [5, 7, 3, 1, 2, 3, 0xFF, 0xFF, 255, 1, 255, 3, 255, 1, 3, 0]
    let c : DomainConfig :=
      { boundTimer := some 7, ladder := [.throttled, .standby, .off], wakeSet := 0xFFFF, throttleOn := 255, throttleOff := 1,
        quiesceDeadline := 255, stopDelay := .ms10, powerOffDeadline := 255, powerOnDeadline := 1, resumeDelay := .ms10 }
    ((asking State.reset 0x28 p).HasInHand 0x28 p { type := 0x28, tag := 0x21, payload := p }) ∧
      [0, 1, 2, 3].Pairwise (fun a b : Nat => a < b) ∧ ¬ [0, 1, 1, 3].Pairwise (fun a b : Nat => a < b) ∧
      c.boundTimer.map (·.val) = some 7 ∧ c.ladder.map Rung.depth = [1, 2, 3] ∧ c.wakeSet = (0xFF : Byte) ++ (0xFF : Byte) ∧
      c.stopDelay.code = 3 ∧ c.resumeDelay.code = 3 :=
  ⟨asking_hasInHand _ _, by decide, by decide, rfl, rfl, rfl, rfl, rfl⟩

theorem test_witness_ReadWindowReturnsRecord : ∀ b ∈ [(23 : Byte), 24],
    (asking State.reset 0x15 [b]).HasInHand 0x15 [b] { type := 0x15, tag := 0x21, payload := [b] } :=
  fun _ _ => asking_hasInHand _ _

theorem test_witness_ReadsAnswerAndChangeNothing :
    ∀ x ∈ [((0x1B : Byte), ([] : List Byte)), (0x05, []), (0x29, [5]), (0x29, [6])],
    (asking State.reset x.1 x.2).HasInHand x.1 x.2 { type := x.1, tag := 0x21, payload := x.2 } := fun _ _ => asking_hasInHand _ _

theorem test_witness_SnoopFallthroughAndArm :
    ∀ x ∈ [((0x10 : Byte), [(1 : Byte), 1, 1]), (0x10, [2, 0, 0]), (0x18, [15]), (0x18, [16]), (0x18, [0xFF]), (0x17, [23]),
        (0x17, [24])],
      (asking State.reset x.1 x.2).HasInHand x.1 x.2 { type := x.1, tag := 0x21, payload := x.2 } :=
  fun _ _ => asking_hasInHand _ _

theorem test_witness_OpenAndClose :
    (∀ p ∈ [[(1 : Byte), 0], [8, 7], [0, 0], [9, 0], [1, 8]],
      (asking State.reset 0x01 p).HasInHand 0x01 p { type := 0x01, tag := 0x21, payload := p }) ∧
      (asking State.reset 0x02 []).HasInHand 0x02 [] { type := 0x02, tag := 0x21, payload := [] } ∧
      AckTimeout.ms2000.code = 7 := ⟨fun _ _ => asking_hasInHand _ _, asking_hasInHand _ _, rfl⟩

theorem test_witness_SetLineReconfigures :
    ([.off, .rise, .fall, .edge, .high, .low] : List Qualifier)[5]? = some .low ∧
    ∀ p ∈ [[(11 : Byte), 5, 15], [12, 0, 0], [0, 6, 0], [0, 0, 16]],
      (asking State.reset 0x11 p).HasInHand 0x11 p { type := 0x11, tag := 0x21, payload := p } :=
  ⟨rfl, fun _ _ => asking_hasInHand _ _⟩

theorem test_witness_WriteWindowReplacesConfiguration :
    (∀ p ∈ [[(23 : Byte), 1, 3, 0, 0, 0, 0, 32, 2, 1, 0, 0x80, 15, 3, 1, 0],
        [24, 0, 0, 0, 0, 0, 0, 0, 0, 0, 0, 0, 0, 0, 0, 0],
        [0, 0, 0, 0, 0, 0, 0, 33, 0, 0, 0, 0, 0, 0, 0, 0], [0, 0, 0, 0, 0, 0, 0, 0, 0, 1, 0, 0, 0, 0, 0, 0]],
      (asking State.reset 0x14 p).HasInHand 0x14 p { type := 0x14, tag := 0x21, payload := p }) ∧
      (let c : WindowConfig := { page.config with span := 32, requesters := some 0x8000, cls := some 15, space := .any }
       c.space.code = 3 ∧ c.direction.code = 2 ∧ c.requesters = some ((0x80 : Byte) ++ (0x00 : Byte)) ∧ c.cls.map (·.val) = some 15 ∧
        c.action.code = 3) :=
  ⟨fun _ _ => asking_hasInHand _ _, rfl, rfl, rfl, rfl, rfl⟩

/-- The second of two counts is the last, with one read before it; W23 is the last window. -/
theorem test_witness_ReadHitsStepsThroughWindows :
    let s := asking State.reset 0x16 [22, 2, 1]
    let u : State := { s with unit := { s.unit with hitsRead := [0] } }
    u.HasInHand 0x16 [22, 2, 1] { type := 0x16, tag := 0x21, payload := [22, 2, 1] } ∧
      (22 : Byte).toNat + u.unit.hitsRead.length < 24 ∧ (22 : Byte).toNat + (2 : Byte).toNat ≤ 24 ∧
      u.unit.hitsRead.length < (2 : Byte).toNat ∧ u.unit.hitsRead.length + 1 = (2 : Byte).toNat ∧
      ∀ p ∈ [[(0 : Byte), 0, 0], [23, 2, 0], [0, 1, 2]],
        (asking State.reset 0x16 p).HasInHand 0x16 p { type := 0x16, tag := 0x21, payload := p } :=
  ⟨⟨rfl, rfl, rfl, rfl, rfl⟩, by decide, by decide, by decide, by decide, fun _ _ => asking_hasInHand _ _⟩

/-- A trap record of W0 with a count. -/
def trapRecord (count : Nat) (sent : Bool) : Record :=
  { seq := 7, sent := sent, resent := false, first := 0, last := 0, subject := some 0, count := count,
    detail := .trap 0 .memory .read 0 }

/-- A LOSS record. -/
def lossRecord (sent : Bool) : Record :=
  { seq := 8, sent := sent, resent := false, first := 0, last := 0, subject := none, count := 1, detail := .loss 0x30 }

theorem test_witness_QueueTakesReportOrLoss :
    let q : ReportQueue := { ReportQueue.restarted .pin with records := [trapRecord 65535 false, lossRecord false], nextSeq := 9 }
    Kind.trap.merges = true ∧ q.records = [] ++ trapRecord 65535 false :: [lossRecord false] ∧
      ((trapRecord 65535 false).sent = false ∧ (trapRecord 65535 false).kind = .trap ∧
        (trapRecord 65535 false).subject = some 0) ∧
      Kind.refusal.merges = false ∧ q.ordinaryCount < 31 ∧ q.records = [trapRecord 65535 false] ++ lossRecord false :: [] ∧
      (trapRecord 65535 false).kind ≠ .loss ∧ (lossRecord false).detail = .loss 0x30 ∧
      (∀ z ∈ (ReportQueue.restarted .pin).records, z.kind ≠ .loss) ∧ Tally.empty.count.toNat + 1 < 2 ^ 64 ∧
      (Detail.expiry 1).kind = (Detail.expiry 15).kind ∧ (Detail.expiry 1).kind.merges = true := by decide

theorem test_witness_EveryReportIsAccounted : sentRestart.queue.accounted + 1 < 2 ^ 64 ∧
    (sentRestart.queue.acknowledge? 0).map (·.1) = some 1 := by decide

/-- Two trap records of one window, the older SENT, that a reversion folds, or counts as lost where the sum is 65536. -/
theorem test_witness_ReversionFolds :
    let reverted (r : Record) : Record := if r.sent = true then { r with sent := false, resent := true } else r
    let q (n : Nat) : ReportQueue := { ReportQueue.restarted .pin with records := [trapRecord n true, trapRecord 1 false] }
    ((q 1).records = [] ++ trapRecord 1 true :: [] ++ [trapRecord 1 false]) ∧
      (([] ++ trapRecord 1 true :: []).map reverted).Pairwise (fun a b : Record => ¬ a.Twins b) ∧
      (reverted (trapRecord 1 true)).Twins (reverted (trapRecord 1 false)) ∧
      (reverted (trapRecord 65535 true)).Twins (reverted (trapRecord 1 false)) ∧
      (foldRecords [reverted (trapRecord 1 true)]).1 = [] ++ reverted (trapRecord 1 true) :: [] ∧
      (∀ a ∈ (foldRecords [lossRecord false]).1, ¬ a.Twins (trapRecord 1 false)) ∧ (trapRecord 1 false).sent = false ∧
      (sentRestart.queue.records.map reverted).Pairwise (fun a b : Record => ¬ a.Twins b) := by decide

theorem test_witness_AckTimeoutsLeadToSilence :
    (sentRestart.Running ∧ sentRestart.queue.ackTimer = some .ms200) ∧
      (let s : State := { State.reset with unit := { State.reset.unit with silentClaim := true } }
       s.Running ∧ s.unit.silentClaim = true) := by decide

theorem test_witness_AckAndSetReporting :
    sentRestart.queue.records = [] ++
        { seq := 0, sent := true, resent := false, first := 0, last := 0, subject := none, count := 1,
          detail := .restart .powerOn 1 } :: [] ∧
      (asking sentRestart 0x09 [0, 0]).HasInHand 0x09 [0, 0] { type := 0x09, tag := 0x21, payload := [0, 0] } ∧
      (∀ x ∈ State.reset.queue.records, ¬ (x.sent = true ∧ x.seq = 0)) ∧
      (∀ p ∈ [[(1 : Byte), 0], [8, 7], [0, 0], [9, 0], [1, 8]],
        (asking State.reset 0x08 p).HasInHand 0x08 p { type := 0x08, tag := 0x21, payload := p }) ∧
      AckTimeout.ms2000.code = 7 :=
  ⟨rfl, ⟨rfl, rfl, rfl, rfl, rfl⟩, by decide, fun _ _ => asking_hasInHand _ _, rfl⟩

theorem test_witness_BoundaryChoosesFrame :
    let opened : State := { State.reset with unit := { State.reset.unit with session := .opened } }
    let y : Reply := { type := 0x83, tag := 0, payload := [0, 0], resets := false }
    let answered : State := { opened with link := { opened.link with replies := [y] } }
    let ending : State := { State.reset with link := { State.reset.link with tx := some { characters := [0xC3], resets := true } } }
    opened.Running ∧ opened.link.tx = none ∧
      answered.link.replies = y :: [] ∧
      opened.link.replies = [] ∧ opened.unit.session = .opened ∧ opened.queue.retries < 8 ∧
      opened.queue.sentCount < opened.queue.credit ∧ (∃ x, opened.queue.records = [] ++ x :: [] ∧ x.sent = false) ∧
      State.reset.unit.session ≠ .opened ∧ ending.Running ∧ ending.link.tx = some { characters := [0xC3], resets := true } := by
  refine ⟨rfl, rfl, rfl, rfl, rfl, by decide, by decide, ⟨_, rfl, rfl⟩, by decide, rfl, rfl⟩

theorem test_witness_ReceiverTakesCharacter :
    let s (f : FrameRx) : State := { State.reset with link := { State.reset.link with frameRx := f, gapRunning := true } }
    ∀ f ∈ [FrameRx.hunt, .length, .body 248 [3], .check 2 [3, 0] none, .check 2 [3, 0] (some 0)],
      (s f).Running ∧ (s f).link.frameRx = f ∧ (s f).link.gapRunning = true ∧ (s f).link.charRx ≠ .inCharacter := by decide

/-- The longest payload and the highest TYPE of a request. -/
theorem test_witness_FramedRequestIsReceived : State.reset.Running ∧ State.reset.link.frameRx = .hunt ∧
    State.reset.link.requests.length < 4 ∧ (0x6F : Byte).toNat < 0x70 ∧ (List.replicate 246 (0 : Byte)).length ≤ 246 :=
  ⟨rfl, rfl, by decide, by decide, Nat.le_of_eq List.length_replicate⟩

theorem test_witness_BreakResetsLink :
    let y : Reply := { type := 0x86, tag := 0, payload := [0, 0], resets := true }
    let s : State := { State.reset with link := { State.reset.link with replies := [y] } }
    State.reset.Running ∧ s.Running ∧ y ∈ s.link.replies ∧ y.resets = true := by decide

theorem test_witness_RequestIsTakenCheckedAnswered :
    let r : Request := { type := 0x2F, tag := 0, payload := [] }
    let s : State := { State.reset with link := { State.reset.link with requests := [r] } }
    s.Running ∧ s.link.requests = r :: [] ∧ s.unit.inHand = none ∧ s.unit.fullResetPending = false ∧
      s.link.replies.length < 4 ∧ State.reset.link.requests = [] := by decide

/-- A reply that is made, a RESET FULL's among them, with and without the discard mark. -/
theorem test_witness_RequestIsTakenCheckedAnswered_joins :
    ∀ x ∈ [(Instr.ping, (0x03 : Byte), false), (.resetFull, 0x06, true)], ∀ mark ∈ [false, true],
      let made := answeredWith (asking State.reset x.2.1 [1]) [0, 0] x.2.2
      let s : State := { made with unit := { made.unit with discard := mark } }
      requestType? x.1 = some x.2.1 ∧ s.Running ∧ (s.unit.inHand.map (·.type)) = some x.2.1 ∧
        (s.unit.made.map (·.resets)) = some x.2.2 := by decide

theorem test_witness_PingAndIdentifyAnswer :
    let r : Request := { type := 0x03, tag := 0, payload := List.replicate 240 0 }
    let s : State := { State.reset with
                       link := { State.reset.link with requests := [r] }
                       unit := { State.reset.unit with session := .silent } }
    s.Running ∧ s.unit.session = .silent ∧ s.link.requests = r :: [] ∧ r.type = 0x03 ∧ r.payload.length ≤ 240 ∧
      s.unit.inHand = none ∧ s.unit.fullResetPending = false ∧ s.link.replies.length < 4 ∧
      240 < (List.replicate 241 (0 : Byte)).length :=
  ⟨rfl, rfl, rfl, rfl, Nat.le_of_eq List.length_replicate, rfl, rfl, by decide,
    by rw [List.length_replicate]; decide⟩

/-- Scope SOFT, whose last taker is D5 here, and the scopes 0 and 3, which are none. -/
theorem test_witness_SoftResetBlockByBlock :
    (∀ b ∈ [(2 : Byte), 0, 3],
      (asking State.reset 0x06 [b]).HasInHand 0x06 [b] { type := 0x06, tag := 0x21, payload := [b] }) ∧
      SoftBlock.domainGovernor 5 ∉ allSoftBlocks.take 11 ∧
      (∀ other ∈ allSoftBlocks, other = .domainGovernor 5 ∨ other ∈ allSoftBlocks.take 11) ∧ heldC15.HoldsAgree :=
  ⟨fun _ _ => asking_hasInHand _ _, by decide, by decide, heldC15_holdsAgree⟩

/-- RESET# recognised low, without and with a full reset in progress, and its release. -/
theorem test_witness_FullResetBegins :
    let low (cause : Option ResetCause) : State :=
      { State.reset with board := { State.reset.board with resetRaw := false, fullReset := cause } }
    let released : State := { resetting with board := { resetting.board with resetLevel := false } }
    let full := asking State.reset 0x06 [1]
    let made := answeredWith full [0, 0] true
    let discarded : State := { made with unit := { made.unit with discard := true } }
    full.HasInHand 0x06 [1] ⟨0x06, 0x21, [1]⟩ ∧
      (discarded.Running ∧ discarded.unit.inHand = some ⟨0x06, 0x21, [1]⟩ ∧
        discarded.unit.made = some ⟨0x86, 0x21, [0, 0], true⟩ ∧ discarded.unit.discard = true) ∧
      ((low none).board.resetRaw = false ∧ (low none).board.resetLevel = true ∧ (low none).board.fullReset = none) ∧
      (low (some .host)).board.fullReset = some .host ∧ released.board.resetRaw = true ∧ released.board.resetLevel = false :=
  ⟨asking_hasInHand _ _, ⟨rfl, rfl, rfl, rfl⟩, by decide, rfl, rfl, rfl⟩

theorem test_witness_FullResetEnds : resetting.board.fullReset = some .powerOn ∧ resetting.board.resetLevel = true ∧
    resetting.board.vdd = true ∧ resetting.board.vddio = true ∧ (ResetCause.powerOn = .powerOn → true = true) ∧
    State.reset.board.fullReset = none := by decide

end Sys2Proof.Tests
end

section
/-! PROOF of the obligation on SET_LINE's checks and order (R13, R14): what each part of a reconfiguration leaves of the line, and the
reply read off the line. -/

namespace Sys2Proof.Machine

/-! ## The parts of a reconfiguration -/

/-- A level qualifier holds at its own level, and no other qualifier holds at any (R12). -/
theorem Qualifier.holdsAt_eq_some_iff (q : Qualifier) (level : Bool) :
    q.holdsAt = some level ↔ q = .high ∧ level = true ∨ q = .low ∧ level = false := by
  cases q <;> simp [Qualifier.holdsAt, eq_comm]

theorem State.beginHold_line (s : State) (l m : LineId) (c : ClassId) : (s.beginHold l c).line m = s.line m := by
  rw [State.line, State.beginHold_lines, ← State.line]

theorem State.endHold_line (s : State) (l m : LineId) (c : ClassId) : (s.endHold l c).line m = s.line m := by
  rw [State.line, State.endHold_lines, ← State.line]

/-- The end of a line's hold leaves everything else of the line. -/
theorem State.lineReleases_line (s : State) (l : LineId) :
    (s.lineReleases l).line l = { s.line l with holding := none } := by
  unfold State.lineReleases
  split
  next idle => rw [← idle]
  next c held => rw [State.endHold_line, State.line_setLine, if_pos rfl]

/-- The line as a reconfiguration leaves it before a hold may begin (R14). -/
def Line.reconfigured (x : Line) (qualifier : Qualifier) (cls : ClassId) : Line :=
  { x with holding := none, qualifier := qualifier, cls := cls }

section Reconfiguration
variable (s : State) (l : LineId) {qualifier : Qualifier} (cls : ClassId)

/-- Where the recognised level qualifies, the line begins holding its new class once it is reconfigured. -/
theorem State.configureLine_of_holds (h : qualifier.holdsAt = some (s.line l).level) :
    s.configureLine l qualifier cls false =
      ((s.lineReleases l).setLine l { (s.line l).reconfigured qualifier cls with holding := some cls }).beginHold l cls := by
  simp [State.configureLine, h, State.lineHolds, State.lineReleases_line, Line.reconfigured]

/-- Where it does not, the reconfiguration ends with the configuration replaced. -/
theorem State.configureLine_of_not_holds (h : qualifier.holdsAt ≠ some (s.line l).level) :
    s.configureLine l qualifier cls false = (s.lineReleases l).setLine l ((s.line l).reconfigured qualifier cls) := by
  simp [State.configureLine, h, State.lineReleases_line, Line.reconfigured]

theorem State.configureLine_holding_of_holds (h : qualifier.holdsAt = some (s.line l).level) :
    ((s.configureLine l qualifier cls false).line l).holding = some cls := by
  simp [s.configureLine_of_holds l cls h, State.beginHold_line]

theorem State.configureLine_holding_of_not_holds (h : qualifier.holdsAt ≠ some (s.line l).level) :
    ((s.configureLine l qualifier cls false).line l).holding = none := by
  simp [s.configureLine_of_not_holds l cls h, Line.reconfigured]

end Reconfiguration

/-! ## SET_LINE's execution -/

/-- SET_LINE taken whole answers as the Line Monitor decides on its payload (R13). -/
theorem State.HasInHand.exec_setLine {s : State} {payload : List Byte} {r : Request} (h : s.HasInHand 0x11 payload r) :
    exec .setLine s = .next (s.conclude r (some (s.ownLine false payload))) := by
  have running : exec .setLine s = .next (s.servePulse 0x11 (s.ownLine false)) :=
    h.running fun s => s.servePulse 0x11 (s.ownLine false)
  rw [running, h.servePulse]

/-- A SET_LINE in range is done, and replies with the level before and the hold that the reconfiguration leaves. -/
theorem State.ownLine_of_lt (s : State) {b q c : Byte} {qualifier : Qualifier} (hb : b.toNat < 12) (hc : c.toNat < 16)
    (hq : qualifier? q = some qualifier) :
    let l : LineId := ⟨b.toNat, hb⟩
    let after := s.configureLine l qualifier ⟨c.toNat, hc⟩ false
    s.ownLine false [b, q, c] = .done .ok (flagByte (s.line l).level :: holdBytes (after.line l).holding) after := by
  simp [State.ownLine, index?_of_lt hb, index?_of_lt hc, hq]

/-- A SET_LINE is refused with RANGE where its line, class or qualifier is out of range. -/
theorem State.ownLine_of_le (s : State) {b q c : Byte} (h : 12 ≤ b.toNat ∨ 16 ≤ c.toNat ∨ 6 ≤ q.toNat) :
    s.ownLine false [b, q, c] = .refuse .range := by
  rcases h with hb | hc | hq
  · simp [State.ownLine, index?_of_le hb]
  · simp [State.ownLine, index?_of_le hc]
  · simp [State.ownLine, qualifier?_of_lt hq]

/-- The class of a reply is the byte that named it in the request. -/
theorem holdBytes_some_of_lt {c : Byte} (hc : c.toNat < 16) : holdBytes (some ⟨c.toNat, hc⟩) = [1, c] := by
  simp [holdBytes, byte]

/-- Settles O43: the owner's decision on each payload, the reconfiguration split on whether the recognised level qualifies. -/
theorem setLineReconfigures : Obligations.SetLineReconfigures := by
  intro s r b q c inHand
  rw [inHand.exec_setLine]
  constructor
  case right =>
    intro out
    rw [s.ownLine_of_le out, State.conclude_refuse]
    rfl
  case left =>
    intro hb hc qualifier hq l cls x ended y holds
    have released : s.lineReleases l = ended := rfl
    have qualifies : qualifier.holdsAt = some x.level ↔ holds := qualifier.holdsAt_eq_some_iff x.level
    rw [s.ownLine_of_lt hb hc ((qualifier?_eq q).trans hq), State.conclude_done]
    by_cases h : holds
    · rw [if_pos h, State.setLine_setLine, ← released, s.configureLine_holding_of_holds l cls (qualifies.2 h),
        holdBytes_some_of_lt hc, s.configureLine_of_holds l cls (qualifies.2 h)]
      rfl
    · rw [if_neg h, ← released, s.configureLine_holding_of_not_holds l cls (mt qualifies.1 h),
        s.configureLine_of_not_holds l cls (mt qualifies.1 h)]
      rfl

end Sys2Proof.Machine
end

section
/-! PROOF of the obligations on the Window Table: a window's match and its block (R19, R20), and the record READ_WINDOW
returns (R31). -/

namespace Sys2Proof.Machine

/-! ## A window's match (R19) -/

theorem SpaceFilter.accepts_iff (f : SpaceFilter) (x : Space) : f.accepts x = true ↔ f = .any ∨ f = .only x := by
  cases f <;> simp [SpaceFilter.accepts]

theorem DirectionFilter.accepts_iff (f : DirectionFilter) (x : Direction) :
    f.accepts x = true ↔ f = .either ∨ f = .only x := by
  cases f <;> simp [DirectionFilter.accepts]

theorem WindowConfig.matches_iff (w : WindowConfig) (o : Observation) :
    w.matches o = true ↔
      w.enabled = true ∧ (w.space = .any ∨ w.space = .only o.space) ∧ inBlock w.base o.address w.span = true ∧
      (w.direction = .either ∨ w.direction = .only o.direction) ∧
      (w.requesters = none ∨ ∃ tags, w.requesters = some tags ∧ tags.getLsbD o.requester.toNat = true) := by
  cases requesters : w.requesters <;>
    simp [WindowConfig.matches, SpaceFilter.accepts_iff, DirectionFilter.accepts_iff, requesters, and_assoc]

/-- The five conditions read the space, address, direction and requester of an observation, and not its capture time. -/
theorem WindowConfig.matches_withTime (w : WindowConfig) (o : Observation) (time : Millis) :
    w.matches { o with time := time } = w.matches o := rfl

/-! ## A window's block (R20) -/

theorem inBlock_iff_bits (base address : BitVec 32) (k : Nat) :
    inBlock base address k = true ↔ ∀ i, k ≤ i → base.getLsbD i = address.getLsbD i := by
  rw [inBlock, beq_iff_eq]
  constructor
  · intro same i hi
    have bit := congrArg (·.getLsbD (i - k)) same
    simpa [BitVec.getLsbD_ushiftRight, Nat.add_sub_cancel' hi] using bit
  · intro agree
    refine BitVec.eq_of_getLsbD_eq fun i _ => ?_
    simpa [BitVec.getLsbD_ushiftRight] using agree (k + i) (Nat.le_add_right k i)

theorem inBlock_iff_div (base address : BitVec 32) (k : Nat) :
    inBlock base address k = true ↔ address.toNat / 2 ^ k = base.toNat / 2 ^ k := by
  rw [inBlock, beq_iff_eq, eq_comm, BitVec.toNat_eq, BitVec.toNat_ushiftRight, BitVec.toNat_ushiftRight,
    Nat.shiftRight_eq_div_pow, Nat.shiftRight_eq_div_pow]

/-- The block is the aligned interval of 2^k addresses that holds the base. -/
theorem inBlock_iff_bounds (base address : BitVec 32) (k : Nat) :
    inBlock base address k = true ↔
      base.toNat / 2 ^ k * 2 ^ k ≤ address.toNat ∧ address.toNat < base.toNat / 2 ^ k * 2 ^ k + 2 ^ k := by
  rw [inBlock_iff_div, Nat.div_eq_iff (Nat.two_pow_pos k)]
  have := Nat.two_pow_pos k
  omega

/-- Settles O13: the five conditions of a match, and the block by its bits and by its bounds. -/
theorem windowMatchesItsBlock : Obligations.WindowMatchesItsBlock :=
  ⟨fun w o => ⟨w.matches_iff o, w.matches_withTime o⟩,
    fun base address k _ => ⟨inBlock_iff_bits base address k, inBlock_iff_bounds base address k⟩⟩

/-! ## READ_WINDOW -/

/-- READ_WINDOW answers as the Match Unit decides on its payload (R31). -/
theorem State.HasInHand.exec_readWindow {s : State} {payload : List Byte} {r : Request} (h : s.HasInHand 0x15 payload r) :
    exec .readWindow s = .next (s.conclude r (some (s.ownReadWindow payload))) := by
  have running : exec .readWindow s = .next (s.serveAll 0x15 s.ownReadWindow) :=
    h.running fun s => s.serveAll 0x15 s.ownReadWindow
  rw [running, h.serveAll]

theorem State.ownReadWindow_of_lt (s : State) {b : Byte} (h : b.toNat < 24) :
    s.ownReadWindow [b] = .done .ok (s.window ⟨b.toNat, h⟩).bytes s := by
  simp [State.ownReadWindow, index?_of_lt h]

theorem State.ownReadWindow_of_le (s : State) {b : Byte} (h : 24 ≤ b.toNat) : s.ownReadWindow [b] = .refuse .range := by
  simp [State.ownReadWindow, index?_of_le h]

/-- Settles O40: the owner's decision on each index; the record's bytes are the layout of R175. -/
theorem readWindowReturnsRecord : Obligations.ReadWindowReturnsRecord := by
  intro s r b inHand
  rw [inHand.exec_readWindow]
  constructor
  case left =>
    intro h w
    rw [s.ownReadWindow_of_lt h, State.conclude_done]
    rfl
  case right =>
    intro h
    rw [s.ownReadWindow_of_le h, State.conclude_refuse]
    rfl

end Sys2Proof.Machine
end

section
/-! PROOF of the obligation on WRITE_WINDOW's checks and its replacing of a configuration (R28, R29): when each field of the
request decodes, and to what. -/

namespace Sys2Proof.Machine

/-! ## The fields of a WRITE_WINDOW in their ranges (R28) -/

theorem index?_isSome_iff {n : Nat} {b : Byte} : (index? n b).isSome ↔ b.toNat < n := by
  by_cases h : b.toNat < n
  · simp [index?_of_lt h, h]
  · simp [index?_of_le (Nat.le_of_not_lt h), h]

theorem indexOrNone?_isSome_iff {n : Nat} {b : Byte} : (indexOrNone? n b).isSome ↔ b = 0xFF ∨ b.toNat < n := by
  by_cases hb : b = 0xFF
  · subst hb
    simp only [indexOrNone?_absent, Option.isSome_some, true_or]
  · rw [indexOrNone?, if_neg hb, Option.isSome_map, index?_isSome_iff, or_iff_right hb]

theorem between?_isSome_iff {lo hi : Nat} {b : Byte} : (between? lo hi b).isSome ↔ lo ≤ b.toNat ∧ b.toNat ≤ hi := by
  simp [between?]

theorem flag?_isSome_iff {b : Byte} : (flag? b).isSome ↔ b.toNat ≤ 1 := by revert b; decide
theorem spaceFilter?_isSome_iff {b : Byte} : (spaceFilter? b).isSome ↔ b.toNat ≤ 3 := by revert b; decide
theorem directionFilter?_isSome_iff {b : Byte} : (directionFilter? b).isSome ↔ b.toNat ≤ 2 := by revert b; decide
theorem action?_isSome_iff {b : Byte} : (action? b).isSome ↔ b.toNat ≤ 3 := by revert b; decide

/-- An index or NONE as its byte names it. -/
theorem indexOrNone?_eq_some {n : Nat} {b : Byte} {x : Option (Fin n)}
    (h : x.map (·.val) = if b = 0xFF then none else some b.toNat) : indexOrNone? n b = some x := by
  by_cases hb : b = 0xFF
  · obtain rfl : x = none := by rwa [if_pos hb, Option.map_eq_none_iff] at h
    rw [hb, indexOrNone?_absent]
  · obtain ⟨i, rfl, hi⟩ : ∃ i, x = some i ∧ i.val = b.toNat := by
      rwa [if_neg hb, Option.map_eq_some_iff] at h
    rw [indexOrNone?_of_lt hb (hi ▸ i.isLt), Option.some_inj, Option.some_inj]
    exact Fin.ext hi.symm

/-- The two values of a flag. -/
theorem eq_zero_or_one_of_toNat_le {b : Byte} (h : b.toNat ≤ 1) : b = 0 ∨ b = 1 := by revert h; revert b; decide

theorem requesterSet?_of_le {presence lo hi : Byte} (h : presence.toNat ≤ 1) :
    requesterSet? presence lo hi = some (if presence = 1 then some (hi ++ lo) else none) := by
  rcases eq_zero_or_one_of_toNat_le h with rfl | rfl <;> rfl

theorem requesterSet?_of_lt {presence lo hi : Byte} (h : 2 ≤ presence.toNat) : requesterSet? presence lo hi = none := by
  have not_absent : presence ≠ 0 := by rintro rfl; exact absurd h (by decide)
  have not_present : presence ≠ 1 := by rintro rfl; exact absurd h (by decide)
  rw [requesterSet?, if_neg not_absent, if_neg not_present]

theorem requesterSet?_isSome_iff {presence lo hi : Byte} :
    (requesterSet? presence lo hi).isSome ↔ presence.toNat ≤ 1 := by
  by_cases h : presence.toNat ≤ 1
  · simp [requesterSet?_of_le h, h]
  · simp [requesterSet?_of_lt (Nat.lt_of_not_le h), h]

theorem bytes_append_eq_zero_iff {lo hi : Byte} : hi ++ lo = (0 : BitVec 16) ↔ lo = 0 ∧ hi = 0 := by
  constructor
  · intro h
    have low := congrArg (BitVec.setWidth 8) h
    have high := congrArg (BitVec.extractLsb' 8 8) h
    rw [BitVec.setWidth_append_eq_right] at low
    rw [BitVec.extractLsb'_append_eq_left] at high
    exact ⟨low, high⟩
  · rintro ⟨rfl, rfl⟩
    rfl

/-- The requester set is present and contains no tag. -/
theorem requesters_eq_empty_iff {presence lo hi : Byte} :
    (if presence = 1 then some (hi ++ lo) else none) = some (0 : BitVec 16) ↔ presence = 1 ∧ lo = 0 ∧ hi = 0 := by
  by_cases h : presence = 1
  · rw [if_pos h, Option.some_inj, bytes_append_eq_zero_iff, and_iff_right h]
  · simp only [h, if_false, reduceCtorEq, false_and]

/-! ## The configuration a WRITE_WINDOW carries -/

/-- The decoded configuration, field by field. -/
theorem windowConfig?_eq_some_iff {payload : List Byte} {c : WindowConfig} :
    windowConfig? payload = some c ↔
      flag? (payload.getD 1 0) = some c.enabled ∧ spaceFilter? (payload.getD 2 0) = some c.space ∧
      word32 (payload.getD 3 0) (payload.getD 4 0) (payload.getD 5 0) (payload.getD 6 0) = c.base ∧
      between? 0 32 (payload.getD 7 0) = some c.span ∧ directionFilter? (payload.getD 8 0) = some c.direction ∧
      requesterSet? (payload.getD 9 0) (payload.getD 10 0) (payload.getD 11 0) = some c.requesters ∧
      indexOrNone? 16 (payload.getD 12 0) = some c.cls ∧ action? (payload.getD 13 0) = some c.action := by
  constructor
  · intro decoded
    simp only [windowConfig?, Option.bind_eq_bind, Option.bind_eq_some_iff, Option.some_inj] at decoded
    obtain ⟨_, enabled, _, space, _, span, _, direction, _, requesters, _, cls, _, action, rfl⟩ := decoded
    exact ⟨enabled, space, rfl, span, direction, requesters, cls, action⟩
  · rintro ⟨enabled, space, base, span, direction, requesters, cls, action⟩
    simp only [windowConfig?, enabled, space, base, span, direction, requesters, cls, action, Option.bind_eq_bind,
      Option.bind_some]

/-- A WRITE_WINDOW's configuration decodes where every field of it is in its range. -/
theorem windowConfig?_isSome_iff {payload : List Byte} :
    (windowConfig? payload).isSome ↔
      (payload.getD 1 0).toNat ≤ 1 ∧ (payload.getD 2 0).toNat ≤ 3 ∧ (payload.getD 7 0).toNat ≤ 32 ∧
      (payload.getD 8 0).toNat ≤ 2 ∧ (payload.getD 9 0).toNat ≤ 1 ∧
      (payload.getD 12 0 = 0xFF ∨ (payload.getD 12 0).toNat < 16) ∧ (payload.getD 13 0).toNat ≤ 3 := by
  rw [Option.isSome_iff_exists]
  constructor
  · rintro ⟨c, decoded⟩
    obtain ⟨enabled, space, -, span, direction, requesters, cls, action⟩ := windowConfig?_eq_some_iff.1 decoded
    exact ⟨flag?_isSome_iff.1 (Option.isSome_of_eq_some enabled), spaceFilter?_isSome_iff.1 (Option.isSome_of_eq_some space),
      (between?_isSome_iff.1 (Option.isSome_of_eq_some span)).2,
      directionFilter?_isSome_iff.1 (Option.isSome_of_eq_some direction),
      requesterSet?_isSome_iff.1 (Option.isSome_of_eq_some requesters),
      indexOrNone?_isSome_iff.1 (Option.isSome_of_eq_some cls), action?_isSome_iff.1 (Option.isSome_of_eq_some action)⟩
  · rintro ⟨hen, hsf, hk, hdir, hrp, hcl, hact⟩
    obtain ⟨enabled, enabledFlag⟩ := Option.isSome_iff_exists.1 (flag?_isSome_iff.2 hen)
    obtain ⟨space, spaceCode⟩ := Option.isSome_iff_exists.1 (spaceFilter?_isSome_iff.2 hsf)
    obtain ⟨direction, directionCode⟩ := Option.isSome_iff_exists.1 (directionFilter?_isSome_iff.2 hdir)
    obtain ⟨cls, classIndex⟩ := Option.isSome_iff_exists.1 (indexOrNone?_isSome_iff.2 hcl)
    obtain ⟨action, actionCode⟩ := Option.isSome_iff_exists.1 (action?_isSome_iff.2 hact)
    exact ⟨⟨enabled, space, _, _, direction, _, cls, action⟩, windowConfig?_eq_some_iff.2 ⟨enabledFlag, spaceCode, rfl,
      between?_of_mem ⟨Nat.zero_le _, hk⟩, directionCode, requesterSet?_of_le hrp, classIndex, actionCode⟩⟩

/-! ## The owner's decision (R28, R29) -/

/-- WRITE_WINDOW answers as the Match Unit decides on its payload (R28). -/
theorem State.HasInHand.exec_writeWindow {s : State} {payload : List Byte} {r : Request} (h : s.HasInHand 0x14 payload r) :
    exec .writeWindow s = .next (s.conclude r (some (s.ownWriteWindow payload))) := by
  have running : exec .writeWindow s = .next (s.serveAll 0x14 s.ownWriteWindow) :=
    h.running fun s => s.serveAll 0x14 s.ownWriteWindow
  rw [running, h.serveAll]

section Decision
variable (s : State) {payload : List Byte} {w : WindowId} {config : WindowConfig} {clear : Bool}

/-- A WRITE_WINDOW of which a field does not decode is refused with RANGE. -/
theorem State.ownWriteWindow_range
    (h : ¬ ((index? 24 (payload.getD 0 0)).isSome ∧ (windowConfig? payload).isSome ∧ (flag? (payload.getD 14 0)).isSome)) :
    s.ownWriteWindow payload = .refuse .range := by
  unfold State.ownWriteWindow
  split
  next hw hconfig hclear => exact absurd ⟨by rw [hw]; rfl, by rw [hconfig]; rfl, by rw [hclear]; rfl⟩ h
  next => rfl

/-- A WRITE_WINDOW whose fields decode is refused with EMPTY_SET for a set without tags. -/
theorem State.ownWriteWindow_emptySet (hconfig : windowConfig? payload = some config)
    (hw : index? 24 (payload.getD 0 0) = some w) (hclear : flag? (payload.getD 14 0) = some clear)
    (empty : config.requesters = some 0) : s.ownWriteWindow payload = .refuse .emptySet := by
  rw [State.ownWriteWindow, hw, hconfig, hclear]
  exact if_pos empty

/-- Any other WRITE_WINDOW whose fields decode replaces the configuration, arms the window, and clears under its flag. -/
theorem State.ownWriteWindow_done (hconfig : windowConfig? payload = some config)
    (hw : index? 24 (payload.getD 0 0) = some w) (hclear : flag? (payload.getD 14 0) = some clear)
    (tagged : config.requesters ≠ some 0) :
    s.ownWriteWindow payload =
      .done .ok (bytesOf 2 (s.window w).hits)
        (s.setWindow w { config := config, armed := true, hits := if clear then 0 else (s.window w).hits }) := by
  rw [State.ownWriteWindow, hw, hconfig, hclear]
  exact if_neg tagged

end Decision

/-- Settles O44: a field out of range, an empty set, and the replacement, each by what the payload's fields decode to. -/
theorem writeWindowReplacesConfiguration : Obligations.WriteWindowReplacesConfiguration := by
  intro s r b en sf b0 b1 b2 b3 k dir rp q0 q1 cl act clr inHand inRange emptySet
  rw [inHand.exec_writeWindow]
  refine ⟨?outOfRange, ?empty, ?replaces⟩
  case outOfRange =>
    intro out
    rw [s.ownWriteWindow_range, State.conclude_refuse]
    · rfl
    · rintro ⟨window, config, clear⟩
      obtain ⟨hen, hsf, hk, hdir, hrp, hcl, hact⟩ := windowConfig?_isSome_iff.1 config
      exact out ⟨index?_isSome_iff.1 window, hen, hsf, hk, hdir, hrp, hcl, hact, flag?_isSome_iff.1 clear⟩
  case empty =>
    rintro ⟨hb, hen, hsf, hk, hdir, hrp, hcl, hact, hclr⟩ noTag
    obtain ⟨config, decoded⟩ := Option.isSome_iff_exists.1
      (windowConfig?_isSome_iff (payload := [b, en, sf, b0, b1, b2, b3, k, dir, rp, q0, q1, cl, act, clr, 0]).2
        ⟨hen, hsf, hk, hdir, hrp, hcl, hact⟩)
    obtain ⟨-, -, -, -, -, requesters, -, -⟩ := windowConfig?_eq_some_iff.1 decoded
    have empty : config.requesters = some 0 :=
      (Option.some_inj.1 (requesters.symm.trans (requesterSet?_of_le hrp))).trans (requesters_eq_empty_iff.2 noTag)
    rw [s.ownWriteWindow_emptySet decoded (index?_of_lt hb) (flag?_of_le hclr) empty, State.conclude_refuse]
    rfl
  case replaces =>
    rintro hb ⟨-, hen, -, hk, -, hrp, -, -, hclr⟩ someTag c enabled rfl base span rfl requesters cls rfl w
    have decoded :
        windowConfig? [b, en, c.space.code, b0, b1, b2, b3, k, c.direction.code, rp, q0, q1, cl, c.action.code, clr, 0] =
          some c :=
      windowConfig?_eq_some_iff.2 ⟨enabled ▸ flag?_of_le hen, spaceFilter?_code _, base.symm,
        span ▸ between?_of_mem ⟨Nat.zero_le _, hk⟩, directionFilter?_code _, requesters ▸ requesterSet?_of_le hrp,
        indexOrNone?_eq_some cls, action?_code _⟩
    have tagged : c.requesters ≠ some 0 := requesters ▸ mt requesters_eq_empty_iff.1 someTag
    rw [s.ownWriteWindow_done decoded (index?_of_lt hb) (flag?_of_le hclr) tagged, State.conclude_done]
    simp only [decide_eq_true_eq]
    rfl

end Sys2Proof.Machine
end

section
/-! PROOF of the obligation on the comparison depth (R60): its table, the expiries ignored for want of one, and its place in the
domain record (R176). -/

namespace Sys2Proof.Machine

/-- A domain without a comparison depth ignores every expiry (R60, R62). -/
theorem State.takeExpiry_of_no_depth {s : State} {d : DomainId} (h : (s.dom d).state.comparisonDepth = none) (count : Nat) :
    s.takeExpiry d count = s := by
  rw [State.takeExpiry, h]

@[simp] theorem bytesOf_length (n v : Nat) : (bytesOf n v).length = n := by
  induction n generalizing v with
  | zero => rfl
  | succ n ih => rw [bytesOf, List.length_cons, ih]

/-- The ladder fills its three positions of the record, whatever its rung count (R171). -/
@[simp] theorem rungBytes_length (ladder : List Rung) : (rungBytes ladder).length = 3 := by
  simp [rungBytes]

/-- The comparison depth stands at position 25 of the domain record (R176). -/
theorem State.domainPart_comparisonDepth (s : State) (d : DomainId) :
    (s.domainPart d)[25]? = some (depthByte (s.dom d).state.comparisonDepth) := by
  simp [State.domainPart, List.getElem?_append]

/-- Settles O26: the table state by state, and what a missing depth means for expiries and for the record. -/
theorem comparisonDepthTable : Obligations.ComparisonDepthTable := by
  intro s d
  refine ⟨?table, State.takeExpiry_of_no_depth, ?record⟩
  case table =>
    cases (s.dom d).state with
    | quiescing target step deadline => cases target <;> rfl
    | settling target step delay => cases target <;> rfl
    | _ => rfl
  case record =>
    rw [s.domainPart_comparisonDepth d]
    rfl

end Sys2Proof.Machine
end

section
/-! PROOF of the obligation on WRITE_DOMAIN's two steps of checks and its replacing of a configuration (R77, R78): when each field
of the request is in its range, and the ladder that its depth codes spell. -/

namespace Sys2Proof.Machine

/-! ## The fields of a WRITE_DOMAIN in their ranges (the first step of R77) -/

theorem delay?_isSome_iff {b : Byte} : (delay? b).isSome ↔ b.toNat ≤ 3 := by revert b; decide

/-- A length of 1 to 255 is any byte but 0. -/
theorem between?_length_isSome_iff {b : Byte} : (between? 1 255 b).isSome ↔ b ≠ 0 := by revert b; decide

theorem between?_length_of_ne_zero {b : Byte} (h : b ≠ 0) : between? 1 255 b = some b.toNat :=
  between?_of_mem (between?_isSome_iff.1 (between?_length_isSome_iff.2 h))

/-- Bytes all in their range are the numbers they name, and one out of range spoils them all. -/
theorem mapM_between?_eq_some_iff {lo hi : Nat} {bytes : List Byte} {values : List Nat} :
    bytes.mapM (between? lo hi) = some values ↔
      (∀ b ∈ bytes, lo ≤ b.toNat ∧ b.toNat ≤ hi) ∧ bytes.map BitVec.toNat = values := by
  induction bytes generalizing values with
  | nil => simp
  | cons b rest ih =>
    by_cases hb : lo ≤ b.toNat ∧ b.toNat ≤ hi
    · simp [between?_of_mem hb, hb, ih, Option.bind_eq_some_iff]
    · simp [between?_of_not_mem hb, hb]

/-- The depths of a WRITE_DOMAIN are its first rung positions, as many as its rung count (R171). -/
theorem rungCodes?_eq_some_iff {b bt n r1 r2 r3 : Byte} {rest : List Byte} {depths : List Nat} :
    rungCodes? (b :: bt :: n :: r1 :: r2 :: r3 :: rest) = some depths ↔
      n.toNat ≤ 3 ∧ (∀ k ∈ ([r1, r2, r3].take n.toNat).map BitVec.toNat, k ≤ 3) ∧
      ([r1, r2, r3].take n.toNat).map BitVec.toNat = depths := by
  by_cases hn : n.toNat ≤ 3
  · have rungs : (r1 :: r2 :: r3 :: rest).take n.toNat = [r1, r2, r3].take n.toNat :=
      List.take_append_of_le_length (l₁ := [r1, r2, r3]) hn
    simp only [rungCodes?, List.getD_cons_succ, List.getD_cons_zero, List.drop_succ_cons, List.drop_zero,
      between?_of_mem (And.intro n.toNat.zero_le hn), Option.bind_eq_bind, Option.bind_some, rungs, mapM_between?_eq_some_iff,
      List.forall_mem_map, Nat.zero_le, true_and, hn]
  · simp [rungCodes?, between?_of_not_mem (mt And.right hn), hn]

/-- The decoded configuration but for its ladder, field by field. -/
theorem domainConfig?_eq_some_iff {payload : List Byte} {c : DomainConfig} :
    domainConfig? payload = some { c with ladder := [] } ↔
      indexOrNone? 8 (payload.getD 1 0) = some c.boundTimer ∧ word16 (payload.getD 6 0) (payload.getD 7 0) = c.wakeSet ∧
      between? 1 255 (payload.getD 8 0) = some c.throttleOn ∧ between? 1 255 (payload.getD 9 0) = some c.throttleOff ∧
      between? 1 255 (payload.getD 10 0) = some c.quiesceDeadline ∧ delay? (payload.getD 11 0) = some c.stopDelay ∧
      between? 1 255 (payload.getD 12 0) = some c.powerOffDeadline ∧
      between? 1 255 (payload.getD 13 0) = some c.powerOnDeadline ∧ delay? (payload.getD 14 0) = some c.resumeDelay := by
  constructor
  · intro decoded
    simp only [domainConfig?, Option.bind_eq_bind, Option.bind_eq_some_iff, Option.some_inj, DomainConfig.mk.injEq] at decoded
    obtain ⟨_, bound, _, on, _, off, _, quiesce, _, stop, _, powerOff, _, powerOn, _, resume, rfl, -, wake, rfl, rfl, rfl,
      rfl, rfl, rfl, rfl⟩ := decoded
    exact ⟨bound, wake, on, off, quiesce, stop, powerOff, powerOn, resume⟩
  · rintro ⟨bound, wake, on, off, quiesce, stop, powerOff, powerOn, resume⟩
    simp only [domainConfig?, bound, wake, on, off, quiesce, stop, powerOff, powerOn, resume, Option.bind_eq_bind,
      Option.bind_some]

/-- A WRITE_DOMAIN's configuration decodes where every field of it but the ladder is in its range. -/
theorem domainConfig?_isSome_iff {payload : List Byte} :
    (domainConfig? payload).isSome ↔
      (payload.getD 1 0 = 0xFF ∨ (payload.getD 1 0).toNat < 8) ∧ payload.getD 8 0 ≠ 0 ∧ payload.getD 9 0 ≠ 0 ∧
      payload.getD 10 0 ≠ 0 ∧ (payload.getD 11 0).toNat ≤ 3 ∧ payload.getD 12 0 ≠ 0 ∧ payload.getD 13 0 ≠ 0 ∧
      (payload.getD 14 0).toNat ≤ 3 := by
  simp only [← indexOrNone?_isSome_iff, ← delay?_isSome_iff, ← between?_length_isSome_iff, domainConfig?,
    Option.bind_eq_bind, Option.isSome_bind, Option.any_eq_true, Option.isSome_some]
  simp only [Option.isSome_iff_exists, and_true, exists_and_right]

/-! ## The ladder (the second step of R77) -/

theorem rungOf?_eq_some_iff {depth : Nat} {rung : Rung} : rungOf? depth = some rung ↔ rung.depth = depth := by
  constructor
  · unfold rungOf?
    split <;> rintro ⟨⟩ <;> rfl
  · rintro rfl
    cases rung <;> rfl

/-- The first rung is deeper than the depth before it, and the others make a ladder below it. -/
theorem ladder?_cons_eq_some_iff {above depth : Nat} {rest : List Nat} {ladder : List Rung} :
    ladder? above (depth :: rest) = some ladder ↔
      above < depth ∧ ∃ rung rungs, ladder = rung :: rungs ∧ rungOf? depth = some rung ∧ ladder? depth rest = some rungs := by
  rw [ladder?]
  by_cases deeper : above < depth
  · rw [if_pos deeper, and_iff_right deeper]
    cases rungOf? depth <;> cases ladder? depth rest <;> simp [eq_comm]
  · simp only [deeper, if_false, reduceCtorEq, false_and]

/-- Depths make a ladder where they grow strictly from the depth they begin at; the ladder's rungs then have those depths. -/
theorem ladder?_eq_some_iff {above : Nat} {depths : List Nat} {ladder : List Rung} :
    ladder? above depths = some ladder ↔ (above :: depths).IsChain (· < ·) ∧ ladder.map Rung.depth = depths := by
  induction depths generalizing above ladder with
  | nil => simp [ladder?, eq_comm]
  | cons depth rest ih =>
    simp only [ladder?_cons_eq_some_iff, rungOf?_eq_some_iff, ih, List.isChain_cons_cons, List.map_eq_cons_iff]
    constructor
    · rintro ⟨deeper, rung, rungs, rfl, top, chain, below⟩
      exact ⟨⟨deeper, chain⟩, rung, rungs, rfl, top, below⟩
    · rintro ⟨⟨deeper, chain⟩, rung, rungs, rfl, top, below⟩
      exact ⟨deeper, rung, rungs, rfl, top, chain, below⟩

/-! ## The owner's decision (R77, R78) -/

/-- WRITE_DOMAIN answers as the Domain Governor decides on its payload (R77). -/
theorem State.HasInHand.exec_writeDomain {s : State} {payload : List Byte} {r : Request} (h : s.HasInHand 0x28 payload r) :
    exec .writeDomain s = .next (s.conclude r (some (s.ownWriteDomain payload))) := by
  have running : exec .writeDomain s = .next (s.serveAll 0x28 s.ownWriteDomain) :=
    h.running fun s => s.serveAll 0x28 s.ownWriteDomain
  rw [running, h.serveAll]

section Decision
variable (s : State) {payload : List Byte} {d : DomainId} {c : DomainConfig} {depths : List Nat}

/-- A WRITE_DOMAIN of which a field does not decode is refused with RANGE. -/
theorem State.ownWriteDomain_range
    (h : ¬ ((index? 6 (payload.getD 0 0)).isSome ∧ (domainConfig? payload).isSome ∧ (rungCodes? payload).isSome)) :
    s.ownWriteDomain payload = .refuse .range := by
  unfold State.ownWriteDomain
  split
  next hd hconfig hrungs => exact absurd ⟨by rw [hd]; rfl, by rw [hconfig]; rfl, by rw [hrungs]; rfl⟩ h
  next => rfl

/-- A WRITE_DOMAIN whose fields decode is refused with ORDER where its depths make no ladder. -/
theorem State.ownWriteDomain_order (hd : (index? 6 (payload.getD 0 0)).isSome) (hconfig : (domainConfig? payload).isSome)
    (hrungs : rungCodes? payload = some depths) (unordered : ¬ (0 :: depths).Pairwise (· < ·)) :
    s.ownWriteDomain payload = .refuse .order := by
  obtain ⟨d, hd⟩ := Option.isSome_iff_exists.1 hd
  obtain ⟨config, hconfig⟩ := Option.isSome_iff_exists.1 hconfig
  have no_ladder : ladder? 0 depths = none :=
    Option.eq_none_iff_forall_ne_some.2 fun _ made => unordered (List.isChain_iff_pairwise.1 (ladder?_eq_some_iff.1 made).1)
  simp only [State.ownWriteDomain, hd, hconfig, hrungs, no_ladder]

/-- Any other WRITE_DOMAIN whose fields decode replaces the configuration, and the domain's record is its reply. -/
theorem State.ownWriteDomain_done (hconfig : domainConfig? payload = some { c with ladder := [] })
    (hd : index? 6 (payload.getD 0 0) = some d)
    (hrungs : rungCodes? payload = some (c.ladder.map Rung.depth))
    (ordered : (0 :: c.ladder.map Rung.depth).Pairwise (· < ·)) :
    let after := s.setDom d { s.dom d with config := c }
    s.ownWriteDomain payload = .done .ok (after.domainPart d) after := by
  have ladder : ladder? 0 (c.ladder.map Rung.depth) = some c.ladder :=
    ladder?_eq_some_iff.2 ⟨List.isChain_iff_pairwise.2 ordered, rfl⟩
  simp only [State.ownWriteDomain, hd, hconfig, hrungs, ladder]

end Decision

/-- Settles O39: a field out of range, a disordered ladder, and the replacement, each by what the payload's fields decode to. -/
theorem writeDomainReplacesConfiguration : Obligations.WriteDomainReplacesConfiguration := by
  intro s r b bt n r1 r2 r3 w0 w1 on off qd sd pfd pnd rd inHand rungs inRange
  rw [inHand.exec_writeDomain]
  refine ⟨?outOfRange, ?disordered, ?replaces⟩
  case outOfRange =>
    intro out
    rw [s.ownWriteDomain_range, State.conclude_refuse]
    · rfl
    · rintro ⟨domain, config, ladder⟩
      obtain ⟨hbt, hon, hoff, hqd, hsd, hpfd, hpnd, hrd⟩ := domainConfig?_isSome_iff.1 config
      obtain ⟨_, depths⟩ := Option.isSome_iff_exists.1 ladder
      obtain ⟨hn, hrungs, -⟩ := rungCodes?_eq_some_iff.1 depths
      exact out ⟨index?_isSome_iff.1 domain, hbt, hn, hrungs, hon, hoff, hqd, hpfd, hpnd, hsd, hrd⟩
  case disordered =>
    rintro ⟨hb, hbt, hn, hrungs, hon, hoff, hqd, hpfd, hpnd, hsd, hrd⟩ unordered
    rw [s.ownWriteDomain_order (payload := [b, bt, n, r1, r2, r3, w0, w1, on, off, qd, sd, pfd, pnd, rd, 0])
      (index?_isSome_iff.2 hb) (domainConfig?_isSome_iff.2 ⟨hbt, hon, hoff, hqd, hsd, hpfd, hpnd, hrd⟩)
      (rungCodes?_eq_some_iff.2 ⟨hn, hrungs, rfl⟩) unordered, State.conclude_refuse]
    rfl
  case replaces =>
    rintro hb ⟨-, -, hn, hrungs, hon, hoff, hqd, hpfd, hpnd, -, -⟩ ordered c bound ladder wake onTime offTime quiesce rfl
      powerOff powerOn rfl after
    have decoded :
        domainConfig? [b, bt, n, r1, r2, r3, w0, w1, on, off, qd, c.stopDelay.code, pfd, pnd, c.resumeDelay.code, 0] =
          some { c with ladder := [] } :=
      domainConfig?_eq_some_iff.2 ⟨indexOrNone?_eq_some bound, wake.symm, onTime ▸ between?_length_of_ne_zero hon,
        offTime ▸ between?_length_of_ne_zero hoff, quiesce ▸ between?_length_of_ne_zero hqd, delay?_code _,
        powerOff ▸ between?_length_of_ne_zero hpfd, powerOn ▸ between?_length_of_ne_zero hpnd, delay?_code _⟩
    rw [s.ownWriteDomain_done decoded (index?_of_lt hb) (rungCodes?_eq_some_iff.2 ⟨hn, hrungs, ladder.symm⟩)
      (ladder ▸ ordered), State.conclude_done]
    rfl

end Sys2Proof.Machine
end

section
/-! PROOF of the obligation on FORCE (R73, R74): its checks in their order, and where the wake or the step that it is leaves the
domain. -/

namespace Sys2Proof.Machine

/-! ## The checks of FORCE (R73) -/

/-- FORCE_ACTIVE answers as the Domain Governor decides on its payload. -/
theorem State.HasInHand.exec_forceActive {s : State} {payload : List Byte} {r : Request} (h : s.HasInHand 0x2B payload r) :
    exec .forceActive s = .next (s.conclude r (s.ownForceActive payload)) := by
  have running : exec .forceActive s = .next (s.serve 0x2B s.ownForceActive) := h.running fun s => s.serve 0x2B s.ownForceActive
  rw [running, h.serve]

/-- FORCE answers as the Domain Governor decides on its payload. -/
theorem State.HasInHand.exec_force {s : State} {payload : List Byte} {r : Request} (h : s.HasInHand 0x2B payload r) :
    exec .force s = .next (s.conclude r (s.ownForce payload)) := by
  have running : exec .force s = .next (s.serve 0x2B s.ownForce) := h.running fun s => s.serve 0x2B s.ownForce
  rw [running, h.serve]

theorem Domain.forceBarred_of_free {x : Domain} (notRetired : ∀ b, x.state ≠ .retired b)
    (notFaulted : ∀ f b, x.state ≠ .faulted f b) : x.forceBarred = none := by
  unfold Domain.forceBarred
  split
  next retired => exact absurd retired (notRetired _)
  next faulted => exact absurd faulted (notFaulted _ _)
  all_goals rfl

/-- A settled domain is neither FAULTED nor RETIRED. -/
theorem Domain.forceBarred_of_settled {x : Domain} (h : x.state.settledDepth.isSome) : x.forceBarred = none :=
  Domain.forceBarred_of_free (fun _ retired => by rw [retired] at h; cases h)
    (fun _ _ faulted => by rw [faulted] at h; cases h)

section Checks
variable (s : State) {d : DomainId} {target : Rung} {b k : Byte}

theorem State.ownForceActive_barred (hb : b.toNat < 6) {reason : Reason}
    (barred : (s.dom ⟨b.toNat, hb⟩).forceBarred = some reason) : s.ownForceActive [b, 0] = some (.refuse reason) := by
  simp [State.ownForceActive, index?_of_lt hb, barred]

theorem State.ownForceActive_wakes (hb : b.toNat < 6) (free : (s.dom ⟨b.toNat, hb⟩).forceBarred = none) :
    s.ownForceActive [b, 0] = some (forceVerdict (s.wake ⟨b.toNat, hb⟩ .host) ⟨b.toNat, hb⟩) := by
  simp [State.ownForceActive, index?_of_lt hb, free]

theorem State.ownForceActive_range (hb : 6 ≤ b.toNat) : s.ownForceActive [b, 0] = some (.refuse .range) := by
  simp [State.ownForceActive, index?_of_le hb]

theorem State.ownForce_of_lt (hb : b.toNat < 6) (hk : k ≠ 0) (named : rungOf? k.toNat = some target) :
    s.ownForce [b, k] = some (s.ownForceDeeper ⟨b.toNat, hb⟩ target) := by
  rw [State.ownForce, if_neg (show ¬ [b, k].getD 1 0 = 0 from hk)]
  simp only [List.getD_cons_succ, List.getD_cons_zero, index?_of_lt hb, named]

theorem rungOf?_of_le {depth : Nat} (h : 4 ≤ depth) : rungOf? depth = none := by
  refine Option.eq_none_iff_forall_ne_some.2 fun rung named => ?_
  have shallow : rung.depth ≤ 3 := by cases rung <;> decide
  rw [rungOf?_eq_some_iff.1 named] at shallow
  omega

theorem State.ownForce_range (hk : k ≠ 0) (out : 4 ≤ k.toNat ∨ 6 ≤ b.toNat) : s.ownForce [b, k] = some (.refuse .range) := by
  rw [State.ownForce, if_neg (show ¬ [b, k].getD 1 0 = 0 from hk)]
  rcases out with beyond | beyond
  · simp [rungOf?_of_le beyond]
  · simp [index?_of_le beyond]

theorem State.ownForceDeeper_barred {reason : Reason} (barred : (s.dom d).forceBarred = some reason) :
    s.ownForceDeeper d target = .refuse reason := by
  rw [State.ownForceDeeper, barred]

theorem State.ownForceDeeper_busy (free : (s.dom d).forceBarred = none) (unsettled : (s.dom d).state.settledDepth = none) :
    s.ownForceDeeper d target = .refuse .busy := by
  rw [State.ownForceDeeper, free, unsettled]

/-- The checks that a settled domain's FORCE has still to pass: the hold flag, and the order of depths. -/
theorem State.ownForceDeeper_settled {depth : Nat} (settled : (s.dom d).state.settledDepth = some depth) :
    s.ownForceDeeper d target =
      if (s.dom d).hold = true then .refuse .held
      else if target.depth < depth then .refuse .order
      else forceVerdict (s.forceDeeper d target) d := by
  rw [State.ownForceDeeper, Domain.forceBarred_of_settled (settled ▸ rfl), settled]

end Checks

/-! ## The step and its reply (R74) -/

/-- The reply of an accepted FORCE, by the state it leaves the domain in. -/
theorem State.conclude_forceVerdict (s after : State) (r : Request) {d : DomainId} {left : DomainState}
    (h : (after.dom d).state = left) :
    s.conclude r (some (forceVerdict after d)) = after.answer r [left.settledStatus.code, 0, left.code] false := by
  rw [forceVerdict, h, State.conclude_done]

theorem DomainState.settledStatus_code (x : DomainState) :
    x.settledStatus.code = match x with
      | .active | .throttled _ _ | .standby | .off => 0
      | _ => 1 := by
  cases x <;> rfl

section Entries
variable (s : State) (d : DomainId)

theorem State.enterThrottled_state (c : Cause) :
    ((s.enterThrottled d c).dom d).state = .throttled .onPhase (s.dom d).config.throttleOn := by
  simp [State.enterThrottled, State.reportDomain]

theorem State.enterQuiescing_state (target : Target) (c : Cause) :
    ((s.enterQuiescing d target c).dom d).state = .quiescing target c (s.dom d).config.quiesceDeadline := by
  simp [State.enterQuiescing]

/-- With PGOOD high a power-down waits for it to fall (R94). -/
theorem State.enterPoweringDown_of_pgood (c : Cause) (h : (s.dom d).pgood = true) :
    s.enterPoweringDown d c = s.setDomState d (.poweringDown c (s.dom d).config.powerOffDeadline false) := by
  simp [State.enterPoweringDown, h]

/-- With PGOOD low a power-down is over in the event that begins it (R94). -/
theorem State.enterPoweringDown_of_not_pgood (c : Cause) (h : ¬ (s.dom d).pgood = true) :
    s.enterPoweringDown d c = (s.setDomState d .off).reportDomain d .off c := by
  simp [State.enterPoweringDown, h, State.enterOff]

end Entries

/-- FORCE toward the depth a settled domain is at changes nothing. -/
theorem State.forceDeeper_same {s : State} {d : DomainId} {target : Rung}
    (h : (s.dom d).state.settledDepth = some target.depth) : s.forceDeeper d target = s := by
  unfold State.forceDeeper
  split <;> simp_all [DomainState.settledDepth, Rung.depth]

/-- FORCE of a settled domain under the hold flag is refused with HELD. -/
theorem State.conclude_force_held {s : State} {d : DomainId} {target : Rung} {depth : Nat} (r : Request)
    (settled : (s.dom d).state.settledDepth = some depth) (held : (s.dom d).hold = true) :
    s.conclude r (some (s.ownForceDeeper d target)) = s.answer r [2, 9] false := by
  rw [s.ownForceDeeper_settled settled, if_pos held]
  rfl

section Unheld
variable {s : State} {d : DomainId} {target : Rung} {depth : Nat} (r : Request) (unheld : ¬ (s.dom d).hold = true)
include unheld

/-- FORCE toward a depth above the domain's is refused with ORDER. -/
theorem State.conclude_force_shallower (settled : (s.dom d).state.settledDepth = some depth) (h : target.depth < depth) :
    s.conclude r (some (s.ownForceDeeper d target)) = s.answer r [2, 6] false := by
  rw [s.ownForceDeeper_settled settled, if_neg unheld, if_pos h]
  rfl

/-- FORCE toward the depth the domain is at changes nothing and is OK. -/
theorem State.conclude_force_same {left : DomainState} (state : (s.dom d).state = left)
    (settled : left.settledDepth = some target.depth) :
    s.conclude r (some (s.ownForceDeeper d target)) = s.answer r [0, 0, left.code] false := by
  have ok : left.settledStatus = .ok := by simp [DomainState.settledStatus, settled]
  rw [s.ownForceDeeper_settled (state ▸ settled), if_neg unheld, if_neg (Nat.lt_irrefl _),
    State.forceDeeper_same (state ▸ settled), s.conclude_forceVerdict s r state, ok]
  rfl

/-- FORCE toward a deeper target is the step toward it, and replies with the state it leaves the domain in. -/
theorem State.conclude_force_deeper {after : State} {left : DomainState}
    (settled : (s.dom d).state.settledDepth = some depth) (h : depth < target.depth)
    (step : s.forceDeeper d target = after) (state : (after.dom d).state = left) :
    s.conclude r (some (s.ownForceDeeper d target)) = after.answer r [left.settledStatus.code, 0, left.code] false := by
  rw [s.ownForceDeeper_settled settled, if_neg unheld, if_neg (Nat.lt_asymm h), step, s.conclude_forceVerdict after r state]

/-- From ACTIVE, FORCE to THROTTLED begins a full on-phase. -/
theorem State.conclude_force_throttles (state : (s.dom d).state = .active) :
    s.conclude r (some (s.ownForceDeeper d .throttled)) = (s.enterThrottled d .force).answer r [0, 0, 1] false :=
  State.conclude_force_deeper (depth := 0) r unheld (by rw [state]; rfl) (by decide) (by simp only [State.forceDeeper, state])
    (s.enterThrottled_state d .force)

/-- From ACTIVE and THROTTLED, FORCE to STANDBY and to OFF begins a quiesce. -/
theorem State.conclude_force_quiesces (settled : (s.dom d).state.settledDepth = some depth) (clocked : depth ≤ 1) :
    s.conclude r (some (s.ownForceDeeper d .standby)) = (s.enterQuiescing d .standby .force).answer r [1, 0, 2] false ∧
    s.conclude r (some (s.ownForceDeeper d .off)) = (s.enterQuiescing d .off .force).answer r [1, 0, 2] false := by
  have step :
      s.forceDeeper d .standby = s.enterQuiescing d .standby .force ∧ s.forceDeeper d .off = s.enterQuiescing d .off .force := by
    unfold State.forceDeeper
    cases state : (s.dom d).state with
    | active | throttled => exact ⟨rfl, rfl⟩
    | standby | off =>
      rw [state] at settled
      cases settled
      exact absurd clocked (by decide)
    | _ =>
      rw [state] at settled
      cases settled
  exact ⟨State.conclude_force_deeper r unheld settled (clocked.trans_lt (by decide)) step.1 (s.enterQuiescing_state d _ _),
    State.conclude_force_deeper r unheld settled (clocked.trans_lt (by decide)) step.2 (s.enterQuiescing_state d _ _)⟩

/-- From STANDBY, FORCE to OFF begins a power-down, which PGOOD low ends in the same event. -/
theorem State.conclude_force_powersDown (state : (s.dom d).state = .standby) :
    s.conclude r (some (s.ownForceDeeper d .off)) =
      if (s.dom d).pgood = true then
        (s.setDomState d (.poweringDown .force (s.dom d).config.powerOffDeadline false)).answer r [1, 0, 5] false
      else ((s.setDomState d .off).reportDomain d .off .force).answer r [0, 0, 6] false := by
  have settled : (s.dom d).state.settledDepth = some 2 := by rw [state]; rfl
  have step : s.forceDeeper d .off = s.enterPoweringDown d .force := by simp only [State.forceDeeper, state]
  split
  next high =>
    rw [s.enterPoweringDown_of_pgood d .force high] at step
    exact State.conclude_force_deeper (left := .poweringDown .force (s.dom d).config.powerOffDeadline false) r unheld settled
      (by decide) step (by simp)
  next low =>
    rw [s.enterPoweringDown_of_not_pgood d .force low] at step
    exact State.conclude_force_deeper (left := .off) r unheld settled (by decide) step (by simp [State.reportDomain])

end Unheld

/-- The target codes of FORCE name the rungs. -/
theorem rungOf?_of_code {k : Byte} {target : Rung}
    (h : k = 1 ∧ target = .throttled ∨ k = 2 ∧ target = .standby ∨ k = 3 ∧ target = .off) :
    k ≠ 0 ∧ rungOf? k.toNat = some target := by
  rcases h with ⟨rfl, rfl⟩ | ⟨rfl, rfl⟩ | ⟨rfl, rfl⟩ <;> exact ⟨by decide, rfl⟩

/-- Settles O36: the wake of target ACTIVE, and each settled state's row of steps after the checks common to all. -/
theorem forceMovesDomain : Obligations.ForceMovesDomain := by
  intro s r b
  refine ⟨fun hb => ?inRange, ?activeOutOfRange, ?outOfRange⟩
  case inRange =>
    intro d x
    constructor
    case left =>
      intro inHand after
      rw [inHand.exec_forceActive]
      split
      next retired =>
        rw [s.ownForceActive_barred hb (reason := .retired) (by rw [Domain.forceBarred, retired])]
        rfl
      next faulted =>
        rw [s.ownForceActive_barred hb (reason := .faulted) (by rw [Domain.forceBarred, faulted])]
        rfl
      next notRetired notFaulted =>
        have reply := s.conclude_forceVerdict after r (d := d) rfl
        rw [DomainState.settledStatus_code] at reply
        rw [s.ownForceActive_wakes hb (Domain.forceBarred_of_free notRetired notFaulted)]
        exact congrArg Host.Outcome.next reply
    case right =>
      intro k target inHand code into reported
      obtain ⟨hk, named⟩ := rungOf?_of_code code
      rw [inHand.exec_force, s.ownForce_of_lt hb hk named]
      refine congrArg Host.Outcome.next ?_
      have settled {left : DomainState} (state : x.state = left) : x.state.settledDepth = left.settledDepth := by rw [state]
      cases state : x.state with
      | retired | faulted =>
        rw [s.ownForceDeeper_barred (by rw [Domain.forceBarred, state])]
        rfl
      | quiescing | settling | poweringDown | poweringUp | resuming =>
        rw [s.ownForceDeeper_busy (by rw [Domain.forceBarred, state]) (settled state)]
        rfl
      | active =>
        dsimp only
        split
        next held => exact State.conclude_force_held r (settled state) held
        next unheld =>
          obtain ⟨toStandby, toOff⟩ := State.conclude_force_quiesces r unheld (settled state) (Nat.zero_le 1)
          cases target with
          | throttled => exact State.conclude_force_throttles r unheld state
          | standby => exact toStandby
          | off => exact toOff
      | throttled =>
        dsimp only
        split
        next held => exact State.conclude_force_held r (settled state) held
        next unheld =>
          obtain ⟨toStandby, toOff⟩ := State.conclude_force_quiesces r unheld (settled state) (Nat.le_refl 1)
          cases target with
          | throttled => exact State.conclude_force_same r unheld state rfl
          | standby => exact toStandby
          | off => exact toOff
      | standby =>
        dsimp only
        split
        next held => exact State.conclude_force_held r (settled state) held
        next unheld =>
          cases target with
          | throttled => exact State.conclude_force_shallower r unheld (settled state) (by decide)
          | standby => exact State.conclude_force_same r unheld state rfl
          | off => exact State.conclude_force_powersDown r unheld state
      | off =>
        dsimp only
        split
        next held => exact State.conclude_force_held r (settled state) held
        next unheld =>
          cases target with
          | throttled | standby => exact State.conclude_force_shallower r unheld (settled state) (by decide)
          | off => exact State.conclude_force_same r unheld state rfl
  case activeOutOfRange =>
    intro hb inHand
    rw [inHand.exec_forceActive, s.ownForceActive_range hb]
    rfl
  case outOfRange =>
    intro k hk out inHand
    rw [inHand.exec_force, s.ownForce_range hk out]
    rfl

end Sys2Proof.Machine
end

section
/-! PROOF of the obligations on QACK's edges and on the ends of a domain's deadlines and delays (R87 to R102): what each event
does in the state that takes it and in those that do not, where the stop delay leads, and the levels READ_DOMAIN reports of a
FAULTED domain. -/

namespace Sys2Proof.Machine

/-! ## Entries -/

/-- The end of the stop delay with target OFF: a power-down, which PGOOD low ends in the same event (R91, R94). -/
theorem State.endStopDelay_off (s : State) (d : DomainId) (c : Cause) :
    s.endStopDelay d .off c =
      if (s.dom d).pgood = true then s.setDomState d (.poweringDown c (s.dom d).config.powerOffDeadline false)
      else (s.setDomState d .off).reportDomain d .off c := by
  rw [State.endStopDelay]
  split
  next high => exact s.enterPoweringDown_of_pgood d c high
  next low => exact s.enterPoweringDown_of_not_pgood d c low

/-- The end of the stop delay leads on from whatever state the domain is in. -/
theorem State.setDomState_endStopDelay (s : State) (d : DomainId) (x : DomainState) (target : Target) (c : Cause) :
    (s.setDomState d x).endStopDelay d target c = s.endStopDelay d target c := by
  cases target with
  | standby => simp [State.endStopDelay, State.reportDomain]
  | off => simp [State.endStopDelay_off, State.reportDomain]

/-- A stop delay of 0 ends in the event that begins it, and any other begins to run (R85, R87). -/
theorem State.enterSettling_eq (s : State) (d : DomainId) (target : Target) (c : Cause) :
    s.enterSettling d target c =
      if (s.dom d).config.stopDelay = .zero then s.endStopDelay d target c
      else s.setDomState d (.settling target c (s.dom d).config.stopDelay) := by
  rw [State.enterSettling, State.setDomState_endStopDelay]

/-- Entry to ACTIVE after a report is the entry, with that report before its own. -/
theorem State.report_enterActive (s : State) (r : Report) (d : DomainId) (c : Cause) :
    (s.report r).enterActive d c = ((s.setDomState d .active).report r).reportDomain d .active c := rfl

/-- The end of the resume delay replaces the state and the refusal count, and reports ACTIVE with the last wake cause (R102). -/
theorem State.endResume_eq (s : State) (d : DomainId) :
    s.endResume d = (s.setDom d { s.dom d with state := .active, refusals := 0 }).reportDomain d .active (s.dom d).lastWake := by
  rw [State.endResume, State.enterActive, State.setDom_setDomState]

/-- A first or second refusal in a row: ACTIVE, with a REFUSAL and then a DOMAIN report (R88). -/
theorem State.refuseQuiesce_of_lt (s : State) (d : DomainId) (h : (s.dom d).refusals < 2) :
    s.refuseQuiesce d =
      ((s.setDom d { s.dom d with refusals := (s.dom d).refusals + 1, state := .active }).reportRefusal d
        ((s.dom d).refusals + 1)).reportDomain d .active .quiesceDeadline := by
  rw [State.refuseQuiesce, if_pos (Nat.succ_lt_succ h), State.reportRefusal, State.report_enterActive,
    State.setDom_setDomState]
  rfl

/-- The third refusal in a row: FAULTED, with a FAULT report alone (R88). -/
theorem State.refuseQuiesce_of_eq (s : State) (d : DomainId) (h : (s.dom d).refusals = 2) :
    s.refuseQuiesce d =
      (s.setDom d { s.dom d with refusals := 3, state := .faulted .quiesceRefused false }).reportFault d .quiesceRefused
        { clken := true, pwren := true, qreq := false } := by
  rw [State.refuseQuiesce, h, if_neg (Nat.lt_irrefl 3), State.enterFaulted, State.setDom_setDomState]
  rfl

/-! ## The recognised levels in the domain record (R176) -/

/-- The phase takes two positions of the record, in THROTTLED and outside it (R71). -/
@[simp] theorem DomainState.phaseBytes_length (x : DomainState) : x.phaseBytes.length = 2 := by
  cases x <;> rfl

theorem flagByte_or_shift (qack pgood : Bool) :
    flagByte qack ||| (flagByte pgood <<< 1) =
      if pgood = true then (if qack = true then 3 else 2) else (if qack = true then 1 else 0) := by
  revert qack pgood
  decide

/-- The recognised levels of QACK and PGOOD stand at position 30 of the domain record, in bits 0 and 1 (R176). -/
theorem State.domainPart_levels (s : State) (d : DomainId) :
    (s.domainPart d)[30]? =
      some (if (s.dom d).pgood = true then (if (s.dom d).qack = true then 3 else 2)
        else (if (s.dom d).qack = true then 1 else 0)) := by
  rw [← flagByte_or_shift]
  simp [State.domainPart]

/-! ## Edges of the handshake inputs -/

/-- A raw level high over a recognised level low is a candidate rise (R84), as the commands test it. -/
theorem rise_of_levels {raw level : Bool} (high : raw = true) (low : level = false) : (raw && !level) = true := by
  rw [high, low, Bool.not_false, Bool.and_self]

/-- A raw level low under a recognised level high is a candidate fall (R84), as the commands test it. -/
theorem fall_of_levels {raw level : Bool} (low : raw = false) (high : level = true) : (!raw && level) = true := by
  rw [low, high, Bool.not_false, Bool.and_self]

section Edges
variable {s : State} {d : DomainId} (running : s.Running)
include running

/-- The acknowledge in QUIESCING: the refusal count becomes 0 and the domain settles (R87). -/
theorem exec_qackRise_of_quiescing (raw : (s.dom d).qackRaw = true) (level : (s.dom d).qack = false) {target : Target}
    {c : Cause} {n : Nat} (state : (s.dom d).state = .quiescing target c n) :
    exec (.qackRise d.val) s =
      .next ((s.setDom d { s.dom d with qack := true, refusals := 0 }).enterSettling d target c) := by
  rw [exec, execQackRise, onDomain_val, State.running_of running, if_pos (rise_of_levels raw level), state]
  simp

/-- Outside QUIESCING a rise of QACK is only recognised (R84, R87). -/
theorem exec_qackRise_of_not_quiescing (raw : (s.dom d).qackRaw = true) (level : (s.dom d).qack = false)
    (state : ∀ target c n, (s.dom d).state ≠ .quiescing target c n) :
    exec (.qackRise d.val) s = .next (s.setDom d { s.dom d with qack := true }) := by
  rw [exec, execQackRise, onDomain_val, State.running_of running, if_pos (rise_of_levels raw level)]
  dsimp only
  split
  next quiescing => exact absurd quiescing (state _ _ _)
  next => rfl

/-- A fall of QACK in SETTLING and STANDBY is a wake with cause QACK_DROP (R92, R93). -/
theorem exec_qackFall_of_settling_or_standby (raw : (s.dom d).qackRaw = false) (level : (s.dom d).qack = true)
    (state : (∃ target c n, (s.dom d).state = .settling target c n) ∨ (s.dom d).state = .standby) :
    exec (.qackFall d.val) s = .next ((s.setDom d { s.dom d with qack := false }).wake d .qackDrop) := by
  rw [exec, execQackFall, onDomain_val, State.running_of running, if_pos (fall_of_levels raw level)]
  rcases state with ⟨target, c, n, settling⟩ | standby
  · rw [settling]
  · rw [standby]

/-- Outside SETTLING and STANDBY a fall of QACK is only recognised (R84, R92, R93). -/
theorem exec_qackFall_of_not_settling_or_standby (raw : (s.dom d).qackRaw = false) (level : (s.dom d).qack = true)
    (notSettling : ∀ target c n, (s.dom d).state ≠ .settling target c n) (notStandby : (s.dom d).state ≠ .standby) :
    exec (.qackFall d.val) s = .next (s.setDom d { s.dom d with qack := false }) := by
  rw [exec, execQackFall, onDomain_val, State.running_of running, if_pos (fall_of_levels raw level)]
  dsimp only
  split
  next settling => exact absurd settling (notSettling _ _ _)
  next standby => exact absurd standby notStandby
  next => rfl

/-- Outside POWERING_UP a rise of PGOOD is only recognised (R84, R100). -/
theorem exec_pgoodRise_of_not_poweringUp (raw : (s.dom d).pgoodRaw = true) (level : (s.dom d).pgood = false)
    (state : ∀ n, (s.dom d).state ≠ .poweringUp n) :
    exec (.pgoodRise d.val) s = .next (s.setDom d { s.dom d with pgood := true }) := by
  rw [exec, execPgoodRise, onDomain_val, State.running_of running, if_pos (rise_of_levels raw level)]
  dsimp only
  split
  next poweringUp => exact absurd poweringUp (state _)
  next => rfl

/-- In FAULTED a fall of PGOOD is only recognised (R84, R103). -/
theorem exec_pgoodFall_of_faulted (raw : (s.dom d).pgoodRaw = false) (level : (s.dom d).pgood = true) {f : FaultCause}
    {seen : Bool} (state : (s.dom d).state = .faulted f seen) :
    exec (.pgoodFall d.val) s = .next (s.setDom d { s.dom d with pgood := false }) := by
  rw [exec, execPgoodFall, onDomain_val, State.running_of running, if_pos (fall_of_levels raw level), state]

end Edges

/-! ## The obligations -/

/-- Settles O29: the acknowledge settles the domain, which a stop delay of 0 takes on; a drop wakes in SETTLING and STANDBY. -/
theorem qackEdges : Obligations.QackEdges := by
  intro s d running x
  constructor
  case left =>
    intro raw level
    split
    next target step n state =>
      rw [exec_qackRise_of_quiescing running raw level state, State.enterSettling_eq]
      refine congrArg Host.Outcome.next ?_
      cases target with
      | standby => simp [State.endStopDelay, State.reportDomain, x]
      | off => simp [State.endStopDelay_off, State.reportDomain, x]
    next notQuiescing => exact exec_qackRise_of_not_quiescing running raw level notQuiescing
  case right =>
    intro raw level
    split
    next target step n settling =>
      exact exec_qackFall_of_settling_or_standby running raw level (.inl ⟨target, step, n, settling⟩)
    next standby => exact exec_qackFall_of_settling_or_standby running raw level (.inr standby)
    next notSettling notStandby =>
      exact exec_qackFall_of_not_settling_or_standby running raw level notSettling notStandby

/-- Settles O31: the refusal by its count, and the state each delay's end leads to. -/
theorem deadlinesAndDelaysEnd : Obligations.DeadlinesAndDelaysEnd := by
  refine ⟨fun s d target step deadline running state => ?quiesce, fun s d running => ⟨?stop, ?resume⟩⟩
  case quiesce =>
    have ended : exec (.quiesceDeadlineEnd d.val) s = .next (s.refuseQuiesce d) := by
      rw [exec, execQuiesceDeadlineEnd, onDomain_val, State.running_of running, state]
    rw [ended]
    exact ⟨fun few => congrArg Host.Outcome.next (s.refuseQuiesce_of_lt d few),
      fun third => congrArg Host.Outcome.next (s.refuseQuiesce_of_eq d third)⟩
  case stop =>
    intro target step delay state
    rw [exec, execStopDelayEnd, onDomain_val, State.running_of running, state]
    cases target with
    | standby => rfl
    | off => exact congrArg Host.Outcome.next (s.endStopDelay_off d step)
  case resume =>
    intro delay state
    rw [exec, execResumeDelayEnd, onDomain_val, State.running_of running, state]
    exact congrArg Host.Outcome.next (s.endResume_eq d)

/-- Settles O32: the entry to FAULTED has POWERING_DOWN's outputs, and a domain there only recognises the fall. -/
theorem powerOffDeadlineFaults : Obligations.PowerOffDeadlineFaults := by
  intro s d step deadline pendingWake running state x faulted
  have entered : faulted.dom d = { x with state := .faulted .powerOffTimeout pendingWake } := by simp [faulted]
  have outputs : faulted.outputs d = { clken := false, pwren := false, qreq := true } := by
    simp [State.outputs, faulted, running, DomainState.outputs]
  refine ⟨?event, outputs, ?unchanged, ?target, ?step, ?pending, ?seen, ?fall⟩
  case event =>
    rw [exec, execPowerOffDeadlineEnd, onDomain_val, State.running_of running, state]
    rfl
  case unchanged => rw [outputs, State.outputs, running, state]; rfl
  case target | step | pending | seen => rw [entered]; rfl
  case fall =>
    intro u running state raw level fallen
    refine ⟨exec_pgoodFall_of_faulted running raw level state, ?_⟩
    rw [State.domainPart_levels, State.dom_setDom, if_pos rfl]
    rfl

/-- Settles O33: the entry to FAULTED turns power off, and a domain there only recognises the rise. -/
theorem powerOnDeadlineFaults : Obligations.PowerOnDeadlineFaults := by
  intro s d deadline running state x faulted
  refine ⟨?event, ?outputs, ?rise⟩
  case event =>
    rw [exec, execPowerOnDeadlineEnd, onDomain_val, State.running_of running, state]
    rfl
  case outputs => simp [State.outputs, faulted, running, DomainState.outputs]
  case rise =>
    intro u running state raw level risen
    obtain ⟨seen, state⟩ := state
    have notPoweringUp (n : Nat) : (u.dom d).state ≠ .poweringUp n := by rw [state]; exact DomainState.noConfusion
    refine ⟨exec_pgoodRise_of_not_poweringUp running raw level notPoweringUp, ?_⟩
    rw [State.domainPart_levels, State.dom_setDom, if_pos rfl]
    rfl

end Sys2Proof.Machine
end

section
/-! PROOF of the obligation on PING and IDENTIFY (R160, R161): the checks of a request that passes them in every session state, its
taking, which reopens a SILENT session (R151), and what the two requests answer. -/

namespace Sys2Proof.Machine

/-! ## The checks of R152 -/

section Checks
variable {r : Request} {required : Nat} (session : Session)

theorem Request.refusedFor_badLength (known : requestLength? r.type = some required) (misfit : r.lengthFits required = false) :
    r.refusedFor session = some .badLength := by
  simp [Request.refusedFor, known, misfit]

/-- A request that the check of CLOSED lets pass passes the four checks in every session state once the first three let it. -/
theorem Request.refusedFor_none_of_passesClosed (known : requestLength? r.type = some required)
    (fits : r.lengthFits required = true) (unreserved : r.reservedSet = false) (passes : r.passesClosed = true) :
    r.refusedFor session = none := by
  simp [Request.refusedFor, known, fits, unreserved, passes]

end Checks

theorem Request.lengthFits_ping {r : Request} (ht : r.type = 0x03) (required : Nat) :
    r.lengthFits required = decide (r.payload.length ≤ required) := if_pos ht

theorem requestLength?_ping {r : Request} (ht : r.type = 0x03) : requestLength? r.type = some 240 := by rw [ht]; rfl

theorem Request.refusedFor_ping {r : Request} (ht : r.type = 0x03) (h : r.payload.length ≤ 240) (session : Session) :
    r.refusedFor session = none :=
  r.refusedFor_none_of_passesClosed session (requestLength?_ping ht) (by simp [r.lengthFits_ping ht, h])
    (by simp [Request.reservedSet, ht]) (by simp [Request.passesClosed, ht])

theorem Request.refusedFor_ping_long {r : Request} (ht : r.type = 0x03) (h : 240 < r.payload.length) (session : Session) :
    r.refusedFor session = some .badLength :=
  r.refusedFor_badLength session (requestLength?_ping ht) (by simp [r.lengthFits_ping ht, h])

theorem Request.refusedFor_identify {r : Request} (ht : r.type = 0x04) (h : r.payload = []) (session : Session) :
    r.refusedFor session = none :=
  r.refusedFor_none_of_passesClosed session (required := 0) (by rw [ht]; rfl) (by simp [Request.lengthFits, ht, h])
    (by simp [Request.reservedSet, ht]) (by simp [Request.passesClosed, ht])

/-! ## Taking a request (R151) -/

theorem State.ready_of {s : State} (idle : s.unit.inHand = none) (noReset : s.unit.fullResetPending = false)
    (room : s.link.replies.length < 4) : s.ready = true := by
  simp [State.ready, idle, noReset, room]

theorem exec_takeRequest_of_ready {s : State} {r : Request} {rest : List Request} (running : s.Running)
    (waits : s.link.requests = r :: rest) (ready : s.ready = true) :
    exec .takeRequest s = .next ((s.setLink { s.link with requests := rest }).reopen.passChecks r) := by
  change execTakeRequest s = _
  rw [execTakeRequest, State.running_of running]
  simp only [waits, if_pos ready]

theorem State.reopen_session_of_silent {s : State} (silent : s.unit.session = .silent) : s.reopen.unit.session = .opened := by
  simp [State.reopen, silent]

theorem State.reopen_retries_of_silent {s : State} (silent : s.unit.session = .silent) : s.reopen.queue.retries = 0 := by
  simp [State.reopen, silent]

/-- The checks, passed or not, leave the session as the taking left it. -/
theorem State.passChecks_session (s : State) (r : Request) : (s.passChecks r).unit.session = s.unit.session := by
  unfold State.passChecks
  split <;> rfl

theorem State.passChecks_queue (s : State) (r : Request) : (s.passChecks r).queue = s.queue := by
  unfold State.passChecks
  split <;> rfl

/-! ## The replies (R160, R161) -/

theorem State.HasInHand.exec_ping {s : State} {payload : List Byte} {r : Request} (h : s.HasInHand 0x03 payload r) :
    exec .ping s = .next (s.answer r (0 :: 0 :: payload) false) := by
  have running : exec .ping s = .next (s.serveAll 0x03 fun part => .done .ok part s) :=
    h.running fun s => s.serveAll 0x03 fun part => .done .ok part s
  rw [running, h.serveAll, State.conclude_done]
  rfl

/-- IDENTIFY answers the identity, then the windows, classes, lines, timers, domains and report records of the part. -/
theorem State.HasInHand.exec_identify {s : State} {payload : List Byte} {r : Request} (h : s.HasInHand 0x04 payload r) :
    exec .identify s = .next (s.answer r (0 :: 0 :: (identity ++ [24, 16, 12, 8, 6, 32])) false) := by
  have running : exec .identify s = .next (s.serveAll 0x04 fun _ => .done .ok (identity ++ [24, 16, 12, 8, 6, 32]) s) :=
    h.running fun s => s.serveAll 0x04 fun _ => .done .ok (identity ++ [24, 16, 12, 8, 6, 32]) s
  rw [running, h.serveAll, State.conclude_done]
  rfl

/-- The RESTART record carries the revision that IDENTIFY answers, the last byte of the identity. -/
theorem restarted_records_revision (cause : ResetCause) :
    ∃ x rest, (ReportQueue.restarted cause).records = x :: rest ∧ x.detail = .restart cause 0x01 :=
  ⟨_, _, rfl, rfl⟩

/-- Settles O57: the checks of each request, the two replies, the revision of the RESTART record, and the taking in SILENT, whose
reopening the checks leave as it is. -/
theorem pingAndIdentifyAnswer : Obligations.PingAndIdentifyAnswer := by
  refine ⟨fun r session => ⟨fun ht h => r.refusedFor_ping ht h session, fun ht h => r.refusedFor_ping_long ht h session,
    fun ht h => r.refusedFor_identify ht h session⟩, fun _ _ _ inHand => inHand.exec_ping,
    fun _ _ inHand => inHand.exec_identify, restarted_records_revision, ?_⟩
  intro s r rest running silent waits _ idle noReset room
  refine ⟨_, exec_takeRequest_of_ready running waits (State.ready_of idle noReset room), ?_, ?_⟩
  · rw [State.passChecks_session]
    exact State.reopen_session_of_silent silent
  · rw [State.passChecks_queue]
    exact State.reopen_retries_of_silent silent

end Sys2Proof.Machine
end

section
-- One declaration after another: side by side, their threads reserve more memory than the check grants.
set_option Elab.async false

section
/-! SUPPORT. What a command of the table leaves of the state: the part behind every request's reply, the events and requests of one
domain, and the commands that touch no record at all. -/

namespace Sys2Proof.Machine

/-! ## The reply's part of a request -/

/-- What the joining of a reply and the making of one leave: every block, the session and the waiting requests, with the reply queue
no fuller once the request in hand is counted in it. -/
structure State.PortOnly (s t : State) : Prop where
  snoop : t.snoop = s.snoop
  fifo : t.fifo = s.fifo
  lines : t.lines = s.lines
  windows : t.windows = s.windows
  fallthrough : t.fallthrough = s.fallthrough
  classes : t.classes = s.classes
  time : t.time = s.time
  timers : t.timers = s.timers
  domains : t.domains = s.domains
  queue : t.queue = s.queue
  pending : t.pending = s.pending
  session : t.unit.session = s.unit.session
  requests : t.link.requests = s.link.requests
  load : t.link.replies.length + t.unit.inHand.toList.length ≤ s.link.replies.length + s.unit.inHand.toList.length

theorem State.PortOnly.rfl' (s : State) : s.PortOnly s := by constructor <;> rfl

theorem State.PortOnly.trans {s t u : State} (h : s.PortOnly t) (k : t.PortOnly u) : s.PortOnly u where
  snoop := k.snoop.trans h.snoop
  fifo := k.fifo.trans h.fifo
  lines := k.lines.trans h.lines
  windows := k.windows.trans h.windows
  fallthrough := k.fallthrough.trans h.fallthrough
  classes := k.classes.trans h.classes
  time := k.time.trans h.time
  timers := k.timers.trans h.timers
  domains := k.domains.trans h.domains
  queue := k.queue.trans h.queue
  pending := k.pending.trans h.pending
  session := k.session.trans h.session
  requests := k.requests.trans h.requests
  load := k.load.trans h.load

theorem State.answer_portOnly (s : State) (r : Request) (payload : List Byte) (resets : Bool) :
    s.PortOnly (s.answer r payload resets) := by constructor <;> rfl

theorem State.beginFullReset_portOnly (s : State) (cause : ResetCause) : s.PortOnly (s.beginFullReset cause) := by
  constructor <;> first | rfl | exact Nat.add_le_add_left (Nat.zero_le _) _

theorem State.joinReply_portOnly {s : State} {r : Request} (inHand : s.unit.inHand = some r) (reply : Reply) :
    s.PortOnly (s.joinReply reply) := by
  rcases s.joinReply_cases reply with ⟨_, eq⟩ | ⟨_, _, eq⟩ | ⟨_, _, eq⟩ <;> rw [eq]
  · constructor <;> first | rfl | simp [inHand]
  · constructor <;> first | rfl | simp
  · exact s.beginFullReset_portOnly _

/-- The event of a request executed in one event: what its owner decides, if that is anything, and then the reply's part. -/
theorem State.serve_portOnly (s : State) (type : Byte) (owner : List Byte → Option Verdict) :
    ∃ u, (u = s ∨ ∃ r status part, s.unit.inHand = some r ∧ r.type = type ∧ owner r.payload = some (.done status part u)) ∧
      u.PortOnly (s.serve type owner) := by
  rcases s.serve_cases type owner with
    eq | ⟨r, inHand, ht, ⟨reply, -, eq⟩ | ⟨reason, -, eq⟩ | ⟨status, part, after, done, eq⟩⟩ <;>
    rw [eq]
  · exact ⟨s, .inl rfl, .rfl' s⟩
  · exact ⟨s, .inl rfl, State.joinReply_portOnly inHand reply⟩
  · exact ⟨s, .inl rfl, s.answer_portOnly r _ _⟩
  · exact ⟨after, .inr ⟨r, status, part, inHand, ht, done⟩, after.answer_portOnly r _ _⟩

/-- A request executed in one event keeps what its owner's effect and the reply's part keep. -/
theorem State.serve_keeps {P : State → Prop} {s : State} (type : Byte) {owner : List Byte → Option Verdict} (start : P s)
    (done : ∀ payload status part after, owner payload = some (.done status part after) → P after)
    (port : ∀ u t : State, u.PortOnly t → P u → P t) : P (s.serve type owner) := by
  obtain ⟨u, rfl | ⟨r, status, part, -, -, eq⟩, only⟩ := s.serve_portOnly type owner
  · exact port _ _ only start
  · exact port _ _ only (done _ _ _ _ eq)

/-- A command of a running part keeps what its effect keeps. -/
theorem State.running_keeps {P : State → Prop} {s t : State} {effect : State → State} (h : s.running effect = .next t)
    (start : P s) (keeps : P (effect s)) : P t := by
  rcases State.running_cases h with rfl | ⟨-, rfl⟩
  · exact start
  · exact keeps

/-! ## One domain -/

/-- What a notice to one domain, an event of it or a request to it changes at most: that domain, which stays sound, the Report Queue,
which takes ordinary reports, and timers, which take a reload. -/
structure State.DomainStep (s t : State) (d : DomainId) : Prop where
  outside : s.SameOutside t
  timer : ∀ i, t.timer i = s.timer i ∨ t.timer i = (s.timer i).reload
  other : ∀ e, e ≠ d → t.dom e = s.dom e
  sound : (s.dom d).Sound → (t.dom d).Sound
  reports : s.Reports t

theorem State.DomainStep.rfl' (s : State) (d : DomainId) : s.DomainStep s d :=
  ⟨.rfl' s, fun _ => .inl rfl, fun _ _ => rfl, id, .none⟩

theorem State.OnlyDomain.step {s t : State} {d : DomainId} (h : s.OnlyDomain t d) (reports : s.Reports t)
    (sound : (s.dom d).Sound → (t.dom d).Sound) : s.DomainStep t d :=
  ⟨h.outside, fun i => .inl (by simp [State.timer, h.timers]), h.other, sound, reports⟩

theorem State.setDom_step {s : State} {d : DomainId} {x : Domain} (sound : (s.dom d).Sound → x.Sound) :
    s.DomainStep (s.setDom d x) d :=
  (s.setDom_onlyDomain d x).step .none fun h => by simpa using sound h

theorem State.DomainStep.wakes {s u : State} {d : DomainId} (h : s.DomainStep u d) {c : Cause} (hc : c.wakesLast = true)
    (timers : u.timers = s.timers) : s.DomainStep (u.wake d c) d where
  outside := h.outside.trans (u.wake_sameOutside d c)
  timer i := by
    have same : u.timer i = s.timer i := by simp [State.timer, timers]
    rw [u.wake_timer d c i, same]
    split
    · exact .inr rfl
    · exact .inl rfl
  other e he := (u.wake_dom_other he c).trans (h.other e he)
  sound k := State.wake_sound (h.sound k) hc
  reports := h.reports.trans (u.wake_reports d c)

theorem State.DomainStep.claims {s u : State} {d : DomainId} (h : s.DomainStep u d) (timers : u.timers = s.timers) :
    s.DomainStep (u.claimRestart d) d where
  outside := h.outside.trans (u.claimRestart_sameOutside d)
  timer i := by
    have same : u.timer i = s.timer i := by simp [State.timer, timers]
    rw [u.claimRestart_timer d i, same]
    split
    · exact .inr rfl
    · exact .inl rfl
  other e he := (u.claimRestart_dom d e).trans (h.other e he)
  sound k := by simpa using h.sound k
  reports := by simpa [State.Reports] using h.reports

theorem State.wake_step (s : State) (d : DomainId) {c : Cause} (hc : c.wakesLast = true) : s.DomainStep (s.wake d c) d :=
  (State.DomainStep.rfl' s d).wakes hc rfl

/-- A record fit for an entry is so as it stands in the state. -/
theorem State.setDom_fit {s : State} {d : DomainId} {x : Domain} (fit : x.Fit) : ((s.setDom d x).dom d).Fit := by simpa using fit

/-- An entry to a state after a change of the domain's record that leaves it fit for the entry. -/
theorem State.OnlyDomain.stepAfter {s t : State} {d : DomainId} {x : Domain} (only : (s.setDom d x).OnlyDomain t d)
    (reports : (s.setDom d x).Reports t) (sound : (s.dom d).Sound → (t.dom d).Sound) : s.DomainStep t d :=
  ((s.setDom_onlyDomain d x).trans only).step reports sound

/-! ### Events of a domain -/

theorem onDomain_step {s t : State} {n : Nat} {effect : DomainId → State → State}
    (h : (onDomain n fun d => s.running (effect d)) = .next t) (step : ∀ d, s.DomainStep (effect d s) d) :
    ∃ d, s.DomainStep t d := by
  obtain ⟨d, -, h⟩ := onDomain_next h
  exact ⟨d, State.running_keeps (P := (s.DomainStep · d)) h (.rfl' s d) (step d)⟩

theorem execHandshakeRawChange_step {s t : State} {n : Nat} {input : HandshakeInput} {level : Bool}
    (h : execHandshakeRawChange n input level s = .next t) : ∃ d, s.DomainStep t d := by
  obtain ⟨d, -, h⟩ := onDomain_next h
  cases h
  exact ⟨d, State.setDom_step fun sound => by cases input <;> exact sound⟩

theorem execThrottlePhaseEnd_step {s t : State} {n : Nat} (h : execThrottlePhaseEnd n s = .next t) :
    ∃ d, s.DomainStep t d := by
  refine onDomain_step h fun d => ?_
  split
  case h_1 st =>
    refine State.setDom_step fun sound => ?_
    obtain ⟨config, refusals, lastWake⟩ := sound.fit (by simp [st])
    exact Domain.Fit.sound ⟨config, refusals, lastWake⟩ (by simpa [Domain.stateSound] using config.2.2.1)
  case h_2 st =>
    refine State.setDom_step fun sound => ?_
    obtain ⟨config, refusals, lastWake⟩ := sound.fit (by simp [st])
    exact Domain.Fit.sound ⟨config, refusals, lastWake⟩ (by simpa [Domain.stateSound] using config.2.1)
  case h_3 => exact .rfl' s d

/-- A recognised level of QACK plays no part in a record's soundness. -/
theorem Domain.Sound.withQack {x : Domain} (h : x.Sound) (level : Bool) : ({ x with qack := level } : Domain).Sound := h

theorem execQackRise_step {s t : State} {n : Nat} (h : execQackRise n s = .next t) : ∃ d, s.DomainStep t d := by
  refine onDomain_step h fun d => ?_
  split
  case isFalse => exact .rfl' s d
  split
  case h_2 => exact State.setDom_step fun sound => sound.withQack true
  case h_1 target step deadline st =>
    have begins (sound : (s.dom d).Sound) : step.BeginsQuiesce := by
      have state := sound.2.1
      simp only [Domain.stateSound, st, decide_eq_true_eq] at state
      exact state.1
    simp only [State.setDom_setDom]
    refine (State.enterSettling_onlyDomain _ d target step).stepAfter (State.enterSettling_reports _ d target step) fun sound => ?_
    exact State.enterSettling_sound (by simpa using (sound.withQack true).fit_cleared) target (begins sound)

theorem execQackFall_step {s t : State} {n : Nat} (h : execQackFall n s = .next t) : ∃ d, s.DomainStep t d := by
  refine onDomain_step h fun d => ?_
  have fallen : s.DomainStep (s.setDom d { s.dom d with qack := false }) d :=
    State.setDom_step fun sound => sound.withQack false
  split
  case isFalse => exact .rfl' s d
  split
  · exact fallen.wakes rfl rfl
  · exact fallen.wakes rfl rfl
  · exact fallen

/-- In a state that does not wait for PGOOD to fall, its rise keeps a record sound that stays in its state. -/
theorem Domain.Sound.pgoodRises {x : Domain} (h : x.Sound) (notUp : ∀ n, x.state ≠ .poweringUp n) :
    ({ x with pgood := true } : Domain).Sound := by
  obtain ⟨config, state, refusals, lastWake⟩ := h
  refine ⟨config, ?_, refusals, lastWake⟩
  simp only [Domain.stateSound] at state ⊢
  split <;> simp_all

theorem Domain.Sound.pgoodFalls {x : Domain} (h : x.Sound) (notDown : ∀ c n w, x.state ≠ .poweringDown c n w) :
    ({ x with pgood := false } : Domain).Sound := by
  obtain ⟨config, state, refusals, lastWake⟩ := h
  refine ⟨config, ?_, refusals, lastWake⟩
  simp only [Domain.stateSound] at state ⊢
  split <;> simp_all

theorem execPgoodRise_step {s t : State} {n : Nat} (h : execPgoodRise n s = .next t) : ∃ d, s.DomainStep t d := by
  refine onDomain_step h fun d => ?_
  split
  case isFalse => exact .rfl' s d
  split
  case h_2 notUp => exact State.setDom_step fun sound => sound.pgoodRises notUp
  case h_1 st =>
    refine (State.enterResuming_onlyDomain _ d).stepAfter (State.enterResuming_reports _ d) fun sound => ?_
    obtain ⟨config, refusals, lastWake⟩ := sound.fit (by simp [st])
    exact State.enterResuming_sound (State.setDom_fit ⟨config, refusals, lastWake⟩)

theorem execPgoodFall_step {s t : State} {n : Nat} (h : execPgoodFall n s = .next t) : ∃ d, s.DomainStep t d := by
  refine onDomain_step h fun d => ?_
  split
  case isFalse => exact .rfl' s d
  have fit (sound : (s.dom d).Sound) (notFaulted : ∀ f b, (s.dom d).state ≠ .faulted f b) :
      ((s.setDom d { s.dom d with pgood := false }).dom d).Fit := by
    obtain ⟨config, refusals, lastWake⟩ := sound.fit notFaulted
    exact State.setDom_fit ⟨config, refusals, lastWake⟩
  have faults (notFaulted : ∀ f b, (s.dom d).state ≠ .faulted f b) :
      s.DomainStep ((s.setDom d { s.dom d with pgood := false }).enterFaulted d .powerLost false) d :=
    (State.enterFaulted_onlyDomain _ d .powerLost false).stepAfter (State.enterFaulted_reports _ d .powerLost false)
      fun sound => State.enterFaulted_sound (fit sound notFaulted) _ _
  have falls (notDown : ∀ c n w, (s.dom d).state ≠ .poweringDown c n w) :
      s.DomainStep (s.setDom d { s.dom d with pgood := false }) d :=
    State.setDom_step fun sound => sound.pgoodFalls notDown
  cases st : (s.dom d).state with
  | poweringDown step deadline pendingWake =>
    exact (State.enterOff_onlyDomain _ d step pendingWake).stepAfter (State.enterOff_reports _ d step pendingWake)
      fun sound => State.enterOff_sound (fit sound (by simp [st])) _ _
  | active | throttled | quiescing | settling | standby | resuming => exact faults (by simp [st])
  | off | poweringUp | faulted | retired => exact falls (by simp [st])

theorem execQuiesceDeadlineEnd_step {s t : State} {n : Nat} (h : execQuiesceDeadlineEnd n s = .next t) :
    ∃ d, s.DomainStep t d := by
  refine onDomain_step h fun d => ?_
  split
  case h_2 => exact .rfl' s d
  case h_1 st =>
    unfold State.refuseQuiesce
    dsimp only
    split
    case isTrue count =>
      refine ((State.report_onlyDomain _ _ d).trans (State.enterActive_onlyDomain _ d .quiesceDeadline)).stepAfter
        ((State.reportRefusal_reports _ d _).trans (State.enterActive_reports _ d .quiesceDeadline)) fun sound => ?_
      refine State.enterActive_sound (State.setDom_fit ?_) .quiesceDeadline
      obtain ⟨config, refusals, lastWake⟩ := sound.fit (by simp [st])
      exact ⟨config, Nat.le_of_lt_succ count, lastWake⟩
    case isFalse =>
      refine (State.enterFaulted_onlyDomain _ d .quiesceRefused false).stepAfter
        (State.enterFaulted_reports _ d .quiesceRefused false) fun sound => ?_
      obtain ⟨config, refusals, lastWake⟩ := sound.fit (by simp [st])
      have faulted : ({ s.dom d with refusals := (s.dom d).refusals + 1, state := .faulted .quiesceRefused false } : Domain).Sound :=
        ⟨config, rfl, Nat.succ_le_succ refusals, lastWake⟩
      simpa [State.enterFaulted, State.reportFault] using faulted

theorem execStopDelayEnd_step {s t : State} {n : Nat} (h : execStopDelayEnd n s = .next t) : ∃ d, s.DomainStep t d := by
  refine onDomain_step h fun d => ?_
  split
  case h_2 => exact .rfl' s d
  case h_1 target step delay st =>
    refine (s.endStopDelay_onlyDomain d target step).step (s.endStopDelay_reports d target step) fun sound => ?_
    have state := sound.2.1
    simp only [Domain.stateSound, st, decide_eq_true_eq] at state
    exact State.endStopDelay_sound (sound.fit (by simp [st])) target state.1

theorem execPowerOffDeadlineEnd_step {s t : State} {n : Nat} (h : execPowerOffDeadlineEnd n s = .next t) :
    ∃ d, s.DomainStep t d := by
  refine onDomain_step h fun d => ?_
  split
  case h_2 => exact .rfl' s d
  case h_1 st =>
    exact (s.enterFaulted_onlyDomain d _ _).step (s.enterFaulted_reports d _ _) fun sound =>
      State.enterFaulted_sound (sound.fit (by simp [st])) _ _

theorem execPowerOnDeadlineEnd_step {s t : State} {n : Nat} (h : execPowerOnDeadlineEnd n s = .next t) :
    ∃ d, s.DomainStep t d := by
  refine onDomain_step h fun d => ?_
  split
  case h_2 => exact .rfl' s d
  case h_1 st =>
    exact (s.enterFaulted_onlyDomain d _ _).step (s.enterFaulted_reports d _ _) fun sound =>
      State.enterFaulted_sound (sound.fit (by simp [st])) _ _

theorem execResumeDelayEnd_step {s t : State} {n : Nat} (h : execResumeDelayEnd n s = .next t) : ∃ d, s.DomainStep t d := by
  refine onDomain_step h fun d => ?_
  split
  case h_2 => exact .rfl' s d
  case h_1 st =>
    exact (s.endResume_onlyDomain d).step (s.endResume_reports d) fun sound =>
      State.endResume_sound (sound.fit (by simp [st]))

end Sys2Proof.Machine
end

section
/-! SUPPORT. What the requests to one domain leave, and which commands touch no record at all. -/

namespace Sys2Proof.Machine

/-! ## Requests to a domain -/

theorem between?_range {lo hi n : Nat} {b : Byte} (h : between? lo hi b = some n) : lo ≤ n ∧ n ≤ hi := by
  unfold between? at h
  split at h
  case isTrue range => exact Option.some.inj h ▸ range
  case isFalse => cases h

/-- A configuration that WRITE_DOMAIN's checks accept is sound. -/
theorem domainConfig?_sound {payload : List Byte} {c : DomainConfig} {depths : List Nat} {rungs : List Rung}
    (decoded : domainConfig? payload = some c) (ladder : ladder? 0 depths = some rungs) :
    ({ c with ladder := rungs } : DomainConfig).Sound := by
  have noLadder : c = { c with ladder := [] } := by
    simp only [domainConfig?, Option.bind_eq_bind, Option.bind_eq_some_iff, Option.some_inj] at decoded
    obtain ⟨_, _, _, _, _, _, _, _, _, _, _, _, _, _, _, _, rfl⟩ := decoded
    rfl
  obtain ⟨-, -, on, off, quiesce, -, powerOff, powerOn, -⟩ := domainConfig?_eq_some_iff.1 (decoded.trans (congrArg some noLadder))
  obtain ⟨deeper, rfl⟩ := ladder?_eq_some_iff.1 ladder
  refine ⟨?_, between?_range on, between?_range off, between?_range quiesce, between?_range powerOff, between?_range powerOn⟩
  exact List.pairwise_map.1 (List.pairwise_cons.1 (List.isChain_iff_pairwise.1 deeper)).2

section Owners

variable {s u : State} {payload : List Byte} {status : Status} {part : List Byte}

theorem State.ownWriteDomain_step (h : s.ownWriteDomain payload = .done status part u) : ∃ d, s.DomainStep u d := by
  unfold State.ownWriteDomain at h
  split at h
  case h_2 => cases h
  case h_1 d config depths hd decoded codes =>
    split at h
    case h_1 => cases h
    case h_2 rungs ladder =>
      cases h
      refine ⟨d, State.setDom_step fun sound => ?_⟩
      obtain ⟨-, state, refusals, lastWake⟩ := sound
      exact ⟨domainConfig?_sound decoded ladder, state, refusals, lastWake⟩

theorem State.holdDomain_step (s : State) (d : DomainId) : s.DomainStep (s.holdDomain d) d := by
  have flagged : s.DomainStep (s.setDom d { s.dom d with hold := true }) d := State.setDom_step fun sound => sound
  unfold State.holdDomain
  dsimp only
  split
  · exact flagged.wakes rfl rfl
  · exact flagged

theorem State.ownHold_step {wanted : Bool} (h : s.ownHold wanted payload = some (.done status part u)) :
    ∃ d, s.DomainStep u d := by
  unfold State.ownHold at h
  split at h
  case h_1 value d _ _ =>
    split at h
    · cases h
      refine ⟨d, ?_⟩
      cases value
      · exact State.setDom_step fun sound => sound
      · exact s.holdDomain_step d
    · cases h
  case h_2 => split at h <;> cases h
  case h_3 => cases h

/-- The step that a FORCE toward a deeper target is, from a domain that is neither FAULTED nor RETIRED. -/
theorem State.forceDeeper_step (s : State) (d : DomainId) (target : Rung) : s.DomainStep (s.forceDeeper d target) d := by
  have force : Cause.BeginsQuiesce .force := .inr rfl
  unfold State.forceDeeper
  split <;> rename_i st
  case h_7 => exact .rfl' s d
  case h_1 =>
    exact (s.enterThrottled_onlyDomain d _).step (s.enterThrottled_reports d _) fun sound =>
      State.enterThrottled_sound (sound.fit (by simp [st])) _
  case h_6 =>
    exact (s.enterPoweringDown_onlyDomain d _).step (s.enterPoweringDown_reports d _) fun sound =>
      State.enterPoweringDown_sound (sound.fit (by simp [st])) (.inl force)
  all_goals
    exact (s.enterQuiescing_onlyDomain d _ _).step (s.enterQuiescing_reports d _ _) fun sound =>
      State.enterQuiescing_sound (sound.fit (by simp [st])) _ force

theorem State.ownForce_step (h : s.ownForce payload = some (.done status part u)) : ∃ d, s.DomainStep u d := by
  unfold State.ownForce State.ownForceDeeper at h
  split at h
  · cases h
  · split at h
    case h_2 => cases h
    case h_1 d target _ _ =>
      repeat' split at h
      all_goals cases h
      exact ⟨d, s.forceDeeper_step d target⟩

theorem State.ownForceActive_step (h : s.ownForceActive payload = some (.done status part u)) : ∃ d, s.DomainStep u d := by
  unfold State.ownForceActive at h
  split at h
  case isFalse => cases h
  case isTrue =>
    split at h
    · cases h
    case h_2 d _ =>
      split at h <;> cases h
      exact ⟨d, s.wake_step d rfl⟩

/-- A recovery's start: the refusal count 0, and for UP the last wake cause CLEAR. -/
theorem Domain.Sound.fit_recovered {x : Domain} (h : x.Sound) : ({ x with refusals := 0, lastWake := .clear } : Domain).Fit :=
  h.fit_cleared.withLastWake rfl

theorem State.recover_step (s : State) (d : DomainId) (cause : FaultCause) (recovery : Recovery) :
    s.DomainStep (s.recover d cause recovery) d := by
  unfold State.recover State.setLastWake
  simp only [State.dom_setDom, if_true, State.setDom_setDom]
  cases recovery with
  | down =>
    exact (State.enterPoweringDown_onlyDomain _ d .clear).stepAfter (State.enterPoweringDown_reports _ d .clear)
      fun sound => State.enterPoweringDown_sound (State.setDom_fit sound.fit_cleared) (.inr rfl)
  | up =>
    dsimp only
    split
    · exact (State.enterActive_onlyDomain _ d .clear).stepAfter (State.enterActive_reports _ d .clear)
        fun sound => State.enterActive_sound (State.setDom_fit sound.fit_recovered) .clear
    · exact (State.enterPoweringUp_onlyDomain _ d).stepAfter (State.enterPoweringUp_reports _ d)
        fun sound => State.enterPoweringUp_sound (State.setDom_fit sound.fit_recovered)

theorem State.ownRecovery_step {wanted : Recovery} (h : s.ownRecovery wanted payload = some (.done status part u)) :
    ∃ d, s.DomainStep u d := by
  unfold State.ownRecovery State.ownClearFault at h
  split at h
  · cases h
  · split at h
    case isFalse => cases h
    case isTrue =>
      split at h
      · cases h
      case h_2 d _ =>
        split at h <;> cases h
        exact ⟨d, s.recover_step d _ _⟩

theorem State.ownRetire_step (h : s.ownRetire payload = .done status part u) : ∃ d, s.DomainStep u d := by
  have retires (d : DomainId) (b : Bool) (notFaulted : ∀ f seen, (s.dom d).state ≠ .faulted f seen) :
      s.DomainStep ((s.setDomState d (.retired b)).reportDomain d .retired .retire) d := by
    refine (State.report_onlyDomain _ _ d).stepAfter (State.reportDomain_reports _ d _ _) fun sound => ?_
    obtain ⟨config, refusals, lastWake⟩ := sound.fit notFaulted
    have retired : ({ s.dom d with state := .retired b } : Domain).Sound := Domain.Fit.sound ⟨config, refusals, lastWake⟩ rfl
    simpa using retired
  unfold State.ownRetire at h
  split at h
  · cases h
  case h_2 d _ =>
    split at h <;> rename_i st <;> cases h
    · exact ⟨d, retires d true (by simp [st])⟩
    · exact ⟨d, retires d false (by simp [st])⟩

theorem State.ownAdopt_step (h : s.ownAdopt payload = .done status part u) : ∃ d, s.DomainStep u d := by
  have fit {x : Domain} (sound : x.Sound) : ({ x with refusals := 0, lastWake := .adopt } : Domain).Fit :=
    sound.fit_cleared.withLastWake rfl
  unfold State.ownAdopt at h
  split at h
  · cases h
  case h_2 d _ =>
    dsimp only at h
    split at h <;> cases h
    · have entered := (State.enterActive_onlyDomain (s.setDom d { s.dom d with refusals := 0, lastWake := .adopt }) d
        .adopt).stepAfter (State.enterActive_reports _ d .adopt) fun sound => State.enterActive_sound (State.setDom_fit (fit sound)) .adopt
      exact ⟨d, entered.claims rfl⟩
    · refine ⟨d, ?_⟩
      rw [State.setDom_setDomState]
      refine (State.report_onlyDomain _ _ d).stepAfter (State.reportDomain_reports _ d _ _) fun sound => ?_
      obtain ⟨config, refusals, lastWake⟩ := fit sound
      have off : ({ s.dom d with refusals := 0, lastWake := .adopt, state := .off } : Domain).Sound :=
        Domain.Fit.sound ⟨config, refusals, lastWake⟩ rfl
      simpa using off

end Owners

/-! ## The commands of one domain -/

/-- The events of a domain and the requests to one. -/
def ofDomain : Instr → Bool
  | .throttlePhaseEnd _ | .handshakeRawChange _ _ _ | .qackRise _ | .qackFall _ | .pgoodRise _ | .pgoodFall _
  | .quiesceDeadlineEnd _ | .stopDelayEnd _ | .powerOffDeadlineEnd _ | .powerOnDeadlineEnd _ | .resumeDelayEnd _ | .writeDomain
  | .holdOn | .holdOff | .forceActive | .force | .clearFaultUp | .clearFaultDown | .retire | .adopt => true
  | _ => false

/-- A request to a domain: its owner's step at that domain, and the reply's part. -/
theorem State.serve_step {s t : State} {type : Byte} {owner : State → List Byte → Option Verdict}
    (h : (s.running fun s => s.serve type (owner s)) = .next t)
    (step : ∀ {payload status part u}, owner s payload = some (.done status part u) → ∃ d, s.DomainStep u d) :
    ∃ d u, s.DomainStep u d ∧ u.PortOnly t := by
  rcases State.running_cases h with rfl | ⟨-, rfl⟩
  · exact ⟨0, t, .rfl' t 0, .rfl' t⟩
  · obtain ⟨u, rfl | ⟨r, status, part, -, -, eq⟩, only⟩ := s.serve_portOnly type (owner s)
    · exact ⟨0, u, .rfl' u 0, only⟩
    · obtain ⟨d, moved⟩ := step eq
      exact ⟨d, u, moved, only⟩

/-- A command of one domain: a step of that domain, and for a request the reply's part. -/
theorem exec_ofDomain {c : Instr} {s t : State} (of : ofDomain c = true) (h : exec c s = .next t) :
    ∃ d u, s.DomainStep u d ∧ u.PortOnly t := by
  have event : (∃ d, s.DomainStep t d) → ∃ d u, s.DomainStep u d ∧ u.PortOnly t := fun ⟨d, step⟩ => ⟨d, t, step, .rfl' t⟩
  cases c with
  | throttlePhaseEnd n => exact event (execThrottlePhaseEnd_step h)
  | handshakeRawChange n input level => exact event (execHandshakeRawChange_step h)
  | qackRise n => exact event (execQackRise_step h)
  | qackFall n => exact event (execQackFall_step h)
  | pgoodRise n => exact event (execPgoodRise_step h)
  | pgoodFall n => exact event (execPgoodFall_step h)
  | quiesceDeadlineEnd n => exact event (execQuiesceDeadlineEnd_step h)
  | stopDelayEnd n => exact event (execStopDelayEnd_step h)
  | powerOffDeadlineEnd n => exact event (execPowerOffDeadlineEnd_step h)
  | powerOnDeadlineEnd n => exact event (execPowerOnDeadlineEnd_step h)
  | resumeDelayEnd n => exact event (execResumeDelayEnd_step h)
  | writeDomain =>
    exact State.serve_step (owner := fun s p => some (s.ownWriteDomain p)) h fun eq =>
      State.ownWriteDomain_step (Option.some.inj eq)
  | holdOn => exact State.serve_step (owner := fun s => s.ownHold true) h State.ownHold_step
  | holdOff => exact State.serve_step (owner := fun s => s.ownHold false) h State.ownHold_step
  | forceActive => exact State.serve_step (owner := State.ownForceActive) h State.ownForceActive_step
  | force => exact State.serve_step (owner := State.ownForce) h State.ownForce_step
  | clearFaultUp => exact State.serve_step (owner := fun s => s.ownRecovery .up) h State.ownRecovery_step
  | clearFaultDown => exact State.serve_step (owner := fun s => s.ownRecovery .down) h State.ownRecovery_step
  | retire =>
    exact State.serve_step (owner := fun s p => some (s.ownRetire p)) h fun eq => State.ownRetire_step (Option.some.inj eq)
  | adopt => exact State.serve_step (owner := fun s p => some (s.ownAdopt p)) h fun eq => State.ownAdopt_step (Option.some.inj eq)
  | _ => cases of

end Sys2Proof.Machine
end

section
/-! SUPPORT. The commands that touch no line, window, class, timer or domain, nor governor time. -/

namespace Sys2Proof.Machine

/-- Lines, windows, classes, timers, domains, governor time and the command queue are the same. -/
structure State.SameRecords (s t : State) : Prop where
  lines : t.lines = s.lines
  windows : t.windows = s.windows
  classes : t.classes = s.classes
  time : t.time = s.time
  timers : t.timers = s.timers
  domains : t.domains = s.domains
  pending : t.pending = s.pending

theorem State.SameRecords.rfl' (s : State) : s.SameRecords s := by constructor <;> rfl

theorem State.SameRecords.port {s u t : State} (k : u.PortOnly t) (h : s.SameRecords u) : s.SameRecords t where
  lines := k.lines.trans h.lines
  windows := k.windows.trans h.windows
  classes := k.classes.trans h.classes
  time := k.time.trans h.time
  timers := k.timers.trans h.timers
  domains := k.domains.trans h.domains
  pending := k.pending.trans h.pending

/-- The commands that touch no record of the blocks of chapters 1 to 5: the link's, the session's, the Report Queue's and the reset
pin's events, observations, reads, and the requests that set other registers. -/
def touchesNoRecord : Instr → Bool
  | .addressStrobe _ _ _ _ | .ackTimerExpiry | .silentClaim | .rxCharacter _ | .framingError | .gapError | .rxBreak
  | .takeRequest | .frameBoundary | .openSession | .closeSession | .ping | .identify | .readStatus | .resetFull
  | .setReporting | .ack | .setSnoop | .readWindow | .setFallthrough | .readClasses | .readTimer | .readDomain
  | .powerOnReset _ _ | .resetPin | .characterStartEdge _ | .resetPinRelease | .resetPinRawChange _ => true
  | _ => false

/-! ## Receiving -/

/-- What the frame receiver's events change at most: the link, but for its reply queue, whose request queue stays within its
capacity, and the Report Queue, which takes ordinary reports. -/
structure State.Receives (s t : State) : Prop where
  outside : s.SameOutside { t with link := s.link }
  timers : t.timers = s.timers
  domains : t.domains = s.domains
  reports : s.Reports t
  replies : t.link.replies = s.link.replies
  requests : s.link.requests.length ≤ 4 → t.link.requests.length ≤ 4

theorem State.Receives.rfl' (s : State) : s.Receives s := ⟨.rfl' s, rfl, rfl, .none, rfl, id⟩

theorem State.Receives.trans {s t u : State} (h : s.Receives t) (k : t.Receives u) : s.Receives u where
  outside := h.outside.trans { k.outside with link := rfl }
  timers := k.timers.trans h.timers
  domains := k.domains.trans h.domains
  reports := h.reports.trans k.reports
  replies := k.replies.trans h.replies
  requests := k.requests ∘ h.requests

theorem State.setLink_receives {s : State} {k : Link} (replies : k.replies = s.link.replies)
    (requests : s.link.requests.length ≤ 4 → k.requests.length ≤ 4) : s.Receives (s.setLink k) :=
  ⟨by constructor <;> rfl, rfl, rfl, .none, replies, requests⟩

theorem State.receiverTo_receives (s : State) (f : FrameRx) (gap : Bool) : s.Receives (s.receiverTo f gap) :=
  State.setLink_receives rfl id

theorem State.characterRx_receives (s : State) (c : CharRx) : s.Receives (s.characterRx c) := State.setLink_receives rfl id

theorem State.reportRxError_receives (s : State) (e : RxError) : s.Receives (s.reportRxError e) :=
  ⟨s.report_sameOutside _, rfl, rfl, s.reportRxError_reports e, rfl, id⟩

theorem State.takeFrame_receives (s : State) (body : List Byte) : s.Receives (s.takeFrame body) := by
  unfold State.takeFrame
  split
  case h_2 => exact .rfl' s
  split
  case isTrue => exact s.reportRxError_receives _
  split
  case isTrue room => exact State.setLink_receives rfl fun _ => by simpa using room
  case isFalse => exact s.reportRxError_receives _

theorem State.receive_receives (s : State) (b : Byte) : s.Receives (s.receive b) := by
  have hunt : s.Receives s.toHunt := s.receiverTo_receives .hunt false
  unfold State.receive
  split
  case h_1 =>
    split
    · exact s.receiverTo_receives _ _
    · exact .rfl' s
  case h_2 =>
    split
    · exact s.receiverTo_receives _ _
    · exact hunt.trans (State.reportRxError_receives _ _)
  case h_3 => split <;> exact s.receiverTo_receives _ _
  case h_4 => exact s.receiverTo_receives _ _
  case h_5 =>
    unfold State.completeFrame
    split
    · exact hunt.trans (State.takeFrame_receives _ _)
    · exact hunt.trans (State.reportRxError_receives _ _)

/-- The events of the frame receiver. -/
def receives : Instr → Bool
  | .rxCharacter _ | .framingError | .gapError | .characterStartEdge _ => true
  | _ => false

theorem exec_receives {c : Instr} {s t : State} (of : receives c = true) (h : exec c s = .next t) : s.Receives t := by
  cases c with
  | rxCharacter b =>
    simp only [exec, execRxCharacter] at h
    exact State.running_keeps (P := s.Receives) h (.rfl' s) ((s.characterRx_receives _).trans (State.receive_receives _ b))
  | framingError =>
    simp only [exec, execFramingError] at h
    exact State.running_keeps (P := s.Receives) h (.rfl' s)
      (((s.characterRx_receives _).trans (State.receiverTo_receives _ _ _)).trans (State.reportRxError_receives _ _))
  | gapError =>
    simp only [exec, execGapError] at h
    refine State.running_keeps (P := s.Receives) h (.rfl' s) ?_
    split
    · exact (s.receiverTo_receives _ _).trans (State.reportRxError_receives _ _)
    · exact .rfl' s
  | characterStartEdge high =>
    simp only [exec, execCharacterStartEdge] at h
    refine State.running_keeps (P := s.Receives) h (.rfl' s) ?_
    split
    · exact .rfl' s
    · split
      · exact (s.characterRx_receives _).trans (State.characterRx_receives _ _)
      · exact (s.characterRx_receives _).trans (State.setLink_receives rfl id)
  | _ => cases of

/-! ## Owners of requests that set no record -/

section Owners

variable {s u : State} {payload : List Byte} {status : Status} {part : List Byte}

theorem State.ownOpen_done (h : s.ownOpen payload = .done status part u) :
    ∃ credit timeout, (1 ≤ credit ∧ credit ≤ 8) ∧
      u = (s.setQueue (s.queue.openSession s.time credit timeout)).setUnit { s.unit with session := .opened } := by
  unfold State.ownOpen at h
  split at h <;> cases h
  rename_i credit timeout credit? _
  exact ⟨credit, timeout, between?_range credit?, rfl⟩

theorem State.ownReporting_done (h : s.ownReporting payload = .done status part u) :
    ∃ credit timeout, (1 ≤ credit ∧ credit ≤ 8) ∧ s.queue.sentCount ≤ credit ∧
      u = s.setQueue ({ s.queue with credit := credit, timeout := timeout } : ReportQueue).restartTimer := by
  unfold State.ownReporting at h
  split at h
  case h_2 => cases h
  case h_1 credit timeout credit? _ =>
    split at h <;> cases h
    exact ⟨credit, timeout, between?_range credit?, by omega, rfl⟩

theorem State.ownAck_done (h : s.ownAck payload = .done status part u) :
    ∃ n removed q, s.queue.acknowledge? n = some (removed, q) ∧ u = s.setQueue q := by
  unfold State.ownAck at h
  split at h <;> cases h
  exact ⟨_, _, _, ‹_›, rfl⟩

theorem State.ownSnoop_done (h : s.ownSnoop payload = .done status part u) : ∃ enables, u = { s with snoop := enables } := by
  unfold State.ownSnoop at h
  split at h <;> cases h
  exact ⟨_, rfl⟩

theorem State.ownReadWindow_done (h : s.ownReadWindow payload = .done status part u) : u = s := by
  unfold State.ownReadWindow at h
  split at h <;> cases h
  rfl

theorem State.ownFallthrough_done (h : s.ownFallthrough payload = .done status part u) :
    ∃ cls, u = { s with fallthrough := cls } := by
  unfold State.ownFallthrough at h
  split at h <;> cases h
  exact ⟨_, rfl⟩

theorem State.ownReadTimer_done (h : s.ownReadTimer payload = .done status part u) : u = s := by
  unfold State.ownReadTimer at h
  split at h <;> cases h
  rfl

theorem State.ownReadDomain_done (h : s.ownReadDomain payload = .done status part u) : u = s := by
  unfold State.ownReadDomain at h
  split at h <;> cases h
  rfl

end Owners

/-- RESET_FULL makes a reply or is the reply's part. -/
theorem execResetFull_portOnly {s t : State} (h : execResetFull s = .next t) : s.PortOnly t := by
  rcases State.running_cases h with rfl | ⟨-, rfl⟩
  · exact .rfl' t
  rcases s.requestEvent_cases 0x06 _ with eq | ⟨r, inHand, -, ⟨reply, -, eq⟩ | ⟨-, eq⟩⟩ <;> rw [eq]
  · exact .rfl' s
  · exact State.joinReply_portOnly inHand reply
  · split
    · constructor <;> rfl
    · exact .rfl' s
    · exact s.answer_portOnly r _ _

/-! ## The reads, PING and RESET_FULL -/

/-- The commands that make a reply and change nothing else but what the reply's part changes. -/
def onlyAnswers : Instr → Bool
  | .ping | .identify | .readStatus | .resetFull | .readWindow | .readClasses | .readTimer | .readDomain => true
  | _ => false

theorem State.serve_onlyAnswers {s t : State} {type : Byte} {owner : State → List Byte → Verdict}
    (h : (s.running fun s => s.serveAll type (owner s)) = .next t)
    (done : ∀ {payload status part u}, owner s payload = .done status part u → u = s) : s.PortOnly t :=
  State.running_keeps (P := s.PortOnly) h (.rfl' s)
    (State.serve_keeps (P := s.PortOnly) type (.rfl' s) (fun _ _ _ _ eq => done (Option.some.inj eq) ▸ .rfl' s)
      fun _ _ only k => k.trans only)

theorem exec_portOnly {c : Instr} {s t : State} (of : onlyAnswers c = true) (h : exec c s = .next t) : s.PortOnly t := by
  cases c with
  | ping => exact State.serve_onlyAnswers (owner := fun s p => .done .ok p s) h fun eq => by cases eq; rfl
  | identify =>
    exact State.serve_onlyAnswers (owner := fun s _ => .done .ok (identity ++ [24, 16, 12, 8, 6, 32]) s) h
      fun eq => by cases eq; rfl
  | readStatus => exact State.serve_onlyAnswers (owner := fun s _ => .done .ok s.statusPart s) h fun eq => by cases eq; rfl
  | readClasses => exact State.serve_onlyAnswers (owner := fun s _ => .done .ok s.classesPart s) h fun eq => by cases eq; rfl
  | readWindow => exact State.serve_onlyAnswers (owner := State.ownReadWindow) h State.ownReadWindow_done
  | readTimer => exact State.serve_onlyAnswers (owner := State.ownReadTimer) h State.ownReadTimer_done
  | readDomain => exact State.serve_onlyAnswers (owner := State.ownReadDomain) h State.ownReadDomain_done
  | resetFull => exact execResetFull_portOnly h
  | _ => cases of

/-! ## The commands that touch no record -/

/-- A request whose owner sets no record touches none. -/
theorem State.serve_sameRecords {s t : State} {type : Byte} {owner : State → List Byte → Option Verdict}
    (h : (s.running fun s => s.serve type (owner s)) = .next t)
    (done : ∀ {payload status part u}, owner s payload = some (.done status part u) → s.SameRecords u) : s.SameRecords t :=
  State.running_keeps (P := s.SameRecords) h (.rfl' s)
    (State.serve_keeps (P := s.SameRecords) type (.rfl' s) (fun _ _ _ _ => done) fun _ _ => State.SameRecords.port)

theorem exec_sameRecords {c : Instr} {s t : State} (of : touchesNoRecord c = true) (h : exec c s = .next t) :
    s.SameRecords t := by
  have port {u : State} (only : s.PortOnly u) : s.SameRecords u := .port only (.rfl' s)
  have received {u : State} (k : s.Receives u) : s.SameRecords u :=
    ⟨k.outside.lines, k.outside.windows, k.outside.classes, k.outside.time, k.timers, k.domains, k.outside.pending⟩
  have ran {effect : State → State} (h : s.running effect = .next t) (keeps : s.SameRecords (effect s)) : s.SameRecords t :=
    State.running_keeps (P := s.SameRecords) h (.rfl' s) keeps
  cases c with
  | ping | identify | readStatus | resetFull | readWindow | readClasses | readTimer | readDomain =>
    exact port (exec_portOnly rfl h)
  | rxCharacter | framingError | gapError | characterStartEdge => exact received (exec_receives rfl h)
  | addressStrobe address pins wr requester =>
    simp only [exec, execAddressStrobe] at h
    refine ran h ?_
    split
    · exact .rfl' s
    · split
      · unfold State.offer
        split <;> constructor <;> rfl
      · exact .rfl' s
  | ackTimerExpiry =>
    simp only [exec, execAckTimerExpiry] at h
    refine ran h ?_
    split
    · exact .rfl' s
    · split <;> constructor <;> rfl
  | silentClaim =>
    simp only [exec, execSilentClaim] at h
    refine ran h ?_
    split
    · constructor <;> rfl
    · exact .rfl' s
  | rxBreak =>
    simp only [exec, execRxBreak] at h
    refine ran h ?_
    split <;> constructor <;> rfl
  | takeRequest =>
    simp only [exec, execTakeRequest] at h
    refine ran h ?_
    split
    · exact .rfl' s
    · split
      · unfold State.passChecks State.reopen
        split <;> split <;> constructor <;> rfl
      · exact .rfl' s
  | frameBoundary =>
    have arbitrated : s.SameRecords s.arbitrate := by
      unfold State.arbitrate
      split
      · constructor <;> rfl
      · split <;> constructor <;> rfl
    simp only [exec, execFrameBoundary] at h
    refine ran h ?_
    split
    · split
      · constructor <;> rfl
      · exact arbitrated
    · exact arbitrated
  | openSession =>
    refine State.serve_sameRecords (owner := fun s p => some (s.ownOpen p)) h fun eq => ?_
    obtain ⟨_, _, _, rfl⟩ := State.ownOpen_done (Option.some.inj eq)
    constructor <;> rfl
  | closeSession =>
    refine State.serve_sameRecords (owner := fun s _ => some s.ownClose) h fun eq => ?_
    cases Option.some.inj eq
    constructor <;> rfl
  | setReporting =>
    refine State.serve_sameRecords (owner := fun s p => some (s.ownReporting p)) h fun eq => ?_
    obtain ⟨_, _, _, _, rfl⟩ := State.ownReporting_done (Option.some.inj eq)
    constructor <;> rfl
  | ack =>
    refine State.serve_sameRecords (owner := fun s p => some (s.ownAck p)) h fun eq => ?_
    obtain ⟨_, _, _, _, rfl⟩ := State.ownAck_done (Option.some.inj eq)
    constructor <;> rfl
  | setSnoop =>
    refine State.serve_sameRecords (owner := fun s p => some (s.ownSnoop p)) h fun eq => ?_
    obtain ⟨_, rfl⟩ := State.ownSnoop_done (Option.some.inj eq)
    constructor <;> rfl
  | setFallthrough =>
    refine State.serve_sameRecords (owner := fun s p => some (s.ownFallthrough p)) h fun eq => ?_
    obtain ⟨_, rfl⟩ := State.ownFallthrough_done (Option.some.inj eq)
    constructor <;> rfl
  | powerOnReset vdd vddio =>
    cases h
    constructor <;> rfl
  | resetPinRawChange level =>
    cases h
    constructor <;> rfl
  | resetPin =>
    cases h
    split
    · dsimp only
      split <;> constructor <;> rfl
    · exact .rfl' s
  | resetPinRelease =>
    cases h
    split
    · constructor <;> rfl
    · exact .rfl' s
  | _ => cases of

end Sys2Proof.Machine
end

section
/-! SUPPORT. What pulses, holds and expiries change at most, and what they keep: the soundness of timers and domains, the ordinary
reports of the queue, and, where no hold begins or ends, who holds and which timers are HELD. -/

namespace Sys2Proof.Machine

/-! ## What pulses, holds and expiries change at most -/

/-- Lines, classes, timers, domains, the Report Queue and what is on its way may change: timers and domains stay sound, and the
queue takes ordinary reports. -/
structure State.Activity (s t : State) : Prop where
  snoop : t.snoop = s.snoop
  fifo : t.fifo = s.fifo
  windows : t.windows = s.windows
  fallthrough : t.fallthrough = s.fallthrough
  time : t.time = s.time
  link : t.link = s.link
  unit : t.unit = s.unit
  board : t.board = s.board
  pending : t.pending = s.pending
  timers : ∀ i, (s.timer i).Sound → (t.timer i).Sound
  domains : s.DomainsSound → t.DomainsSound
  reports : s.Reports t

theorem State.Activity.rfl' (s : State) : s.Activity s where
  snoop := rfl
  fifo := rfl
  windows := rfl
  fallthrough := rfl
  time := rfl
  link := rfl
  unit := rfl
  board := rfl
  pending := rfl
  timers _ := id
  domains := id
  reports := .none

theorem State.Activity.trans {s t u : State} (h : s.Activity t) (k : t.Activity u) : s.Activity u where
  snoop := k.snoop.trans h.snoop
  fifo := k.fifo.trans h.fifo
  windows := k.windows.trans h.windows
  fallthrough := k.fallthrough.trans h.fallthrough
  time := k.time.trans h.time
  link := k.link.trans h.link
  unit := k.unit.trans h.unit
  board := k.board.trans h.board
  pending := k.pending.trans h.pending
  timers i := k.timers i ∘ h.timers i
  domains := k.domains ∘ h.domains
  reports := h.reports.trans k.reports

/-- Lines, classes, timers and what is on its way changed, and timers kept sound. -/
theorem State.activity_of_timers {s t : State}
    (h : t = { s with lines := t.lines, classes := t.classes, timers := t.timers, notices := t.notices, handed := t.handed
                      freeDraws := t.freeDraws })
    (timers : ∀ i, (s.timer i).Sound → (t.timer i).Sound) : s.Activity t where
  snoop := by rw [h]
  fifo := by rw [h]
  windows := by rw [h]
  fallthrough := by rw [h]
  time := by rw [h]
  link := by rw [h]
  unit := by rw [h]
  board := by rw [h]
  pending := by rw [h]
  timers := timers
  domains sound := sound.of_domains (by rw [h])
  reports := by rw [State.Reports, h]; exact .none

/-- A timer moved without beginning or ending a hold of it: STOPPED and HELD as before, with the same watch set, and sound. -/
structure Timer.Kept (x y : Timer) : Prop where
  watch : y.watch = x.watch
  stopped : y.state = .stopped ↔ x.state = .stopped
  held : y.state = .held ↔ x.state = .held
  sound : x.Sound → y.Sound

theorem Timer.Kept.rfl' (x : Timer) : x.Kept x := ⟨rfl, .rfl, .rfl, id⟩

theorem Timer.Kept.trans {x y z : Timer} (h : x.Kept y) (k : y.Kept z) : x.Kept z :=
  ⟨k.watch.trans h.watch, k.stopped.trans h.stopped, k.held.trans h.held, k.sound ∘ h.sound⟩

theorem Timer.reload_kept (x : Timer) : x.Kept x.reload := by
  refine ⟨?_, ?_, ?_, Timer.Sound.reload⟩ <;> cases st : x.state <;> simp [Timer.reload, st, Timer.countFromLoad]

theorem Timer.expire_kept {x : Timer} (counting : x.state = .counting) : x.Kept x.expire := by
  refine ⟨?_, ?_, ?_, fun sound => sound.expire counting⟩ <;> cases mode : x.mode <;> simp [Timer.expire, mode, counting]

theorem Timer.tick_kept (x : Timer) : x.Kept x.tick := by
  refine ⟨?_, ?_, ?_, Timer.Sound.tick⟩ <;> unfold Timer.tick <;> split <;> try split
  all_goals simp

/-- Beyond that, no hold begins or ends: the lines, the holder sets and what is HELD are the same. -/
structure State.Notified (s t : State) : Prop extends s.Activity t where
  lines : t.lines = s.lines
  holders : ∀ c, (t.cls c).holders = (s.cls c).holders
  kept : ∀ i, (s.timer i).Kept (t.timer i)

theorem State.Notified.rfl' (s : State) : s.Notified s := ⟨.rfl' s, rfl, fun _ => rfl, fun _ => .rfl' _⟩

theorem State.Notified.trans {s t u : State} (h : s.Notified t) (k : t.Notified u) : s.Notified u :=
  ⟨h.toActivity.trans k.toActivity, k.lines.trans h.lines, fun c => (k.holders c).trans (h.holders c),
   fun i => (h.kept i).trans (k.kept i)⟩

/-- A chain of takings, each of which notifies, does. -/
theorem State.Notified.foldl {α : Type} {f : State → α → State} (step : ∀ (u : State) x, u.Notified (f u x)) (xs : List α)
    (s : State) :
    s.Notified (xs.foldl f s) := by
  induction xs generalizing s with
  | nil => exact .rfl' s
  | cons x xs ih => exact (step s x).trans (ih _)

/-- The same for takings whose takers are among some. -/
theorem State.Notified.foldl_mem {α : Type} {f : State → α → State} (xs : List α)
    (step : ∀ x ∈ xs, ∀ u : State, u.Notified (f u x))
    (s : State) : s.Notified (xs.foldl f s) := by
  induction xs generalizing s with
  | nil => exact .rfl' s
  | cons x xs ih => exact (step x (by simp) s).trans (ih (fun y mem => step y (by simp [mem])) _)

/-! ## Domains, reports, hand-offs -/

theorem State.DomainStep.notified {s t : State} {d : DomainId} (h : s.DomainStep t d) : s.Notified t where
  snoop := h.outside.snoop
  fifo := h.outside.fifo
  windows := h.outside.windows
  fallthrough := h.outside.fallthrough
  time := h.outside.time
  link := h.outside.link
  unit := h.outside.unit
  board := h.outside.board
  pending := h.outside.pending
  lines := h.outside.lines
  holders c := by rw [h.outside.cls]
  kept i := by
    rcases h.timer i with eq | eq <;> rw [eq]
    · exact .rfl' _
    · exact (s.timer i).reload_kept
  timers i := by
    rcases h.timer i with eq | eq <;> rw [eq]
    · exact id
    · exact Timer.Sound.reload
  domains sound := sound.of_only h.other (h.sound (sound d))
  reports := h.reports

/-- Timers moved without beginning or ending a hold, class records stamped, and what is on its way changed. -/
theorem State.notified_of_kept {s t : State}
    (h : t = { s with classes := t.classes, timers := t.timers, notices := t.notices, handed := t.handed, freeDraws := t.freeDraws })
    (holders : ∀ c, (t.cls c).holders = (s.cls c).holders) (kept : ∀ i, (s.timer i).Kept (t.timer i)) : s.Notified t where
  toActivity := State.activity_of_timers (by rw [h]) fun i => (kept i).sound
  lines := by rw [h]
  holders := holders
  kept := kept

/-- What is on its way changed alone. -/
theorem State.notified_aside (s : State) (notices : List Notice) (handed : List HandedExpiry) (draws : Nat) :
    s.Notified { s with notices := notices, handed := handed, freeDraws := draws } :=
  State.notified_of_kept rfl (fun _ => rfl) fun _ => .rfl' _

theorem State.report_notified (s : State) {r : Report} (ordinary : r.Ordinary) : s.Notified (s.report r) :=
  { State.Notified.rfl' s with reports := s.report_reports ordinary }

theorem State.takeExpiry_notified (s : State) (d : DomainId) (n : Nat) : s.Notified (s.takeExpiry d n) :=
  ((s.takeExpiry_onlyDomain d n).step (s.takeExpiry_reports d n) fun sound => State.takeExpiry_sound sound n).notified

theorem State.setTimer_notified {s : State} {i : TimerId} {x : Timer} (kept : (s.timer i).Kept x) : s.Notified (s.setTimer i x) := by
  refine State.notified_of_kept rfl (fun _ => rfl) fun j => ?_
  rw [State.timer_setTimer]
  split
  case isTrue eq => exact eq ▸ kept
  case isFalse => exact .rfl' _

theorem State.mapTimers_notified {s : State} {f : Timer → Timer} (kept : ∀ i, (s.timer i).Kept (f (s.timer i))) :
    s.Notified (s.mapTimers f) :=
  State.notified_of_kept rfl (fun _ => rfl) fun i => State.timer_mapTimers s f i ▸ kept i

/-- What a hand-off may carry: an ordinary report, and a wake with a last wake cause. -/
structure HandOff.Ordinary (x : HandOff) : Prop where
  report : ∀ r, x = .report r → r.Ordinary
  wake : ∀ d c, x = .wake d c → c.wakesLast = true

theorem State.take_notified (s : State) {x : HandOff} (h : x.Ordinary) : s.Notified (s.take x) := by
  cases x with
  | wake d c => exact (s.wake_step d (h.wake d c rfl)).notified
  | expiry d n => exact s.takeExpiry_notified d n
  | report r => exact s.report_notified (h.report r rfl)

theorem State.handOver_notified (s : State) {xs : List HandOff} (h : ∀ x ∈ xs, x.Ordinary) : s.Notified (s.handOver xs) := by
  obtain ⟨order, n, perm, eq⟩ := s.handOver_fold xs
  rw [eq]
  exact (s.notified_aside s.notices s.handed n).trans
    (.foldl_mem order (fun x mem u => u.take_notified (h x (perm.mem_iff.1 mem))) _)

theorem wakesOf_ordinary {s : State} {c : ClassId} {x : HandOff} (h : x ∈ s.wakesOf c) : x.Ordinary := by
  obtain ⟨d, -, rfl⟩ := mem_wakesOf.1 h
  exact ⟨fun _ eq => (by cases eq), fun _ _ eq => (by cases eq; rfl)⟩

theorem HandOff.report_ordinary {r : Report} (h : r.Ordinary) : (HandOff.report r).Ordinary :=
  ⟨fun _ eq => (by cases eq; exact h), fun _ _ eq => (by cases eq)⟩

theorem HandOff.expiry_ordinary (d : DomainId) (n : Nat) : (HandOff.expiry d n).Ordinary :=
  ⟨fun _ eq => (by cases eq), fun _ _ eq => (by cases eq)⟩

/-! ## Pulses and notices -/

theorem State.stampClass_notified (s : State) (c : ClassId) : s.Notified (s.stampClass c) := by
  refine State.notified_of_kept rfl (fun e => ?_) fun _ => .rfl' _
  simp only [State.stampClass, State.cls_setCls]
  split
  case isTrue eq => rw [eq]
  case isFalse => rfl

theorem State.pulseTimers_notified (s : State) (c : ClassId) : s.Notified (s.pulseTimers c) := by
  refine (s.stampClass_notified c).trans (State.mapTimers_notified fun i => ?_)
  split
  · exact Timer.reload_kept _
  · exact .rfl' _

theorem State.pulse_notified (s : State) (c : ClassId) : s.Notified (s.pulse c) :=
  (s.pulseTimers_notified c).trans (State.handOver_notified _ fun _ => wakesOf_ordinary)

theorem State.spreadPulse_notified (s : State) (c : ClassId) (ofRequest : Bool) : s.Notified (s.spreadPulse c ofRequest) :=
  (s.stampClass_notified c).trans (State.notified_aside _ _ _ _)

theorem State.hear_notified (s : State) (n : Notice) : s.Notified (s.hear n) := by
  unfold State.hear
  split
  · split
    · exact State.setTimer_notified (Timer.reload_kept _)
    · exact .rfl' s
  · split
    · exact (s.wake_step _ rfl).notified
    · exact .rfl' s

theorem State.takeNotice_notified (s : State) (x : Listener) : s.Notified (s.takeNotice x) := by
  rcases s.takeNotice_cases x with ⟨eq, -⟩ | ⟨n, -, -, eq⟩ <;> rw [eq]
  · exact .rfl' s
  · exact (s.notified_aside _ s.handed s.freeDraws).trans (State.hear_notified _ n)

theorem State.takeAwaited_notified (s : State) : s.Notified s.takeAwaited := by
  obtain ⟨order, n, -, eq, -⟩ := s.takeAwaited_fold
  rw [eq]
  exact (s.notified_aside s.notices s.handed n).trans (.foldl State.takeNotice_notified order _)

theorem trapReport_ordinary (w : WindowId) (o : Observation) : (trapReport w o).Ordinary :=
  ⟨fun eq => (by cases eq), fun _ eq => (by cases eq)⟩

theorem State.decisionHandOffs_notified (s : State) (pulsed : Option ClassId) {reports : List HandOff}
    (ordinary : ∀ x ∈ reports, x.Ordinary) (spread : Bool) : s.Notified (s.decisionHandOffs pulsed reports spread) := by
  unfold State.decisionHandOffs
  cases pulsed with
  | none => exact s.handOver_notified ordinary
  | some c =>
    dsimp only
    split
    · exact (s.spreadPulse_notified c false).trans (State.handOver_notified _ ordinary)
    · refine (s.pulseTimers_notified c).trans (State.handOver_notified _ fun x mem => ?_)
      exact (List.mem_append.1 mem).elim (ordinary x) wakesOf_ordinary

/-! ## Expiries -/

theorem expiryReport_ordinary {s : State} {i : TimerId} {x : HandOff} (h : x ∈ s.expiryReports i) : x.Ordinary := by
  unfold State.expiryReports at h
  split at h
  · rw [List.mem_singleton.1 h]
    exact HandOff.report_ordinary ⟨fun eq => (by cases eq), fun _ eq => (by cases eq)⟩
  · cases h

theorem expiriesOf_ordinary {s : State} {i : TimerId} {x : HandOff} (h : x ∈ s.expiriesOf i) : x.Ordinary := by
  obtain ⟨d, -, rfl⟩ := List.mem_map.1 h
  exact HandOff.expiry_ordinary d _

theorem Timer.counting_of_expires {x : Timer} (h : x.expires = true) : x.state = .counting := by
  simp only [Timer.expires, Bool.and_eq_true, beq_iff_eq] at h
  exact h.1

theorem State.takePart_notified (s : State) (i : TimerId) (part : ExpiryPart) : s.Notified (s.takePart i part) := by
  have expired (due : (s.timer i).expires = true) : s.Notified (s.setTimer i (s.timer i).expire) :=
    State.setTimer_notified (Timer.expire_kept (Timer.counting_of_expires due))
  cases part with
  | whole =>
    simp only [State.takePart, State.takeDue]
    split
    case isTrue due =>
      refine (expired due).trans (State.handOver_notified _ fun x mem => ?_)
      exact (List.mem_append.1 mem).elim expiryReport_ordinary expiriesOf_ordinary
    case isFalse => exact .rfl' s
  | atTimer =>
    simp only [State.takePart, State.expireAtTimer]
    split
    case isTrue due =>
      exact ((expired due).trans (State.handOver_notified _ fun _ => expiryReport_ordinary)).trans (State.notified_aside _ _ _ _)
    case isFalse => exact .rfl' s
  | atDomain d =>
    rcases s.takeHanded_cases i d with ⟨eq, -⟩ | ⟨x, -, -, -, eq⟩ <;> simp only [State.takePart] <;> rw [eq]
    · exact .rfl' s
    · have gone := s.notified_aside s.notices (s.handed.erase x) s.freeDraws
      split
      · exact gone.trans (State.takeExpiry_notified _ d _)
      · exact gone

theorem State.takeOutstanding_notified (s : State) : s.Notified s.takeOutstanding := by
  obtain ⟨order, n, -, eq⟩ := s.takeOutstanding_fold
  rw [eq]
  exact (s.notified_aside s.notices s.handed n).trans (.foldl (fun u x => u.takePart_notified x.1 x.2) order _)

/-! ## Holds -/

theorem State.setLine_activity (s : State) (l : LineId) (x : Line) : s.Activity (s.setLine l x) :=
  State.activity_of_timers rfl fun _ => id

theorem State.joinHold_activity (s : State) (l : LineId) (c : ClassId) : s.Activity (s.joinHold l c) := by
  unfold State.joinHold
  dsimp only
  split <;> refine State.activity_of_timers rfl fun i sound => ?_ <;> rw [State.timer_mapTimers] <;> split
  · exact Timer.Sound.reload sound
  · exact sound
  · exact Timer.Sound.becomeHeld sound
  · exact sound

theorem State.endHold_activity (s : State) (l : LineId) (c : ClassId) : s.Activity (s.endHold l c) := by
  unfold State.endHold
  dsimp only
  split
  · exact State.activity_of_timers rfl fun _ => id
  · refine State.activity_of_timers rfl fun i sound => ?_
    rw [State.timer_mapTimers]
    split
    · exact Timer.Sound.release sound _
    · exact sound

theorem State.beginHold_activity (s : State) (l : LineId) (c : ClassId) : s.Activity (s.beginHold l c) :=
  (s.joinHold_activity l c).trans (State.handOver_notified _ fun _ => wakesOf_ordinary).toActivity

theorem State.spreadHold_activity (s : State) (l : LineId) (c : ClassId) (ofRequest : Bool) :
    s.Activity (s.spreadHold l c ofRequest) :=
  (s.joinHold_activity l c).trans (State.notified_aside _ _ _ _).toActivity

theorem State.lineHolds_activity (s : State) (l : LineId) (spread ofRequest : Bool) :
    s.Activity (s.lineHolds l spread ofRequest) := by
  unfold State.lineHolds
  dsimp only
  split
  · exact (s.setLine_activity l _).trans (State.spreadHold_activity _ _ _ _)
  · exact (s.setLine_activity l _).trans (State.beginHold_activity _ _ _)

theorem State.lineReleases_activity (s : State) (l : LineId) : s.Activity (s.lineReleases l) := by
  unfold State.lineReleases
  split
  · exact .rfl' s
  · exact (s.setLine_activity l _).trans (State.endHold_activity _ _ _)

theorem State.qualifyEdge_activity (s : State) (l : LineId) (spread : Bool) : s.Activity (s.qualifyEdge l spread) := by
  unfold State.qualifyEdge
  split
  · split
    · exact s.lineHolds_activity l spread false
    · exact s.lineReleases_activity l
  · split
    · split
      · exact (s.spreadPulse_notified _ false).toActivity
      · exact (s.pulse_notified _).toActivity
    · exact .rfl' s

theorem State.configureLine_activity (s : State) (l : LineId) (qualifier : Qualifier) (cls : ClassId) (spread : Bool) :
    s.Activity (s.configureLine l qualifier cls spread) := by
  have configured := (s.lineReleases_activity l).trans
    ((s.lineReleases l).setLine_activity l { (s.lineReleases l).line l with qualifier := qualifier, cls := cls })
  unfold State.configureLine
  dsimp only
  split
  · exact configured.trans (State.lineHolds_activity _ l spread true)
  · exact configured

theorem State.softResetLine_activity (s : State) (l : LineId) : s.Activity (s.softResetLine l) :=
  (s.lineReleases_activity l).trans (State.setLine_activity _ _ _)

theorem State.foldl_softResetLine_activity (ls : List LineId) (s : State) : s.Activity (ls.foldl State.softResetLine s) := by
  induction ls generalizing s with
  | nil => exact .rfl' s
  | cons l ls ih => exact (s.softResetLine_activity l).trans (ih _)

end Sys2Proof.Machine
end

section
/-! SUPPORT. The commands that touch a record, each as one of few effects: what every invariant of a step is proved from. -/

namespace Sys2Proof.Machine

/-! ## Records in their ranges -/

/-- A window record's ranges (R16). -/
structure Window.Fits (w : Window) : Prop where
  hits : w.hits ≤ 65535
  span : w.config.span ≤ 32
  requesters : w.config.requesters ≠ some 0

/-- A running timer is HELD exactly while a class of its watch set is held (R48, R54). -/
def State.Agrees (s : State) (x : Timer) : Prop := x.state ≠ .stopped → (x.state = .held ↔ s.anyHeld x.watch = true)

/-- The requests in hand that may lower a hit count, each with its command (R22, R29, R32, R164). -/
def State.Clears (s : State) (c : Instr) : Prop :=
  ∃ r, s.unit.inHand = some r ∧
    (c = .readHits ∧ r.type = 0x16 ∧ r.payload.getD 2 0 = 1 ∨ c = .writeWindow ∧ r.type = 0x14 ∧ r.payload.getD 14 0 = 1 ∨
      c = .resetSoft .windowTable ∧ r.type = 0x06 ∧ r.payload.getD 0 0 = 2)

/-! ## The effects -/

/-- What a command that touches a record does: a part of an expiry, a pulse's notices or a step of one domain; a decision; a raw
level; an edge; an increment; a line configured; a block's soft reset; a window or a timer written; the end of a full reset. Requests
end with the reply's part. -/
inductive State.Effect (c : Instr) (s t : State) : Prop where
  | notified (u : State) (notified : s.Notified u) (port : u.PortOnly t)
  | decision (o : Observation) (rest : List Observation) (spread : Bool) (fifo : s.fifo = o :: rest)
      (eq : t = ({ s with fifo := rest } : State).decide o spread)
  | rawLevel (l : LineId) (level : Bool) (eq : t = s.setLine l { s.line l with raw := level })
  | edge (l : LineId) (spread : Bool) (candidate : (s.line l).raw ≠ (s.line l).level)
      (eq : t = (s.setLine l { s.line l with level := (s.line l).raw }).qualifyEdge l spread)
  | increment (command : c = .governorTimeIncrement)
      (eq : t = ({ s.takeOutstanding with time := s.takeOutstanding.time + 1 } : State).mapTimers Timer.tick)
  | configured (l : LineId) (qualifier : Qualifier) (cls : ClassId) (spread : Bool)
      (port : (s.configureLine l qualifier cls spread).PortOnly t)
  | softReset (block : SoftBlock) (clears : block = .windowTable → s.Clears c) (port : (s.softReset block).PortOnly t)
  | window (w : WindowId) (x : Window) (fits : (s.window w).Fits → x.Fits)
      (clears : x.hits < (s.window w).hits → s.Clears c) (port : (s.setWindow w x).PortOnly t)
  | timer (i : TimerId) (x : Timer) (sound : (s.timer i).Sound → x.Sound) (agrees : s.Agrees (s.timer i) → s.Agrees x)
      (port : (s.setTimer i x).PortOnly t)
  | fullReset (cause : ResetCause) (rate : Rate) (command : ∃ rate1 rate0 refclk, c = .fullResetEnd rate1 rate0 refclk)
      (inProgress : s.board.fullReset = some cause) (eq : t = s.endFullReset cause rate)

section Shapes

variable {c : Instr}

theorem State.Effect.nothing (s : State) : s.Effect c s := .notified s (.rfl' s) (.rfl' s)

theorem State.Effect.port {s t : State} (h : s.PortOnly t) : s.Effect c t := .notified s (.rfl' s) h

theorem State.Notified.effect {s t : State} (h : s.Notified t) : s.Effect c t := .notified t h (.rfl' t)

/-- A command of a running part has the effect of its meaning, or none. -/
theorem State.Effect.of_running {s t : State} {effect : State → State} (h : s.running effect = .next t)
    (of : s.Effect c (effect s)) : s.Effect c t := State.running_keeps (P := s.Effect c) h (.nothing s) of

/-- A part of a command that gives a pulse: a listener's taking, or the command's event. -/
theorem State.Effect.of_part {s : State} {part : PulsePart} {event : Bool → State} (of : ∀ spread, s.Effect c (event spread)) :
    s.Effect c (s.inPart part event) := by
  cases part with
  | whole => exact of false
  | atClassMap => exact of true
  | atListener x => exact (s.takeNotice_notified x).effect

/-- A request executed in one event: its owner's effect with the reply's part, or the reply's part alone. -/
theorem State.Effect.of_serve {s : State} {type : Byte} {owner : List Byte → Verdict}
    (done : ∀ {r status part u t}, s.unit.inHand = some r → r.type = type → owner r.payload = .done status part u →
      u.PortOnly t → s.Effect c t) :
    s.Effect c (s.serveAll type owner) := by
  obtain ⟨u, rfl | ⟨r, status, part, inHand, ht, eq⟩, only⟩ := s.serve_portOnly type fun p => some (owner p)
  · exact .port only
  · exact done inHand ht (Option.some.inj eq) only

/-- A request that gives a pulse: before its reply joins, what is still on its way from it is taken. -/
theorem State.Effect.of_servePulse {s : State} {type : Byte} {owner : List Byte → Verdict}
    (done : ∀ {payload status part u t}, owner payload = .done status part u → u.PortOnly t → s.Effect c t) :
    s.Effect c (s.servePulse type owner) := by
  unfold State.servePulse
  split
  · obtain ⟨u, rfl | ⟨r, status, part, -, -, eq⟩, only⟩ := s.takeAwaited.serve_portOnly type fun p => some (owner p)
    · exact .notified _ s.takeAwaited_notified only
    · exact done (Option.some.inj eq) only
  · exact .of_serve fun _ _ => done

end Shapes

/-! ## Windows -/

section Owners

variable {c : Instr} {s u t : State} {payload : List Byte} {status : Status} {part : List Byte}

theorem windowConfig?_span {c : WindowConfig} (h : windowConfig? payload = some c) : c.span ≤ 32 :=
  (between?_range (windowConfig?_eq_some_iff.1 h).2.2.2.1).2

theorem eq_one_of_flag? {b : Byte} (h : flag? b = some true) : b = 1 := by revert h; revert b; decide

theorem State.ownWriteWindow_effect {r : Request} (inHand : s.unit.inHand = some r) (ht : r.type = 0x14)
    (h : s.ownWriteWindow r.payload = .done status part u) (port : u.PortOnly t) : s.Effect .writeWindow t := by
  unfold State.ownWriteWindow at h
  split at h
  case h_2 => cases h
  case h_1 w config clear _ decoded flag =>
    split at h
    case isTrue => cases h
    case isFalse nonempty =>
      cases h
      refine .window w _ (fun fits => ⟨?_, windowConfig?_span decoded, nonempty⟩) (fun less => ?_) port
      · cases clear
        · exact fits.hits
        · exact Nat.zero_le _
      · cases clear
        · exact absurd less (Nat.lt_irrefl _)
        · exact ⟨r, inHand, .inr (.inl ⟨rfl, ht, eq_one_of_flag? flag⟩)⟩

theorem State.ownArmTrap_effect (h : s.ownArmTrap payload = .done status part u) (port : u.PortOnly t) : s.Effect c t := by
  unfold State.ownArmTrap at h
  split at h <;> cases h
  exact .window _ { s.window _ with armed := true } (fun fits => ⟨fits.hits, fits.span, fits.requesters⟩)
    (fun less => absurd less (Nat.lt_irrefl _)) port

/-- A window's step of READ_HITS: the window read, cleared or not, and then the count kept or the reply made. -/
theorem State.hitsStep_effect (r : Request) (first number : Nat) (clear : Bool) (clears : clear = true → s.Clears c) :
    s.Effect c (s.hitsStep r first number clear) := by
  have read (w : WindowId) : ∃ x, ((s.window w).Fits → x.Fits) ∧ (x.hits < (s.window w).hits → s.Clears c) ∧
      s.readWindowHits w clear = s.setWindow w x := by
    unfold State.readWindowHits
    split
    case isTrue eq =>
      exact ⟨{ s.window w with hits := 0 }, fun fits => ⟨Nat.zero_le _, fits.span, fits.requesters⟩, fun _ => clears eq, rfl⟩
    case isFalse =>
      exact ⟨s.window w, id, fun less => absurd less (Nat.lt_irrefl _), by simp [State.setWindow, State.window, set_get_self]⟩
  unfold State.hitsStep
  split
  case isFalse => exact .nothing s
  case isTrue h =>
    dsimp only
    obtain ⟨x, fits, lowers, eq⟩ := read ⟨first + s.unit.hitsRead.length, h⟩
    rw [eq]
    split <;> exact .window _ x fits lowers (by constructor <;> rfl)

/-! ## Timers -/

theorem Timer.start_agrees {x : Timer} (h : s.Agrees x) : s.Agrees (x.start (s.anyHeld x.watch)) := by
  intro _
  cases st : x.state with
  | stopped => cases held : s.anyHeld x.watch <;> simp [Timer.start, st, held, Timer.holdAtLoad, Timer.countFromLoad]
  | expired => cases held : s.anyHeld x.watch <;> simp [Timer.start, st, held, Timer.holdAtLoad, Timer.countFromLoad]
  | counting =>
    have := h (by simp [st])
    simpa [Timer.start, st, Timer.reload, Timer.countFromLoad] using this
  | held =>
    have := h (by simp [st])
    simpa [Timer.start, st, Timer.reload] using this

theorem Timer.meetWatchSet_agrees (x : Timer) : s.Agrees (x.meetWatchSet (s.anyHeld x.watch)) := by
  intro running
  cases held : s.anyHeld x.watch <;> cases st : x.state <;>
    simp_all [Timer.meetWatchSet, Timer.holdAtLoad, Timer.countFromLoad]

@[simp] theorem Timer.meetWatchSet_watch (x : Timer) (b : Bool) : (x.meetWatchSet b).watch = x.watch := by
  cases st : x.state <;> cases b <;> simp [Timer.meetWatchSet, st, Timer.holdAtLoad, Timer.countFromLoad]

theorem State.ownWriteTimer_effect (h : s.ownWriteTimer payload = .done status part u) (port : u.PortOnly t) : s.Effect c t := by
  unfold State.ownWriteTimer at h
  split at h
  case h_2 => cases h
  case h_1 i loadCount unit mode report restart _ loadCount? _ _ _ _ =>
    cases h
    have agrees := Timer.meetWatchSet_agrees (s := s)
      ((s.timer i).configure loadCount unit mode (word16 (payload.getD 4 0) (payload.getD 5 0)) report)
    refine .timer i _ (fun sound => ?_) (fun _ => ?_) port
    · have met := (sound.configure (between?_range loadCount?) unit mode (word16 (payload.getD 4 0) (payload.getD 5 0))
        report).meetWatchSet (s.anyHeld (word16 (payload.getD 4 0) (payload.getD 5 0)))
      cases restart
      · exact met
      · exact met.start _
    · cases restart
      · exact agrees
      · have started := Timer.start_agrees agrees
        rwa [Timer.meetWatchSet_watch] at started

theorem State.ownStartTimer_effect (h : s.ownStartTimer payload = .done status part u) (port : u.PortOnly t) : s.Effect c t := by
  unfold State.ownStartTimer at h
  split at h <;> cases h
  exact .timer _ _ (fun sound => sound.start _) Timer.start_agrees port

theorem State.ownStopTimer_effect (h : s.ownStopTimer payload = .done status part u) (port : u.PortOnly t) : s.Effect c t := by
  unfold State.ownStopTimer at h
  split at h <;> cases h
  exact .timer _ _ Timer.Sound.stopped (fun _ running => absurd rfl running) port

/-! ## Lines and classes -/

theorem State.ownLine_effect {spread : Bool} (h : s.ownLine spread payload = .done status part u) (port : u.PortOnly t) :
    s.Effect c t := by
  unfold State.ownLine at h
  split at h <;> cases h
  exact .configured _ _ _ spread port

theorem State.ownNudge_effect {spread : Bool} (h : s.ownNudge spread payload = .done status part u) (port : u.PortOnly t) :
    s.Effect c t := by
  unfold State.ownNudge at h
  split at h <;> cases h
  refine .notified _ ?_ port
  split
  · exact s.spreadPulse_notified _ true
  · exact s.pulse_notified _

end Owners

/-! ## Every command that touches a record -/

theorem eq_two_of_scope? {b : Byte} (h : scope? b = some .soft) : b = 2 := by revert h; revert b; decide

theorem hitsRange?_flag {payload : List Byte} {first number : Nat} {clear : Bool}
    (h : hitsRange? payload = some (first, number, clear)) : flag? (payload.getD 2 0) = some clear := by
  unfold hitsRange? at h
  dsimp only at h
  split at h
  case h_2 => cases h
  case h_1 flag =>
    split at h <;> cases h
    exact flag

/-- A block's event of a soft reset: the block's reset and the progress or the reply, the reply's part, or nothing. -/
theorem execResetSoft_effect {block : SoftBlock} {s t : State} (h : execResetSoft block s = .next t) :
    s.Effect (.resetSoft block) t := by
  refine .of_running h ?_
  rcases s.requestEvent_cases 0x06 _ with eq | ⟨r, inHand, ht, ⟨reply, -, eq⟩ | ⟨-, eq⟩⟩ <;> rw [eq]
  · exact .nothing s
  · exact .port (State.joinReply_portOnly inHand reply)
  · split
    case h_1 scope =>
      unfold State.softStep
      split
      · exact .nothing s
      · have unit : (s.softReset block).unit = s.unit := by
          cases block with
          | lineMonitor => exact (State.foldl_softResetLine_activity allLines s).unit
          | _ => rfl
        have clears (eq : block = .windowTable) : s.Clears (.resetSoft block) :=
          ⟨r, inHand, .inr (.inr ⟨by rw [eq], ht, eq_two_of_scope? scope⟩)⟩
        dsimp only
        split <;> refine .softReset block clears ?_ <;> constructor <;> first | rfl | simp [unit]
    case h_2 => exact .nothing s
    case h_3 => exact .port (s.answer_portOnly r _ _)

theorem execReadHits_effect {s t : State} (h : execReadHits s = .next t) : s.Effect .readHits t := by
  refine .of_running h ?_
  rcases s.requestEvent_cases 0x16 _ with eq | ⟨r, inHand, ht, ⟨reply, -, eq⟩ | ⟨-, eq⟩⟩ <;> rw [eq]
  · exact .nothing s
  · exact .port (State.joinReply_portOnly inHand reply)
  · split
    case h_1 first number clear range =>
      refine State.hitsStep_effect r first number clear fun eq => ⟨r, inHand, .inl ⟨rfl, ht, ?_⟩⟩
      exact eq_one_of_flag? (by rw [hitsRange?_flag range, eq])
    case h_2 =>
      exact .port (s.answer_portOnly r _ _)

/-- Every command that touches a record has one of the effects. -/
theorem exec_effect {c : Instr} {s t : State} (of : touchesNoRecord c = false) (h : exec c s = .next t) : s.Effect c t := by
  by_cases domain : ofDomain c = true
  · obtain ⟨d, u, step, port⟩ := exec_ofDomain domain h
    exact .notified u step.notified port
  have neither : (touchesNoRecord c || ofDomain c) = false := by simp [of, domain]
  cases c with
  | matchDecision part =>
    simp only [exec, execMatchDecision] at h
    refine .of_running h (.of_part fun spread => ?_)
    split
    case h_1 => exact .nothing s
    case h_2 o rest fifo => exact .decision o rest spread fifo rfl
  | lineRawChange n level =>
    simp only [exec, execLineRawChange] at h
    obtain ⟨l, -, h⟩ := onLine_next h
    cases h
    exact .rawLevel l level rfl
  | recognisedEdge n part =>
    simp only [exec, execRecognisedEdge] at h
    obtain ⟨l, -, h⟩ := onLine_next h
    refine .of_running h (.of_part fun spread => ?_)
    split
    case isTrue => exact .nothing s
    case isFalse candidate => exact .edge l spread candidate rfl
  | governorTimeIncrement =>
    simp only [exec, execGovernorTimeIncrement] at h
    exact .of_running h (.increment rfl rfl)
  | timerExpiry n part =>
    simp only [exec, execTimerExpiry] at h
    obtain ⟨i, -, h⟩ := onTimer_next h
    exact .of_running h (s.takePart_notified i part).effect
  | resetSoft block => exact execResetSoft_effect h
  | setLine part =>
    simp only [exec, execSetLine] at h
    exact .of_running h (.of_part fun spread => .of_servePulse State.ownLine_effect)
  | nudge part =>
    simp only [exec, execNudge] at h
    exact .of_running h (.of_part fun spread => .of_servePulse State.ownNudge_effect)
  | writeWindow =>
    simp only [exec, execWriteWindow] at h
    exact .of_running h (.of_serve State.ownWriteWindow_effect)
  | readHits => exact execReadHits_effect h
  | armTrap =>
    simp only [exec, execArmTrap] at h
    exact .of_running h (.of_serve fun _ _ => State.ownArmTrap_effect)
  | writeTimer =>
    simp only [exec, execWriteTimer] at h
    exact .of_running h (.of_serve fun _ _ => State.ownWriteTimer_effect)
  | startTimer =>
    simp only [exec, execStartTimer] at h
    exact .of_running h (.of_serve fun _ _ => State.ownStartTimer_effect)
  | stopTimer =>
    simp only [exec, execStopTimer] at h
    exact .of_running h (.of_serve fun _ _ => State.ownStopTimer_effect)
  | fullResetEnd rate1 rate0 refclk =>
    simp only [exec, execFullResetEnd] at h
    cases h
    split
    case h_1 cause inProgress =>
      split
      · exact .fullReset cause _ ⟨_, _, _, rfl⟩ inProgress rfl
      · exact .nothing s
    case h_2 => exact .nothing s
  | _ => cases neither

end Sys2Proof.Machine
end

section
/-! SUPPORT. The beginning and the end of a hold: class records, timers, and the agreement of lines, classes and timers. -/

namespace Sys2Proof.Machine

/-! ## Held classes -/

theorem State.held_iff (s : State) (c : ClassId) : s.held c = true ↔ (s.cls c).holders ≠ 0 := by simp [State.held]

theorem State.anyHeld_iff (s : State) (set : ClassSet) :
    s.anyHeld set = true ↔ ∃ c, set.has c = true ∧ (s.cls c).holders ≠ 0 := by
  simp [State.anyHeld, State.held_iff]

theorem State.anyHeld_congr {s t : State} {set : ClassSet}
    (h : ∀ c, set.has c = true → ((t.cls c).holders ≠ 0 ↔ (s.cls c).holders ≠ 0)) : t.anyHeld set = s.anyHeld set := by
  rw [Bool.eq_iff_iff, State.anyHeld_iff, State.anyHeld_iff]
  exact exists_congr fun c => and_congr_right (h c)

theorem holderBit_getLsbD (l m : LineId) : (holderBit l).getLsbD m.val = decide (m = l) := by
  revert l m; decide

theorem joined_getLsbD (holders : BitVec 12) (l m : LineId) :
    (holders ||| holderBit l).getLsbD m.val = true ↔ holders.getLsbD m.val = true ∨ m = l := by
  rw [BitVec.getLsbD_or, holderBit_getLsbD, Bool.or_eq_true, decide_eq_true_eq]

theorem left_getLsbD (holders : BitVec 12) (l m : LineId) :
    (holders &&& ~~~(holderBit l)).getLsbD m.val = true ↔ holders.getLsbD m.val = true ∧ m ≠ l := by
  simp only [BitVec.getLsbD_and, BitVec.getLsbD_not, holderBit_getLsbD, Bool.and_eq_true, m.isLt, decide_true, Bool.true_and,
    Bool.not_eq_true', decide_eq_false_iff_not, ne_eq]

/-! ## What the beginning and the end of a hold leave -/

theorem State.joinHold_cls (s : State) (l : LineId) (c e : ClassId) :
    (s.joinHold l c).cls e =
      if e = c then { holders := (s.cls c).holders ||| holderBit l, last := some s.time } else s.cls e := by
  unfold State.joinHold
  dsimp only
  split <;> simp only [State.mapTimers_cls, State.stampClass, State.cls_setCls] <;> split <;> simp

theorem State.joinHold_timer (s : State) (l : LineId) (c : ClassId) (i : TimerId) :
    (s.joinHold l c).timer i =
      if (s.timer i).watch.has c = true then
        (if (s.cls c).holders = 0 then (s.timer i).becomeHeld else (s.timer i).reload)
      else s.timer i := by
  unfold State.joinHold
  dsimp only
  split <;> rename_i held <;> rw [State.timer_mapTimers] <;> rw [State.held_iff] at held
  · rw [if_neg held]; rfl
  · rw [if_pos (not_not.1 held)]; rfl

theorem State.endHold_cls (s : State) (l : LineId) (c e : ClassId) :
    (s.endHold l c).cls e = if e = c then { s.cls c with holders := (s.cls c).holders &&& ~~~(holderBit l) } else s.cls e := by
  unfold State.endHold
  dsimp only
  split <;> simp

/-- A held timer released by the last of its classes counts from its load; a release changes no other. -/
theorem Timer.release_eq (x : Timer) (stillHeld : Bool) :
    x.release stillHeld = if x.state = .held ∧ stillHeld = false then x.countFromLoad else x := by
  cases st : x.state <;> cases stillHeld <;> simp [Timer.release, st]

theorem State.endHold_timer (s : State) (l : LineId) (c : ClassId) (i : TimerId) :
    (s.endHold l c).timer i =
      if ((s.endHold l c).cls c).holders = 0 ∧ (s.timer i).watch.has c = true ∧ (s.timer i).state = .held ∧
          (s.endHold l c).anyHeld (s.timer i).watch = false
      then (s.timer i).countFromLoad else s.timer i := by
  have cls : ((s.endHold l c).cls c).holders = (s.cls c).holders &&& ~~~(holderBit l) := by rw [State.endHold_cls, if_pos rfl]
  rw [cls]
  unfold State.endHold
  dsimp only
  split <;> rename_i held <;> rw [State.held_iff, State.cls_setCls, if_pos rfl] at held
  · rw [if_neg fun h => held h.1]; rfl
  · rw [not_not] at held
    have same (u : State) (f : Timer → Timer) (set : ClassSet) : (u.mapTimers f).anyHeld set = u.anyHeld set := rfl
    rw [State.timer_mapTimers, Timer.release_eq, same, State.setCls_timer]
    by_cases watches : (s.timer i).watch.has c = true
    · simp only [watches, if_true, true_and]
      exact if_congr (and_iff_right held).symm rfl rfl
    · simp only [watches, Bool.false_eq_true, if_false, false_and, and_false]

/-! ## Agreement -/

/-- Lines, classes and timers agree on what is held, but for one line whose level may not have acted yet. -/
structure State.HoldsAgreeBut (s : State) (l : LineId) : Prop where
  holders : ∀ (m : LineId) (c : ClassId), (s.cls c).holders.getLsbD m.val = true ↔ (s.line m).holding = some c
  lines : ∀ m, m ≠ l → (s.line m).holding =
    if (s.line m).qualifier.holdsAt = some (s.line m).level then some (s.line m).cls else none
  timers : ∀ i, s.Agrees (s.timer i)

theorem State.HoldsAgree.but {s : State} (h : s.HoldsAgree) (l : LineId) : s.HoldsAgreeBut l := ⟨h.1, fun m _ => h.2.1 m, h.2.2⟩

theorem State.HoldsAgreeBut.full {s : State} {l : LineId} (h : s.HoldsAgreeBut l)
    (own : (s.line l).holding = if (s.line l).qualifier.holdsAt = some (s.line l).level then some (s.line l).cls else none) :
    s.HoldsAgree := by
  refine ⟨h.holders, fun m => ?_, h.timers⟩
  by_cases eq : m = l
  · exact eq ▸ own
  · exact h.lines m eq

theorem State.HoldsAgreeBut.notified {s t : State} {l : LineId} (h : s.HoldsAgreeBut l) (k : s.Notified t) :
    t.HoldsAgreeBut l := by
  have line (m : LineId) : t.line m = s.line m := by simp [State.line, k.lines]
  refine ⟨fun m c => ?_, fun m ne => ?_, fun i running => ?_⟩
  · rw [k.holders, line]; exact h.holders m c
  · rw [line]; exact h.lines m ne
  · have kept := k.kept i
    have same : t.anyHeld (s.timer i).watch = s.anyHeld (s.timer i).watch := State.anyHeld_congr fun c _ => by rw [k.holders]
    rw [kept.held, kept.watch, same]
    exact h.timers i fun stopped => running (kept.stopped.2 stopped)

theorem State.HoldsAgree.notified {s t : State} (h : s.HoldsAgree) (k : s.Notified t) : t.HoldsAgree := by
  refine ((h.but 0).notified k).full ?_
  have line : t.line 0 = s.line 0 := by simp [State.line, k.lines]
  rw [line]
  exact h.2.1 0

/-- A line's record replaced with its hold kept. -/
theorem State.HoldsAgreeBut.setLine {s : State} {l : LineId} (h : s.HoldsAgreeBut l) {x : Line}
    (holding : x.holding = (s.line l).holding) : (s.setLine l x).HoldsAgreeBut l := by
  refine ⟨fun m c => ?_, fun m ne => ?_, h.timers⟩
  · rw [State.setLine_cls, State.line_setLine]
    split
    case isTrue eq => rw [holding, ← eq]; exact h.holders m c
    case isFalse => exact h.holders m c
  · rw [State.line_setLine, if_neg ne]
    exact h.lines m ne

/-- A line that holds nothing begins to hold a class. -/
theorem State.HoldsAgreeBut.joins {s : State} {l : LineId} (h : s.HoldsAgreeBut l) (free : (s.line l).holding = none)
    (c : ClassId) : ((s.setLine l { s.line l with holding := some c }).joinHold l c).HoldsAgreeBut l := by
  generalize eq : s.setLine l { s.line l with holding := some c } = u
  have cls (e : ClassId) : u.cls e = s.cls e := by rw [← eq]; rfl
  have timer (i : TimerId) : u.timer i = s.timer i := by rw [← eq]; rfl
  have line (m : LineId) : (u.joinHold l c).line m = if m = l then { s.line l with holding := some c } else s.line m := by
    simp only [State.line, State.joinHold_lines, ← eq]
    exact State.line_setLine s l m _
  have holders (e : ClassId) :
      ((u.joinHold l c).cls e).holders = if e = c then (s.cls c).holders ||| holderBit l else (s.cls e).holders := by
    rw [State.joinHold_cls, cls, cls]
    split <;> rfl
  have joined : ((u.joinHold l c).cls c).holders ≠ 0 := by
    intro zero
    have bit : ((u.joinHold l c).cls c).holders.getLsbD l.val = true := by
      rw [holders, if_pos rfl]
      exact (joined_getLsbD ..).2 (.inr rfl)
    simp [zero] at bit
  refine ⟨fun m e => ?_, fun m ne => ?_, fun i => ?_⟩
  · rw [holders, line]
    by_cases he : e = c
    · subst he
      rw [if_pos rfl, joined_getLsbD, h.holders m e]
      split <;> simp_all
    · rw [if_neg he, h.holders m e]
      split
      case isTrue hm => simp [hm, free, Ne.symm he]
      case isFalse => rfl
  · rw [line, if_neg ne]
    exact h.lines m ne
  · have agrees := h.timers i
    rw [State.joinHold_timer, timer, cls]
    split
    case isFalse watches =>
      intro running
      rw [agrees running, State.anyHeld_congr (s := s) (t := u.joinHold l c) fun e has => ?_]
      rw [holders, if_neg]
      rintro rfl
      exact watches has
    case isTrue watches =>
      split
      case isTrue =>
        intro running
        have held : (u.joinHold l c).anyHeld (s.timer i).watch = true := (State.anyHeld_iff ..).2 ⟨c, watches, joined⟩
        cases st : (s.timer i).state <;> simp_all [Timer.becomeHeld, Timer.holdAtLoad]
      case isFalse already =>
        intro running
        have kept := (s.timer i).reload_kept
        rw [kept.held, kept.watch, agrees fun stopped => running (kept.stopped.2 stopped),
          State.anyHeld_congr (s := s) (t := u.joinHold l c) fun e _ => ?_]
        by_cases he : e = c
        · subst he; exact iff_of_true joined already
        · rw [holders, if_neg he]

theorem State.HoldsAgreeBut.lineHolds {s : State} {l : LineId} (h : s.HoldsAgreeBut l) (free : (s.line l).holding = none)
    (spread ofRequest : Bool) : (s.lineHolds l spread ofRequest).HoldsAgreeBut l := by
  have joined := h.joins free (s.line l).cls
  unfold State.lineHolds
  dsimp only
  split
  · exact joined.notified (State.notified_aside _ _ _ _)
  · exact joined.notified (State.handOver_notified _ fun _ => wakesOf_ordinary)

theorem State.lineHolds_line (s : State) (l : LineId) (spread ofRequest : Bool) (m : LineId) :
    (s.lineHolds l spread ofRequest).line m = if m = l then { s.line l with holding := some (s.line l).cls } else s.line m := by
  have lines : (s.lineHolds l spread ofRequest).lines = (s.setLine l { s.line l with holding := some (s.line l).cls }).lines := by
    unfold State.lineHolds
    dsimp only
    split
    · exact State.joinHold_lines _ _ _
    · exact State.beginHold_lines _ _ _
  rw [State.line, lines]
  exact State.line_setLine s l m _

/-- A line that holds a class ends its hold. -/
theorem State.HoldsAgreeBut.ends {s : State} {l : LineId} (h : s.HoldsAgreeBut l) {c : ClassId}
    (holding : (s.line l).holding = some c) : ((s.setLine l { s.line l with holding := none }).endHold l c).HoldsAgreeBut l := by
  generalize eq : s.setLine l { s.line l with holding := none } = u
  have cls (e : ClassId) : u.cls e = s.cls e := by rw [← eq]; rfl
  have timer (i : TimerId) : u.timer i = s.timer i := by rw [← eq]; rfl
  have line (m : LineId) : (u.endHold l c).line m = if m = l then { s.line l with holding := none } else s.line m := by
    simp only [State.line, State.endHold_lines, ← eq]
    exact State.line_setLine s l m _
  have holders (e : ClassId) :
      ((u.endHold l c).cls e).holders = if e = c then (s.cls c).holders &&& ~~~(holderBit l) else (s.cls e).holders := by
    rw [State.endHold_cls, cls, cls]
    split <;> rfl
  have before : (s.cls c).holders ≠ 0 := fun zero => by
    simpa [zero] using (h.holders l c).2 holding
  refine ⟨fun m e => ?_, fun m ne => ?_, fun i => ?_⟩
  · rw [holders, line]
    by_cases he : e = c
    · subst he
      rw [if_pos rfl, left_getLsbD, h.holders m e]
      split <;> simp_all
    · rw [if_neg he, h.holders m e]
      split
      case isTrue hm => simp [hm, holding, Ne.symm he]
      case isFalse => rfl
  · rw [line, if_neg ne]
    exact h.lines m ne
  · have agrees := h.timers i
    rw [State.endHold_timer, timer]
    split
    case isTrue released => exact fun _ => iff_of_false nofun fun held => by simp [Timer.countFromLoad, released.2.2.2] at held
    case isFalse stays =>
      intro running
      rw [agrees running]
      by_cases left : ((u.endHold l c).cls c).holders = 0 ∧ (s.timer i).watch.has c = true
      · have was : s.anyHeld (s.timer i).watch = true := (State.anyHeld_iff ..).2 ⟨c, left.2, before⟩
        have still : (u.endHold l c).anyHeld (s.timer i).watch = true := by
          by_contra none
          exact stays ⟨left.1, left.2, (agrees running).2 was, by simpa using none⟩
        exact iff_of_true was still
      · rw [State.anyHeld_congr (s := s) (t := u.endHold l c) fun e has => ?_]
        by_cases he : e = c
        · subst he; exact iff_of_true (fun zero => left ⟨zero, has⟩) before
        · rw [holders, if_neg he]

theorem State.HoldsAgreeBut.lineReleases {s : State} {l : LineId} (h : s.HoldsAgreeBut l) : (s.lineReleases l).HoldsAgreeBut l := by
  unfold State.lineReleases
  split
  case h_1 => exact h
  case h_2 c holding => exact h.ends holding

theorem State.line_lineReleases (s : State) (l m : LineId) :
    (s.lineReleases l).line m = if m = l then { s.line l with holding := none } else s.line m := by
  split
  case isTrue eq => rw [eq, State.lineReleases_line]
  case isFalse other =>
    unfold State.lineReleases
    split
    · rfl
    · rw [State.endHold_line, State.line_setLine, if_neg other]

/-! ## Edges, reconfigurations and the soft reset of a line -/

/-- A recognised edge's qualifier acts, and every line then holds its class exactly while its level qualifies (R11, R12). -/
theorem State.HoldsAgree.edge {s : State} (h : s.HoldsAgree) {l : LineId} (candidate : (s.line l).raw ≠ (s.line l).level)
    (spread : Bool) : ((s.setLine l { s.line l with level := (s.line l).raw }).qualifyEdge l spread).HoldsAgree := by
  have but : (s.setLine l { s.line l with level := (s.line l).raw }).HoldsAgreeBut l := (h.but l).setLine rfl
  have own := h.2.1 l
  have line : (s.setLine l { s.line l with level := (s.line l).raw }).line l = { s.line l with level := (s.line l).raw } := by simp
  generalize s.setLine l { s.line l with level := (s.line l).raw } = moved at but line
  unfold State.qualifyEdge
  rw [line]
  dsimp only
  split
  case h_1 level qualifies =>
    split
    case isTrue reached =>
      have free : (s.line l).holding = none := by
        rw [own, qualifies, if_neg]
        exact fun eq => candidate (reached.trans (Option.some.inj eq))
      refine (but.lineHolds (by rw [line]; exact free) spread false).full ?_
      simp [State.lineHolds_line, line, qualifies, reached]
    case isFalse departed =>
      refine but.lineReleases.full ?_
      simp [State.line_lineReleases, line, qualifies, Ne.symm departed]
  case h_2 unqualified =>
    have full : moved.HoldsAgree := but.full (by simp [line, own, unqualified])
    split
    · split
      · exact full.notified (State.spreadPulse_notified _ _ _)
      · exact full.notified (State.pulse_notified _ _)
    · exact full

/-- A line reconfigured ends its hold, and begins one where its level qualifies under the new configuration (R14). -/
theorem State.HoldsAgree.configureLine {s : State} (h : s.HoldsAgree) (l : LineId) (qualifier : Qualifier) (cls : ClassId)
    (spread : Bool) : (s.configureLine l qualifier cls spread).HoldsAgree := by
  have but := (h.but l).lineReleases.setLine
    (x := { (s.lineReleases l).line l with qualifier := qualifier, cls := cls }) rfl
  have line : ((s.lineReleases l).setLine l { (s.lineReleases l).line l with qualifier := qualifier, cls := cls }).line l =
      { s.line l with holding := none, qualifier := qualifier, cls := cls } := by simp [State.lineReleases_line]
  unfold State.configureLine
  dsimp only
  split
  case isTrue qualifies =>
    refine (but.lineHolds (by rw [line]) spread true).full ?_
    simp [State.lineHolds_line, line, qualifies]
  case isFalse unqualified =>
    refine but.full ?_
    simp [line, unqualified]

theorem State.HoldsAgree.softResetLine {s : State} (h : s.HoldsAgree) (l : LineId) : (s.softResetLine l).HoldsAgree := by
  refine HoldsAgreeBut.full (l := l) ((h.but l).lineReleases.setLine rfl) ?_
  simp [State.softResetLine, State.lineReleases_line, Qualifier.holdsAt]

theorem State.HoldsAgree.softReset {s : State} (h : s.HoldsAgree) (block : SoftBlock) : (s.softReset block).HoldsAgree := by
  cases block with
  | lineMonitor =>
    have fold (ls : List LineId) (u : State) (hu : u.HoldsAgree) : (ls.foldl State.softResetLine u).HoldsAgree := by
      induction ls generalizing u with
      | nil => exact hu
      | cons l ls ih => exact ih _ (hu.softResetLine l)
    exact fold allLines s h
  | classMap =>
    refine h.notified (State.notified_of_kept rfl (fun c => ?_) fun _ => .rfl' _)
    have cls : (s.softReset .classMap).cls c = { s.cls c with last := none } := mapBank_get ..
    rw [cls]
  | timerBank =>
    refine ⟨h.1, h.2.1, fun i running => absurd ?_ running⟩
    exact congrArg Timer.state (replicate_get 8 Timer.default i)
  | snoopPort | captureFifo | windowTable | domainGovernor => exact h

end Sys2Proof.Machine
end

section
/-! PROOF of the obligations on what every step keeps (the capacities, ranges, holds, domains and reporting), and on the movers of
governor time. -/

namespace Sys2Proof.Machine

/-! ## From a command to a step -/

/-- What idling and every command keep, with the command queue's rest in the state, every step keeps. -/
theorem step_keeps {P : State → Prop} (pending : ∀ (s : State) rest, P s → P { s with pending := rest })
    (command : ∀ {c s t}, P s → exec c s = .next t → P t) (s t : State) (start : P s) (h : step s = .next t) : P t := by
  rcases step_cases h with ⟨-, rfl⟩ | ⟨c, rest, -, ran⟩
  · exact start
  · exact command (pending s rest start) ran

/-! ## Decisions and soft resets as activity -/

/-- A decision: the deciding window's hit and arming, if one decides, and then its hand-offs. -/
theorem State.decide_cases (s : State) (o : Observation) (spread : Bool) :
    s.Notified (s.decide o spread) ∨
      ∃ w, s.decider o = some w ∧ (s.setWindow w (s.window w).decided).Notified (s.decide o spread) := by
  unfold State.decide
  cases s.decider o with
  | none => exact .inl (s.decisionHandOffs_notified _ (fun _ mem => (by cases mem)) _)
  | some w =>
    refine .inr ⟨w, rfl, State.decisionHandOffs_notified _ _ (fun x mem => ?_) _⟩
    split at mem
    · rw [List.mem_singleton.1 mem]
      exact HandOff.report_ordinary (trapReport_ordinary w o)
    · cases mem

theorem State.softReset_lineMonitor_activity (s : State) : s.Activity (s.softReset .lineMonitor) :=
  State.foldl_softResetLine_activity allLines s

/-! ## Timers -/

theorem State.TimersSound.of_timers {s t : State} (h : s.TimersSound) (eq : t.timers = s.timers) : t.TimersSound := by
  intro i
  simpa [State.timer, eq] using h i

theorem State.Activity.timersSound {s t : State} (k : s.Activity t) (h : s.TimersSound) : t.TimersSound :=
  fun i => k.timers i (h i)

/-- A block's soft reset keeps the timers sound: the Line Monitor releases some, and the Timer Bank resets all. -/
theorem State.TimersSound.softReset {s : State} (h : s.TimersSound) (block : SoftBlock) : (s.softReset block).TimersSound := by
  cases block with
  | lineMonitor => exact s.softReset_lineMonitor_activity.timersSound h
  | timerBank =>
    intro i
    have timer : (s.softReset .timerBank).timer i = Timer.default := replicate_get ..
    rw [timer]
    exact Timer.default_sound
  | snoopPort | captureFifo | windowTable | classMap | domainGovernor => exact h

theorem exec_timersSound {c : Instr} {s t : State} (h : s.TimersSound) (ran : exec c s = .next t) : t.TimersSound := by
  cases of : touchesNoRecord c
  case true => exact h.of_timers (exec_sameRecords of ran).timers
  cases exec_effect of ran with
  | notified u notified port => exact State.TimersSound.of_timers (notified.timersSound h) port.timers
  | decision o rest spread fifo eq =>
    rw [eq]
    rcases State.decide_cases { s with fifo := rest } o spread with k | ⟨w, -, k⟩ <;> exact k.timersSound h
  | rawLevel l level eq => exact eq ▸ h
  | edge l spread candidate eq =>
    rw [eq]
    exact ((s.setLine_activity l _).trans (State.qualifyEdge_activity _ l spread)).timersSound h
  | increment command eq =>
    intro i
    rw [eq, State.timer_mapTimers]
    exact Timer.Sound.tick (s.takeOutstanding_notified.timersSound h i)
  | configured l qualifier cls spread port =>
    exact State.TimersSound.of_timers ((s.configureLine_activity l qualifier cls spread).timersSound h) port.timers
  | softReset block clears port => exact State.TimersSound.of_timers (h.softReset block) port.timers
  | window w x fits clears port => exact h.of_timers port.timers
  | timer i x sound agrees port =>
    refine State.TimersSound.of_timers (s := s.setTimer i x) (fun j => ?_) port.timers
    rw [State.timer_setTimer]
    split
    · exact sound (h i)
    · exact h j
  | fullReset cause rate command inProgress eq =>
    rw [eq]
    exact State.TimersSound.of_timers (s := State.reset) (fun i => by rw [reset_timer]; exact Timer.default_sound)
      (State.endFullReset_timers s cause rate)

/-! ## Holds -/

theorem State.HoldsAgree.of_tables {s t : State} (h : s.HoldsAgree) (lines : t.lines = s.lines) (classes : t.classes = s.classes)
    (timers : t.timers = s.timers) : t.HoldsAgree := by
  have line (l : LineId) : t.line l = s.line l := by simp [State.line, lines]
  have cls (c : ClassId) : t.cls c = s.cls c := by simp [State.cls, classes]
  have timer (i : TimerId) : t.timer i = s.timer i := by simp [State.timer, timers]
  have anyHeld (set : ClassSet) : t.anyHeld set = s.anyHeld set := State.anyHeld_congr fun c _ => by rw [cls]
  refine ⟨fun l c => ?_, fun l => ?_, fun i => ?_⟩
  · rw [cls, line]; exact h.1 l c
  · rw [line]; exact h.2.1 l
  · rw [timer, anyHeld]; exact h.2.2 i

/-- Nothing is held after a full reset: every line is OFF and every timer STOPPED. -/
theorem State.endFullReset_holdsAgree (s : State) (cause : ResetCause) (rate : Rate) : (s.endFullReset cause rate).HoldsAgree := by
  have same := s.endFullReset_sameOutside cause rate
  have cls (c : ClassId) : (s.endFullReset cause rate).cls c = { holders := 0, last := none } :=
    (same.cls c).trans (replicate_get ..)
  have line (l : LineId) : (s.endFullReset cause rate).line l = (s.line l).sampled :=
    (same.line l).trans (State.fullyReset_line ..)
  have timer (i : TimerId) : (s.endFullReset cause rate).timer i = Timer.default := by
    simp only [State.timer, State.endFullReset_timers]
    exact reset_timer i
  refine ⟨fun l c => ?_, fun l => ?_, fun i => ?_⟩
  · simp [cls, line, Line.sampled, Line.default]
  · simp [line, Line.sampled, Line.default, Qualifier.holdsAt]
  · simp [timer, Timer.default]

theorem exec_holdsAgree {c : Instr} {s t : State} (h : s.HoldsAgree) (ran : exec c s = .next t) : t.HoldsAgree := by
  cases of : touchesNoRecord c
  case true =>
    have same := exec_sameRecords of ran
    exact h.of_tables same.lines same.classes same.timers
  have ported {u : State} (hu : u.HoldsAgree) (port : u.PortOnly t) : t.HoldsAgree :=
    hu.of_tables port.lines port.classes port.timers
  cases exec_effect of ran with
  | notified u notified port => exact ported (h.notified notified) port
  | decision o rest spread fifo eq =>
    rw [eq]
    rcases State.decide_cases { s with fifo := rest } o spread with k | ⟨w, -, k⟩
    · exact State.HoldsAgree.notified (s := { s with fifo := rest }) h k
    · exact State.HoldsAgree.notified (s := ({ s with fifo := rest } : State).setWindow w _) h k
  | rawLevel l level eq =>
    rw [eq]
    have but : (s.setLine l { s.line l with raw := level }).HoldsAgreeBut l := (h.but l).setLine rfl
    exact but.full (by simpa using h.2.1 l)
  | edge l spread candidate eq => exact eq ▸ h.edge candidate spread
  | increment command eq =>
    have taken := h.notified s.takeOutstanding_notified
    rw [eq]
    exact State.HoldsAgree.notified (s := { s.takeOutstanding with time := s.takeOutstanding.time + 1 }) taken
      (State.mapTimers_notified fun _ => Timer.tick_kept _)
  | configured l qualifier cls spread port => exact ported (h.configureLine l qualifier cls spread) port
  | softReset block clears port => exact ported (h.softReset block) port
  | window w x fits clears port => exact ported (u := s.setWindow w x) h port
  | timer i x sound agrees port =>
    refine ported (u := s.setTimer i x) ⟨h.1, h.2.1, fun j => ?_⟩ port
    rw [State.timer_setTimer]
    split
    · exact agrees (h.2.2 i)
    · exact h.2.2 j
  | fullReset cause rate command inProgress eq => exact eq ▸ s.endFullReset_holdsAgree cause rate

/-! ## Domains -/

/-- A block's soft reset keeps the domains sound: the Domain Governor's gives one its reset configuration and refusal count. -/
theorem State.DomainsSound.softReset {s : State} (h : s.DomainsSound) (block : SoftBlock) : (s.softReset block).DomainsSound := by
  cases block with
  | lineMonitor => exact s.softReset_lineMonitor_activity.domains h
  | domainGovernor d =>
    have sound : ({ s.dom d with config := DomainConfig.default, hold := false, refusals := 0 } : Domain).Sound :=
      ⟨Domain.default_sound.1, (h d).2.1, Nat.zero_le _, (h d).2.2.2⟩
    exact h.of_only (s.setDom_onlyDomain d _).other (by simpa [State.softReset] using sound)
  | snoopPort | captureFifo | windowTable | classMap | timerBank => exact h.of_domains rfl

/-- A domain as a full reset leaves it before it enters POWERING_UP is fit for that entry. -/
theorem Domain.sampled_fit (x : Domain) : x.sampled.Fit :=
  ⟨Domain.default_sound.1, Nat.zero_le _, rfl⟩

/-- After a full reset every domain has entered POWERING_UP, and is sound. -/
theorem State.endFullReset_domainsSound (s : State) (cause : ResetCause) (rate : Rate) :
    (s.endFullReset cause rate).DomainsSound := by
  have fold (ds : List DomainId) (u : State) (fit : ∀ d ∈ ds, (u.dom d).Fit) (sound : ∀ d, d ∉ ds → (u.dom d).Sound)
      (nodup : ds.Nodup) : (ds.foldl State.enterPoweringUp u).DomainsSound := by
    induction ds generalizing u with
    | nil => exact fun d => sound d (by simp)
    | cons e ds ih =>
      obtain ⟨new, rest⟩ := List.nodup_cons.1 nodup
      have only := u.enterPoweringUp_onlyDomain e
      refine ih _ (fun d mem => ?_) (fun d out => ?_) rest
      · rw [only.other d fun eq => new (eq ▸ mem)]
        exact fit d (by simp [mem])
      · by_cases eq : d = e
        · subst eq
          exact State.enterPoweringUp_sound (fit d (by simp))
        · rw [only.other d eq]
          exact sound d (by simp [eq, out])
  unfold State.endFullReset
  refine fold allDomains _ (fun d _ => ?_) (fun d out => absurd (mem_allDomains d) out) allDomains_nodup
  rw [State.fullyReset_dom]
  exact Domain.sampled_fit _

theorem exec_domainsSound {c : Instr} {s t : State} (h : s.DomainsSound) (ran : exec c s = .next t) : t.DomainsSound := by
  cases of : touchesNoRecord c
  case true => exact h.of_domains (exec_sameRecords of ran).domains
  cases exec_effect of ran with
  | notified u notified port => exact State.DomainsSound.of_domains (notified.domains h) port.domains
  | decision o rest spread fifo eq =>
    rw [eq]
    rcases State.decide_cases { s with fifo := rest } o spread with k | ⟨w, -, k⟩ <;> exact k.domains h
  | rawLevel l level eq => exact eq ▸ h
  | edge l spread candidate eq =>
    rw [eq]
    exact ((s.setLine_activity l _).trans (State.qualifyEdge_activity _ l spread)).domains h
  | increment command eq => exact eq ▸ s.takeOutstanding_notified.domains h
  | configured l qualifier cls spread port =>
    exact State.DomainsSound.of_domains ((s.configureLine_activity l qualifier cls spread).domains h) port.domains
  | softReset block clears port => exact State.DomainsSound.of_domains (h.softReset block) port.domains
  | window w x fits clears port => exact h.of_domains port.domains
  | timer i x sound agrees port => exact h.of_domains port.domains
  | fullReset cause rate command inProgress eq => exact eq ▸ s.endFullReset_domainsSound cause rate

/-- Settles O9: a hold begins and ends at line, class and timers together, and every other command leaves what is held. -/
theorem stepKeepsHoldsAgree : Obligations.StepKeepsHoldsAgree := by
  unfold Obligations.StepKeepsHoldsAgree
  exact step_keeps (fun _ _ h => h) exec_holdsAgree

/-- Settles O10: each entry to a state leaves its domain sound, and every command is such entries and changes of the other blocks. -/
theorem stepKeepsDomainsSound : Obligations.StepKeepsDomainsSound := by
  unfold Obligations.StepKeepsDomainsSound
  exact step_keeps (fun _ _ h => h) exec_domainsSound

end Sys2Proof.Machine
end

section
/-! PROOF of the capacities of the Capture FIFO, the window records and the link's queues (the first half of O8, with the timers'
half), and of what moves governor time and lowers a hit count. -/

namespace Sys2Proof.Machine

/-! ## The capacities of FIFO, request queue and reply queue -/

/-- A FIFO within its capacity stays within it, and so do the request queue and the reply queue with the request in hand. -/
structure State.KeepsQueues (s t : State) : Prop where
  fifo : s.fifo.length ≤ 16 → t.fifo.length ≤ 16
  requests : s.link.requests.length ≤ 4 → t.link.requests.length ≤ 4
  load : s.link.replies.length + s.unit.inHand.toList.length ≤ 4 → t.link.replies.length + t.unit.inHand.toList.length ≤ 4

theorem State.KeepsQueues.rfl' (s : State) : s.KeepsQueues s := ⟨id, id, id⟩

theorem State.PortOnly.keepsQueues {s u t : State} (k : u.PortOnly t) (h : s.KeepsQueues u) : s.KeepsQueues t where
  fifo bound := k.fifo ▸ h.fifo bound
  requests bound := k.requests ▸ h.requests bound
  load bound := k.load.trans (h.load bound)

/-- A full reset that begins abandons the request in hand and leaves the queues. -/
theorem State.beginFullReset_keepsQueues (s : State) (cause : ResetCause) : s.KeepsQueues (s.beginFullReset cause) :=
  (s.beginFullReset_portOnly cause).keepsQueues (.rfl' s)

/-- A link reset empties both queues, and no more than one request is in hand. -/
theorem State.linkReset_keepsQueues (s : State) : s.KeepsQueues s.linkReset := by
  refine ⟨id, fun _ => Nat.zero_le _, fun _ => ?_⟩
  have one : s.unit.inHand.toList.length ≤ 1 := by cases s.unit.inHand <;> simp
  simpa [State.linkReset] using one.trans (by decide)

theorem State.offer_keepsQueues (s : State) (o : Observation) : s.KeepsQueues (s.offer o) := by
  unfold State.offer
  split
  case isTrue room => exact ⟨fun _ => by simpa using room, id, id⟩
  case isFalse => exact ⟨id, id, id⟩

theorem State.arbitrate_keepsQueues (s : State) : s.KeepsQueues s.arbitrate := by
  unfold State.arbitrate
  split
  case h_1 reply rest waiting =>
    refine ⟨id, id, fun load => ?_⟩
    have longer : s.link.replies.length = rest.length + 1 := by simp [waiting]
    change rest.length + s.unit.inHand.toList.length ≤ 4
    omega
  case h_2 => split <;> exact ⟨id, id, id⟩

@[simp] theorem State.reopen_link (s : State) : s.reopen.link = s.link := by unfold State.reopen; split <;> rfl
@[simp] theorem State.reopen_fifo (s : State) : s.reopen.fifo = s.fifo := by unfold State.reopen; split <;> rfl
@[simp] theorem State.reopen_inHand (s : State) : s.reopen.unit.inHand = s.unit.inHand := by
  unfold State.reopen; split <;> rfl

/-- A ready Command Unit has no request in hand and room for a reply, so that a refusal or the request in hand finds its place. -/
theorem State.take_keepsQueues {s : State} (ready : s.ready = true) {r : Request} {rest : List Request}
    (waiting : s.link.requests = r :: rest) :
    s.KeepsQueues ((s.setLink { s.link with requests := rest }).reopen.passChecks r) := by
  obtain ⟨⟨idle, -⟩, room⟩ : (s.unit.inHand = none ∧ s.unit.fullResetPending = false) ∧ s.link.replies.length < 4 := by
    simpa [State.ready] using ready
  have shorter : s.link.requests.length = rest.length + 1 := by simp [waiting]
  unfold State.passChecks
  split <;> refine ⟨by simp, fun _ => ?_, fun _ => ?_⟩ <;> simp [idle] <;> omega

theorem State.serve_keepsQueues {s t : State} {type : Byte} {owner : State → List Byte → Option Verdict}
    (h : (s.running fun s => s.serve type (owner s)) = .next t)
    (done : ∀ {payload status part u}, owner s payload = some (.done status part u) → s.KeepsQueues u) : s.KeepsQueues t :=
  State.running_keeps (P := s.KeepsQueues) h (.rfl' s)
    (State.serve_keeps (P := s.KeepsQueues) type (.rfl' s) (fun _ _ _ _ => done) fun _ _ => State.PortOnly.keepsQueues)

theorem exec_keepsQueues {c : Instr} {s t : State} (of : touchesNoRecord c = true) (h : exec c s = .next t) :
    s.KeepsQueues t := by
  have ran {effect : State → State} (h : s.running effect = .next t) (keeps : s.KeepsQueues (effect s)) : s.KeepsQueues t :=
    State.running_keeps (P := s.KeepsQueues) h (.rfl' s) keeps
  cases c with
  | ping | identify | readStatus | resetFull | readWindow | readClasses | readTimer | readDomain =>
    exact (exec_portOnly rfl h).keepsQueues (.rfl' s)
  | rxCharacter | framingError | gapError | characterStartEdge =>
    have received := exec_receives rfl h
    refine ⟨fun bound => received.outside.fifo ▸ bound, received.requests, fun bound => ?_⟩
    have unit : t.unit = s.unit := received.outside.unit
    rwa [received.replies, unit]
  | addressStrobe address pins wr requester =>
    simp only [exec, execAddressStrobe] at h
    refine ran h ?_
    split
    · exact .rfl' s
    · split
      · exact s.offer_keepsQueues _
      · exact .rfl' s
  | ackTimerExpiry =>
    simp only [exec, execAckTimerExpiry] at h
    refine ran h ?_
    split
    · exact .rfl' s
    · split <;> exact ⟨id, id, id⟩
  | silentClaim =>
    simp only [exec, execSilentClaim] at h
    refine ran h ?_
    split
    · exact ⟨id, id, id⟩
    · exact .rfl' s
  | rxBreak =>
    simp only [exec, execRxBreak] at h
    refine ran h ?_
    split
    · exact (s.linkReset.beginFullReset_portOnly .host).keepsQueues s.linkReset_keepsQueues
    · exact s.linkReset_keepsQueues
  | takeRequest =>
    simp only [exec, execTakeRequest] at h
    refine ran h ?_
    split
    case h_1 => exact .rfl' s
    case h_2 r rest waiting =>
      split
      case isTrue ready => exact State.take_keepsQueues ready waiting
      case isFalse => exact .rfl' s
  | frameBoundary =>
    simp only [exec, execFrameBoundary] at h
    refine ran h ?_
    split
    · split
      · exact s.beginFullReset_keepsQueues _
      · exact s.arbitrate_keepsQueues
    · exact s.arbitrate_keepsQueues
  | openSession =>
    refine State.serve_keepsQueues (owner := fun s p => some (s.ownOpen p)) h fun eq => ?_
    obtain ⟨_, _, _, rfl⟩ := State.ownOpen_done (Option.some.inj eq)
    exact ⟨id, id, id⟩
  | closeSession =>
    refine State.serve_keepsQueues (owner := fun s _ => some s.ownClose) h fun eq => ?_
    cases Option.some.inj eq
    exact ⟨id, id, id⟩
  | setReporting =>
    refine State.serve_keepsQueues (owner := fun s p => some (s.ownReporting p)) h fun eq => ?_
    obtain ⟨_, _, _, _, rfl⟩ := State.ownReporting_done (Option.some.inj eq)
    exact ⟨id, id, id⟩
  | ack =>
    refine State.serve_keepsQueues (owner := fun s p => some (s.ownAck p)) h fun eq => ?_
    obtain ⟨_, _, _, _, rfl⟩ := State.ownAck_done (Option.some.inj eq)
    exact ⟨id, id, id⟩
  | setSnoop =>
    refine State.serve_keepsQueues (owner := fun s p => some (s.ownSnoop p)) h fun eq => ?_
    obtain ⟨_, rfl⟩ := State.ownSnoop_done (Option.some.inj eq)
    exact ⟨id, id, id⟩
  | setFallthrough =>
    refine State.serve_keepsQueues (owner := fun s p => some (s.ownFallthrough p)) h fun eq => ?_
    obtain ⟨_, rfl⟩ := State.ownFallthrough_done (Option.some.inj eq)
    exact ⟨id, id, id⟩
  | powerOnReset vdd vddio =>
    cases h
    have begun := s.beginFullReset_keepsQueues .powerOn
    exact ⟨begun.fifo, begun.requests, begun.load⟩
  | resetPinRawChange level =>
    cases h
    exact ⟨id, id, id⟩
  | resetPin =>
    cases h
    split
    · dsimp only
      split
      · exact ⟨id, id, id⟩
      · have begun := s.beginFullReset_keepsQueues .pin
        exact ⟨begun.fifo, begun.requests, begun.load⟩
    · exact .rfl' s
  | resetPinRelease =>
    cases h
    split <;> exact ⟨id, id, id⟩
  | _ => cases of

/-! ## The window records -/

theorem Window.Fits.decided {w : Window} (h : w.Fits) : w.decided.Fits := ⟨Nat.min_le_right _ _, h.span, h.requesters⟩

theorem Window.default_fits : Window.default.Fits := ⟨by decide, by decide, by decide⟩

theorem State.WithinCapacity.fits {s : State} (h : s.WithinCapacity) (w : WindowId) : (s.window w).Fits :=
  ⟨(h.2.1 w).1, (h.2.1 w).2.1, (h.2.1 w).2.2⟩

/-- The capacities by the queues kept and the windows fitting. -/
theorem State.WithinCapacity.of {s t : State} (h : s.WithinCapacity) (queues : s.KeepsQueues t) (windows : ∀ w, (t.window w).Fits) :
    t.WithinCapacity := by
  obtain ⟨fifo, -, requests, load⟩ := h
  exact ⟨queues.fifo fifo, fun w => ⟨(windows w).hits, (windows w).span, (windows w).requesters⟩, queues.requests requests,
    queues.load load⟩

theorem State.WithinCapacity.port {s t : State} (h : s.WithinCapacity) (k : s.PortOnly t) : t.WithinCapacity := by
  refine h.of (k.keepsQueues (.rfl' s)) fun w => ?_
  have windows : t.window w = s.window w := by simp [State.window, k.windows]
  exact windows ▸ h.fits w

theorem State.Activity.withinCapacity {s t : State} (k : s.Activity t) (h : s.WithinCapacity) : t.WithinCapacity := by
  refine h.of ⟨fun bound => k.fifo ▸ bound, fun bound => k.link ▸ bound, fun bound => ?_⟩ fun w => ?_
  · rwa [k.link, k.unit]
  · have windows : t.window w = s.window w := by simp [State.window, k.windows]
    exact windows ▸ h.fits w

theorem State.WithinCapacity.setWindow {s : State} (h : s.WithinCapacity) {w : WindowId} {x : Window} (fits : x.Fits) :
    (s.setWindow w x).WithinCapacity := by
  refine h.of ⟨id, id, id⟩ fun v => ?_
  rw [State.window_setWindow]
  split
  · exact fits
  · exact h.fits v

theorem State.WithinCapacity.softReset {s : State} (h : s.WithinCapacity) (block : SoftBlock) : (s.softReset block).WithinCapacity := by
  cases block with
  | lineMonitor => exact s.softReset_lineMonitor_activity.withinCapacity h
  | captureFifo => exact h.of ⟨fun _ => Nat.zero_le _, id, id⟩ h.fits
  | windowTable =>
    refine h.of ⟨id, id, id⟩ fun w => ?_
    have window : (s.softReset .windowTable).window w = Window.default := replicate_get ..
    exact window ▸ Window.default_fits
  | snoopPort | classMap | timerBank | domainGovernor => exact h

/-- A full reset empties the queues and takes every window to its default. -/
theorem State.endFullReset_withinCapacity (s : State) (cause : ResetCause) (rate : Rate) :
    (s.endFullReset cause rate).WithinCapacity := by
  have same := s.endFullReset_sameOutside cause rate
  refine ⟨?_, fun w => ?_, ?_, ?_⟩
  · rw [same.fifo]
    exact Nat.zero_le _
  · have window : (s.endFullReset cause rate).window w = Window.default := (same.window w).trans (replicate_get ..)
    rw [window]
    exact ⟨Window.default_fits.hits, Window.default_fits.span, Window.default_fits.requesters⟩
  · rw [same.link]
    exact Nat.zero_le _
  · rw [same.link, same.unit]
    exact Nat.zero_le _

theorem exec_withinCapacity {c : Instr} {s t : State} (h : s.WithinCapacity) (ran : exec c s = .next t) : t.WithinCapacity := by
  cases of : touchesNoRecord c
  case true =>
    refine h.of (exec_keepsQueues of ran) fun w => ?_
    have window : t.window w = s.window w := by simp [State.window, (exec_sameRecords of ran).windows]
    exact window ▸ h.fits w
  cases exec_effect of ran with
  | notified u notified port => exact State.WithinCapacity.port (notified.withinCapacity h) port
  | decision o rest spread fifo eq =>
    rw [eq]
    have taken : ({ s with fifo := rest } : State).WithinCapacity := by
      refine h.of ⟨fun bound => ?_, id, id⟩ h.fits
      simp only [fifo, List.length_cons] at bound
      exact Nat.le_of_succ_le bound
    rcases State.decide_cases { s with fifo := rest } o spread with k | ⟨w, -, k⟩
    · exact k.withinCapacity taken
    · exact k.withinCapacity (taken.setWindow (h.fits w).decided)
  | rawLevel l level eq => exact eq ▸ h
  | edge l spread candidate eq =>
    rw [eq]
    exact ((s.setLine_activity l _).trans (State.qualifyEdge_activity _ l spread)).withinCapacity h
  | increment command eq =>
    rw [eq]
    exact s.takeOutstanding_notified.withinCapacity h
  | configured l qualifier cls spread port =>
    exact State.WithinCapacity.port ((s.configureLine_activity l qualifier cls spread).withinCapacity h) port
  | softReset block clears port => exact (h.softReset block).port port
  | window w x fits clears port => exact (h.setWindow (fits (h.fits w))).port port
  | timer i x sound agrees port => exact State.WithinCapacity.port (s := s.setTimer i x) h port
  | fullReset cause rate command inProgress eq => exact eq ▸ s.endFullReset_withinCapacity cause rate

/-- Settles O8: the capacities and the timers' ranges each as an invariant of every command. -/
theorem stepKeepsRanges : Obligations.StepKeepsRanges :=
  ⟨step_keeps (fun _ _ => id) exec_withinCapacity, step_keeps (fun _ _ => id) exec_timersSound⟩

/-! ## Governor time -/

theorem State.softReset_time (s : State) (block : SoftBlock) : (s.softReset block).time = s.time := by
  cases block with
  | lineMonitor => exact s.softReset_lineMonitor_activity.time
  | _ => rfl

/-- Settles O3: of the effects, only an increment's and a full reset's move governor time. -/
theorem governorTimeMovers : Obligations.GovernorTimeMovers := by
  intro c s t ran notIncrement notReset
  cases of : touchesNoRecord c
  case true => exact (exec_sameRecords of ran).time
  cases exec_effect of ran with
  | notified u notified port => exact port.time.trans notified.time
  | decision o rest spread fifo eq =>
    rw [eq]
    rcases State.decide_cases { s with fifo := rest } o spread with k | ⟨w, -, k⟩ <;> exact k.time
  | rawLevel l level eq => rw [eq]; rfl
  | edge l spread candidate eq => exact eq ▸ (State.qualifyEdge_activity _ l spread).time
  | increment command eq => exact absurd command notIncrement
  | configured l qualifier cls spread port => exact port.time.trans (s.configureLine_activity l qualifier cls spread).time
  | softReset block clears port => exact port.time.trans (s.softReset_time block)
  | window w x fits clears port => exact port.time
  | timer i x sound agrees port => exact port.time
  | fullReset cause rate command inProgress eq =>
    obtain ⟨rate1, rate0, refclk, named⟩ := command
    exact absurd named (notReset _ _ _)

/-! ## Hit counts -/

/-- A window's deciding raises its hit count, or leaves it at the largest. -/
theorem Window.Fits.le_decided {w : Window} (h : w.Fits) : w.hits ≤ w.decided.hits := Nat.le_min.2 ⟨Nat.le_succ _, h.hits⟩

theorem State.softReset_windows {s : State} {block : SoftBlock} (h : block ≠ .windowTable) :
    (s.softReset block).windows = s.windows := by
  cases block with
  | lineMonitor => exact s.softReset_lineMonitor_activity.windows
  | windowTable => exact absurd rfl h
  | _ => rfl

/-- Settles O4: of the effects, only a window's writing, the Window Table's soft reset and a full reset lower a hit count. -/
theorem hitsDecreaseOnlyByClearing : Obligations.HitsDecreaseOnlyByClearing := by
  intro c s t v capacity ran less
  have kept (windows : t.windows = s.windows) : False := by simp [State.window, windows] at less
  cases of : touchesNoRecord c
  case true => exact (kept (exec_sameRecords of ran).windows).elim
  cases exec_effect of ran with
  | notified u notified port => exact (kept (port.windows.trans notified.windows)).elim
  | decision o rest spread fifo eq =>
    rw [eq] at less kept
    rcases State.decide_cases { s with fifo := rest } o spread with k | ⟨w, -, k⟩
    · exact (kept k.windows).elim
    · have window : (({ s with fifo := rest } : State).decide o spread).window v = if v = w then (s.window w).decided else s.window v := by
        rw [State.window, k.windows]
        exact set_get ..
      rw [window] at less
      split at less
      case isTrue same => exact absurd (same ▸ (capacity.fits w).le_decided) (Nat.not_le.2 less)
      case isFalse => exact absurd less (Nat.lt_irrefl _)
  | rawLevel l level eq => exact (kept (by rw [eq]; rfl)).elim
  | edge l spread candidate eq => exact (kept (eq ▸ (State.qualifyEdge_activity _ l spread).windows)).elim
  | increment command eq => exact (kept (eq ▸ s.takeOutstanding_notified.windows)).elim
  | configured l qualifier cls spread port =>
    exact (kept (port.windows.trans (s.configureLine_activity l qualifier cls spread).windows)).elim
  | softReset block clears port =>
    by_cases table : block = .windowTable
    · exact .inl (clears table)
    · exact (kept (port.windows.trans (State.softReset_windows table))).elim
  | window w x fits clears port =>
    have window : t.window v = if v = w then x else s.window v := by
      rw [← s.window_setWindow w v x]
      simp only [State.window, port.windows]
    rw [window] at less
    split at less
    case isTrue same => exact .inl (clears (same ▸ less))
    case isFalse => exact absurd less (Nat.lt_irrefl _)
  | timer i x sound agrees port => exact (kept port.windows).elim
  | fullReset cause rate command inProgress eq =>
    obtain ⟨rate1, rate0, refclk, named⟩ := command
    exact .inr ⟨by simp [inProgress], rate1, rate0, refclk, named⟩

end Sys2Proof.Machine
end

section
/-! PROOF that every step keeps the Report Queue and the session sound (O11). -/

namespace Sys2Proof.Machine

/-! ## What keeps the queue and the session sound -/

theorem State.ReportingSound.queue {s : State} (h : s.ReportingSound) : s.queue.Sound := h.1

theorem State.ReportingSound.opened_of_sent {s : State} (h : s.ReportingSound) (sent : s.queue.sentCount ≠ 0) :
    s.unit.session = .opened := Decidable.byContradiction fun other => sent (h.2.1 other)

theorem State.ReportingSound.of_eq {s t : State} (h : s.ReportingSound) (queue : t.queue = s.queue)
    (session : t.unit.session = s.unit.session) : t.ReportingSound := by
  unfold State.ReportingSound
  rw [queue, session]
  exact h

/-- Ordinary reports change neither how many records are SENT nor the settings. -/
theorem State.ReportingSound.reports {s t : State} (h : s.ReportingSound) (k : s.Reports t)
    (session : t.unit.session = s.unit.session) : t.ReportingSound := by
  obtain ⟨sound, sent, silent⟩ := h
  refine ⟨ReportQueue.Takes.sound k sound, fun other => ?_, fun is => ?_⟩
  · exact (ReportQueue.Takes.sentCount k).trans (sent (session ▸ other))
  · exact (ReportQueue.Takes.settings k).retries.trans (silent (session ▸ is))

theorem State.Activity.reportingSound {s t : State} (k : s.Activity t) (h : s.ReportingSound) : t.ReportingSound :=
  h.reports k.reports (by rw [k.unit])

theorem State.PortOnly.reportingSound {s t : State} (k : s.PortOnly t) (h : s.ReportingSound) : t.ReportingSound :=
  h.of_eq k.queue k.session

/-- With no record SENT, a sound queue agrees with every session that is not SILENT. -/
theorem State.reportingSound_of_unsent {s : State} (queue : s.queue.Sound ∧ s.queue.sentCount = 0)
    (session : s.unit.session ≠ .silent) : s.ReportingSound :=
  ⟨queue.1, fun _ => queue.2, fun silent => absurd silent session⟩

/-- In an OPEN session every sound queue does. -/
theorem State.reportingSound_of_opened {s : State} (queue : s.queue.Sound) (session : s.unit.session = .opened) :
    s.ReportingSound :=
  ⟨queue, fun other => absurd session other, fun silent => by rw [session] at silent; cases silent⟩

/-! ## The queue's and the session's events -/

theorem State.linkReset_reportingSound {s : State} (h : s.ReportingSound) : s.linkReset.ReportingSound :=
  State.reportingSound_of_unsent (h.queue.changeSession s.time) (by simp [State.linkReset])

/-- The ack timer runs only while a record is SENT, which is in an OPEN session. -/
theorem State.ReportingSound.opened_of_timer {s : State} (h : s.ReportingSound) {timeout : AckTimeout}
    (running : s.queue.ackTimer = some timeout) : s.unit.session = .opened := by
  refine h.opened_of_sent fun none => ?_
  obtain ⟨_, _, _, _, _, _, _, _, timer, _⟩ := h.queue
  rw [running, if_pos (.inl none)] at timer
  cases timer

/-- Records are sound whatever the retry count and the settings. -/
theorem ReportQueue.RecordsSound.withRetries {q : ReportQueue} (h : q.RecordsSound) (credit : Nat) (timeout : AckTimeout)
    (retries : Nat) : ({ q with credit := credit, timeout := timeout, retries := retries } : ReportQueue).RecordsSound :=
  ⟨h.ordinary, h.loss, h.each, h.sequence, h.sentFirst, h.apart⟩

theorem ReportQueue.restartTimer_sentCount (q : ReportQueue) : q.restartTimer.sentCount = q.sentCount := by
  unfold ReportQueue.restartTimer ReportQueue.startTimer
  split <;> rfl

theorem ReportQueue.restartTimer_retries (q : ReportQueue) : q.restartTimer.retries = q.retries := by
  unfold ReportQueue.restartTimer ReportQueue.startTimer
  split <;> rfl

/-- A reopened session is OPEN, with a retry count of 0. -/
theorem State.reopen_reportingSound {s : State} (h : s.ReportingSound) : s.reopen.ReportingSound := by
  cases session : s.unit.session with
  | silent =>
    have unsent : s.queue.sentCount = 0 := h.2.1 (by simp [session])
    obtain ⟨_, _, _, _, _, _, window, credit, timer, _⟩ := h.queue
    have queue : ({ s.queue with retries := 0 } : ReportQueue).Sound :=
      (h.queue.records.withRetries _ _ 0).withSettings window credit timer ⟨Nat.zero_le _, fun eq => (by cases eq)⟩
    refine State.reportingSound_of_opened ?_ (State.reopen_session_of_silent session)
    simpa [State.reopen, session] using queue
  | closed | opened => simpa [State.reopen, session] using h

theorem State.arbitrate_reportingSound {s : State} (h : s.ReportingSound) : s.arbitrate.ReportingSound := by
  unfold State.arbitrate
  split
  case h_1 => exact h
  case h_2 =>
    split
    case h_1 offer =>
      obtain ⟨sound, isOpen⟩ := h.queue.choose offer
      exact State.reportingSound_of_opened sound isOpen
    case h_2 => exact h

/-- The queue after a full reset holds the RESTART record alone. -/
theorem ReportQueue.restarted_sound (cause : ResetCause) : (ReportQueue.restarted cause).Sound := by
  cases cause <;> decide

theorem State.foldl_enterPoweringUp_reports (ds : List DomainId) (s : State) : s.Reports (ds.foldl State.enterPoweringUp s) := by
  induction ds generalizing s with
  | nil => exact .none
  | cons d ds ih => exact (s.enterPoweringUp_reports d).trans (ih _)

theorem State.endFullReset_reportingSound (s : State) (cause : ResetCause) (rate : Rate) :
    (s.endFullReset cause rate).ReportingSound := by
  have same := s.endFullReset_sameOutside cause rate
  have reset : (s.fullyReset cause rate).ReportingSound :=
    State.reportingSound_of_unsent ⟨ReportQueue.restarted_sound cause, rfl⟩ (by simp [State.fullyReset, State.reset])
  exact reset.reports (State.foldl_enterPoweringUp_reports _ _) (by rw [same.unit])

theorem State.softReset_reportingSound {s : State} (h : s.ReportingSound) (block : SoftBlock) :
    (s.softReset block).ReportingSound := by
  cases block with
  | lineMonitor => exact s.softReset_lineMonitor_activity.reportingSound h
  | _ => exact h

/-! ## Every command -/

theorem State.serve_reportingSound {s t : State} {type : Byte} {owner : State → List Byte → Option Verdict} (h : s.ReportingSound)
    (ran : (s.running fun s => s.serve type (owner s)) = .next t)
    (done : ∀ {payload status part u}, owner s payload = some (.done status part u) → u.ReportingSound) : t.ReportingSound :=
  State.running_keeps (P := State.ReportingSound) ran h
    (State.serve_keeps (P := State.ReportingSound) type h (fun _ _ _ _ => done) fun _ _ => State.PortOnly.reportingSound)

theorem exec_reportingSound_of_noRecord {c : Instr} {s t : State} (h : s.ReportingSound) (of : touchesNoRecord c = true)
    (ran : exec c s = .next t) : t.ReportingSound := by
  have run {effect : State → State} (ran : s.running effect = .next t) (keeps : (effect s).ReportingSound) : t.ReportingSound :=
    State.running_keeps (P := State.ReportingSound) ran h keeps
  cases c with
  | ping | identify | readStatus | resetFull | readWindow | readClasses | readTimer | readDomain =>
    exact (exec_portOnly rfl ran).reportingSound h
  | rxCharacter | framingError | gapError | characterStartEdge =>
    have received := exec_receives rfl ran
    have unit : t.unit = s.unit := received.outside.unit
    exact h.reports received.reports (by rw [unit])
  | addressStrobe address pins wr requester =>
    simp only [exec, execAddressStrobe] at ran
    refine run ran ?_
    split
    · exact h
    · split
      · unfold State.offer
        split
        · exact h
        · exact h.reports (s.report_reports ⟨fun eq => (by cases eq), fun _ eq => (by cases eq)⟩) rfl
      · exact h
  | ackTimerExpiry =>
    simp only [exec, execAckTimerExpiry] at ran
    refine run ran ?_
    split
    case h_1 => exact h
    case h_2 running =>
      have isOpen := h.opened_of_timer running
      split <;> exact State.reportingSound_of_opened (h.queue.expire s.time).1 isOpen
  | silentClaim =>
    simp only [exec, execSilentClaim] at ran
    refine run ran ?_
    split
    case isFalse => exact h
    case isTrue =>
      by_cases claims : s.unit.session = .opened ∧ s.queue.retries = 8
      · obtain ⟨_, _, _, _, _, _, _, _, _, _, silent⟩ := h.queue
        exact ⟨h.queue, fun _ => silent claims.2, fun _ => claims.2⟩
      · exact h.of_eq rfl (by simp [claims])
  | rxBreak =>
    simp only [exec, execRxBreak] at ran
    refine run ran ?_
    split
    · exact (s.linkReset.beginFullReset_portOnly .host).reportingSound (State.linkReset_reportingSound h)
    · exact State.linkReset_reportingSound h
  | takeRequest =>
    simp only [exec, execTakeRequest] at ran
    refine run ran ?_
    split
    case h_1 => exact h
    case h_2 r rest _ =>
      split
      case isTrue =>
        refine State.ReportingSound.of_eq (s := (s.setLink { s.link with requests := rest }).reopen) ?_
          (State.passChecks_queue _ r) (State.passChecks_session _ r)
        exact State.reopen_reportingSound (s := s.setLink { s.link with requests := rest }) h
      case isFalse => exact h
  | frameBoundary =>
    simp only [exec, execFrameBoundary] at ran
    refine run ran ?_
    split
    · split
      · exact (s.beginFullReset_portOnly _).reportingSound h
      · exact State.arbitrate_reportingSound h
    · exact State.arbitrate_reportingSound h
  | openSession =>
    refine State.serve_reportingSound (owner := fun s p => some (s.ownOpen p)) h ran fun eq => ?_
    obtain ⟨credit, timeout, range, rfl⟩ := State.ownOpen_done (Option.some.inj eq)
    exact State.reportingSound_of_opened (h.queue.revert_with s.time timeout range (Nat.zero_le 8)) rfl
  | closeSession =>
    refine State.serve_reportingSound (owner := fun s _ => some s.ownClose) h ran fun eq => ?_
    cases Option.some.inj eq
    exact State.reportingSound_of_unsent (h.queue.changeSession s.time) (by simp)
  | setReporting =>
    refine State.serve_reportingSound (owner := fun s p => some (s.ownReporting p)) h ran fun eq => ?_
    obtain ⟨credit, timeout, range, window, rfl⟩ := State.ownReporting_done (Option.some.inj eq)
    obtain ⟨_, _, _, _, _, _, _, _, _, retries⟩ := h.queue
    have sound := (h.queue.records.withRetries credit timeout s.queue.retries).restartTimer window range retries
    refine ⟨sound, fun other => ?_, fun silent => ?_⟩
    · exact (ReportQueue.restartTimer_sentCount _).trans (h.2.1 other)
    · exact (ReportQueue.restartTimer_retries _).trans (h.2.2 silent)
  | ack =>
    refine State.serve_reportingSound (owner := fun s p => some (s.ownAck p)) h ran fun eq => ?_
    obtain ⟨n, removed, q, acked, rfl⟩ := State.ownAck_done (Option.some.inj eq)
    obtain ⟨sound, sent⟩ := h.queue.acknowledge acked
    exact State.reportingSound_of_opened sound (h.opened_of_sent (Nat.ne_of_gt sent))
  | setSnoop =>
    refine State.serve_reportingSound (owner := fun s p => some (s.ownSnoop p)) h ran fun eq => ?_
    obtain ⟨_, rfl⟩ := State.ownSnoop_done (Option.some.inj eq)
    exact h
  | setFallthrough =>
    refine State.serve_reportingSound (owner := fun s p => some (s.ownFallthrough p)) h ran fun eq => ?_
    obtain ⟨_, rfl⟩ := State.ownFallthrough_done (Option.some.inj eq)
    exact h
  | powerOnReset vdd vddio =>
    cases ran
    exact h.of_eq rfl rfl
  | resetPinRawChange level =>
    cases ran
    exact h
  | resetPin =>
    cases ran
    split
    · dsimp only
      split
      · exact h
      · exact h.of_eq rfl rfl
    · exact h
  | resetPinRelease =>
    cases ran
    split <;> exact h
  | _ => cases of

theorem exec_reportingSound {c : Instr} {s t : State} (h : s.ReportingSound) (ran : exec c s = .next t) : t.ReportingSound := by
  cases of : touchesNoRecord c
  case true => exact exec_reportingSound_of_noRecord h of ran
  cases exec_effect of ran with
  | notified u notified port => exact port.reportingSound (notified.reportingSound h)
  | decision o rest spread fifo eq =>
    rw [eq]
    rcases State.decide_cases { s with fifo := rest } o spread with k | ⟨w, -, k⟩ <;> exact k.reportingSound h
  | rawLevel l level eq => exact eq ▸ h
  | edge l spread candidate eq =>
    rw [eq]
    exact ((s.setLine_activity l _).trans (State.qualifyEdge_activity _ l spread)).reportingSound h
  | increment command eq => exact eq ▸ s.takeOutstanding_notified.reportingSound h
  | configured l qualifier cls spread port =>
    exact port.reportingSound ((s.configureLine_activity l qualifier cls spread).reportingSound h)
  | softReset block clears port => exact port.reportingSound (State.softReset_reportingSound h block)
  | window w x fits clears port => exact port.reportingSound h
  | timer i x sound agrees port => exact port.reportingSound h
  | fullReset cause rate command inProgress eq => exact eq ▸ s.endFullReset_reportingSound cause rate

/-- Settles O11: soundness of queue and session as an invariant of every command. -/
theorem stepKeepsReportingSound : Obligations.StepKeepsReportingSound := step_keeps (fun _ _ => id) exec_reportingSound

end Sys2Proof.Machine
end

section
/-! PROOF of what every command completes on (O2), of the commands a full reset suspends (O5), and of the step itself (O1). -/

namespace Sys2Proof.Machine

/-! ## The shape of a command -/

theorem onLine_of_lt {n : Nat} (h : n < 12) (f : LineId → Result) : onLine n f = f ⟨n, h⟩ := onLine_val ⟨n, h⟩ f
theorem onTimer_of_lt {n : Nat} (h : n < 8) (f : TimerId → Result) : onTimer n f = f ⟨n, h⟩ := onTimer_val ⟨n, h⟩ f
theorem onDomain_of_lt {n : Nat} (h : n < 6) (f : DomainId → Result) : onDomain n f = f ⟨n, h⟩ := onDomain_val ⟨n, h⟩ f

theorem onLine_running {n : Nat} (h : n < 12) (effect : LineId → State → State) (s : State) :
    onLine n (fun l => s.running (effect l)) = s.running (effect ⟨n, h⟩) := onLine_of_lt h _
theorem onTimer_running {n : Nat} (h : n < 8) (effect : TimerId → State → State) (s : State) :
    onTimer n (fun i => s.running (effect i)) = s.running (effect ⟨n, h⟩) := onTimer_of_lt h _
theorem onDomain_running {n : Nat} (h : n < 6) (effect : DomainId → State → State) (s : State) :
    onDomain n (fun d => s.running (effect d)) = s.running (effect ⟨n, h⟩) := onDomain_of_lt h _

/-- A command that names a resource of the part, and does not act during a full reset, is an effect of a running part. -/
theorem exec_of_wellFormed {c : Instr} (wellFormed : WellFormed c = true) (suspended : actsDuringReset c = false) (s : State) :
    ∃ effect, exec c s = s.running effect := by
  cases c with
  | lineRawChange | handshakeRawChange | resetPinRawChange | resetPin | resetPinRelease | powerOnReset | fullResetEnd =>
    cases suspended
  | recognisedEdge n part =>
    simp only [exec, execRecognisedEdge]
    exact ⟨_, onLine_running (by simpa [WellFormed] using wellFormed) _ s⟩
  | timerExpiry n part =>
    simp only [exec, execTimerExpiry]
    exact ⟨_, onTimer_running (by simpa [WellFormed] using wellFormed) _ s⟩
  | throttlePhaseEnd n | qackRise n | qackFall n | pgoodRise n | pgoodFall n | quiesceDeadlineEnd n | stopDelayEnd n
  | powerOffDeadlineEnd n | powerOnDeadlineEnd n | resumeDelayEnd n =>
    simp only [exec, execThrottlePhaseEnd, execQackRise, execQackFall, execPgoodRise, execPgoodFall, execQuiesceDeadlineEnd,
      execStopDelayEnd, execPowerOffDeadlineEnd, execPowerOnDeadlineEnd, execResumeDelayEnd]
    exact ⟨_, onDomain_running (by simpa [WellFormed] using wellFormed) _ s⟩
  | _ =>
    simp only [exec]
    exact ⟨_, rfl⟩

/-- Settles O5: every other command is an effect of a running part. -/
theorem fullResetSuspendsCommands : Obligations.FullResetSuspendsCommands := by
  intro c s cause inProgress wellFormed suspended
  obtain ⟨effect, eq⟩ := exec_of_wellFormed wellFormed suspended s
  rw [eq, State.running_during inProgress]

theorem State.running_next (s : State) (effect : State → State) : ∃ t, s.running effect = .next t := by
  cases inProgress : s.board.fullReset with
  | none => exact ⟨_, State.running_of inProgress effect⟩
  | some cause => exact ⟨_, State.running_during inProgress effect⟩

theorem exec_completes {c : Instr} (wellFormed : WellFormed c = true) (s : State) : ∃ t, exec c s = .next t := by
  cases suspended : actsDuringReset c
  case false =>
    obtain ⟨effect, eq⟩ := exec_of_wellFormed wellFormed suspended s
    exact eq ▸ s.running_next effect
  cases c with
  | lineRawChange n level =>
    simp only [exec, execLineRawChange]
    exact ⟨_, onLine_of_lt (by simpa [WellFormed] using wellFormed) _⟩
  | handshakeRawChange n input level =>
    simp only [exec, execHandshakeRawChange]
    exact ⟨_, onDomain_of_lt (by simpa [WellFormed] using wellFormed) _⟩
  | resetPinRawChange | resetPin | resetPinRelease | powerOnReset | fullResetEnd => exact ⟨_, rfl⟩
  | _ => cases suspended

/-! ## The command queue -/

theorem State.softReset_pending (s : State) (block : SoftBlock) : (s.softReset block).pending = s.pending := by
  cases block with
  | lineMonitor => exact s.softReset_lineMonitor_activity.pending
  | _ => rfl

/-- No command touches the queue it came from. -/
theorem exec_pending {c : Instr} {s t : State} (ran : exec c s = .next t) : t.pending = s.pending := by
  cases of : touchesNoRecord c
  case true => exact (exec_sameRecords of ran).pending
  cases exec_effect of ran with
  | notified u notified port => exact port.pending.trans notified.pending
  | decision o rest spread fifo eq =>
    rw [eq]
    rcases State.decide_cases { s with fifo := rest } o spread with k | ⟨w, -, k⟩ <;> exact k.pending
  | rawLevel l level eq => rw [eq]; rfl
  | edge l spread candidate eq => exact eq ▸ (State.qualifyEdge_activity _ l spread).pending
  | increment command eq => exact eq ▸ s.takeOutstanding_notified.pending
  | configured l qualifier cls spread port => exact port.pending.trans (s.configureLine_activity l qualifier cls spread).pending
  | softReset block clears port => exact port.pending.trans (s.softReset_pending block)
  | window w x fits clears port => exact port.pending
  | timer i x sound agrees port => exact port.pending
  | fullReset cause rate command inProgress eq => exact eq ▸ (s.endFullReset_sameOutside cause rate).pending

/-! ## The faults -/

/-- The fault of a command that names no resource of the part: by the name of what it names. -/
def faultOf : Instr → Option Fault
  | .lineRawChange n _ | .recognisedEdge n _ => some (.noSuchLine n)
  | .timerExpiry n _ => some (.noSuchTimer n)
  | .throttlePhaseEnd n | .handshakeRawChange n _ _ | .qackRise n | .qackFall n | .pgoodRise n | .pgoodFall n
  | .quiesceDeadlineEnd n | .stopDelayEnd n | .powerOffDeadlineEnd n | .powerOnDeadlineEnd n | .resumeDelayEnd n =>
    some (.noSuchDomain n)
  | _ => none

theorem exec_faults {c : Instr} {f : Fault} (absent : WellFormed c = false) (named : faultOf c = some f) (s : State) :
    exec c s = .fault f := by
  cases c with
  | lineRawChange n level | recognisedEdge n part =>
    cases named
    simp only [exec, execLineRawChange, execRecognisedEdge]
    exact onLine_absent (by simpa [WellFormed] using absent) _
  | timerExpiry n part =>
    cases named
    simp only [exec, execTimerExpiry]
    exact onTimer_absent (by simpa [WellFormed] using absent) _
  | throttlePhaseEnd n | handshakeRawChange n | qackRise n | qackFall n | pgoodRise n | pgoodFall n | quiesceDeadlineEnd n
  | stopDelayEnd n | powerOffDeadlineEnd n | powerOnDeadlineEnd n | resumeDelayEnd n =>
    cases named
    simp only [exec, execThrottlePhaseEnd, execHandshakeRawChange, execQackRise, execQackFall, execPgoodRise, execPgoodFall,
      execQuiesceDeadlineEnd, execStopDelayEnd, execPowerOffDeadlineEnd, execPowerOnDeadlineEnd, execResumeDelayEnd]
    exact onDomain_absent (by simpa [WellFormed] using absent) _
  | _ => cases named

/-- Every command that names no resource of the part has a fault of its own. -/
theorem faultOf_of_absent {c : Instr} (absent : WellFormed c = false) : ∃ f, faultOf c = some f := by
  cases c <;> simp_all [WellFormed, faultOf]

/-- Settles O2: a command that names a resource of the part is total and leaves the queue; any other is its resource's fault. -/
theorem completesExactlyOnPartsResources : Obligations.CompletesExactlyOnPartsResources := by
  refine ⟨fun c s => ⟨fun wellFormed => ?_, fun ⟨t, ran, _⟩ => ?_⟩, fun s n level input => ⟨fun absent => ?_, ?_, ?_⟩⟩
  · obtain ⟨t, ran⟩ := exec_completes wellFormed s
    exact ⟨t, ran, exec_pending ran⟩
  · refine Decidable.byContradiction fun absent => ?_
    obtain ⟨f, named⟩ := faultOf_of_absent (Bool.eq_false_of_not_eq_true absent)
    rw [exec_faults (Bool.eq_false_of_not_eq_true absent) named] at ran
    cases ran
  · exact ⟨exec_faults (by simpa [WellFormed] using absent) rfl s, fun _ => exec_faults (by simpa [WellFormed] using absent) rfl s⟩
  · exact fun absent _ => exec_faults (by simpa [WellFormed] using absent) rfl s
  · intro absent c mem
    have names : WellFormed c = false ∧ faultOf c = some (.noSuchDomain n) := by
      simp only [List.mem_cons, List.not_mem_nil, or_false] at mem
      rcases mem with rfl | rfl | rfl | rfl | rfl | rfl | rfl | rfl | rfl | rfl | rfl <;>
        exact ⟨by simpa [WellFormed] using absent, rfl⟩
    exact exec_faults names.1 names.2 s

/-! ## The step -/

/-- Settles O1: by the two cases of the command queue. -/
theorem stepRunsFrontCommand : Obligations.StepRunsFrontCommand := by
  refine ⟨fun c s rest waiting => ?_, fun s idle => ?_⟩
  · rw [step, waiting]
  · rw [step, idle]

end Sys2Proof.Machine
end

section
/-! PROOF of the obligations on a match decision: which window decides (O14), and what the decision hands on (O15). -/

namespace Sys2Proof.Machine

/-! ## The deciding window -/

/-- The first window that matches decides (R18). -/
theorem State.decider_of_first {s : State} {o : Observation} {w : WindowId} (hit : (s.window w).config.matches o = true)
    (first : ∀ v, v < w → (s.window v).config.matches o = false) : s.decider o = some w := by
  obtain ⟨before, after, split⟩ := List.append_of_mem (mem_allWindows w)
  refine List.find?_eq_some_iff_append.2 ⟨hit, before, after, split, fun v mem => ?_⟩
  have sorted := allWindows_sorted
  rw [split, List.pairwise_append] at sorted
  simp [first v (sorted.2.2 v mem w (by simp))]

theorem State.decider_of_none {s : State} {o : Observation} (none : ∀ w, (s.window w).config.matches o = false) :
    s.decider o = Option.none := List.find?_eq_none.2 fun w _ => by simp [none w]

theorem State.decide_of_first {s : State} {o : Observation} {w : WindowId} (hit : (s.window w).config.matches o = true)
    (first : ∀ v, v < w → (s.window v).config.matches o = false) (spread : Bool) :
    s.decide o spread =
      (s.setWindow w (s.window w).decided).decisionHandOffs (s.window w).pulsed
        (if (s.window w).traps then [.report (trapReport w o)] else []) spread := by
  rw [State.decide, State.decider_of_first hit first]

theorem State.decide_of_none {s : State} {o : Observation} (none : ∀ w, (s.window w).config.matches o = false) (spread : Bool) :
    s.decide o spread = s.decisionHandOffs s.fallthrough [] spread := by
  rw [State.decide, State.decider_of_none none]

/-- A decision taken whole or with its pulse at the Class Map alone: the observation leaves the FIFO and is decided. -/
theorem exec_matchDecision {s : State} (running : s.Running) {o : Observation} {rest : List Observation} (fifo : s.fifo = o :: rest)
    (part : PulsePart) :
    exec (.matchDecision part) s = .next (s.inPart part fun spread => ({ s with fifo := rest } : State).decide o spread) := by
  change execMatchDecision s part = _
  rw [execMatchDecision, State.running_of running, fifo]

theorem Window.traps_iff (x : Window) :
    x.traps = true ↔ x.config.action = .trapEach ∨ x.config.action = .trapOnce ∧ x.armed = true := by
  cases action : x.config.action <;> simp [Window.traps, action]

theorem Window.decided_eq (x : Window) :
    x.decided =
      { x with hits := min (x.hits + 1) 65535, armed := if x.config.action = .trapOnce then false else x.armed } := by
  cases action : x.config.action <;> simp [Window.decided, action, maxCount]

theorem Window.pulsed_of_exclude {x : Window} (h : x.config.action = .exclude) : x.pulsed = none := by simp [Window.pulsed, h]
theorem Window.pulsed_of_not_exclude {x : Window} (h : x.config.action ≠ .exclude) : x.pulsed = x.config.cls := by
  cases action : x.config.action <;> simp_all [Window.pulsed]

/-! ## What the hand-offs leave -/

/-- A decision's hand-offs change the classes, the timers, the domains, the queue, the notices on their way and the draws alone. -/
theorem State.decisionHandOffs_outside (s : State) (pulsed : Option ClassId) (reports : List HandOff) (spread : Bool) :
    { s.decisionHandOffs pulsed reports spread with
      classes := s.classes, timers := s.timers, domains := s.domains, queue := s.queue, notices := s.notices
      freeDraws := s.freeDraws } = s := by
  have from_ (u : State) (outside : { u with classes := s.classes, timers := s.timers, notices := s.notices } = s) :
      { u.handOver reports with
        classes := s.classes, timers := s.timers, domains := s.domains, queue := s.queue, notices := s.notices
        freeDraws := s.freeDraws } = s := by
    have frame := congrArg
      (fun v : State => { v with classes := s.classes, timers := s.timers, domains := s.domains, queue := s.queue,
                                 notices := s.notices, freeDraws := s.freeDraws }) (u.handOver_sameOutside reports).frame
    refine Eq.trans ?_ (frame.trans ?_)
    · rfl
    · rw [← outside]
  cases pulsed with
  | none => exact from_ s rfl
  | some c =>
    cases spread with
    | true => exact from_ (s.spreadPulse c false) rfl
    | false =>
      have frame := s.decisionHandOffs_frame (some c) reports
      exact congrArg (fun v : State => { v with notices := s.notices }) frame

theorem State.decisionHandOffs_fifo (s : State) (pulsed : Option ClassId) (reports : List HandOff) (spread : Bool) :
    (s.decisionHandOffs pulsed reports spread).fifo = s.fifo := by
  have frame := congrArg State.fifo (s.decisionHandOffs_outside pulsed reports spread)
  exact frame

theorem State.decisionHandOffs_windows (s : State) (pulsed : Option ClassId) (reports : List HandOff) (spread : Bool) :
    (s.decisionHandOffs pulsed reports spread).windows = s.windows := by
  have frame := congrArg State.windows (s.decisionHandOffs_outside pulsed reports spread)
  exact frame

/-- Taken whole, a decision leaves the notices on their way. -/
theorem State.decisionHandOffs_notices (s : State) (pulsed : Option ClassId) (reports : List HandOff) :
    (s.decisionHandOffs pulsed reports false).notices = s.notices := by
  have frame := congrArg State.notices (s.decisionHandOffs_frame pulsed reports)
  exact frame

/-- Settles O14: the deciding window's record is the one written, and the hand-offs leave windows, FIFO and the rest. -/
theorem firstMatchDecides : Obligations.FirstMatchDecides := by
  intro s o rest part either running fifo
  have decided : ∃ spread, (part = .whole → spread = false) ∧
      exec (.matchDecision part) s = .next (({ s with fifo := rest } : State).decide o spread) := by
    rw [exec_matchDecision running fifo]
    rcases either with rfl | rfl
    · exact ⟨false, fun _ => rfl, rfl⟩
    · exact ⟨true, fun eq => (by cases eq), rfl⟩
  obtain ⟨spread, whole, ran⟩ := decided
  refine ⟨fun w hit first => ⟨_, ran, ?_⟩, fun none => ⟨_, ran, ?_⟩⟩
  · rw [State.decide_of_first (s := { s with fifo := rest }) hit first]
    generalize pulsedIs : (State.window { s with fifo := rest } w).pulsed = pulsed
    generalize (if (State.window { s with fifo := rest } w).traps then [HandOff.report (trapReport w o)] else []) = reports
    have window (v : WindowId) :
        ((({ s with fifo := rest } : State).setWindow w (s.window w).decided).decisionHandOffs pulsed reports spread).window v =
          if v = w then (s.window w).decided else s.window v := by
      rw [State.window, State.decisionHandOffs_windows]
      exact set_get ..
    refine ⟨State.decisionHandOffs_fifo .., fun isWhole => ?_, ?_, fun v other => ?_, ?_⟩
    · rw [whole isWhole]
      exact State.decisionHandOffs_notices ..
    · exact (window w).trans ((if_pos rfl).trans (s.window w).decided_eq)
    · exact (window v).trans (if_neg other)
    · exact congrArg (fun v : State => { v with fifo := s.fifo, windows := s.windows })
        (State.decisionHandOffs_outside (({ s with fifo := rest } : State).setWindow w (s.window w).decided) pulsed reports spread)
  · rw [State.decide_of_none (s := { s with fifo := rest }) none]
    refine ⟨State.decisionHandOffs_fifo .., fun isWhole => ?_, ?_⟩
    · rw [whole isWhole]
      exact State.decisionHandOffs_notices ..
    · exact congrArg (fun v : State => { v with fifo := s.fifo })
        (State.decisionHandOffs_outside { s with fifo := rest } s.fallthrough [] spread)

/-! ## What a decision hands on -/

/-- The trap report and the wakes of a pulse, taken in one order. -/
theorem State.handOver_report_wakes (s : State) (r : Report) (c : ClassId) :
    ∃ (order : List (Option DomainId)) (n : Nat), order.Perm (none :: (s.wakers c).map some) ∧
      s.handOver (.report r :: s.wakesOf c) =
        order.foldl (fun v taker => match taker with | none => v.report r | some d => v.wake d (.cls c))
          { s with freeDraws := n } := by
  let handOff (taker : Option DomainId) : HandOff := taker.elim (.report r) fun d => .wake d (.cls c)
  obtain ⟨order, n, perm, eq⟩ := s.handOver_map handOff (none :: (s.wakers c).map some)
  refine ⟨order, n, perm, ?_⟩
  have same : HandOff.report r :: s.wakesOf c = (none :: (s.wakers c).map some).map handOff := by
    simp [State.wakesOf, handOff, Function.comp_def]
  rw [same, eq]
  congr 1
  funext v taker
  cases taker <;> rfl

/-- A trap report among a pulse's wakes changes neither the classes, the timers nor the domains that the wakes leave. -/
theorem State.handOver_report_beside (s : State) (r : Report) (c : ClassId) :
    (s.handOver (.report r :: s.wakesOf c)).classes = (s.handOver (s.wakesOf c)).classes ∧
    (s.handOver (.report r :: s.wakesOf c)).timers = (s.handOver (s.wakesOf c)).timers ∧
    (s.handOver (.report r :: s.wakesOf c)).domains = (s.handOver (s.wakesOf c)).domains := by
  obtain ⟨domWith, timerWith⟩ := s.handOver_wakesOf c [.report r] fun _ mem => ⟨r, List.mem_singleton.1 mem⟩
  obtain ⟨dom, timer⟩ := s.handOver_wakesOf c [] fun _ mem => (by cases mem)
  refine ⟨?_, State.timers_ext fun i => (timerWith i).trans (timer i).symm, State.domains_ext fun d => (domWith d).trans (dom d).symm⟩
  exact (s.handOver_sameOutside _).classes.trans (s.handOver_sameOutside _).classes.symm

/-- Settles O15: the hand-offs of each action, by what it pulses and whether it traps. -/
theorem decisionHandsOnByAction : Obligations.DecisionHandsOnByAction := by
  intro s o rest running fifo
  have whole : exec .matchDecision s = .next (({ s with fifo := rest } : State).decide o false) := exec_matchDecision running fifo _
  have atClassMap : exec (.matchDecision .atClassMap) s = .next (({ s with fifo := rest } : State).decide o true) :=
    exec_matchDecision running fifo _
  refine ⟨fun w hit first => ?_, fun none => ?_⟩
  · intro x counted trap reports
    have decided (spread : Bool) : ({ s with fifo := rest } : State).decide o spread =
        counted.decisionHandOffs x.pulsed (if x.traps then [.report trap] else []) spread := by
      have eq : counted = ({ s with fifo := rest } : State).setWindow w x.decided := by rw [Window.decided_eq]
      rw [eq]
      exact State.decide_of_first (s := { s with fifo := rest }) hit first spread
    rw [whole, atClassMap, decided, decided]
    have traps (yes : reports) : x.traps = true := x.traps_iff.2 yes
    have quiet (no : ¬ reports) : x.traps = false := Bool.eq_false_of_not_eq_true (mt x.traps_iff.1 no)
    have notExclude (yes : reports) : x.config.action ≠ .exclude := by
      rintro eq
      simp [reports, eq] at yes
    have excluded (eq : x.config.action = .exclude) : ¬ reports := fun yes => notExclude yes eq
    refine ⟨fun eq => ?_, fun noCls no => ?_, fun noCls yes => ?_, fun c cls pulses no => ?_, fun c cls yes => ?_, ?_⟩
    · rw [Window.pulsed_of_exclude eq, quiet (excluded eq)]
      rfl
    · have silent : x.pulsed = none := by
        by_cases eq : x.config.action = .exclude
        · exact Window.pulsed_of_exclude eq
        · exact (Window.pulsed_of_not_exclude eq).trans noCls
      rw [silent, quiet no]
      rfl
    · rw [(Window.pulsed_of_not_exclude (notExclude yes)).trans noCls, traps yes]
      rfl
    · rw [(Window.pulsed_of_not_exclude pulses).trans cls, quiet no]
      rfl
    · rw [(Window.pulsed_of_not_exclude (notExclude yes)).trans cls, traps yes]
      obtain ⟨order, n, perm, eq⟩ := (counted.pulseTimers c).handOver_report_wakes trap c
      obtain ⟨classes, timers, domains⟩ := (counted.pulseTimers c).handOver_report_beside trap c
      refine ⟨_, rfl, classes, timers, domains, ⟨{ counted.pulseTimers c with freeDraws := n }, order, perm, ?_, rfl, eq⟩, ?_⟩
      · exact counted.pulseTimers_timer c
      · exact counted.decisionHandOffs_frame (some c) [.report trap]
    · intro spread
      have spreads (reported : List HandOff) :
          counted.decisionHandOffs x.pulsed reported true = spread.handOver reported := by
        by_cases eq : x.config.action = .exclude
        · simp only [spread, if_pos eq, Window.pulsed_of_exclude eq]
          rfl
        · simp only [spread, if_neg eq, Window.pulsed_of_not_exclude eq]
          cases x.config.cls <;> rfl
      refine ⟨fun yes => ?_, fun no => ?_⟩
      · rw [traps yes, spreads]
        rfl
      · rw [quiet no, spreads]
        rfl
  · rw [whole, atClassMap, State.decide_of_none (s := { s with fifo := rest }) none,
      State.decide_of_none (s := { s with fifo := rest }) none]
    change Host.Outcome.next (State.decisionHandOffs _ s.fallthrough [] false) = _ ∧
      Host.Outcome.next (State.decisionHandOffs _ s.fallthrough [] true) = _
    cases s.fallthrough with
    | none => exact ⟨rfl, rfl⟩
    | some c => exact ⟨rfl, rfl⟩

end Sys2Proof.Machine
end

section
/-! PROOF of the obligations on class pulses and their listeners (O18) and on the beginning and the end of a hold (O19). -/

namespace Sys2Proof.Machine

/-! ## The wakes of a class -/

/-- The wakes of a class are taken by the domains whose wake set holds it, one after another. -/
theorem State.handOver_wakes (s : State) (c : ClassId) :
    ∃ (order : List DomainId) (n : Nat), order.Perm (s.wakers c) ∧
      s.handOver (s.wakesOf c) = order.foldl (fun v d => v.wake d (.cls c)) { s with freeDraws := n } :=
  s.handOver_map (fun d => .wake d (.cls c)) (s.wakers c)

/-- A domain that the wakes of a class reach takes its own, and a timer bound to one takes its restart claim (R37, R49, R66). -/
theorem State.handOver_wakes_dom (s : State) (c : ClassId) (d : DomainId) :
    (s.handOver (s.wakesOf c)).dom d =
      if (s.dom d).config.wakeSet.has c = true then (s.wake d (.cls c)).dom d else s.dom d :=
  (s.handOver_wakesOf c [] fun _ mem => (by cases mem)).1 d

theorem State.handOver_wakes_timer (s : State) (c : ClassId) (i : TimerId) :
    (s.handOver (s.wakesOf c)).timer i =
      if ∃ d, (s.dom d).config.wakeSet.has c = true ∧ (s.dom d).config.boundTimer = some i ∧
          ∀ from_, (s.dom d).state ≠ .retired from_
      then (s.timer i).reload else s.timer i :=
  (s.handOver_wakesOf c [] fun _ mem => (by cases mem)).2 i

theorem State.handOver_cls (s : State) (hs : List HandOff) (c : ClassId) : (s.handOver hs).cls c = s.cls c :=
  (s.handOver_sameOutside hs).cls c

/-! ## A pulse -/

theorem State.pulse_cls (s : State) (c e : ClassId) :
    (s.pulse c).cls e = if e = c then { s.cls c with last := some s.time } else s.cls e :=
  (State.handOver_cls _ _ e).trans (s.pulseTimers_cls c e)

/-- A timer that watches the class takes a reload, and a restart claim on top of one changes nothing (R47, R49). -/
theorem State.pulse_timer (s : State) (c : ClassId) (i : TimerId) :
    (s.pulse c).timer i =
      if (s.timer i).watch.has c = true ∨
          ∃ d, (s.dom d).config.wakeSet.has c = true ∧ (s.dom d).config.boundTimer = some i ∧
            ∀ from_, (s.dom d).state ≠ .retired from_
      then (s.timer i).reload else s.timer i := by
  refine ((s.pulseTimers c).handOver_wakes_timer c i).trans ?_
  simp only [State.pulseTimers_dom, State.pulseTimers_timer]
  by_cases watches : (s.timer i).watch.has c = true
  · rw [if_pos watches, Timer.reload_reload, ite_self, if_pos (Or.inl watches)]
  · rw [if_neg watches]
    exact if_congr (or_iff_right watches).symm rfl rfl

theorem State.pulse_dom (s : State) (c : ClassId) (d : DomainId) :
    (s.pulse c).dom d = if (s.dom d).config.wakeSet.has c = true then (s.wake d (.cls c)).dom d else s.dom d := by
  refine ((s.pulseTimers c).handOver_wakes_dom c d).trans (if_congr Iff.rfl ?_ rfl)
  exact State.wake_dom_congr (s.pulseTimers_dom c d) _

/-- From the stamp and the watchers' reloads a pulse comes by its wakes alone, each taken once, in some order. -/
theorem State.pulse_order (s : State) (c : ClassId) :
    ∃ (u : State) (order : List DomainId),
      order.Perm (allDomains.filter fun d => (s.dom d).config.wakeSet.has c) ∧
      { u with classes := s.classes, timers := s.timers, freeDraws := s.freeDraws } = s ∧
      (∀ i, u.timer i = if (s.timer i).watch.has c = true then (s.timer i).reload else s.timer i) ∧
      s.pulse c = order.foldl (fun v d => v.wake d (.cls c)) u := by
  obtain ⟨order, n, perm, eq⟩ := (s.pulseTimers c).handOver_wakes c
  exact ⟨{ s.pulseTimers c with freeDraws := n }, order, perm, rfl, s.pulseTimers_timer c, eq⟩

/-! ## A listener's taking -/

/-- A listener's part of any command that gives a pulse is its taking. -/
theorem exec_atListener {s : State} (running : s.Running) {x : Listener} {l : LineId} {command : Instr}
    (mem : command ∈ [.matchDecision (.atListener x), .recognisedEdge l.val (.atListener x), .setLine (.atListener x),
      .nudge (.atListener x)]) : exec command s = .next (s.takeNotice x) := by
  simp only [List.mem_cons, List.not_mem_nil, or_false] at mem
  have taken : s.running (·.takeNotice x) = .next (s.takeNotice x) := State.running_of running _
  rcases mem with rfl | rfl | rfl | rfl
  · exact taken
  · exact (onLine_val l fun _ => s.running (·.takeNotice x)).trans taken
  · exact taken
  · exact taken

/-- The oldest notice on its way to a listener goes, and is met. -/
theorem State.takeNotice_oldest {s : State} {n : Notice} {before after : List Notice} (onWay : s.notices = before ++ n :: after)
    (older : ∀ m ∈ before, m.listener ≠ n.listener) :
    s.takeNotice n.listener = ({ s with notices := before ++ after } : State).hear n := by
  have found : s.notices.find? (·.listener == n.listener) = some n := by
    rw [onWay]
    exact find?_at _ before after n (fun m mem => by simp [older m mem]) (by simp)
  have erased : s.notices.erase n = before ++ after := by
    rw [onWay, List.erase_append_right _ fun mem => older n mem rfl, List.erase_cons_head]
  rw [State.takeNotice, found, ← erased]

theorem State.takeNotice_of_none {s : State} {x : Listener} (none : ∀ n ∈ s.notices, n.listener ≠ x) : s.takeNotice x = s := by
  rcases s.takeNotice_cases x with ⟨eq, -⟩ | ⟨n, mem, own, -⟩
  · exact eq
  · exact absurd own (none n mem)

theorem State.takeNotice_running {s : State} (running : s.Running) (x : Listener) : (s.takeNotice x).Running := by
  have same := s.takeNotice_frame x
  have board : (s.takeNotice x).board = s.board := same.board
  rwa [State.Running, board]

/-- Listeners' takings one after another, as commands. -/
theorem execAll_atListener (order : List Listener) {s : State} (running : s.Running) :
    execAll (order.map fun x => .nudge (.atListener x)) s = .next (order.foldl State.takeNotice s) := by
  induction order generalizing s with
  | nil => rfl
  | cons x xs ih =>
    rw [List.map_cons, execAll, exec_atListener running (x := x) (l := 0) (by simp), List.foldl_cons]
    exact ih (State.takeNotice_running running x)

/-! ## NUDGE -/

theorem State.HasInHand.exec_nudge {s : State} {payload : List Byte} {r : Request} (h : s.HasInHand 0x1A payload r) :
    exec .nudge s = .next (s.conclude r (some (s.ownNudge false payload))) ∧
    exec (.nudge .atClassMap) s = .next (s.conclude r (some (s.ownNudge true payload))) := by
  have whole : exec .nudge s = .next (s.servePulse 0x1A (s.ownNudge false)) :=
    h.running fun s => s.servePulse 0x1A (s.ownNudge false)
  have spread : exec (.nudge .atClassMap) s = .next (s.servePulse 0x1A (s.ownNudge true)) :=
    h.running fun s => s.servePulse 0x1A (s.ownNudge true)
  rw [whole, spread, h.servePulse, h.servePulse]
  exact ⟨rfl, rfl⟩

/-- The pulse that a NUDGE of a class gives, and its answer. -/
theorem State.conclude_ownNudge_of_lt (s : State) (r : Request) (spread : Bool) {b : Byte} (h : b.toNat < 16) :
    s.conclude r (some (s.ownNudge spread [b])) =
      (if spread then s.spreadPulse ⟨b.toNat, h⟩ true else s.pulse ⟨b.toNat, h⟩).answer r
        (0 :: 0 :: (optionalTime (s.cls ⟨b.toNat, h⟩).last ++
          [setByte (s.watchers ⟨b.toNat, h⟩), setByte (s.wakers ⟨b.toNat, h⟩)])) false := by
  have own : s.ownNudge spread [b] = .done .ok (optionalTime (s.cls ⟨b.toNat, h⟩).last ++
      [setByte (s.watchers ⟨b.toNat, h⟩), setByte (s.wakers ⟨b.toNat, h⟩)])
      (if spread then s.spreadPulse ⟨b.toNat, h⟩ true else s.pulse ⟨b.toNat, h⟩) := by
    simp [State.ownNudge, index?_of_lt h]
  rw [own, State.conclude_done]
  rfl

theorem State.ownNudge_of_le (s : State) (spread : Bool) {b : Byte} (h : 16 ≤ b.toNat) :
    s.ownNudge spread [b] = .refuse .range := by simp [State.ownNudge, index?_of_le h]

/-! ## What a reply waits for -/

/-- A request's joining takes what is awaited first, whichever request it is. -/
theorem exec_joins_awaited {s : State} {r : Request} {reply : Reply} {part : PulsePart} (either : part = .whole ∨ part = .atClassMap)
    (running : s.Running) (inHand : s.unit.inHand = some r) (made : s.unit.made = some reply) :
    (r.type = 0x1A → exec (.nudge part) s = .next (s.takeAwaited.joinReply reply)) ∧
    (r.type = 0x11 → exec (.setLine part) s = .next (s.takeAwaited.joinReply reply)) := by
  have nudge : exec (.nudge part) s = .next (s.inPart part fun spread => s.servePulse 0x1A (s.ownNudge spread)) :=
    State.running_of running fun s => s.inPart part fun spread => s.servePulse 0x1A (s.ownNudge spread)
  have setLine : exec (.setLine part) s = .next (s.inPart part fun spread => s.servePulse 0x11 (s.ownLine spread)) :=
    State.running_of running fun s => s.inPart part fun spread => s.servePulse 0x11 (s.ownLine spread)
  have joins {type : Byte} (ht : r.type = type) (owner : Bool → List Byte → Verdict) :
      (s.inPart part fun spread => s.servePulse type (owner spread)) = s.takeAwaited.joinReply reply := by
    rcases either with rfl | rfl <;> exact State.servePulse_made inHand ht made _
  exact ⟨fun ht => by rw [nudge, joins ht], fun ht => by rw [setLine, joins ht]⟩

/-- A listener stands among the awaited once for its last notice of a request and once for each before it. -/
theorem awaited_count (before after : List Notice) (m : Notice) (of : m.ofRequest = true)
    (last : ∀ k ∈ after, ¬ (k.ofRequest = true ∧ k.listener = m.listener)) :
    (awaited (before ++ m :: after)).count m.listener = (before.filter (·.listener == m.listener)).length + 1 := by
  induction before with
  | nil =>
    have absent : m.listener ∉ awaited after := fun mem => by
      obtain ⟨k, hk, holds⟩ := mem_awaited.1 mem
      exact last k hk holds
    simp [awaited, of, List.count_eq_zero.2 absent]
  | cons k before ih =>
    by_cases own : k.listener = m.listener
    · have any : ((k :: (before ++ m :: after)).any fun n => n.ofRequest && n.listener == k.listener) = true :=
        List.any_eq_true.2 ⟨m, by simp, by simp [of, own]⟩
      rw [List.cons_append, awaited, if_pos any, own, List.count_cons_self, ih]
      simp [own]
    · rw [List.cons_append, awaited]
      split
      · rw [List.count_cons_of_ne (by simpa using own), ih]
        simp [own]
      · rw [ih]
        simp [own]

/-- Settles O18: the pulse by its takers, a listener's taking by the oldest notice on its way, and the joining by what is awaited. -/
theorem pulseReachesListeners : Obligations.PulseReachesListeners := by
  refine ⟨fun s c => ⟨?_, fun e other => ?_, s.pulse_timer c, s.pulse_dom c, s.pulse_order c, s.pulse_frame c, fun _ => rfl⟩,
    fun s x l command running mem => ?_, fun s r b inHand => ⟨fun h => ?_, fun h => ?_⟩,
    fun s r reply part either running inHand made => ?_, fun ns x => ⟨mem_awaited, fun before after m split of own last => ?_⟩⟩
  · rw [State.pulse_cls, if_pos rfl]
  · rw [State.pulse_cls, if_neg other]
  · rw [exec_atListener running mem]
    refine ⟨fun before after c ofRequest onWay older => ?_, fun none => by rw [State.takeNotice_of_none none]⟩
    intro gone
    rw [State.takeNotice_oldest onWay older]
    cases x <;> rfl
  · obtain ⟨whole, spread⟩ := inHand.exec_nudge
    rw [whole, spread, State.conclude_ownNudge_of_lt s r false h, State.conclude_ownNudge_of_lt s r true h]
    exact ⟨rfl, rfl⟩
  · obtain ⟨whole, spread⟩ := inHand.exec_nudge
    rw [whole, spread, State.ownNudge_of_le s false h, State.ownNudge_of_le s true h]
    exact ⟨rfl, rfl⟩
  · obtain ⟨order, n, perm, eq, none⟩ := s.takeAwaited_fold
    obtain ⟨nudge, setLine⟩ := exec_joins_awaited either running inHand made
    exact ⟨order, n, s.takeAwaited, perm, by rw [execAll_atListener order (s := { s with freeDraws := n }) running, eq], none,
      s.takeAwaited_frame.unit, nudge, setLine⟩
  · subst own split
    exact awaited_count before after m of last

/-! ## Holds -/

/-- A timer that has met a class becoming held takes a reload on top without change. -/
theorem Timer.becomeHeld_reload (x : Timer) : x.becomeHeld.reload = x.becomeHeld := by
  cases st : x.state <;> simp [Timer.becomeHeld, Timer.reload, Timer.holdAtLoad, st]

@[simp] theorem State.joinHold_dom (s : State) (l : LineId) (c : ClassId) (d : DomainId) : (s.joinHold l c).dom d = s.dom d := by
  have frame := congrArg State.domains (s.joinHold_frame l c)
  have domains : (s.joinHold l c).domains = s.domains := frame
  simp [State.dom, domains]

@[simp] theorem State.joinHold_notices (s : State) (l : LineId) (c : ClassId) : (s.joinHold l c).notices = s.notices := by
  have frame := congrArg State.notices (s.joinHold_frame l c)
  exact frame

@[simp] theorem State.joinHold_wakers (s : State) (l : LineId) (c e : ClassId) : (s.joinHold l c).wakers e = s.wakers e := by
  simp [State.wakers]

theorem State.joinHold_wakesOf (s : State) (l : LineId) (c e : ClassId) : (s.joinHold l c).wakesOf e = s.wakesOf e := by
  simp [State.wakesOf]

/-- What the beginning of a hold does to a timer at the watching timers (R48): reloaded, or held where the class was not. -/
def State.metHold (s : State) (c : ClassId) (i : TimerId) : Timer :=
  if (s.timer i).watch.has c = true then
    (if (s.cls c).holders = 0 then (s.timer i).becomeHeld else (s.timer i).reload)
  else s.timer i

theorem State.metHold_reload {s : State} {c : ClassId} {i : TimerId} (watches : (s.timer i).watch.has c = true) :
    (s.metHold c i).reload = s.metHold c i := by
  rw [State.metHold, if_pos watches]
  split
  · exact Timer.becomeHeld_reload _
  · exact Timer.reload_reload _

theorem State.beginHold_cls (s : State) (l : LineId) (c e : ClassId) :
    (s.beginHold l c).cls e =
      if e = c then { holders := (s.cls c).holders ||| holderBit l, last := some s.time } else s.cls e :=
  (State.handOver_cls _ _ e).trans (s.joinHold_cls l c e)

/-- A timer that does not watch the class takes a restart claim alone; one that watches it, what it meets at the Class Map. -/
theorem State.beginHold_timer (s : State) (l : LineId) (c : ClassId) (i : TimerId) :
    (s.beginHold l c).timer i =
      if (s.timer i).watch.has c = false ∧
          ∃ d, (s.dom d).config.wakeSet.has c = true ∧ (s.dom d).config.boundTimer = some i ∧
            ∀ from_, (s.dom d).state ≠ .retired from_
      then (s.timer i).reload else s.metHold c i := by
  have met : (s.joinHold l c).timer i = s.metHold c i := s.joinHold_timer l c i
  have eq := (s.joinHold l c).handOver_wakes_timer c i
  rw [s.joinHold_wakesOf, met] at eq
  simp only [State.joinHold_dom] at eq
  refine eq.trans ?_
  by_cases watches : (s.timer i).watch.has c = true
  · rw [State.metHold_reload watches, ite_self, if_neg fun k => by simp [watches] at k]
  · have unmet : s.metHold c i = s.timer i := if_neg watches
    rw [unmet]
    exact if_congr (and_iff_right (Bool.eq_false_of_not_eq_true watches)).symm rfl rfl

theorem State.beginHold_dom (s : State) (l : LineId) (c : ClassId) (d : DomainId) :
    (s.beginHold l c).dom d = if (s.dom d).config.wakeSet.has c = true then (s.wake d (.cls c)).dom d else s.dom d := by
  have eq := (s.joinHold l c).handOver_wakes_dom c d
  rw [s.joinHold_wakesOf, s.joinHold_dom] at eq
  exact eq.trans (if_congr Iff.rfl (State.wake_dom_congr (s.joinHold_dom l c d) _) rfl)

theorem State.beginHold_order (s : State) (l : LineId) (c : ClassId) :
    ∃ (u : State) (order : List DomainId),
      order.Perm (allDomains.filter fun d => (s.dom d).config.wakeSet.has c) ∧
      { u with classes := s.classes, timers := s.timers, freeDraws := s.freeDraws } = s ∧ (∀ i, u.timer i = s.metHold c i) ∧
      s.beginHold l c = order.foldl (fun v d => v.wake d (.cls c)) u := by
  obtain ⟨order, n, perm, eq⟩ := (s.joinHold l c).handOver_wakes c
  rw [s.joinHold_wakesOf, s.joinHold_wakers] at *
  refine ⟨{ s.joinHold l c with freeDraws := n }, order, perm, ?_, s.joinHold_timer l c, eq⟩
  exact congrArg (fun v : State => { v with freeDraws := s.freeDraws }) (s.joinHold_frame l c)

theorem State.spreadHold_notices (s : State) (l : LineId) (c : ClassId) (ofRequest : Bool) :
    (s.spreadHold l c ofRequest).notices =
      s.notices ++ (s.wakers c).map fun d => { listener := .domain d, cls := c, ofRequest := ofRequest } := by
  simp [State.spreadHold, State.sendWakes]

/-! ## SET_LINE with its wakes on their way -/

theorem State.HasInHand.exec_setLine_atClassMap {s : State} {payload : List Byte} {r : Request} (h : s.HasInHand 0x11 payload r) :
    exec (.setLine .atClassMap) s = .next (s.conclude r (some (s.ownLine true payload))) := by
  have running : exec (.setLine .atClassMap) s = .next (s.servePulse 0x11 (s.ownLine true)) :=
    h.running fun s => s.servePulse 0x11 (s.ownLine true)
  rw [running, h.servePulse]

/-- Where the recognised level does not qualify no hold begins, and nothing is on its way. -/
theorem State.configureLine_spread_of_not_holds {s : State} {l : LineId} {qualifier : Qualifier} (cls : ClassId)
    (h : qualifier.holdsAt ≠ some (s.line l).level) : s.configureLine l qualifier cls true = s.configureLine l qualifier cls false := by
  simp [State.configureLine, h]

theorem State.spreadHold_line (s : State) (l m : LineId) (c : ClassId) (ofRequest : Bool) :
    (s.spreadHold l c ofRequest).line m = s.line m := by
  have lines : (s.spreadHold l c ofRequest).lines = s.lines := s.joinHold_lines l c
  simp [State.line, lines]

theorem State.configureLine_spread_of_holds {s : State} {l : LineId} {qualifier : Qualifier} (cls : ClassId)
    (h : qualifier.holdsAt = some (s.line l).level) :
    s.configureLine l qualifier cls true =
      ((s.lineReleases l).setLine l { (s.line l).reconfigured qualifier cls with holding := some cls }).spreadHold l cls true := by
  simp [State.configureLine, h, State.lineHolds, State.lineReleases_line, Line.reconfigured]

/-- A payload whose line, qualifier or class is out of range decides the same either way. -/
theorem State.ownLine_spread_of_none {s : State} {b q c : Byte}
    (none : 12 ≤ b.toNat ∨ 16 ≤ c.toNat ∨ 6 ≤ q.toNat) : s.ownLine true [b, q, c] = s.ownLine false [b, q, c] := by
  rcases none with hb | hc | hq
  · simp [State.ownLine, index?_of_le hb]
  · simp [State.ownLine, index?_of_le hc]
  · simp [State.ownLine, qualifier?_of_lt hq]

/-- Where the recognised level qualifies, the line's new hold has its wakes on their way. -/
theorem State.ownLine_spread_of_holds {s : State} {b q c : Byte} {qualifier : Qualifier} (hb : b.toNat < 12) (hc : c.toNat < 16)
    (named : qualifier? q = some qualifier) (holds : qualifier.holdsAt = some (s.line ⟨b.toNat, hb⟩).level) :
    let l : LineId := ⟨b.toNat, hb⟩
    s.ownLine true [b, q, c] =
      .done .ok [flagByte (s.line l).level, 1, c]
        (((s.lineReleases l).setLine l { (s.line l).reconfigured qualifier ⟨c.toNat, hc⟩ with
          holding := some ⟨c.toNat, hc⟩ }).spreadHold
          l ⟨c.toNat, hc⟩ true) := by
  simp [State.ownLine, index?_of_lt hb, index?_of_lt hc, named, State.configureLine_spread_of_holds _ holds, State.spreadHold_line,
    holdBytes, byte]

/-- Where it does not, the payload decides the same either way. -/
theorem State.ownLine_spread_of_not_holds {s : State} {b q c : Byte} {hb : b.toNat < 12}
    (none : ∀ qualifier, qualifier? q = some qualifier → qualifier.holdsAt ≠ some (s.line ⟨b.toNat, hb⟩).level) :
    s.ownLine true [b, q, c] = s.ownLine false [b, q, c] := by
  unfold State.ownLine
  split
  case h_2 => rfl
  case h_1 l qualifier cls line named _ =>
    cases (index?_of_lt hb).symm.trans line
    rw [State.configureLine_spread_of_not_holds cls (none qualifier named)]

theorem qualifier?_holdsAt {q : Byte} {level : Bool} {qualifier : Qualifier} (named : qualifier? q = some qualifier) :
    qualifier.holdsAt = some level ↔ q = 4 ∧ level = true ∨ q = 5 ∧ level = false := by
  rw [qualifier?_eq] at named
  revert named
  cases level <;> cases qualifier <;> revert q <;> decide

/-- Settles O19: a hold's beginning by its takers, its end by the Class Map and the timers, and SET_LINE by whether a hold begins. -/
theorem holdsBeginAndEnd : Obligations.HoldsBeginAndEnd := by
  refine ⟨fun s l c => ?_, fun s r b q c inHand => ?_⟩
  · intro met
    refine ⟨fun ofRequest => ?_, ?_, ?_⟩
    · exact ⟨(s.joinHold_cls l c c).trans (if_pos rfl), fun e other => (s.joinHold_cls l c e).trans (if_neg other),
        s.joinHold_timer l c, s.spreadHold_notices l c ofRequest, s.spreadHold_frame l c ofRequest⟩
    · exact ⟨(s.beginHold_cls l c c).trans (if_pos rfl), fun e other => (s.beginHold_cls l c e).trans (if_neg other),
        s.beginHold_timer l c, s.beginHold_dom l c, s.beginHold_order l c, s.beginHold_frame l c⟩
    · exact ⟨(s.endHold_cls l c c).trans (if_pos rfl), fun e other => (s.endHold_cls l c e).trans (if_neg other),
        s.endHold_timer l c, s.endHold_frame l c⟩
  · rw [inHand.exec_setLine, inHand.exec_setLine_atClassMap]
    refine ⟨fun hb hc => ?_, fun out => by rw [State.ownLine_spread_of_none (by tauto)]⟩
    intro l x ended
    by_cases begins : q = 4 ∧ x.level = true ∨ q = 5 ∧ x.level = false
    · refine ⟨fun _ => ?_, fun no => absurd begins no⟩
      have named : qualifier? q = some (if q = 4 then .high else .low) := by
        rcases begins with ⟨rfl, -⟩ | ⟨rfl, -⟩ <;> rfl
      rw [State.ownLine_spread_of_holds hb hc named ((qualifier?_holdsAt named).2 begins), State.conclude_done]
      rfl
    · refine ⟨fun yes => absurd yes begins, fun _ => ?_⟩
      rw [State.ownLine_spread_of_not_holds fun qualifier named => mt (qualifier?_holdsAt named).1 begins]

end Sys2Proof.Machine
end

section
/-! PROOF of the obligations on the Time Base and expiries: an increment with what is outstanding before it (O21), and an expiry whole
and in parts (O22). -/

namespace Sys2Proof.Machine

/-! ## What is outstanding -/

/-- The event of an outstanding part of an expiry, as a command. -/
def expiryCommand (x : TimerId × ExpiryPart) : Instr := .timerExpiry x.1.val x.2

theorem State.outstanding_commands (s : State) :
    s.outstanding.map expiryCommand =
      (s.handed.map fun x => .timerExpiry x.timer.val (.atDomain x.domain)) ++
        (allTimers.filter fun i => (s.timer i).state == .counting && (s.timer i).due).map fun i => .timerExpiry i.val .whole := by
  simp only [State.outstanding, List.map_append, List.map_map]
  rfl

theorem State.takePart_running {s : State} (running : s.Running) (i : TimerId) (part : ExpiryPart) : (s.takePart i part).Running := by
  have same := s.takePart_frame i part
  have board : (s.takePart i part).board = s.board := same.board
  rwa [State.Running, board]

/-- Parts of expiries taken one after another, as commands. -/
theorem execAll_expiries (order : List (TimerId × ExpiryPart)) {s : State} (running : s.Running) :
    execAll (order.map expiryCommand) s = .next (order.foldl (fun u x => u.takePart x.1 x.2) s) := by
  induction order generalizing s with
  | nil => rfl
  | cons x xs ih =>
    rw [List.map_cons, expiryCommand, execAll, exec_timerExpiry running, List.foldl_cons]
    exact ih (State.takePart_running running x.1 x.2)

/-- A taking of an expiry at a domain leaves the timers. -/
theorem State.takeHanded_timers (s : State) (i : TimerId) (d : DomainId) : (s.takeHanded i d).timers = s.timers := by
  rcases s.takeHanded_cases i d with ⟨eq, -⟩ | ⟨x, -, -, -, eq⟩ <;> rw [eq]
  split
  · exact (State.takeExpiry_onlyDomain { s with handed := s.handed.erase x } d x.count).timers
  · rfl

/-- A part taken settles one of what is outstanding: itself. -/
theorem State.outstanding_takePart {s : State} {x : TimerId × ExpiryPart} (mem : x ∈ s.outstanding) :
    s.outstanding.Perm (x :: (s.takePart x.1 x.2).outstanding) := by
  rcases List.mem_append.1 mem with onWay | isDue
  · obtain ⟨y, hy, rfl⟩ := List.mem_map.1 onWay
    obtain ⟨-, none⟩ | ⟨z, hz, timer, domain, eq⟩ := s.takeHanded_cases y.timer y.domain
    · exact absurd ⟨rfl, rfl⟩ (none y hy)
    have handed : (s.takeHanded y.timer y.domain).handed = s.handed.erase z := by
      rw [eq]
      split
      · exact (State.takeExpiry_onlyDomain { s with handed := s.handed.erase z } y.domain z.count).outside.handed
      · rfl
    have left : (s.takeHanded y.timer y.domain).outstanding =
        (s.handed.erase z).map (fun x => (x.timer, .atDomain x.domain)) ++
          (allTimers.filter fun t => (s.timer t).expires).map fun t => (t, .whole) := by
      simp only [State.outstanding, State.timer, handed, s.takeHanded_timers]
    have settles := (List.perm_cons_erase hz).map fun x : HandedExpiry => (x.timer, ExpiryPart.atDomain x.domain)
    rw [List.map_cons, timer, domain] at settles
    exact (settles.append_right _).trans (by rw [List.cons_append, ← left]; rfl)
  · obtain ⟨i, hi, rfl⟩ := List.mem_map.1 isDue
    have due : (s.timer i).expires = true := by simpa using hi
    have taken : s.takePart i .whole = s.expireTimer i := if_pos due
    have handed : (s.expireTimer i).handed = s.handed := (s.expireTimer_sameOutside i).handed
    have settles : (allTimers.filter fun t => (s.timer t).expires).Perm
        (i :: allTimers.filter fun t => ((s.expireTimer i).timer t).expires) := by
      refine (List.perm_ext_iff_of_nodup (allTimers_nodup.filter _) ?_).2 fun j => ?_
      · exact List.nodup_cons.2 ⟨by simp [State.expireTimer_timer], allTimers_nodup.filter _⟩
      · by_cases own : j = i
        · simp [own, due]
        · simp [State.expireTimer_timer, own]
    simp only [taken]
    unfold State.outstanding
    rw [handed]
    exact ((settles.map fun t => (t, ExpiryPart.whole)).append_left _).trans List.perm_middle

/-- When every outstanding part is taken nothing is outstanding. -/
theorem State.outstanding_foldl (order : List (TimerId × ExpiryPart)) {s : State} (perm : order.Perm s.outstanding) :
    (order.foldl (fun u x => u.takePart x.1 x.2) s).outstanding = [] := by
  induction order generalizing s with
  | nil => exact perm.symm.eq_nil
  | cons x xs ih => exact ih (perm.trans (State.outstanding_takePart (perm.mem_iff.1 (by simp)))).cons_inv

theorem State.outstanding_eq_nil_iff (s : State) :
    s.outstanding = [] ↔ s.handed = [] ∧ ∀ i, ¬ ((s.timer i).state = .counting ∧ (s.timer i).due = true) := by
  simp [State.outstanding, Timer.expires, List.filter_eq_nil_iff]

theorem State.takeOutstanding_of_none {s : State} (none : s.outstanding = []) : s.takeOutstanding = s := by
  rw [State.takeOutstanding, none]

/-! ## An increment -/

theorem exec_increment {s : State} (running : s.Running) :
    exec .governorTimeIncrement s =
      .next (({ s.takeOutstanding with time := s.takeOutstanding.time + 1 } : State).mapTimers Timer.tick) :=
  State.running_of running fun s => ({ s.takeOutstanding with time := s.takeOutstanding.time + 1 } : State).mapTimers Timer.tick

/-- Settles O21: what is outstanding is taken part by part, and the timers tick. -/
theorem incrementCountsDown : Obligations.IncrementCountsDown := by
  intro s running ticked
  have tick (u : State) (i : TimerId) : (({ u with time := u.time + 1 } : State).mapTimers Timer.tick).timer i = ticked (u.timer i) :=
    State.timer_mapTimers _ _ i
  rw [exec_increment running]
  refine ⟨?_, fun handed idle => ?_⟩
  · obtain ⟨order, n, perm, eq⟩ := s.takeOutstanding_fold
    have none : s.takeOutstanding.outstanding = [] := eq ▸ State.outstanding_foldl order (s := { s with freeDraws := n }) perm
    obtain ⟨handed, idle⟩ := (State.outstanding_eq_nil_iff _).1 none
    have same := s.takeOutstanding_frame
    have time : s.takeOutstanding.time = s.time := same.time
    refine ⟨n, order.map expiryCommand, s.takeOutstanding, _, ?_, ?_, handed, idle, same.frame, rfl, ?_, tick _, rfl⟩
    · rw [← State.outstanding_commands]
      exact perm.map _
    · rw [execAll_expiries order (s := { s with freeDraws := n }) running, eq]
    · rw [← time]
      rfl
  · rw [State.takeOutstanding_of_none ((State.outstanding_eq_nil_iff s).2 ⟨handed, idle⟩)]
    exact ⟨_, rfl, rfl, tick s, rfl⟩

/-! ## An expiry -/

/-- Expiries handed to some domains, beside hand-offs for none: each of the domains takes its own, against its record. -/
theorem State.handOver_expiries_dom (s : State) {others : List HandOff} (none : ∀ h ∈ others, h.domain? = none)
    {ds : List DomainId} (nodup : ds.Nodup) (n : Nat) (d : DomainId) :
    (s.handOver (others ++ ds.map fun e => .expiry e n)).dom d = if d ∈ ds then (s.takeExpiry d n).dom d else s.dom d := by
  obtain ⟨order, draws, perm, eq⟩ := s.handOver_fold (others ++ ds.map fun e => .expiry e n)
  rw [eq]
  split
  case isTrue bound =>
    have mem : HandOff.expiry d n ∈ order := perm.mem_iff.2 (List.mem_append_right _ (List.mem_map.2 ⟨d, bound, rfl⟩))
    have once : (order.map HandOff.domain?).countP (· == some d) = 1 := by
      have mapped : (fun x => x == some d) ∘ HandOff.domain? ∘ (fun e => HandOff.expiry e n) = fun e => e == d := by
        funext e
        simp [HandOff.domain?]
      have others0 : (others.map HandOff.domain?).countP (· == some d) = 0 :=
        List.countP_eq_zero.2 fun x mem => by
          obtain ⟨h, hh, rfl⟩ := List.mem_map.1 mem
          simp [none h hh]
      rw [(perm.map _).countP_eq, List.map_append, List.countP_append, others0, List.map_map, List.countP_map, mapped,
        ← List.count_eq_countP, List.count_eq_one_of_mem nodup bound]
    rw [State.foldl_take_dom_one order _ mem once rfl]
    exact State.takeExpiry_dom_congr (s := { s with freeDraws := draws }) (t := s) rfl rfl n
  case isFalse unbound =>
    refine State.foldl_take_dom_none order _ fun x mem => ?_
    rcases List.mem_append.1 (perm.mem_iff.1 mem) with other | expiry
    · simp [none x other]
    · obtain ⟨e, he, rfl⟩ := List.mem_map.1 expiry
      simp only [HandOff.domain?, ne_eq, Option.some.injEq]
      rintro rfl
      exact unbound he

theorem expiryReports_domain? {s : State} {i : TimerId} {h : HandOff} (mem : h ∈ s.expiryReports i) : h.domain? = none := by
  unfold State.expiryReports at mem
  split at mem
  · rw [List.mem_singleton.1 mem]
    rfl
  · cases mem

/-- Each domain bound to the timer takes its expiry, and no other domain changes (R45). -/
theorem State.expireTimer_dom (s : State) (i : TimerId) (d : DomainId) :
    (s.expireTimer i).dom d =
      if (s.dom d).config.boundTimer = some i then (s.takeExpiry d (s.timer i).nextExpiry).dom d else s.dom d := by
  have taken := State.handOver_expiries_dom (s.setTimer i (s.timer i).expire) (fun _ => expiryReports_domain? (i := i) (s := s))
    (allDomains_nodup.filter fun d => (s.dom d).config.boundTimer == some i) (s.timer i).nextExpiry d
  refine taken.trans (if_congr (by simp) (State.takeExpiry_dom_congr (t := s) (s.setTimer_dom i _ d) rfl _) rfl)

/-- The EXPIRY report and the bound domains' takings, in one order (R45, R46). -/
theorem State.expireTimer_order (s : State) (i : TimerId) :
    ∃ (n : Nat) (order : List (Option DomainId)),
      order.Perm
        ((if (s.timer i).report = true then [none] else []) ++
          (allDomains.filter fun d => (s.dom d).config.boundTimer == some i).map some) ∧
      s.expireTimer i =
        order.foldl
          (fun v taker =>
            match taker with
            | none => v.report { subject := some i.val, time := s.time, detail := .expiry (s.timer i).nextExpiry }
            | some d => v.takeExpiry d (s.timer i).nextExpiry)
          { s.setTimer i (s.timer i).expire with freeDraws := n } := by
  let handOff (taker : Option DomainId) : HandOff :=
    taker.elim (.report { subject := some i.val, time := s.time, detail := .expiry (s.timer i).nextExpiry })
      fun d => .expiry d (s.timer i).nextExpiry
  obtain ⟨order, n, perm, eq⟩ := (s.setTimer i (s.timer i).expire).handOver_map handOff
    ((if (s.timer i).report = true then [none] else []) ++
      (allDomains.filter fun d => (s.dom d).config.boundTimer == some i).map some)
  refine ⟨n, order, perm, ?_⟩
  have same : s.expiryReports i ++ s.expiriesOf i =
      ((if (s.timer i).report = true then [none] else []) ++
        (allDomains.filter fun d => (s.dom d).config.boundTimer == some i).map some).map handOff := by
    rw [List.map_append, List.map_map]
    unfold State.expiryReports
    split <;> rfl
  rw [State.expireTimer, same, eq]
  congr 1
  funext v taker
  cases taker <;> rfl

theorem State.takeHanded_oldest {s : State} {i : TimerId} {d : DomainId} {n : Nat} {before after : List HandedExpiry}
    (onWay : s.handed = before ++ { timer := i, domain := d, count := n } :: after)
    (older : ∀ y ∈ before, ¬ (y.timer = i ∧ y.domain = d)) :
    s.takeHanded i d =
      let gone : State := { s with handed := before ++ after }
      if (s.dom d).config.boundTimer = some i then gone.takeExpiry d n else gone := by
  have found : (s.handed.find? fun x => x.timer == i && x.domain == d) = some { timer := i, domain := d, count := n } := by
    rw [onWay]
    exact find?_at _ before after _ (fun y mem => by simpa using older y mem) (by simp)
  have erased : s.handed.erase { timer := i, domain := d, count := n } = before ++ after := by
    rw [onWay, List.erase_append_right _ fun mem => older _ mem ⟨rfl, rfl⟩, List.erase_cons_head]
  rw [State.takeHanded, found, ← erased]

theorem State.takeHanded_of_none {s : State} {i : TimerId} {d : DomainId} (none : ∀ y ∈ s.handed, ¬ (y.timer = i ∧ y.domain = d)) :
    s.takeHanded i d = s := by
  obtain ⟨eq, -⟩ | ⟨x, mem, timer, domain, -⟩ := s.takeHanded_cases i d
  · exact eq
  · exact absurd ⟨timer, domain⟩ (none x mem)

theorem State.handOver_expiryReports (s u : State) (i : TimerId) :
    u.handOver (s.expiryReports i) =
      if (s.timer i).report = true then
        u.report { subject := some i.val, time := s.time, detail := .expiry (s.timer i).nextExpiry }
      else u := by
  unfold State.expiryReports
  split <;> rfl

/-- Settles O22: a due expiry by what its timer hands over, and its parts by what each takes. -/
theorem expiryReachesBoundDomains : Obligations.ExpiryReachesBoundDomains := by
  intro s i running x count expired report
  have expires : x.expires = true ↔ x.state = .counting ∧ x.due = true := by simp [Timer.expires]
  simp only [exec_timerExpiry running]
  refine ⟨fun due => ?_, fun idle => ?_, fun due => ?_,
    fun d => ⟨fun before after n onWay older => ?_, fun none => ?_, fun cause => ?_⟩⟩
  · have taken : s.takePart i .whole = s.expireTimer i := if_pos (expires.2 due)
    refine ⟨_, rfl, ?_, fun j other => ?_, fun d => ?_, ?_, ?_⟩ <;> rw [taken]
    · exact (s.expireTimer_timer i i).trans (if_pos rfl)
    · exact (s.expireTimer_timer i j).trans (if_neg other)
    · exact s.expireTimer_dom i d
    · exact s.expireTimer_order i
    · exact (s.expireTimer_sameOutside i).frame
  · exact ⟨congrArg _ (if_neg (mt expires.1 idle)), congrArg _ (if_neg (mt expires.1 idle))⟩
  · have taken : s.expireAtTimer i = _ := if_pos (expires.2 due)
    simp only [State.takePart, taken, State.handOver_expiryReports]
    rfl
  · exact congrArg _ (State.takeHanded_oldest onWay older)
  · exact congrArg _ (State.takeHanded_of_none none)
  · exact (s.wake_sameOutside d cause).handed

end Sys2Proof.Machine
end

section
/-! PROOF of the obligations on a domain's steps and wakes: how it takes an expiry (O27), and how it takes a wake (O28). -/

namespace Sys2Proof.Machine

/-! ## An expiry at a domain -/

/-- Under the hold flag, while held awake and beyond its ladder a domain ignores an expiry (R62). -/
theorem State.takeExpiry_ignored {s : State} {d : DomainId} {k : Nat}
    (ignored : (s.dom d).hold = true ∨ s.heldAwake d = true ∨ (s.dom d).config.ladder.length ≤ k) : s.takeExpiry d (k + 1) = s := by
  unfold State.takeExpiry
  split
  case h_2 => rfl
  case h_1 depth rung _ asked =>
    rcases ignored with hold | awake | beyond
    · simp [hold]
    · simp [awake]
    · simp [List.getElem?_eq_none beyond] at asked

/-- A rung not deeper than the domain is ignored (R62). -/
theorem State.takeExpiry_of_shallow {s : State} {d : DomainId} {k : Nat} {rung : Rung} {depth : Nat}
    (asked : (s.dom d).config.ladder[k]? = some rung) (is : (s.dom d).state.comparisonDepth = some depth)
    (shallow : rung.depth ≤ depth) : s.takeExpiry d (k + 1) = s := by
  simp [State.takeExpiry, is, asked, shallow]

/-- Where a deeper rung takes a domain on, by its state (R63). -/
def State.stepDeeper (s : State) (d : DomainId) : DomainState → Rung → State
  | .active, .throttled => s.enterThrottled d .ladder
  | .active, .standby | .throttled _ _, .standby => s.enterQuiescing d .standby .ladder
  | .active, .off | .throttled _ _, .off => s.enterQuiescing d .off .ladder
  | .quiescing _ _ deadline, .off => s.setDomState d (.quiescing .off .ladder deadline)
  | .settling _ _ delay, .off => s.setDomState d (.settling .off .ladder delay)
  | .standby, .off => s.enterPoweringDown d .ladder
  | _, _ => s

theorem State.takeExpiry_of_deeper {s : State} {d : DomainId} {k : Nat} {rung : Rung} {depth : Nat} (free : (s.dom d).hold = false)
    (asleep : s.heldAwake d = false) (asked : (s.dom d).config.ladder[k]? = some rung)
    (is : (s.dom d).state.comparisonDepth = some depth) (deeper : depth < rung.depth) :
    s.takeExpiry d (k + 1) = s.stepDeeper d (s.dom d).state rung := by
  have asks : (if k + 1 = 0 then none else (s.dom d).config.ladder[k + 1 - 1]?) = some rung := asked
  have on : (Decidable.decide (rung.depth ≤ depth) || (s.dom d).hold || s.heldAwake d) = false := by simp [deeper, free, asleep]
  rw [State.takeExpiry, is, asks]
  dsimp only
  rw [on]
  cases (s.dom d).state <;> cases rung <;> rfl

/-- Settles O27: in each state a rung either is not deeper, or takes the domain on. -/
theorem ladderStepTable : Obligations.LadderStepTable := by
  intro s d k x into reported
  refine ⟨State.takeExpiry_ignored, fun rung free asleep asked => ?_⟩
  have shallow {depth : Nat} (is : x.state.comparisonDepth = some depth) (le : rung.depth ≤ depth) : s.takeExpiry d (k + 1) = s :=
    State.takeExpiry_of_shallow asked is le
  have deeper {depth : Nat} (is : x.state.comparisonDepth = some depth) (lt : depth < rung.depth) :
      s.takeExpiry d (k + 1) = s.stepDeeper d x.state rung := State.takeExpiry_of_deeper free asleep asked is lt
  cases st : x.state with
  | active =>
    rw [st] at deeper
    cases rung <;> exact deeper rfl (by decide)
  | throttled phase length =>
    rw [st] at deeper shallow
    cases rung with
    | throttled => exact shallow rfl (by decide)
    | standby | off => exact deeper rfl (by decide)
  | quiescing target step delay | settling target step delay =>
    rw [st] at deeper shallow
    cases target with
    | off => exact (shallow rfl (by cases rung <;> decide)).trans (by cases rung <;> rfl)
    | standby =>
      cases rung with
      | throttled | standby => exact shallow rfl (by decide)
      | off => exact deeper rfl (by decide)
  | standby =>
    rw [st] at deeper shallow
    cases rung with
    | throttled | standby => exact shallow rfl (by decide)
    | off => exact (deeper rfl (by decide)).trans (s.endStopDelay_off d .ladder)
  | poweringDown | off =>
    rw [st] at shallow
    exact (shallow rfl (by cases rung <;> decide)).trans (by cases rung <;> rfl)
  | poweringUp | resuming | faulted | retired =>
    exact (State.takeExpiry_of_no_depth (congrArg DomainState.comparisonDepth st) (k + 1)).trans (by cases rung <;> rfl)

/-! ## A wake at a domain -/

/-- A resume delay of 0 ends in the event that begins it, and any other begins to run (R85, R102). -/
theorem State.enterResuming_eq (s : State) (d : DomainId) :
    s.enterResuming d =
      if (s.dom d).config.resumeDelay = .zero then
        (s.setDom d { s.dom d with state := .active, refusals := 0 }).reportDomain d .active (s.dom d).lastWake
      else s.setDomState d (.resuming (s.dom d).config.resumeDelay) := by
  rw [State.enterResuming, State.endResume_eq]
  simp

/-- With PGOOD high a power-up is over in the event that begins it (R99). -/
theorem State.enterPoweringUp_eq (s : State) (d : DomainId) :
    s.enterPoweringUp d =
      if (s.dom d).pgood = true then s.enterResuming d else s.setDomState d (.poweringUp (s.dom d).config.powerOnDeadline) := by
  rw [State.enterPoweringUp, State.enterResuming_eq, State.enterResuming_eq]
  simp

/-- A restart claim after a change of the domain alone that keeps its configuration (R49, R67). -/
theorem State.claimRestart_after {s u : State} {d : DomainId} (config : (u.dom d).config = (s.dom d).config)
    (timers : u.timers = s.timers) :
    u.claimRestart d =
      match (s.dom d).config.boundTimer with
      | none => u
      | some i => u.setTimer i (s.timer i).reload := by
  have timer (i : TimerId) : u.timer i = s.timer i := by simp [State.timer, timers]
  unfold State.claimRestart
  rw [config]
  cases (s.dom d).config.boundTimer with
  | none => rfl
  | some i => simp only [timer]

/-- Settles O28: in each state the entry a wake makes, with the restart claim on the domain's bound timer. -/
theorem wakeTable : Obligations.WakeTable := by
  intro s d cause x claimed into activated resumed
  have claims {u : State} (config : (u.dom d).config = x.config) (timers : u.timers = s.timers) : u.claimRestart d = claimed u :=
    State.claimRestart_after config timers
  have enters (y : DomainState) : (s.setLastWake d cause).setDomState d y = into y := State.setDom_setDomState s d _ y
  have activates : (s.setLastWake d cause).enterActive d cause = activated x.refusals :=
    congrArg (State.reportDomain · d .active cause) (enters .active)
  have last : (s.setLastWake d cause).dom d = { x with lastWake := cause } := by simp [State.setLastWake, x]
  have resumes : (s.setLastWake d cause).enterResuming d = resumed := by
    rw [State.enterResuming_eq, last, enters, State.setLastWake, State.setDom_setDom]
    rfl
  have rises : (s.setLastWake d cause).enterPoweringUp d =
      if x.pgood = true then resumed else into (.poweringUp x.config.powerOnDeadline) := by
    rw [State.enterPoweringUp_eq, resumes, last, enters]
  have activated_claims (n : Nat) : (activated n).claimRestart d = claimed (activated n) := claims (by simp [activated]) rfl
  have into_claims (y : DomainState) : (into y).claimRestart d = claimed (into y) := claims (by simp [into]) rfl
  have resumed_claims : resumed.claimRestart d = claimed resumed := by
    unfold resumed
    split
    · exact activated_claims 0
    · exact into_claims _
  unfold State.wake
  cases st : x.state with
  | active | poweringUp | resuming => exact claims rfl rfl
  | throttled | quiescing | settling => exact (congrArg (State.claimRestart · d) activates).trans (activated_claims _)
  | standby => exact (congrArg (State.claimRestart · d) resumes).trans resumed_claims
  | poweringDown => exact (congrArg (State.claimRestart · d) (enters _)).trans (into_claims _)
  | off =>
    refine (congrArg (State.claimRestart · d) rises).trans ?_
    dsimp only
    split
    · exact resumed_claims
    · exact into_claims _
  | faulted => exact claims (by simp [x]) rfl
  | retired => rfl

end Sys2Proof.Machine
end

section
/-! PROOF of the obligations on the Report Queue: how it takes reports and losses (O46), that every report is accounted for (O47), and
what a reversion leaves (O48). -/

namespace Sys2Proof.Machine

/-! ## Taking a report -/

theorem Record.not_matches_iff (kind : Kind) (subject : Option Nat) (r : Record) :
    Record.matches kind subject r = false ↔ ¬ (r.sent = false ∧ r.kind = kind ∧ r.subject = subject) := by
  rw [← Record.matches_iff, Bool.not_eq_true]

/-- A report of a kind that merges joins the oldest UNSENT record of its kind and subject, or is lost where that is full (R114). -/
theorem ReportQueue.take_of_twin {q : ReportQueue} {now : Millis} {x : Report} {before after : List Record} {y : Record}
    (merges : x.detail.kind.merges = true) (records : q.records = before ++ y :: after)
    (older : ∀ z ∈ before, Record.matches x.detail.kind x.subject z = false)
    (twin : Record.matches x.detail.kind x.subject y = true) :
    q.take now x =
      if y.count < maxCount then { q with records := before ++ y.absorb 1 x.time x.detail :: after }
      else q.countLost 1 x.detail.kind now := by
  have found := find?_at _ before after y older twin
  have joined := updateFirst_at (Record.matches x.detail.kind x.subject) (·.absorb 1 x.time x.detail) before after y older twin
  simp only [ReportQueue.take, merges, if_true, records, found, joined]

/-- A report that joins no record becomes one, or is lost where there is no room or the next number is not free (R115). -/
theorem ReportQueue.take_of_no_twin {q : ReportQueue} {now : Millis} {x : Report}
    (none : x.detail.kind.merges = false ∨ ∀ z ∈ q.records, Record.matches x.detail.kind x.subject z = false) :
    q.take now x =
      if (decide (q.ordinaryCount < 31) && q.seqFree) = true then q.append x.time x.time x.subject 1 x.detail
      else q.countLost 1 x.detail.kind now := by
  have unfound : (if x.detail.kind.merges then q.records.find? (Record.matches x.detail.kind x.subject) else Option.none) =
      Option.none := by
    rcases none with distinct | none
    · rw [distinct]
      rfl
    · rw [List.find?_eq_none.2 fun z mem => by simp [none z mem], ite_self]
  unfold ReportQueue.take
  dsimp only
  rw [unfound]

/-- What becomes of the detail of two of one kind that merge (R114). -/
theorem Detail.join_eq (older newer : Detail) : older.kind = newer.kind → older.kind.merges = true →
    older.join newer =
      (match older, newer with
       | .linkError a, .linkError b => .linkError (a.plus b)
       | .trap _ _ _ _, _ | .obsOverrun, _ => older
       | _, _ => newer) := by
  intro same merges
  cases older with
  | restart | refusal | fault | loss => cases merges
  | trap | obsOverrun => cases newer <;> rfl
  | expiry | domain | linkError =>
    cases newer <;> cases same
    rfl

/-! ## Counting losses -/

theorem ReportQueue.countLost_of_loss {q : ReportQueue} {n : Nat} {kind : Kind} {t : Millis} {before after : List Record} {y : Record}
    (records : q.records = before ++ y :: after) (older : ∀ z ∈ before, z.kind ≠ .loss) (loss : y.kind = .loss) :
    q.countLost n kind t =
      if y.sent = true then { q with tally := q.tally.take n kind t }
      else
        { q with records := before ++ y.takeLoss n kind t :: after, tally := q.tally.take (y.count + n - maxCount) kind t } := by
  have others : ∀ z ∈ before, z.isLoss = false := fun z mem => Bool.eq_false_of_not_eq_true (mt z.isLoss_iff.1 (older z mem))
  have own := y.isLoss_iff.2 loss
  simp only [ReportQueue.countLost, records, find?_at _ before after y others own, updateFirst_at _ _ before after y others own]

theorem ReportQueue.countLost_of_none {q : ReportQueue} {n : Nat} {kind : Kind} {t : Millis}
    (none : ∀ z ∈ q.records, z.kind ≠ .loss) :
    q.countLost n kind t =
      if q.seqFree = true then
        { q.append t t Option.none (min n maxCount) (.loss kind.bit) with tally := q.tally.take (n - maxCount) kind t }
      else { q with tally := q.tally.take n kind t } := by
  have unfound : q.records.find? Record.isLoss = Option.none :=
    List.find?_eq_none.2 fun z mem => mt z.isLoss_iff.1 (none z mem)
  simp only [ReportQueue.countLost, unfound]

theorem Record.takeLoss_of_loss {y : Record} {kinds : BitVec 16} (loss : y.detail = .loss kinds) (n : Nat) (kind : Kind) (t : Millis) :
    y.takeLoss n kind t = { y with count := min (y.count + n) maxCount, last := t, detail := .loss (kinds ||| kind.bit) } := by
  simp only [Record.takeLoss, loss]

theorem tallyCount_of_fits {count : BitVec 64} {m : Nat} (fits : count.toNat + m < 2 ^ 64) :
    (tallyCount count m).toNat = count.toNat + m := by
  rw [tallyCount, if_pos fits, BitVec.toNat_ofNat, Nat.mod_eq_of_lt fits]

@[simp] theorem Tally.take_zero (y : Tally) (kind : Kind) (t : Millis) : y.take 0 kind t = y := rfl

theorem Tally.take_of_pos (y : Tally) {m : Nat} (pos : 0 < m) (kind : Kind) (t : Millis) :
    y.take m kind t =
      { count := tallyCount y.count m, kinds := y.kinds ||| kind.bit, first := if y.count = 0 then t else y.first, last := t } :=
  if_neg (Nat.ne_of_gt pos)

/-- Settles O46: each way of taking a report and of counting losses, by the record that is found. -/
theorem queueTakesReportOrLoss : Obligations.QueueTakesReportOrLoss := by
  refine ⟨fun q now x => ?_, fun kind => ?_, fun older newer same merges => ?_, fun q n kind t => ⟨?_, ?_, ?_, ?_⟩⟩
  · intro kind twin
    have apart (z : Record) : Record.matches kind x.subject z = false ↔ ¬ twin z := Record.not_matches_iff kind x.subject z
    refine ⟨fun before after y merges records others own => ?_, fun none => ?_⟩
    · exact ReportQueue.take_of_twin merges records (fun z mem => (apart z).2 (others z mem)) ((Record.matches_iff ..).2 own)
    · rw [ReportQueue.take_of_no_twin (none.imp_right fun none z mem => (apart z).2 (none z mem))]
      refine if_congr ?_ rfl rfl
      rw [Bool.and_eq_true, decide_eq_true_iff, ReportQueue.seqFree_iff]
  · cases kind <;> simp [Kind.merges]
  · exact Detail.join_eq older newer same merges
  · intro before after y kinds records others loss
    have isLoss : y.kind = .loss := by simp [Record.kind, loss, Detail.kind]
    rw [ReportQueue.countLost_of_loss records others isLoss, Record.takeLoss_of_loss loss]
    rfl
  · intro none
    rw [ReportQueue.countLost_of_none none]
    exact if_congr (ReportQueue.seqFree_iff q) rfl rfl
  · exact fun y => y.take_zero kind t
  · intro y m pos
    rw [y.take_of_pos pos kind t]
    exact ⟨tallyCount_of_fits, rfl, rfl, rfl⟩

/-! ## Every report accounted for -/

theorem Tally.take_count {y : Tally} {m : Nat} (fits : y.count.toNat + m < 2 ^ 64) (kind : Kind) (t : Millis) :
    (y.take m kind t).count.toNat = y.count.toNat + m := by
  rcases Nat.eq_zero_or_pos m with rfl | pos
  · rfl
  · rw [y.take_of_pos pos kind t, tallyCount_of_fits fits]

/-- The counts of a list of records. -/
def counts (records : List Record) : Nat := (records.map (·.count)).sum

@[simp] theorem counts_append (xs ys : List Record) : counts (xs ++ ys) = counts xs + counts ys := by simp [counts]
@[simp] theorem counts_cons (x : Record) (xs : List Record) : counts (x :: xs) = x.count + counts xs := by simp [counts]
@[simp] theorem counts_nil : counts [] = 0 := rfl

theorem ReportQueue.accounted_eq (q : ReportQueue) : q.accounted = counts q.records + q.tally.count.toNat := rfl

/-- Losses counted add to what is accounted for, wherever they go. -/
theorem ReportQueue.accounted_countLost {q : ReportQueue} {n : Nat} (fits : q.accounted + n < 2 ^ 64) (kind : Kind) (t : Millis) :
    (q.countLost n kind t).accounted = q.accounted + n := by
  rw [ReportQueue.accounted_eq] at fits
  have tally {m : Nat} (le : m ≤ n) : (q.tally.take m kind t).count.toNat = q.tally.count.toNat + m :=
    Tally.take_count (by omega) kind t
  rcases q.countLost_cases n kind t with ⟨before, y, after, records, -, -, -, eq⟩ | ⟨-, -, eq⟩ | eq <;>
    rw [eq, ReportQueue.accounted_eq, ReportQueue.accounted_eq]
  · rw [records] at fits ⊢
    simp only [counts_append, counts_cons, Record.takeLoss] at fits ⊢
    by_cases room : y.count + n ≤ maxCount
    · rw [Nat.min_eq_left room, Nat.sub_eq_zero_of_le room, Tally.take_zero]
      omega
    · rw [Nat.min_eq_right (by omega), Tally.take_count (by omega)]
      omega
  · simp only [ReportQueue.append, counts_append, counts_cons, counts_nil]
    rw [tally (Nat.sub_le ..)]
    omega
  · change counts q.records + (q.tally.take n kind t).count.toNat = _
    rw [tally (Nat.le_refl n)]
    omega

theorem ReportQueue.accounted_take {q : ReportQueue} {now : Millis} {x : Report} (fits : q.accounted + 1 < 2 ^ 64) :
    (q.take now x).accounted = q.accounted + 1 := by
  rcases q.take_cases now x with ⟨before, y, after, records, -, -, -, -, eq⟩ | ⟨-, -, -, eq⟩ | eq <;> rw [eq]
  · simp only [ReportQueue.accounted_eq, records, counts_append, counts_cons, Record.absorb_count]
    omega
  · simp only [ReportQueue.accounted_eq, ReportQueue.append, counts_append, counts_cons, counts_nil]
    omega
  · exact ReportQueue.accounted_countLost fits _ _

/-- The counts of what a fold has lost. -/
def lostCounts (lost : List (Kind × Nat)) : Nat := (lost.map Prod.snd).sum

/-- A fold of records moves counts, and loses none that it does not list. -/
theorem counts_foldl_foldRecord (records : List Record) (acc : List Record × List (Kind × Nat)) :
    counts (records.foldl foldRecord acc).1 + lostCounts (records.foldl foldRecord acc).2 =
      counts acc.1 + lostCounts acc.2 + counts records := by
  induction records generalizing acc with
  | nil => rfl
  | cons r rs ih =>
    rw [List.foldl_cons, ih]
    rcases foldRecord_cases acc.1 acc.2 r with ⟨-, eq⟩ | ⟨before, y, after, split, -, -, -, -, eq⟩ | ⟨-, -, eq⟩ <;> rw [eq]
    · simp [Nat.add_assoc, Nat.add_left_comm, Nat.add_comm]
    · simp [split, Nat.add_assoc, Nat.add_left_comm, Nat.add_comm]
    · simp [lostCounts, Nat.add_assoc, Nat.add_left_comm]

theorem ReportQueue.accounted_foldl_countLost (lost : List (Kind × Nat)) (t : Millis) {q : ReportQueue}
    (fits : q.accounted + lostCounts lost < 2 ^ 64) :
    (lost.foldl (fun q lost => q.countLost lost.2 lost.1 t) q).accounted = q.accounted + lostCounts lost := by
  induction lost generalizing q with
  | nil => rfl
  | cons x xs ih =>
    have sum : lostCounts (x :: xs) = x.2 + lostCounts xs := by simp [lostCounts]
    have first := ReportQueue.accounted_countLost (q := q) (n := x.2) (by omega) x.1 t
    rw [List.foldl_cons, ih (by omega), first, sum, Nat.add_assoc]

theorem counts_map_revert (records : List Record) : counts (records.map Record.revert) = counts records := by
  simp [counts, Function.comp_def]

theorem ReportQueue.accounted_revert {q : ReportQueue} (fits : q.accounted < 2 ^ 64) (t : Millis) :
    (q.revert t).accounted = q.accounted := by
  have folded := counts_foldl_foldRecord (q.records.map Record.revert) ([], [])
  rw [counts_map_revert] at folded
  change counts (foldRecords _).1 + lostCounts (foldRecords _).2 = 0 + 0 + counts q.records at folded
  rw [ReportQueue.accounted_eq] at fits
  have start : ({ q with records := (foldRecords (q.records.map Record.revert)).1, ackTimer := none } : ReportQueue).accounted =
      counts (foldRecords (q.records.map Record.revert)).1 + q.tally.count.toNat := rfl
  have lost := ReportQueue.accounted_foldl_countLost (foldRecords (q.records.map Record.revert)).2 t
    (q := { q with records := (foldRecords (q.records.map Record.revert)).1, ackTimer := none }) (by omega)
  rw [ReportQueue.revert, lost, start, ReportQueue.accounted_eq]
  omega

@[simp] theorem ReportQueue.restartTimer_records (q : ReportQueue) : q.restartTimer.records = q.records := by
  unfold ReportQueue.restartTimer ReportQueue.startTimer
  split <;> rfl

@[simp] theorem ReportQueue.restartTimer_tally (q : ReportQueue) : q.restartTimer.tally = q.tally := by
  unfold ReportQueue.restartTimer ReportQueue.startTimer
  split <;> rfl

/-- A LOSS record made from the tally holds what the tally gives up. -/
theorem ReportQueue.accounted_drainTally (q : ReportQueue) : q.drainTally.accounted = q.accounted := by
  rcases q.drainTally_cases with ⟨eq, -⟩ | ⟨-, -, eq⟩ <;> rw [eq]
  have most := q.tally.count.isLt
  have given : (BitVec.ofNat 64 (min q.tally.count.toNat maxCount)).toNat = min q.tally.count.toNat maxCount := by
    rw [BitVec.toNat_ofNat, Nat.mod_eq_of_lt (by omega)]
  have left : (q.tally.count - BitVec.ofNat 64 (min q.tally.count.toNat maxCount)).toNat =
      q.tally.count.toNat - min q.tally.count.toNat maxCount := by
    rw [BitVec.toNat_sub_of_le (BitVec.le_def.2 (by omega)), given]
  simp only [ReportQueue.accounted_eq, ReportQueue.append, counts_append, counts_cons, counts_nil, left]
  omega

/-- Settles O47: each operation moves or adds counts, and an acknowledgement takes away those of the records it removes. -/
theorem everyReportIsAccounted : Obligations.EveryReportIsAccounted := by
  refine ⟨fun q now x fits => ReportQueue.accounted_take fits, fun q t fits => ReportQueue.accounted_revert fits t,
    fun q after n removed acked => ?_⟩
  unfold ReportQueue.acknowledge? at acked
  obtain ⟨⟨m, left⟩, cut, eq⟩ := Option.map_eq_some_iff.1 acked
  cases eq
  obtain ⟨before, x, records, -, -, rfl, -⟩ := acknowledged?_cases cut
  have removed : q.records.take (before.length + 1) = before ++ [x] := by
    rw [records, List.take_length_add_append]
    rfl
  have gone : ((q.records.take (before.length + 1)).map (·.count)).sum = counts before + x.count := by
    rw [removed]
    exact (counts_append before [x]).trans (by simp)
  rw [gone, ReportQueue.accounted_drainTally]
  simp only [ReportQueue.accounted_eq, ReportQueue.restartTimer_records, ReportQueue.restartTimer_tally, records, counts_append,
    counts_cons]
  omega

end Sys2Proof.Machine
end

section
/-! PROOF of the obligation on reversion (O48): the marks of what stays, the folds one after another, and the losses after them. -/

namespace Sys2Proof.Machine

/-! ## Folding one record after another -/

theorem Record.twins_iff_matches {a b : Record} (unsent : b.sent = false) :
    a.Twins b ↔ b.kind.merges = true ∧ Record.matches b.kind b.subject a = true := by
  rw [Record.matches_iff]
  constructor
  · rintro ⟨sent, -, kind, merges, subject⟩
    exact ⟨kind ▸ merges, sent, kind, subject⟩
  · rintro ⟨merges, sent, kind, subject⟩
    exact ⟨sent, unsent, kind, kind ▸ merges, subject⟩

theorem foldRecords_snoc (earlier : List Record) (b : Record) :
    foldRecords (earlier ++ [b]) = foldRecord (foldRecords earlier) b := by
  simp [foldRecords]

/-- A record with no twin before it stays. -/
theorem foldRecord_of_apart {acc : List Record × List (Kind × Nat)} {b : Record} (unsent : b.sent = false)
    (apart : ∀ a ∈ acc.1, ¬ a.Twins b) : foldRecord acc b = (acc.1 ++ [b], acc.2) := by
  have unfound : (if b.kind.merges then acc.1.find? (Record.matches b.kind b.subject) else none) = none := by
    by_cases merges : b.kind.merges = true
    · rw [if_pos merges]
      exact List.find?_eq_none.2 fun a mem is => apart a mem ((Record.twins_iff_matches unsent).2 ⟨merges, is⟩)
    · exact if_neg merges
  rw [foldRecord, unfound]

/-- A record with a twin before it goes into the oldest, or is to be lost where the sum does not fit. -/
theorem foldRecord_of_twin {acc : List Record × List (Kind × Nat)} {before mid : List Record} {a b : Record}
    (unsent : b.sent = false) (records : acc.1 = before ++ a :: mid) (apart : ∀ z ∈ before, ¬ z.Twins b) (twin : a.Twins b) :
    foldRecord acc b =
      if a.count + b.count ≤ maxCount then (before ++ a.absorb b.count b.last b.detail :: mid, acc.2)
      else (acc.1, acc.2 ++ [(b.kind, b.count)]) := by
  obtain ⟨merges, own⟩ := (Record.twins_iff_matches unsent).1 twin
  have others : ∀ z ∈ before, Record.matches b.kind b.subject z = false := fun z mem =>
    Bool.eq_false_of_not_eq_true fun is => apart z mem ((Record.twins_iff_matches unsent).2 ⟨merges, is⟩)
  rw [foldRecord, if_pos merges, records, find?_at _ before mid a others own]
  dsimp only
  rw [updateFirst_at _ _ before mid a others own]

/-- Records of which no two are twins stay as they are. -/
theorem foldRecords_of_apart {records : List Record} (unsent : ∀ r ∈ records, r.sent = false)
    (apart : records.Pairwise fun a b => ¬ a.Twins b) : foldRecords records = (records, []) := by
  induction records using List.reverseRecOn with
  | nil => rfl
  | append_singleton earlier b ih =>
    obtain ⟨before, -, last⟩ := List.pairwise_append.1 apart
    have folded := ih (fun r mem => unsent r (by simp [mem])) before
    rw [foldRecords_snoc, folded, foldRecord_of_apart (unsent b (by simp)) fun a mem => last a mem b (by simp)]

/-! ## What stays, by its marks -/

/-- Whether two records are twins shows in their marks. -/
theorem Record.twins_congr {a b c d : Record} (first : a.marks = c.marks) (second : b.marks = d.marks) : a.Twins b ↔ c.Twins d := by
  simp only [Record.marks, Prod.mk.injEq] at first second
  obtain ⟨-, sent, -, subject, kind, -⟩ := first
  obtain ⟨-, sent', -, subject', kind', -⟩ := second
  simp only [Record.Twins, sent, sent', kind, kind', subject, subject']

theorem twinless_of_marks {xs ys : List Record} (marks : xs.map Record.marks = ys.map Record.marks)
    (apart : ys.Pairwise fun a b => ¬ a.Twins b) : xs.Pairwise fun a b => ¬ a.Twins b := by
  induction xs generalizing ys with
  | nil => exact .nil
  | cons x xs ih =>
    cases ys with
    | nil => cases marks
    | cons y ys =>
      simp only [List.map_cons, List.cons.injEq] at marks
      obtain ⟨own, rest⟩ := List.pairwise_cons.1 apart
      refine List.pairwise_cons.2 ⟨fun b mem twin => ?_, ih marks.2 rest⟩
      obtain ⟨c, hc, eq⟩ := List.mem_map.1 (marks.2 ▸ List.mem_map_of_mem (f := Record.marks) mem)
      exact own c hc ((Record.twins_congr marks.1 eq.symm).1 twin)

/-- A fold leaves no two records that could be one (R114, R126). -/
theorem foldRecords_apart (records : List Record) : (foldRecords records).1.Pairwise fun a b => ¬ a.Twins b := by
  refine foldRecords_induct (fun acc => acc.1.Pairwise fun a b => ¬ a.Twins b) .nil (fun acc r apart => ?_) records
  rcases foldRecord_cases acc.1 acc.2 r with ⟨none, eq⟩ | ⟨before, y, after, split, -, -, -, -, eq⟩ | ⟨-, -, eq⟩ <;> rw [eq]
  · refine List.pairwise_append.2 ⟨apart, List.pairwise_singleton .., fun a mem b own twin => ?_⟩
    rw [List.mem_singleton.1 own] at twin
    obtain ⟨merges, is⟩ := (Record.twins_iff_matches twin.2.1).1 twin
    rw [none merges a mem] at is
    cases is
  · refine twinless_of_marks ?_ (split ▸ apart)
    simp
  · exact apart

@[simp] theorem Record.takeLoss_marks (r : Record) (n : Nat) (kind : Kind) (t : Millis) : (r.takeLoss n kind t).marks = r.marks := by
  simp only [Record.marks, Record.takeLoss_kind]
  rfl

/-- The marks of the LOSS record that a reversion may append. -/
def lossMarks (seq : BitVec 16) (t : Millis) : BitVec 16 × Bool × Bool × Option Nat × Kind × Millis :=
  (seq, false, false, none, .loss, t)

/-- Losses counted keep the marks of the records, or append a LOSS record where there is none. -/
theorem ReportQueue.countLost_marks (q : ReportQueue) (n : Nat) (kind : Kind) (t : Millis) :
    (q.countLost n kind t).records.map Record.marks = q.records.map Record.marks ∧ (q.countLost n kind t).nextSeq = q.nextSeq ∨
    (∀ z ∈ q.records, z.kind ≠ .loss) ∧
      (q.countLost n kind t).records.map Record.marks = q.records.map Record.marks ++ [lossMarks q.nextSeq t] := by
  rcases q.countLost_cases n kind t with ⟨before, y, after, split, -, -, -, eq⟩ | ⟨none, -, eq⟩ | eq <;> rw [eq]
  · exact .inl ⟨by simp [split], rfl⟩
  · refine .inr ⟨none, ?_⟩
    simp only [ReportQueue.append, List.map_append]
    rfl
  · exact .inl ⟨rfl, rfl⟩

/-- The losses of a reversion keep the marks that the folds leave, but that one LOSS record may be appended. -/
theorem ReportQueue.foldl_countLost_marks (lost : List (Kind × Nat)) (t : Millis) (q : ReportQueue) :
    let after := lost.foldl (fun p y => p.countLost y.2 y.1 t) q
    after.records.map Record.marks = q.records.map Record.marks ∧ after.nextSeq = q.nextSeq ∨
      after.records.map Record.marks = q.records.map Record.marks ++ [lossMarks q.nextSeq t] := by
  have once (lost : List (Kind × Nat)) (p : ReportQueue)
      (is : p.records.map Record.marks = q.records.map Record.marks ++ [lossMarks q.nextSeq t]) :
      (lost.foldl (fun p y => p.countLost y.2 y.1 t) p).records.map Record.marks =
        q.records.map Record.marks ++ [lossMarks q.nextSeq t] := by
    induction lost generalizing p with
    | nil => exact is
    | cons x xs ih =>
      refine ih _ ?_
      rcases p.countLost_marks x.2 x.1 t with ⟨same, -⟩ | ⟨none, -⟩
      · exact same.trans is
      · obtain ⟨z, mem, marks⟩ := List.mem_map.1 (is ▸ List.mem_append_right _ (List.mem_singleton_self (lossMarks q.nextSeq t)))
        simp only [Record.marks, lossMarks, Prod.mk.injEq] at marks
        exact absurd marks.2.2.2.2.1 (none z mem)
  suffices ∀ p : ReportQueue, p.records.map Record.marks = q.records.map Record.marks → p.nextSeq = q.nextSeq →
      let after := lost.foldl (fun p y => p.countLost y.2 y.1 t) p
      after.records.map Record.marks = q.records.map Record.marks ∧ after.nextSeq = q.nextSeq ∨
        after.records.map Record.marks = q.records.map Record.marks ++ [lossMarks q.nextSeq t] from this q rfl rfl
  induction lost with
  | nil => exact fun p records seq => .inl ⟨records, seq⟩
  | cons x xs ih =>
    intro p records seq
    rcases p.countLost_marks x.2 x.1 t with ⟨same, next⟩ | ⟨-, appended⟩
    · exact ih _ (same.trans records) (next.trans seq)
    · exact .inr (once xs _ (by rw [appended, records, seq]))

/-! ## A reversion -/

theorem Record.revert_marks (r : Record) : r.revert.marks = (r.seq, false, r.sent || r.resent, r.subject, r.kind, r.first) := by
  cases sent : r.sent <;> simp [Record.marks, Record.revert, sent, Record.kind]

/-- The records that stay after a reversion, by their marks, with a LOSS record that may be appended. -/
theorem ReportQueue.revert_marks (q : ReportQueue) (t : Millis) :
    ∃ kept : List Record, kept.Sublist q.records ∧
      ((q.revert t).records.map Record.marks = kept.map (fun r => r.revert.marks) ∨
        (q.revert t).records.map Record.marks = kept.map (fun r => r.revert.marks) ++ [lossMarks q.nextSeq t]) := by
  obtain ⟨some, stays, marks⟩ := foldRecords_marks (q.records.map Record.revert)
  obtain ⟨kept, sub, rfl⟩ := List.sublist_map_iff.1 stays
  rw [List.map_map] at marks
  refine ⟨kept, sub, ?_⟩
  rcases ReportQueue.foldl_countLost_marks (foldRecords (q.records.map Record.revert)).2 t
    { q with records := (foldRecords (q.records.map Record.revert)).1, ackTimer := none } with ⟨eq, -⟩ | eq
  · exact .inl (eq.trans marks)
  · exact .inr (eq.trans (congrArg (· ++ _) marks))

theorem ReportQueue.revert_unsent {q : ReportQueue} {t : Millis} {r : Record} (mem : r ∈ (q.revert t).records) : r.sent = false := by
  obtain ⟨kept, -, marks⟩ := q.revert_marks t
  have own : r.marks ∈ (q.revert t).records.map Record.marks := List.mem_map_of_mem mem
  have of (m : r.marks ∈ kept.map fun r => r.revert.marks) : r.sent = false := by
    obtain ⟨x, -, eq⟩ := List.mem_map.1 m
    rw [Record.revert_marks] at eq
    exact ((Prod.mk.inj (Prod.mk.inj eq).2).1).symm
  rcases marks with eq | eq <;> rw [eq] at own
  · exact of own
  · rcases List.mem_append.1 own with stays | loss
    · exact of stays
    · exact (Prod.mk.inj (Prod.mk.inj (List.mem_singleton.1 loss)).2).1

/-- Losses counted leave records apart: they join or make a LOSS record, and LOSS does not merge. -/
theorem ReportQueue.countLost_apart {q : ReportQueue} (apart : q.records.Pairwise fun a b => ¬ a.Twins b) (n : Nat) (kind : Kind)
    (t : Millis) : (q.countLost n kind t).records.Pairwise fun a b => ¬ a.Twins b := by
  rcases q.countLost_cases n kind t with ⟨before, y, after, split, -, -, -, eq⟩ | ⟨-, -, eq⟩ | eq <;> rw [eq]
  · exact twinless_of_marks (by simp) (split ▸ apart)
  · refine List.pairwise_append.2 ⟨apart, List.pairwise_singleton .., fun a _ b own twin => ?_⟩
    rw [List.mem_singleton.1 own] at twin
    obtain ⟨-, -, isLoss, merges, -⟩ := twin
    rw [isLoss] at merges
    cases merges
  · exact apart

theorem ReportQueue.revert_apart (q : ReportQueue) (t : Millis) : (q.revert t).records.Pairwise fun a b => ¬ a.Twins b :=
  q.revert_induct (fun p => p.records.Pairwise fun a b => ¬ a.Twins b) t (foldRecords_apart _)
    fun _ n kind apart => ReportQueue.countLost_apart apart n kind t

theorem ReportQueue.revert_ackTimer (q : ReportQueue) (t : Millis) : (q.revert t).ackTimer = none :=
  q.revert_induct (fun p => p.ackTimer = none) t rfl fun p n kind timer => (p.countLost_settings n kind t).ackTimer.trans timer

/-- Settles O48: what stays by its marks, and the folds record by record. -/
theorem reversionFolds : Obligations.ReversionFolds := by
  intro q t reverted after
  refine ⟨fun r => ReportQueue.revert_unsent, q.revert_apart t, q.revert_ackTimer t, ?_, fun apart => ?_, rfl, rfl,
    fun earlier b unsent => ⟨fun apart => ?_, fun before mid a records apart twin => ?_⟩⟩
  · obtain ⟨kept, sub, marks⟩ := q.revert_marks t
    refine ⟨kept, sub, ?_⟩
    have project {xs : List (BitVec 16 × Bool × Bool × Option Nat × Kind × Millis)} (eq : after.records.map Record.marks = xs) :
        after.records.map (fun y => (y.seq, y.resent, y.subject, y.kind, y.first)) =
          xs.map fun m => (m.1, m.2.2.1, m.2.2.2.1, m.2.2.2.2.1, m.2.2.2.2.2) := by
      rw [← eq, List.map_map]
      rfl
    refine marks.imp (fun eq => (project eq).trans ?_) fun eq => (project eq).trans ?_
    · simp only [Record.revert_marks, List.map_map, Function.comp_def]
    · simp only [Record.revert_marks, List.map_append, List.map_map, Function.comp_def]
      rfl
  · have folded : foldRecords (q.records.map Record.revert) = (q.records.map Record.revert, []) :=
      foldRecords_of_apart (fun r mem => by
        obtain ⟨x, -, rfl⟩ := List.mem_map.1 mem
        exact x.revert_sent) apart
    have unfolded : after = (foldRecords (q.records.map Record.revert)).2.foldl (fun p y => p.countLost y.2 y.1 t)
        { q with records := (foldRecords (q.records.map Record.revert)).1, ackTimer := none } := rfl
    rw [unfolded, folded]
    rfl
  · rw [foldRecords_snoc]
    exact foldRecord_of_apart unsent apart
  · rw [foldRecords_snoc]
    exact foldRecord_of_twin unsent records apart twin

end Sys2Proof.Machine
end

section
/-! PROOF of the obligations on receiving: how the frame receiver takes a character and its errors (O52), and that it reads what the
transmitter's framing writes (O53). -/

namespace Sys2Proof.Machine

/-! ## A character by the receiver's state -/

/-- The character receiver waiting, with the frame receiver in a state. -/
def State.receiving (s : State) (f : FrameRx) (gap : Bool) : State :=
  { s with link := { s.link with charRx := .waiting, frameRx := f, gapRunning := gap } }

theorem exec_rxCharacter {s : State} (running : s.Running) (b : Byte) :
    exec (.rxCharacter b) s = .next ((s.characterRx .waiting).receive b) :=
  State.running_of running fun s => (s.characterRx .waiting).receive b

section Receive
variable (s : State) (b : Byte)

theorem State.receive_of_hunt (h : s.link.frameRx = .hunt) :
    (s.characterRx .waiting).receive b =
      if b = syncByte then s.receiving .length true else s.receiving .hunt s.link.gapRunning := by
  have same : s.receiving .hunt s.link.gapRunning = s.characterRx .waiting := by
    rw [State.receiving, ← h]
    rfl
  have is : (s.characterRx .waiting).link.frameRx = .hunt := h
  rw [State.receive, is, same]
  rfl

theorem State.receive_of_length (h : s.link.frameRx = .length) :
    (s.characterRx .waiting).receive b =
      if 2 ≤ b.toNat ∧ b.toNat ≤ 248 then s.receiving (.body b []) true
      else (s.receiving .hunt false).reportRxError .length := by
  have is : (s.characterRx .waiting).link.frameRx = .length := h
  rw [State.receive, is]
  rfl

theorem State.receive_of_body {len : Byte} {received : List Byte} (h : s.link.frameRx = .body len received) :
    (s.characterRx .waiting).receive b =
      if received.length + 1 < len.toNat then s.receiving (.body len (received ++ [b])) true
      else s.receiving (.check len (received ++ [b]) none) true := by
  have is : (s.characterRx .waiting).link.frameRx = .body len received := h
  rw [State.receive, is]
  by_cases more : received.length + 1 < len.toNat
  · rw [if_pos more]
    exact if_neg (Nat.not_le.2 more)
  · rw [if_neg more]
    exact if_pos (Nat.not_lt.1 more)

theorem State.receive_of_check_first {len : Byte} {received : List Byte} (h : s.link.frameRx = .check len received none) :
    (s.characterRx .waiting).receive b = s.receiving (.check len received (some b)) true := by
  have is : (s.characterRx .waiting).link.frameRx = .check len received none := h
  rw [State.receive, is]
  rfl

/-- The second check character completes the frame: its body is taken where the check agrees (R137, R139). -/
theorem State.receive_of_check_second {len type tag low : Byte} {payload : List Byte}
    (h : s.link.frameRx = .check len (type :: tag :: payload) (some low)) :
    (s.characterRx .waiting).receive b =
      if crc (len :: type :: tag :: payload) ≠ b ++ low then (s.receiving .hunt false).reportRxError .check
      else if 0x70 ≤ type.toNat then (s.receiving .hunt false).reportRxError .type
      else if s.link.requests.length < 4 then
        (s.receiving .hunt false).setLink
          { (s.receiving .hunt false).link with
            requests := s.link.requests ++ [{ type := type, tag := tag, payload := payload }] }
      else (s.receiving .hunt false).reportRxError .overrun := by
  have is : (s.characterRx .waiting).link.frameRx = .check len (type :: tag :: payload) (some low) := h
  rw [State.receive, is, ite_not]
  rfl

end Receive

/-- Settles O52: the character by the receiver's state, and the other events of the receivers. -/
theorem receiverTakesCharacter : Obligations.ReceiverTakesCharacter := by
  refine ⟨fun s b running => ?_, fun s running => ?_⟩
  · intro into error none'
    rw [exec_rxCharacter running]
    refine ⟨fun is => ?_, fun is => ?_, fun len received is => ?_, fun len received is => ?_,
      fun len type tag payload low is => ?_⟩
    · rw [s.receive_of_hunt b is]
      rfl
    · rw [s.receive_of_length b is]
      rfl
    · rw [s.receive_of_body b is]
      rfl
    · rw [s.receive_of_check_first b is]
      rfl
    · rw [s.receive_of_check_second b is]
      rfl
  · intro report
    refine ⟨?_, fun gap => ?_, fun outside => ⟨?_, ?_⟩⟩
    · exact State.running_of running fun s => ((s.characterRx .waiting).toHunt).reportRxError .framing
    · have ran : exec .gapError s = .next (if s.link.gapRunning then s.toHunt.reportRxError .gap else s) :=
        State.running_of running fun s => if s.link.gapRunning then s.toHunt.reportRxError .gap else s
      rw [ran, if_pos gap]
      rfl
    all_goals
      simp only [exec, execCharacterStartEdge]
      rw [State.running_of running, if_neg outside]
      rfl

/-! ## A frame, character by character -/

/-- Characters one after another, as commands. -/
theorem execAll_rxCharacter (characters : List Byte) {s : State} (running : s.Running) :
    execAll (characters.map .rxCharacter) s =
      .next (characters.foldl (fun s b => (s.characterRx .waiting).receive b) s) := by
  induction characters generalizing s with
  | nil => rfl
  | cons b rest ih =>
    have received := (s.characterRx_receives .waiting).trans (State.receive_receives _ b)
    have board : ((s.characterRx .waiting).receive b).board = s.board := received.outside.board
    rw [List.map_cons, execAll, exec_rxCharacter running, List.foldl_cons]
    exact ih (by rwa [State.Running, board])

@[simp] theorem State.receiving_receiving (s : State) (f g : FrameRx) (a b : Bool) :
    (s.receiving f a).receiving g b = s.receiving g b := rfl

/-- The characters of a body, up to its length, are received into it (R136). -/
theorem State.receive_body (s : State) (len : Byte) (bytes received : List Byte) (some : bytes ≠ [])
    (length : received.length + bytes.length = len.toNat) :
    bytes.foldl (fun s b => (s.characterRx .waiting).receive b) (s.receiving (.body len received) true) =
      s.receiving (.check len (received ++ bytes) none) true := by
  induction bytes generalizing received with
  | nil => exact absurd rfl some
  | cons b rest ih =>
    rw [List.foldl_cons, State.receive_of_body _ b rfl, State.receiving_receiving, State.receiving_receiving]
    cases rest with
    | nil =>
      have last : ¬ received.length + 1 < len.toNat := by simpa using Nat.le_of_eq length.symm
      rw [if_neg last]
      rfl
    | cons c rest =>
      have more : received.length + 1 < len.toNat := by simp only [List.length_cons] at length; omega
      rw [if_pos more,
        ih (received ++ [b]) (by simp) (by simp only [List.length_append, List.length_cons, List.length_nil] at length ⊢; omega)]
      simp

/-- The two check characters carry the check (R144). -/
theorem check_bytes (check : BitVec 16) : (check >>> 8).setWidth 8 ++ check.setWidth 8 = check := by
  apply BitVec.eq_of_getLsbD_eq
  intro i hi
  simp only [BitVec.getLsbD_append, BitVec.getLsbD_setWidth, BitVec.getLsbD_ushiftRight]
  by_cases low : i < 8
  · simp [low]
  · have high : i - 8 < 8 := by omega
    simp [low, high, Nat.add_sub_of_le (Nat.le_of_not_lt low)]

/-- Settles O53: SYNC, LEN, body and check, each taken by the state the one before leaves. -/
theorem framedRequestIsReceived : Obligations.FramedRequestIsReceived := by
  intro s type tag payload running hunt room request short
  have length : (byte (type :: tag :: payload).length).toNat = payload.length + 2 := by
    simp only [byte, List.length_cons, BitVec.toNat_ofNat]
    omega
  have inRange : 2 ≤ (byte (type :: tag :: payload).length).toNat ∧ (byte (type :: tag :: payload).length).toNat ≤ 248 := by
    omega
  generalize len_eq : byte (type :: tag :: payload).length = len at length inRange
  have header : [syncByte, len].foldl (fun s b => (s.characterRx .waiting).receive b) s = s.receiving (.body len []) true := by
    rw [List.foldl_cons, State.receive_of_hunt s _ hunt, if_pos rfl, List.foldl_cons, List.foldl_nil,
      State.receive_of_length _ _ rfl, if_pos inRange, State.receiving_receiving]
  have body := s.receive_body len (type :: tag :: payload) [] (by simp) (by rw [length]; simp)
  have check (low high : Byte) (agrees : crc (len :: type :: tag :: payload) = high ++ low) :
      [low, high].foldl (fun s b => (s.characterRx .waiting).receive b) (s.receiving (.check len (type :: tag :: payload) none) true) =
        (s.receiving .hunt false).setLink
          { (s.receiving .hunt false).link with
            requests := s.link.requests ++ [{ type := type, tag := tag, payload := payload }] } := by
    rw [List.foldl_cons, State.receive_of_check_first _ _ rfl, List.foldl_cons, List.foldl_nil, State.receiving_receiving,
      State.receive_of_check_second _ _ rfl, if_neg (not_not.2 agrees), if_neg (Nat.not_le.2 request)]
    exact if_pos room
  rw [execAll_rxCharacter _ running, frameOf]
  dsimp only
  rw [len_eq, List.foldl_append, List.foldl_append, header, body, List.nil_append, check _ _ (check_bytes _).symm]
  rfl

end Sys2Proof.Machine
end

section
/-! PROOF of the obligation on the taking, the checks and the answering of requests (O55). -/

namespace Sys2Proof.Machine

/-! ## The codes and lengths of R170 -/

/-- The codes of the requests with one required length, each with its length (R170). -/
def requestLengths : List (Nat × Nat) :=
  [(0x01, 2), (0x02, 0), (0x04, 0), (0x05, 0), (0x06, 1), (0x08, 2), (0x09, 2), (0x10, 3), (0x11, 3), (0x14, 16),
   (0x15, 1), (0x16, 3), (0x17, 1), (0x18, 1), (0x1A, 1), (0x1B, 0), (0x20, 8), (0x21, 1), (0x22, 1), (0x23, 1),
   (0x28, 16), (0x29, 1), (0x2A, 2), (0x2B, 2), (0x2C, 2), (0x2D, 1), (0x2E, 1)]

theorem requestLength?_isSome_iff {b : Byte} :
    (requestLength? b).isSome = true ↔ b.toNat = 0x03 ∨ b.toNat ∈ requestLengths.map Prod.fst := by
  revert b
  decide

theorem mem_requestLengths_of_some {b : Byte} (other : b ≠ 0x03) {n : Nat} (length : requestLength? b = some n) :
    (b.toNat, n) ∈ requestLengths := by
  have all : ∀ b : Byte, b ≠ 0x03 → ∀ n ∈ requestLength? b, (b.toNat, n) ∈ requestLengths := by decide
  exact all b other n length

theorem requestLength?_of_mem {b : Byte} {n : Nat} (mem : (b.toNat, n) ∈ requestLengths) : requestLength? b = some n := by
  have all : ∀ p ∈ requestLengths, requestLength? (BitVec.ofNat 8 p.1) = some p.2 := by decide
  simpa using all _ mem

/-- A request's payload fits by PING's largest length or by the one length of its code (R170). -/
theorem Request.lengthFits_iff {r : Request} {n : Nat} (length : requestLength? r.type = some n) :
    r.lengthFits n = true ↔
      (r.type.toNat = 0x03 ∧ r.payload.length ≤ 240) ∨ (r.type.toNat, r.payload.length) ∈ requestLengths := by
  by_cases ping : r.type = 0x03
  · rw [requestLength?_ping ping] at length
    cases length
    rw [Request.lengthFits_ping ping, decide_eq_true_iff, ping]
    simp [requestLengths]
  · have apart : r.type.toNat ≠ 0x03 := fun eq => ping (BitVec.eq_of_toNat_eq eq)
    have one : (r.type.toNat, r.payload.length) ∈ requestLengths ↔ r.payload.length = n := by
      refine ⟨fun mem => ?_, fun eq => eq ▸ mem_requestLengths_of_some ping length⟩
      exact Option.some.inj ((requestLength?_of_mem mem).symm.trans length)
    rw [Request.lengthFits, if_neg ping, one]
    simp [apart]

theorem Request.reservedSet_iff (r : Request) :
    r.reservedSet = true ↔ (r.type.toNat = 0x14 ∨ r.type.toNat = 0x28) ∧ r.payload.getLast? ≠ some 0 := by
  have code (n : Byte) : r.type = n ↔ r.type.toNat = n.toNat := BitVec.toNat_inj.symm
  simp [Request.reservedSet, code]

theorem Request.passesClosed_iff (r : Request) : r.passesClosed = true ↔ r.type.toNat ∈ [0x01, 0x03, 0x04, 0x05, 0x06] := by
  have code (n : Byte) : r.type = n ↔ r.type.toNat = n.toNat := BitVec.toNat_inj.symm
  simp [Request.passesClosed, code, or_assoc]

/-- The four checks in their order (R152). -/
theorem Request.refusedFor_eq (r : Request) (session : Session) {known fits reserved closed : Prop} [Decidable known] [Decidable fits]
    [Decidable reserved] [Decidable closed] (hknown : known ↔ (requestLength? r.type).isSome = true)
    (hfits : ∀ n, requestLength? r.type = some n → (fits ↔ r.lengthFits n = true)) (hreserved : reserved ↔ r.reservedSet = true)
    (hclosed : closed ↔ session = .closed ∧ r.passesClosed = false) :
    r.refusedFor session =
      if ¬ known then some .unknownRequest else if ¬ fits then some .badLength else if reserved then some .badField
      else if closed then some .notOpen else none := by
  unfold Request.refusedFor
  cases length : requestLength? r.type with
  | none =>
    have unknown : ¬ known := by simp [hknown, length]
    exact (if_pos unknown).symm
  | some n =>
    have isKnown : ¬ ¬ known := by simp [hknown, length]
    rw [if_neg isKnown]
    refine if_congr (by simp [hfits n length]) rfl (if_congr hreserved.symm rfl (if_congr hclosed.symm rfl rfl))

/-! ## The taking -/

/-- A SILENT session reopens with a retry count of 0, and any other stays (R130, R151). -/
theorem State.reopen_eq (s : State) :
    s.reopen =
      { s with
        unit := { s.unit with session := if s.unit.session = .silent then .opened else s.unit.session }
        queue := { s.queue with retries := if s.unit.session = .silent then 0 else s.queue.retries } } := by
  rcases s with ⟨_, _, _, _, _, _, _, _, _, _, _, queue, _, unit, _, _, _⟩
  rcases unit with ⟨session, _, _, _, _, _, _, _, _⟩
  cases session <;> rfl

theorem State.passChecks_of_refused {s : State} {r : Request} {reason : Reason} (refused : r.refusedFor s.unit.session = some reason) :
    s.passChecks r =
      s.setLink
        { s.link with
          replies := s.link.replies ++ [{ type := r.type + 0x80, tag := r.tag, payload := [2, reason.code], resets := false }] } := by
  rw [State.passChecks, refused]
  rfl

theorem State.passChecks_of_passed {s : State} {r : Request} (passed : r.refusedFor s.unit.session = none) :
    s.passChecks r = s.setUnit { s.unit with inHand := some r, made := none, discard := false } := by
  rw [State.passChecks, passed]

theorem exec_takeRequest {s : State} (running : s.Running) :
    exec .takeRequest s =
      .next
        (match s.link.requests with
         | [] => s
         | r :: rest => if s.ready then ((s.setLink { s.link with requests := rest }).reopen).passChecks r else s) :=
  State.running_of running fun s =>
    match s.link.requests with
    | [] => s
    | r :: rest => if s.ready then ((s.setLink { s.link with requests := rest }).reopen).passChecks r else s

theorem State.ready_iff (s : State) :
    s.ready = true ↔ s.unit.inHand = none ∧ s.unit.fullResetPending = false ∧ s.link.replies.length < 4 := by
  simp [State.ready, and_assoc]

theorem exec_takeRequest_idle {s : State} (running : s.Running)
    (idle : s.link.requests = [] ∨ s.unit.inHand.isSome = true ∨ s.unit.fullResetPending = true ∨ 4 ≤ s.link.replies.length) :
    exec .takeRequest s = .next s := by
  rw [exec_takeRequest running]
  split
  case h_1 => rfl
  case h_2 r rest waits =>
    have busy : ¬ s.ready = true := by
      rw [State.ready_iff]
      rintro ⟨none, noReset, room⟩
      rcases idle with empty | hand | pending | full
      · simp [empty] at waits
      · simp [none] at hand
      · simp [noReset] at pending
      · omega
    rw [if_neg busy]

/-! ## The joining -/

theorem State.joinReply_eq (s : State) (reply : Reply) :
    s.joinReply reply =
      if s.unit.discard = false then
        { s with
          link := { s.link with replies := s.link.replies ++ [reply] }
          unit := { s.unit with inHand := none, made := none, discard := false } }
      else if reply.resets = false then
        { s with unit := { s.unit with inHand := none, made := none, discard := false } }
      else
        { s with
          board := { s.board with fullReset := some .host }
          link := { s.link with tx := none }
          unit := { s.unit with inHand := none, made := none, discard := false, fullResetPending := false } } := by
  rcases s.joinReply_cases reply with ⟨discard, eq⟩ | ⟨discard, resets, eq⟩ | ⟨discard, resets, eq⟩ <;> rw [eq, discard]
  · rfl
  · rw [resets]
    rfl
  · rw [resets]
    rfl

/-- A further command of a request whose reply is made is the joining, once nothing of the request is on its way (R153). -/
theorem exec_joins {c : Instr} {s : State} {r : Request} {reply : Reply} (typed : requestType? c = some r.type) (running : s.Running)
    (inHand : s.unit.inHand = some r) (made : s.unit.made = some reply)
    (none : r.type = 0x11 ∨ r.type = 0x1A → ∀ n ∈ s.notices, n.ofRequest = false) :
    exec c s = .next (s.joinReply reply) := by
  have joins {type : Byte} (ht : some type = some r.type) (execution : Request → State) :
      s.requestEvent type execution = s.joinReply reply := State.requestEvent_made inHand (Option.some.inj ht).symm made execution
  have pulses {part : PulsePart} (either : part = .whole ∨ part = .atClassMap) := exec_joins_awaited either running inHand made
  have awaited (type : r.type = 0x11 ∨ r.type = 0x1A) : s.takeAwaited = s := State.takeAwaited_of_none (none type)
  cases c with
  | setLine part =>
    have either : part = .whole ∨ part = .atClassMap := by cases part <;> simp_all [requestType?]
    have ht : r.type = 0x11 := by rcases either with rfl | rfl <;> exact (Option.some.inj typed).symm
    rw [(pulses either).2 ht, awaited (.inl ht)]
  | nudge part =>
    have either : part = .whole ∨ part = .atClassMap := by cases part <;> simp_all [requestType?]
    have ht : r.type = 0x1A := by rcases either with rfl | rfl <;> exact (Option.some.inj typed).symm
    rw [(pulses either).1 ht, awaited (.inr ht)]
  | openSession | closeSession | ping | identify | readStatus | resetSoft | resetFull | setReporting | ack | setSnoop | writeWindow
  | readWindow | readHits | armTrap | setFallthrough | readClasses | writeTimer | startTimer | stopTimer | readTimer | writeDomain
  | readDomain | holdOn | holdOff | forceActive | force | clearFaultUp | clearFaultDown | retire | adopt =>
    simp only [exec]
    exact (State.running_of running _).trans (congrArg _ (joins typed _))
  | _ => cases typed

/-- Settles O55: the checks in order, the answer, and the joining of every request. -/
theorem requestIsTakenCheckedAnswered : Obligations.RequestIsTakenCheckedAnswered := by
  refine ⟨fun s running => ⟨fun r rest waits idle noReset room => ?_, exec_takeRequest_idle running⟩, fun s r payload resets => rfl,
    fun c s r reply typed running inHand made none => ?_⟩
  · intro lengths known fits reserved closed reopened refused
    have reopens : (s.setLink { s.link with requests := rest }).reopen = reopened := State.reopen_eq _
    have session : reopened.unit.session = .closed ↔ s.unit.session = .closed := by
      cases is : s.unit.session <;> simp [reopened, is]
    have checks := r.refusedFor_eq reopened.unit.session (known := known) (fits := fits) (reserved := reserved) (closed := closed)
      requestLength?_isSome_iff.symm (fun n length => (Request.lengthFits_iff length).symm) r.reservedSet_iff.symm
      (by rw [session, ← Bool.not_eq_true, Request.passesClosed_iff])
    rw [exec_takeRequest_of_ready running waits (State.ready_of idle noReset room), reopens]
    congr 1
    by_cases h1 : known
    · by_cases h2 : fits
      · by_cases h3 : reserved
        · simp only [h1, h2, h3, not_true_eq_false, if_true, if_false] at checks ⊢
          exact State.passChecks_of_refused checks
        · by_cases h4 : closed
          · simp only [h1, h2, h3, h4, not_true_eq_false, if_true, if_false] at checks ⊢
            exact State.passChecks_of_refused checks
          · simp only [h1, h2, h3, h4, not_true_eq_false, if_false] at checks ⊢
            exact State.passChecks_of_passed checks
      · simp only [h1, h2, not_true_eq_false, not_false_eq_true, if_true, if_false] at checks ⊢
        exact State.passChecks_of_refused checks
    · simp only [h1, not_false_eq_true, if_true] at checks ⊢
      exact State.passChecks_of_refused checks
  · rw [exec_joins typed running inHand made none, State.joinReply_eq]

end Sys2Proof.Machine
end

section
/-! PROOF of the obligation on the soft reset (O58). -/

namespace Sys2Proof.Machine

theorem mem_allSoftBlocks (block : SoftBlock) : block ∈ allSoftBlocks := by
  cases block with
  | domainGovernor d => revert d; decide
  | _ => decide

/-! ## The Line Monitor's soft reset -/

/-- A line's record after its soft reset: OFF on C0, its hold ended, its levels kept. -/
def Line.softened (x : Line) : Line := { x with qualifier := .off, cls := 0, holding := none }

/-- What the ends of holds may do to a timer: one that was HELD counts from its load. -/
def Timer.Released (x y : Timer) : Prop := y = x ∨ x.state = .held ∧ y = x.countFromLoad

theorem Timer.Released.trans {x y z : Timer} (first : x.Released y) (second : y.Released z) : x.Released z := by
  rcases first with rfl | ⟨held, rfl⟩
  · exact second
  · rcases second with rfl | ⟨counting, _⟩
    · exact .inr ⟨held, rfl⟩
    · cases counting

theorem State.lineReleases_of_free {s : State} {l : LineId} (free : (s.line l).holding = none) : s.lineReleases l = s := by
  rw [State.lineReleases, free]

theorem State.lineReleases_of_holding {s : State} {l : LineId} {c : ClassId} (holding : (s.line l).holding = some c) :
    s.lineReleases l = (s.setLine l { s.line l with holding := none }).endHold l c := by
  rw [State.lineReleases, holding]

theorem State.endHold_released (s : State) (l : LineId) (c : ClassId) (i : TimerId) :
    (s.timer i).Released ((s.endHold l c).timer i) := by
  rw [State.endHold_timer]
  split
  case isTrue ends => exact .inr ⟨ends.2.2.1, rfl⟩
  case isFalse => exact .inl rfl

theorem State.endHold_last (s : State) (l : LineId) (c e : ClassId) : ((s.endHold l c).cls e).last = (s.cls e).last := by
  rw [State.endHold_cls]
  split
  case isTrue eq => rw [eq]
  case isFalse => rfl

/-- What the soft resets of lines `reset` do: to the lines, to the classes, to the timers, and to nothing else. -/
structure State.LinesSoftened (s t : State) (reset : List LineId) : Prop where
  line : ∀ m, t.line m = if m ∈ reset then (s.line m).softened else s.line m
  last : ∀ c, (t.cls c).last = (s.cls c).last
  timer : ∀ i, (s.timer i).Released (t.timer i)
  frame : { t with lines := s.lines, classes := s.classes, timers := s.timers } = s

theorem State.softResetLine_softened (s : State) (l : LineId) : s.LinesSoftened (s.softResetLine l) [l] := by
  have line (m : LineId) : (s.softResetLine l).line m = if m ∈ [l] then (s.line m).softened else s.line m := by
    simp only [State.softResetLine, State.line_setLine, State.line_lineReleases, List.mem_singleton]
    split
    case isTrue eq => rw [eq]; rfl
    case isFalse => rfl
  cases holding : (s.line l).holding with
  | none =>
    rw [State.softResetLine, State.lineReleases_of_free holding] at line ⊢
    exact ⟨line, fun _ => rfl, fun _ => .inl rfl, rfl⟩
  | some c =>
    have frame := State.endHold_frame (s.setLine l { s.line l with holding := none }) l c
    rw [State.softResetLine, State.lineReleases_of_holding holding] at line ⊢
    exact ⟨line, State.endHold_last _ l c, State.endHold_released _ l c, congrArg (fun u : State => { u with lines := s.lines }) frame⟩

theorem State.LinesSoftened.trans {s t u : State} {first second : List LineId} (h : s.LinesSoftened t first)
    (k : t.LinesSoftened u second) : s.LinesSoftened u (first ++ second) := by
  refine ⟨fun m => ?_, fun c => (k.last c).trans (h.last c), fun i => (h.timer i).trans (k.timer i), ?_⟩
  · rw [k.line, h.line]
    by_cases before : m ∈ first <;> by_cases after : m ∈ second <;> simp [before, after, Line.softened]
  · have both := congrArg (fun v : State => { v with lines := s.lines, classes := s.classes, timers := s.timers }) k.frame
    exact both.trans h.frame

theorem State.foldl_softResetLine_softened (ls : List LineId) (s : State) :
    s.LinesSoftened (ls.foldl State.softResetLine s) ls := by
  induction ls generalizing s with
  | nil => exact ⟨fun _ => rfl, fun _ => rfl, fun _ => .inl rfl, rfl⟩
  | cons l ls ih => exact (s.softResetLine_softened l).trans (ih _)

theorem State.softReset_lineMonitor_softened (s : State) : s.LinesSoftened (s.softReset .lineMonitor) allLines :=
  State.foldl_softResetLine_softened allLines s

/-- Where no line holds a class no class is held. -/
theorem State.HoldsAgree.holders_zero {s : State} (agree : s.HoldsAgree) (none : ∀ l, (s.line l).holding = none) (c : ClassId) :
    (s.cls c).holders = 0 := by
  refine BitVec.eq_of_getLsbD_eq fun l lt => ?_
  have free := agree.1 ⟨l, lt⟩ c
  rw [none] at free
  simpa using free

/-- With every hold ended, every timer that was HELD is released. -/
theorem State.HoldsAgree.softReset_timer {s : State} (agree : s.HoldsAgree) (i : TimerId) :
    (s.softReset .lineMonitor).timer i = if (s.timer i).state = .held then (s.timer i).countFromLoad else s.timer i := by
  have softened := s.softReset_lineMonitor_softened
  have after : (s.softReset .lineMonitor).HoldsAgree := agree.softReset .lineMonitor
  have free := after.holders_zero fun l => by rw [softened.line, if_pos (mem_allLines l)]; rfl
  rcases softened.timer i with same | ⟨held, released⟩
  · split
    case isTrue held =>
      have still : ((s.softReset .lineMonitor).timer i).state = .held := by rw [same, held]
      obtain ⟨c, -, holds⟩ := (State.anyHeld_iff ..).1 ((after.2.2 i (by rw [still]; nofun)).1 still)
      exact absurd (free c) holds
    case isFalse => exact same
  · rw [if_pos held, released]

/-! ## The request -/

theorem State.HasInHand.request {s : State} {type : Byte} {payload : List Byte} {r : Request} (h : s.HasInHand type payload r) :
    r.type = type ∧ r.payload = payload := by
  obtain ⟨-, -, -, type, payload⟩ := h
  exact ⟨type, payload⟩

theorem exec_resetSoft {s : State} {r : Request} {b : Byte} (h : s.HasInHand 0x06 [b] r) (block : SoftBlock) :
    exec (.resetSoft block) s =
      .next
        (match scope? b with
         | some .soft => s.softStep r block
         | some .full => s
         | none => s.answer r [2, 4] false) := by
  simp only [exec, execResetSoft]
  rw [h.running, h.requestEvent, h.request.2]
  rfl

theorem exec_resetFull {s : State} {r : Request} {b : Byte} (h : s.HasInHand 0x06 [b] r) :
    exec .resetFull s =
      .next
        (match scope? b with
         | some .full => s.serveFullReset r
         | some .soft => s
         | none => s.answer r [2, 4] false) := by
  simp only [exec, execResetFull]
  rw [h.running, h.requestEvent, h.request.2]
  rfl

theorem State.softStep_of_new {s : State} {block : SoftBlock} (new : block ∉ s.unit.softTaken) (r : Request) :
    s.softStep r block =
      if ∀ other ∈ allSoftBlocks, other = block ∨ other ∈ s.unit.softTaken then
        ((s.softReset block).setUnit { s.unit with softTaken := [] }).answer r [0, 0] false
      else (s.softReset block).setUnit { s.unit with softTaken := block :: s.unit.softTaken } := by
  rw [State.softStep, if_neg (by simpa using new)]
  exact if_congr (by simp) rfl rfl

/-- Settles O58: each block's event by what its soft reset is. -/
theorem softResetBlockByBlock : Obligations.SoftResetBlockByBlock := by
  intro s r
  have lines := s.softReset_lineMonitor_softened
  refine ⟨fun block inHand new => ?_, mem_allSoftBlocks, rfl, rfl, fun l => ?_, lines.last, ⟨lines.timer, fun agree => ⟨?_, ?_⟩⟩,
    lines.frame, rfl, fun c => mapBank_get .., rfl, rfl, fun d => ?_, fun b block notFull notSoft inHand => ?_⟩
  · have soft : scope? 2 = some .soft := rfl
    rw [exec_resetSoft inHand, soft]
    exact congrArg _ (State.softStep_of_new new r)
  · rw [lines.line, if_pos (mem_allLines l)]
    rfl
  · exact (agree.softReset .lineMonitor).holders_zero fun l => by rw [lines.line, if_pos (mem_allLines l)]; rfl
  · exact agree.softReset_timer
  · rw [reset_dom]
    rfl
  · have neither : scope? b = none := by rw [scope?, if_neg notFull, if_neg notSoft]
    rw [exec_resetSoft inHand, exec_resetFull inHand, neither]
    exact ⟨rfl, rfl⟩

end Sys2Proof.Machine
end

section
/-! PROOF of the obligations on the full reset: its beginnings (O59), its end (O60), and the state it leaves at power-on (O6, O7). -/

namespace Sys2Proof.Machine

/-! ## The power-ups at the end -/

/-- The state in which a power-up with a resume delay to run leaves a domain (R99, R102). -/
def Domain.powerUpState (x : Domain) : DomainState :=
  if x.pgood = true then .resuming x.config.resumeDelay else .poweringUp x.config.powerOnDeadline

theorem State.enterPoweringUp_of_delay {s : State} {d : DomainId} (delay : (s.dom d).config.resumeDelay ≠ .zero) :
    s.enterPoweringUp d = s.setDomState d (s.dom d).powerUpState := by
  rw [State.enterPoweringUp_eq, State.enterResuming_eq, if_neg delay, Domain.powerUpState]
  split <;> rfl

theorem State.foldl_enterPoweringUp {ds : List DomainId} {s : State} (delays : ∀ d, (s.dom d).config.resumeDelay ≠ .zero) :
    (ds.foldl State.enterPoweringUp s).queue = s.queue ∧
    ∀ e, (ds.foldl State.enterPoweringUp s).dom e =
      if e ∈ ds then { s.dom e with state := (s.dom e).powerUpState } else s.dom e := by
  induction ds generalizing s with
  | nil => exact ⟨rfl, fun _ => rfl⟩
  | cons d ds ih =>
    have first (e : DomainId) :
        (s.enterPoweringUp d).dom e = if e = d then { s.dom d with state := (s.dom d).powerUpState } else s.dom e := by
      rw [State.enterPoweringUp_of_delay (delays d)]
      exact State.dom_setDom s d e _
    have rest := ih (s := s.enterPoweringUp d) fun e => by
      rw [first]
      split
      case isTrue => exact delays d
      case isFalse => exact delays e
    refine ⟨rest.1.trans ?_, fun e => ?_⟩
    · rw [State.enterPoweringUp_of_delay (delays d)]
      rfl
    · rw [List.foldl_cons, rest.2, first]
      by_cases eq : e = d
      · subst eq
        simp [Domain.powerUpState]
      · simp [eq]

theorem State.endFullReset_queue (s : State) (cause : ResetCause) (rate : Rate) :
    (s.endFullReset cause rate).queue = ReportQueue.restarted cause :=
  (State.foldl_enterPoweringUp fun d => by rw [State.fullyReset_dom]; nofun).1

theorem State.endFullReset_dom (s : State) (cause : ResetCause) (rate : Rate) (d : DomainId) :
    (s.endFullReset cause rate).dom d = { (s.dom d).sampled with state := (s.dom d).sampled.powerUpState } := by
  have fold := (State.foldl_enterPoweringUp (ds := allDomains) (s := s.fullyReset cause rate) fun d => by
    rw [State.fullyReset_dom]; nofun).2 d
  rwa [if_pos (mem_allDomains d), State.fullyReset_dom] at fold

/-! ## The end -/

theorem Board.mayEnd_iff (b : Board) (cause : ResetCause) (refclk : Bool) :
    b.mayEnd cause refclk = true ↔
      b.resetLevel = true ∧ b.vdd = true ∧ b.vddio = true ∧ (cause = .powerOn → refclk = true) := by
  simp [Board.mayEnd, and_assoc, or_comm, Decidable.imp_iff_not_or]

theorem exec_fullResetEnd_of_mayEnd {s : State} {cause : ResetCause} {refclk : Bool} (inProgress : s.board.fullReset = some cause)
    (may : s.board.mayEnd cause refclk = true) (rate1 rate0 : Bool) :
    exec (.fullResetEnd rate1 rate0 refclk) s = .next (s.endFullReset cause (rateOf rate1 rate0)) := by
  simp only [exec, execFullResetEnd, inProgress, may, if_true]

theorem exec_fullResetEnd_idle {s : State} {refclk : Bool}
    (idle : ∀ cause, s.board.fullReset = some cause → s.board.mayEnd cause refclk = false)
    (rate1 rate0 : Bool) : exec (.fullResetEnd rate1 rate0 refclk) s = .next s := by
  simp only [exec, execFullResetEnd]
  split
  case h_1 cause inProgress => rw [idle cause inProgress]; rfl
  case h_2 => rfl

theorem rateOf_eq (rate1 rate0 : Bool) :
    rateOf rate1 rate0 =
      if rate1 = true then (if rate0 = true then .r3000000 else .r1000000) else (if rate0 = true then .r460800 else .r115200) := by
  cases rate1 <;> cases rate0 <;> rfl

/-- Settles O60: the full-reset state of every block, and what the power-ups add to it. -/
theorem fullResetEnds : Obligations.FullResetEnds := by
  intro s rate1 rate0 refclk
  refine ⟨fun cause inProgress high vdd vddio running => ?_, fun waits => exec_fullResetEnd_idle (fun cause inProgress => ?_) ..⟩
  · have same := s.endFullReset_sameOutside cause (rateOf rate1 rate0)
    have queue := s.endFullReset_queue cause (rateOf rate1 rate0)
    refine ⟨_, exec_fullResetEnd_of_mayEnd inProgress ((Board.mayEnd_iff ..).2 ⟨high, vdd, vddio, running⟩) rate1 rate0, same.time,
      ?_, ?_, ?_, same.unit, same.board, same.snoop, same.fifo, same.windows, same.fallthrough, same.classes,
      s.endFullReset_timers .., same.handed, same.notices, fun l => ?_, fun d => ?_⟩
    · rw [queue]; rfl
    · rw [queue]; rfl
    · rw [same.link, ← rateOf_eq]; rfl
    · exact (same.line l).trans (State.fullyReset_line ..)
    · rw [State.endFullReset_dom, reset_dom]
      rfl
  · refine Bool.eq_false_of_not_eq_true fun may => ?_
    obtain ⟨high, vdd, vddio, running⟩ := (Board.mayEnd_iff ..).1 may
    rw [inProgress, high, vdd, vddio] at waits
    simp_all

/-! ## The beginnings -/

theorem exec_resetPin {s : State} (candidate : s.board.resetRaw = false) (high : s.board.resetLevel = true) :
    exec .resetPin s =
      .next
        (let low := s.setBoard { s.board with resetLevel := false }
         if s.board.fullReset.isSome then low else low.beginFullReset .pin) := by
  simp only [exec, execResetPin, candidate, high]
  rfl

/-- Settles O59: the effects of the four events. -/
theorem fullResetBegins : Obligations.FullResetBegins := by
  refine ⟨fun s r => ⟨fun inHand => ?_, fun reply running inHand type made resets discard => ?_⟩, fun s =>
    ⟨fun vdd vddio => rfl, fun candidate high idle => ?_, fun cause candidate high inProgress => ?_, fun raw low => ?_⟩⟩
  · have full : scope? 1 = some .full := rfl
    have code : r.type + 0x80 = 0x86 := by rw [inHand.request.1]; rfl
    rw [exec_resetFull inHand, full, ← code]
    rfl
  · have noPulse : ¬ (r.type = 0x11 ∨ r.type = 0x1A) := by rw [type]; decide
    rw [exec_joins (by rw [type]; rfl) running inHand made fun pulse => absurd pulse noPulse, State.joinReply_eq, discard, resets]
    rfl
  · rw [exec_resetPin candidate high, idle]
    rfl
  · rw [exec_resetPin candidate high, inProgress]
    rfl
  · simp only [exec, execResetPinRelease, raw, low]
    rfl

/-! ## The state after a full reset by power-on -/

/-- Settles O6: every record of the reset state is its block's default. -/
theorem resetValues : Obligations.ResetValues := by
  have line (l : LineId) : (State.reset.line l).qualifier = .off ∧ (State.reset.line l).cls = 0 ∧ (State.reset.line l).holding = none := by
    rw [reset_line]
    exact ⟨rfl, rfl, rfl⟩
  have dom (d : DomainId) :
      (State.reset.dom d).config = DomainConfig.default ∧ (State.reset.dom d).state = .poweringUp 100 ∧
        (State.reset.dom d).hold = false ∧ (State.reset.dom d).refusals = 0 ∧ (State.reset.dom d).lastWake = .reset := by
    rw [reset_dom]
    exact ⟨rfl, rfl, rfl, rfl, rfl⟩
  exact ⟨rfl, rfl, line, reset_window, rfl, reset_cls, rfl, reset_timer, rfl, rfl, dom, rfl, rfl, rfl, rfl, rfl, rfl, rfl, rfl, rfl, rfl,
    rfl, rfl, rfl, rfl, rfl, rfl, rfl, rfl, rfl⟩

theorem reset_withinCapacity : State.reset.WithinCapacity := by
  refine ⟨Nat.zero_le _, fun w => ?_, Nat.zero_le _, Nat.zero_le _⟩
  rw [reset_window]
  exact ⟨Window.default_fits.hits, Window.default_fits.span, Window.default_fits.requesters⟩

theorem reset_timersSound : State.reset.TimersSound := fun i => by
  rw [reset_timer]
  exact Timer.default_sound

theorem reset_holdsAgree : State.reset.HoldsAgree := by
  refine ⟨fun l c => ?_, fun l => ?_, fun i running => ?_⟩
  · rw [reset_line, reset_cls]
    simp [Line.default]
  · rw [reset_line]
    rfl
  · rw [reset_timer] at running
    exact absurd rfl running

theorem reset_domainsSound : State.reset.DomainsSound := fun d => by
  rw [reset_dom]
  exact ⟨Domain.default_sound.1, by decide, Nat.zero_le _, rfl⟩

theorem reset_reportingSound : State.reset.ReportingSound :=
  State.reportingSound_of_unsent ⟨ReportQueue.restarted_sound .powerOn, rfl⟩ (by simp [State.reset])

/-- Settles O7: block by block. -/
theorem resetIsSound : Obligations.ResetIsSound :=
  ⟨reset_withinCapacity, reset_timersSound, reset_holdsAgree, reset_domainsSound, reset_reportingSound⟩

end Sys2Proof.Machine
end

section
/-! PROOF of the obligations on strobes (O12), raw levels (O16), recognised edges (O17) and the notices at a timer (O20). -/

namespace Sys2Proof.Machine

/-! ## Strobes and raw levels -/

theorem exec_addressStrobe {s : State} (running : s.Running) (address : BitVec 32) (pins : BitVec 2) (wr : Bool)
    (requester : BitVec 4) :
    exec (.addressStrobe address pins wr requester) s =
      .next
        (match space? pins with
         | none => s
         | some space =>
           if s.snoop.enabled space then
             s.offer
               { address := address, space := space, direction := if wr then .write else .read, requester := requester,
                 time := s.time }
           else s) := by
  simp only [exec, execAddressStrobe]
  exact State.running_of running _

/-- Settles O12: the space that the pins name, its enable, and the room in the FIFO. -/
theorem strobeMakesObservation : Obligations.StrobeMakesObservation := by
  intro s address pins wr requester running
  refine ⟨fun space enabled names => ?_, fun none => ?_⟩
  · have named : space? pins = some space ∧ s.snoop.enabled space = enabled := by
      rcases names with ⟨rfl, rfl, rfl⟩ | ⟨rfl, rfl, rfl⟩ | ⟨rfl, rfl, rfl⟩ <;> exact ⟨rfl, rfl⟩
    rw [exec_addressStrobe running, named.1]
    dsimp only
    rw [named.2]
    cases enabled <;> rfl
  · rw [exec_addressStrobe running, none]
    rfl

/-- Settles O16: each raw level by its own event. -/
theorem rawLevelsAreTracked : Obligations.RawLevelsAreTracked := by
  intro s l d level
  simp only [exec, execLineRawChange, execHandshakeRawChange, execResetPinRawChange, onLine_val, onDomain_val]
  exact ⟨trivial, rfl, rfl, trivial⟩

/-! ## Recognised edges -/

theorem exec_recognisedEdge {s : State} {l : LineId} (running : s.Running) (candidate : (s.line l).raw ≠ (s.line l).level)
    (part : PulsePart) :
    exec (.recognisedEdge l.val part) s =
      .next (s.inPart part ((s.setLine l { s.line l with level := (s.line l).raw }).qualifyEdge l)) := by
  simp only [exec, execRecognisedEdge, onLine_val]
  rw [State.running_of running]
  simp only [if_neg candidate]

/-- A recognised edge under each qualifier, by the level it brought the line to (R11, R12). -/
theorem State.qualifyEdge_eq (s : State) (l : LineId) (spread : Bool) :
    s.qualifyEdge l spread =
      (let pulse := if spread then s.spreadPulse (s.line l).cls false else s.pulse (s.line l).cls
       match (s.line l).qualifier with
       | .off => s
       | .rise => if (s.line l).level = true then pulse else s
       | .fall => if (s.line l).level = false then pulse else s
       | .edge => pulse
       | .high => if (s.line l).level = true then s.lineHolds l spread false else s.lineReleases l
       | .low => if (s.line l).level = false then s.lineHolds l spread false else s.lineReleases l) := by
  unfold State.qualifyEdge
  cases (s.line l).qualifier <;> cases (s.line l).level <;> rfl

/-- Settles O17: the qualifier's act on the line at its new level. -/
theorem recognisedEdgeActs : Obligations.RecognisedEdgeActs := by
  intro s l running candidate x moved held released spreadHeld
  have line : moved.line l = { x with level := x.raw } := by simp [moved, x]
  have releases : moved.lineReleases l = released := by
    cases holding : x.holding with
    | none =>
      simp only [released, holding]
      exact State.lineReleases_of_free (by rw [line, holding])
    | some c =>
      simp only [released, holding]
      rw [State.lineReleases_of_holding (c := c) (by rw [line, holding]), line]
  have holds (spread : Bool) : moved.lineHolds l spread false = if spread = true then spreadHeld else held := by
    rw [State.lineHolds, line]
  rw [exec_recognisedEdge running candidate, exec_recognisedEdge running candidate]
  have atMap := moved.qualifyEdge_eq l true
  have whole := moved.qualifyEdge_eq l false
  rw [line, releases, holds] at atMap whole
  exact ⟨congrArg _ atMap, congrArg _ whole⟩

/-! ## The notices at a timer -/

/-- Settles O20: state by state. -/
theorem timerTakesNotices : Obligations.TimerTakesNotices := by
  intro x load
  refine ⟨?_, ?_, x.release_eq⟩
  · rw [Timer.reload]
    cases x.state <;> rfl
  · rw [Timer.becomeHeld]
    cases x.state <;> rfl

end Sys2Proof.Machine
end

section
/-! PROOF of the obligations on the Timer Bank's requests (O23, O24) and on the outputs and pins (O25). -/

namespace Sys2Proof.Machine

/-! ## The command of a request in hand -/

/-- A command that serves its TYPE by one owner answers the request in hand as the owner decides on its payload. -/
theorem State.HasInHand.exec_serve {s : State} {type : Byte} {payload : List Byte} {r : Request} (h : s.HasInHand type payload r)
    {c : Instr} (owner : State → List Byte → Option Verdict) (serves : exec c s = s.running fun s => s.serve type (owner s)) :
    exec c s = .next (s.conclude r (owner s payload)) := by
  rw [serves, h.running, h.serve]

theorem State.HasInHand.exec_serveAll {s : State} {type : Byte} {payload : List Byte} {r : Request}
    (h : s.HasInHand type payload r) {c : Instr} (owner : State → List Byte → Verdict)
    (serves : exec c s = s.running fun s => s.serveAll type (owner s)) :
    exec c s = .next (s.conclude r (some (owner s payload))) :=
  h.exec_serve (fun s payload => some (owner s payload)) serves

section TimerRequests
variable {s : State} {r : Request} {payload : List Byte}

theorem State.HasInHand.exec_startTimer (h : s.HasInHand 0x21 payload r) :
    exec .startTimer s = .next (s.conclude r (some (s.ownStartTimer payload))) := h.exec_serveAll State.ownStartTimer rfl
theorem State.HasInHand.exec_stopTimer (h : s.HasInHand 0x22 payload r) :
    exec .stopTimer s = .next (s.conclude r (some (s.ownStopTimer payload))) := h.exec_serveAll State.ownStopTimer rfl
theorem State.HasInHand.exec_readTimer (h : s.HasInHand 0x23 payload r) :
    exec .readTimer s = .next (s.conclude r (some (s.ownReadTimer payload))) := h.exec_serveAll State.ownReadTimer rfl
theorem State.HasInHand.exec_writeTimer (h : s.HasInHand 0x20 payload r) :
    exec .writeTimer s = .next (s.conclude r (some (s.ownWriteTimer payload))) := h.exec_serveAll State.ownWriteTimer rfl

end TimerRequests

/-! ## START_TIMER, STOP_TIMER and READ_TIMER -/

/-- A timer acting as START_TIMER, state by state (R51). -/
theorem Timer.start_eq (x : Timer) (watchHeld : Bool) :
    x.start watchHeld =
      (match x.state with
       | .stopped | .expired =>
         { x with state := if watchHeld = true then .held else .counting, remaining := x.load, expiries := 0, due := false }
       | .counting => { x with remaining := x.load, expiries := 0, due := false }
       | .held => { x with expiries := 0 }) := by
  cases state : x.state <;> cases watchHeld <;>
    simp [Timer.start, Timer.reload, Timer.holdAtLoad, Timer.countFromLoad, state]

section OwnTimer
variable (s : State) {b : Byte}

theorem State.ownStartTimer_of_lt (h : b.toNat < 8) :
    s.ownStartTimer [b] =
      (let i : TimerId := ⟨b.toNat, h⟩
       let after := (s.timer i).start (s.anyHeld (s.timer i).watch)
       .done .ok after.runningBytes (s.setTimer i after)) := by
  simp [State.ownStartTimer, index?_of_lt h]

theorem State.ownStopTimer_of_lt (h : b.toNat < 8) :
    s.ownStopTimer [b] =
      (let i : TimerId := ⟨b.toNat, h⟩
       .done .ok [(s.timer i).state.code, byte (s.timer i).expiries]
         (s.setTimer i { s.timer i with state := .stopped, remaining := 0, expiries := 0, due := false })) := by
  simp [State.ownStopTimer, index?_of_lt h]

theorem State.ownReadTimer_of_lt (h : b.toNat < 8) : s.ownReadTimer [b] = .done .ok (s.timerPart ⟨b.toNat, h⟩) s := by
  simp [State.ownReadTimer, index?_of_lt h]

/-- The three are refused with RANGE above T7. -/
theorem State.ownTimer_of_le (h : 8 ≤ b.toNat) :
    s.ownStartTimer [b] = .refuse .range ∧ s.ownStopTimer [b] = .refuse .range ∧ s.ownReadTimer [b] = .refuse .range := by
  simp [State.ownStartTimer, State.ownStopTimer, State.ownReadTimer, index?_of_le h]

end OwnTimer

/-- Settles O23: the owner's decision on a timer of the part, and on one above T7. -/
theorem timerRequests : Obligations.TimerRequests := by
  intro s r b
  refine ⟨fun h => ?_, fun h => ⟨fun inHand => ?_, fun inHand => ?_, fun inHand => ?_⟩⟩
  · intro i x load started
    have starts : x.start (s.anyHeld x.watch) = started := x.start_eq _
    refine ⟨fun inHand => ?_, fun inHand => ?_, fun inHand => ?_⟩
    · rw [inHand.exec_startTimer, s.ownStartTimer_of_lt h]
      dsimp only
      rw [starts]
      rfl
    · rw [inHand.exec_stopTimer, s.ownStopTimer_of_lt h]
      rfl
    · rw [inHand.exec_readTimer, s.ownReadTimer_of_lt h, State.conclude_done]
      simp [State.timerPart, Timer.runningBytes, State.boundTo, Timer.load, i, x, load, Status.code]
  · rw [inHand.exec_startTimer, (s.ownTimer_of_le h).1]
    rfl
  · rw [inHand.exec_stopTimer, (s.ownTimer_of_le h).2.1]
    rfl
  · rw [inHand.exec_readTimer, (s.ownTimer_of_le h).2.2]
    rfl

/-! ## WRITE_TIMER -/

/-- A timer meeting its new watch set, by whether a class of it is held (R54). -/
theorem Timer.meetWatchSet_eq (x : Timer) (watchHeld : Bool) :
    x.meetWatchSet watchHeld =
      if watchHeld = true ∧ (x.state = .counting ∨ x.state = .expired) then x.holdAtLoad
      else if watchHeld = false ∧ x.state = .held then x.countFromLoad
      else x := by
  cases state : x.state <;> cases watchHeld <;> simp [Timer.meetWatchSet, state]

theorem State.ownWriteTimer_of_inRange (s : State) {b n rep restart : Byte} (h : b.toNat < 8) (some : 1 ≤ n.toNat)
    (hrep : rep.toNat ≤ 1) (hrestart : restart.toNat ≤ 1) (unit : TimerUnit) (mode : TimerMode) (w0 w1 : Byte) :
    s.ownWriteTimer [b, n, unit.code, mode.code, w0, w1, rep, restart] =
      (let i : TimerId := ⟨b.toNat, h⟩
       let watch := word16 w0 w1
       let met := ((s.timer i).configure n.toNat unit mode watch (Decidable.decide (rep = 1))).meetWatchSet (s.anyHeld watch)
       let after := if restart = 1 then met.start (s.anyHeld watch) else met
       .done .ok after.runningBytes (s.setTimer i after)) := by
  have range : 1 ≤ n.toNat ∧ n.toNat ≤ 255 := ⟨some, by omega⟩
  simp [State.ownWriteTimer, index?_of_lt h, between?_of_mem range, flag?_of_le hrep, flag?_of_le hrestart]

theorem State.ownWriteTimer_of_outside (s : State) {b n u m w0 w1 rep restart : Byte}
    (out : 8 ≤ b.toNat ∨ n = 0 ∨ 2 ≤ rep.toNat ∨ 2 ≤ restart.toNat ∨ 5 ≤ u.toNat ∨ 2 ≤ m.toNat) :
    s.ownWriteTimer [b, n, u, m, w0, w1, rep, restart] = .refuse .range := by
  rcases out with hb | rfl | hrep | hrestart | hu | hm
  · simp [State.ownWriteTimer, index?_of_le hb]
  · simp [State.ownWriteTimer, between?]
  · simp [State.ownWriteTimer, flag?_of_lt hrep]
  · simp [State.ownWriteTimer, flag?_of_lt hrestart]
  · simp [State.ownWriteTimer, timerUnit?_of_lt hu]
  · simp [State.ownWriteTimer, timerMode?_of_lt hm]

/-- Settles O24: the owner's decision, its second step written out. -/
theorem writeTimerInThreeSteps : Obligations.WriteTimerInThreeSteps := by
  intro s r b n u m w0 w1 rep restart inHand
  refine ⟨fun h some hrep hrestart unit mode hu hm => ?_, fun out => ?_⟩
  · subst hu hm
    intro i x watch load replaced met after
    have meets : replaced.meetWatchSet (s.anyHeld watch) = met := replaced.meetWatchSet_eq _
    have restarts :
        (if restart = 1 then (replaced.meetWatchSet (s.anyHeld watch)).start (s.anyHeld watch)
          else replaced.meetWatchSet (s.anyHeld watch)) = after := by rw [meets]
    rw [inHand.exec_writeTimer, s.ownWriteTimer_of_inRange h some hrep hrestart unit mode w0 w1, ← restarts]
    rfl
  · rw [inHand.exec_writeTimer, s.ownWriteTimer_of_outside out]
    rfl

/-! ## Outputs and pins -/

section Outputs
variable {s : State}

theorem State.outputs_of_running (running : s.Running) (d : DomainId) : s.outputs d = (s.dom d).state.outputs := by
  rw [State.outputs, running]
  rfl

theorem State.outputs_during {cause : ResetCause} (inProgress : s.board.fullReset = some cause) (d : DomainId) :
    s.outputs d = { clken := false, pwren := true, qreq := true } := by
  rw [State.outputs, inProgress]
  rfl

theorem State.cts_iff (running : s.Running) : s.cts = true ↔ s.link.requests.length ≤ 2 := by
  simp [State.cts, show s.board.fullReset = none from running]

theorem State.alert_iff (running : s.Running) : s.alert = true ↔ ∃ y ∈ s.queue.records, y.kind = .fault ∨ y.kind = .loss := by
  simp [State.alert, show s.board.fullReset = none from running]

theorem State.driven_of_supplied (supplied : s.board.vddio = true) (level : Bool) :
    s.driven level = if level = true then .high else .low := by
  rw [State.driven, if_pos supplied]

theorem State.driven_of_unsupplied (off : s.board.vddio = false) (level : Bool) : s.driven level = .highImpedance := by
  rw [State.driven, off]
  rfl

theorem State.txLine_of_frame (supplied : s.board.vddio = true) (running : s.Running) {frame : TxFrame}
    (sending : s.link.tx = some frame) : s.txLine = .sends frame.characters := by
  rw [State.txLine, supplied, running, sending]
  rfl

theorem State.txLine_of_none (supplied : s.board.vddio = true) (rests : s.link.tx = none ∨ s.board.fullReset ≠ none) :
    s.txLine = .restsHigh := by
  rw [State.txLine, supplied]
  cases inProgress : s.board.fullReset with
  | some cause => rfl
  | none =>
    rw [rests.resolve_right fun ne => ne inProgress]
    rfl

end Outputs

/-- Settles O25: state by state, and pin by pin. -/
theorem outputsFollowState : Obligations.OutputsFollowState := by
  refine ⟨fun s d running => ⟨?_, ?_⟩, fun s => ⟨fun running => ⟨State.cts_iff running, State.alert_iff running⟩,
    fun cause inProgress => ⟨State.outputs_during inProgress, ?_, ?_⟩, fun supplied => ⟨fun d => ?_, ?_, ?_, ?_, ?_⟩,
    fun off => ⟨fun d => ?_, ?_, ?_, ?_⟩⟩⟩
  · simp only [State.outputs_of_running running]
    cases (s.dom d).state with
    | throttled phase => cases phase <;> rfl
    | faulted fault => cases fault <;> rfl
    | retired fromActive => cases fromActive <;> rfl
    | _ => rfl
  · rw [State.outputs_of_running running]
    unfold DomainState.outputs
    split <;> decide
  · simp [State.cts, inProgress]
  · simp [State.alert, inProgress]
  · exact ⟨State.driven_of_supplied supplied _, State.driven_of_supplied supplied _, State.driven_of_supplied supplied _⟩
  · rw [State.ctsPin, State.driven_of_supplied supplied]
    cases s.cts <;> rfl
  · rw [State.alertPin, supplied]
    rfl
  · exact fun frame running sending => State.txLine_of_frame supplied running sending
  · exact State.txLine_of_none supplied
  · exact ⟨State.driven_of_unsupplied off _, State.driven_of_unsupplied off _, State.driven_of_unsupplied off _⟩
  · exact State.driven_of_unsupplied off _
  · rw [State.alertPin, off]
    rfl
  · rw [State.txLine, off]
    rfl

end Sys2Proof.Machine
end

section
/-! PROOF of the obligations on the edges of PGOOD (O30), and on throttle phases and events that have not arisen (O34). -/

namespace Sys2Proof.Machine

/-! ## The recognised edges of PGOOD -/

section Edges
variable {s : State} {d : DomainId} (running : s.Running)
include running

theorem exec_pgoodRise_of_poweringUp (raw : (s.dom d).pgoodRaw = true) (level : (s.dom d).pgood = false) {n : Nat}
    (state : (s.dom d).state = .poweringUp n) :
    exec (.pgoodRise d.val) s = .next ((s.setDom d { s.dom d with pgood := true }).enterResuming d) := by
  rw [exec, execPgoodRise, onDomain_val, State.running_of running, if_pos (rise_of_levels raw level), state]

end Edges

/-- The end of a power-down with PGOOD low: OFF, or a power-up where a wake is pending (R95). -/
theorem State.enterOff_of_low {s : State} {d : DomainId} (low : (s.dom d).pgood = false) (step : Cause) (pendingWake : Bool) :
    s.enterOff d step pendingWake =
      (s.setDomState d (if pendingWake = true then .poweringUp (s.dom d).config.powerOnDeadline else .off)).reportDomain d .off
        step := by
  cases pendingWake with
  | false => rfl
  | true =>
    have stays : ((s.setDomState d .off).reportDomain d .off step).dom d = { s.dom d with state := .off } := by
      simp [State.reportDomain]
    rw [State.enterOff, if_pos rfl, State.enterPoweringUp_eq, stays, if_neg (by simp [low])]
    rw [State.setDomState, stays]
    exact congrArg (fun u : State => u.reportDomain d .off step) (State.setDom_setDom ..)

/-- Settles O30: the power-up's end, the power-down's end, and power lost. -/
theorem pgoodEdges : Obligations.PgoodEdges := by
  intro s d running x
  refine ⟨fun raw level => ?_, fun raw level => ?_⟩
  · split
    case h_1 n state =>
      rw [exec_pgoodRise_of_poweringUp running raw level state, State.enterResuming_eq]
      simp [State.reportDomain, x]
    case h_2 other => exact exec_pgoodRise_of_not_poweringUp running raw level other
  · intro into lost
    rw [exec, execPgoodFall, onDomain_val, State.running_of running, if_pos (fall_of_levels raw level)]
    dsimp only
    generalize fell : s.setDom d { s.dom d with pgood := false } = fallen
    have dom : fallen.dom d = { x with pgood := false } := by simp [← fell, x]
    have enters (y : DomainState) : fallen.setDomState d y = into y := by
      rw [State.setDomState, dom, ← fell]
      exact State.setDom_setDom ..
    have faults : fallen.enterFaulted d .powerLost false = lost := by
      rw [State.enterFaulted, enters]
      simp [State.reportFault, DomainState.outputs, lost, into]
    cases state : (s.dom d).state with
    | poweringDown step n pendingWake =>
      dsimp only
      rw [State.enterOff_of_low (by rw [dom]), enters, dom]
      simp [State.reportDomain, into, x]
    | active | throttled | quiescing | settling | standby | resuming => exact congrArg _ faults
    | off | poweringUp | faulted | retired => rfl

/-! ## Ends of intervals -/

section Intervals
variable {s : State} {d : DomainId} (running : s.Running)
include running

theorem exec_throttlePhaseEnd_of_onPhase {n : Nat} (state : (s.dom d).state = .throttled .onPhase n) :
    exec (.throttlePhaseEnd d.val) s = .next (s.setDomState d (.throttled .offPhase (s.dom d).config.throttleOff)) := by
  rw [exec, execThrottlePhaseEnd, onDomain_val, State.running_of running, state]

theorem exec_throttlePhaseEnd_of_offPhase {n : Nat} (state : (s.dom d).state = .throttled .offPhase n) :
    exec (.throttlePhaseEnd d.val) s = .next (s.setDomState d (.throttled .onPhase (s.dom d).config.throttleOn)) := by
  rw [exec, execThrottlePhaseEnd, onDomain_val, State.running_of running, state]

theorem exec_throttlePhaseEnd_idle (state : ∀ p n, (s.dom d).state ≠ .throttled p n) :
    exec (.throttlePhaseEnd d.val) s = .next s := by
  rw [exec, execThrottlePhaseEnd, onDomain_val, State.running_of running]
  split
  next on => exact absurd on (state _ _)
  next off => exact absurd off (state _ _)
  next => rfl

theorem exec_quiesceDeadlineEnd_idle (state : ∀ t c n, (s.dom d).state ≠ .quiescing t c n) :
    exec (.quiesceDeadlineEnd d.val) s = .next s := by
  rw [exec, execQuiesceDeadlineEnd, onDomain_val, State.running_of running]
  split
  next quiescing => exact absurd quiescing (state _ _ _)
  next => rfl

theorem exec_stopDelayEnd_idle (state : ∀ t c n, (s.dom d).state ≠ .settling t c n) :
    exec (.stopDelayEnd d.val) s = .next s := by
  rw [exec, execStopDelayEnd, onDomain_val, State.running_of running]
  split
  next settling => exact absurd settling (state _ _ _)
  next => rfl

theorem exec_powerOffDeadlineEnd_idle (state : ∀ c n w, (s.dom d).state ≠ .poweringDown c n w) :
    exec (.powerOffDeadlineEnd d.val) s = .next s := by
  rw [exec, execPowerOffDeadlineEnd, onDomain_val, State.running_of running]
  split
  next poweringDown => exact absurd poweringDown (state _ _ _)
  next => rfl

theorem exec_powerOnDeadlineEnd_idle (state : ∀ n, (s.dom d).state ≠ .poweringUp n) :
    exec (.powerOnDeadlineEnd d.val) s = .next s := by
  rw [exec, execPowerOnDeadlineEnd, onDomain_val, State.running_of running]
  split
  next poweringUp => exact absurd poweringUp (state _)
  next => rfl

theorem exec_resumeDelayEnd_idle (state : ∀ n, (s.dom d).state ≠ .resuming n) : exec (.resumeDelayEnd d.val) s = .next s := by
  rw [exec, execResumeDelayEnd, onDomain_val, State.running_of running]
  split
  next resuming => exact absurd resuming (state _)
  next => rfl

/-! ## Edges and decisions without a candidate -/

theorem exec_qackEdge_idle (level : (s.dom d).qackRaw = (s.dom d).qack) :
    exec (.qackRise d.val) s = .next s ∧ exec (.qackFall d.val) s = .next s := by
  rw [exec, execQackRise, onDomain_val, State.running_of running, exec, execQackFall, onDomain_val, State.running_of running,
    level]
  simp

theorem exec_pgoodEdge_idle (level : (s.dom d).pgoodRaw = (s.dom d).pgood) :
    exec (.pgoodRise d.val) s = .next s ∧ exec (.pgoodFall d.val) s = .next s := by
  rw [exec, execPgoodRise, onDomain_val, State.running_of running, exec, execPgoodFall, onDomain_val, State.running_of running,
    level]
  simp

theorem exec_recognisedEdge_idle {part : PulsePart} (either : part = .whole ∨ part = .atClassMap) {l : LineId}
    (level : (s.line l).raw = (s.line l).level) : exec (.recognisedEdge l.val part) s = .next s := by
  rw [exec, execRecognisedEdge, onLine_val, State.running_of running]
  rcases either with rfl | rfl <;> exact congrArg _ (if_pos level)

theorem exec_matchDecision_idle {part : PulsePart} (either : part = .whole ∨ part = .atClassMap) (empty : s.fifo = []) :
    exec (.matchDecision part) s = .next s := by
  rw [exec, execMatchDecision, State.running_of running]
  rcases either with rfl | rfl <;> simp [State.inPart, empty]

/-! ## The link's, the queue's and the session's own events -/

theorem exec_characterStartEdge_inCharacter (inside : s.link.charRx = .inCharacter) (high : Bool) :
    exec (.characterStartEdge high) s = .next s := by
  rw [exec, execCharacterStartEdge, State.running_of running, if_pos inside]

theorem exec_gapError_stopped (stopped : s.link.gapRunning = false) : exec .gapError s = .next s := by
  rw [exec, execGapError, State.running_of running, stopped]
  rfl

theorem exec_ackTimerExpiry_stopped (stopped : s.queue.ackTimer = none) : exec .ackTimerExpiry s = .next s := by
  rw [exec, execAckTimerExpiry, State.running_of running, stopped]

theorem exec_silentClaim_none (none : s.unit.silentClaim = false) : exec .silentClaim s = .next s := by
  rw [exec, execSilentClaim, State.running_of running, none]
  rfl

/-- A command of a request changes nothing where no request of its TYPE is in hand (log entry 9). -/
theorem exec_request_idle {c : Instr} {type : Byte} (typed : requestType? c = some type)
    (none : ∀ r, s.unit.inHand = some r → r.type ≠ type) : exec c s = .next s := by
  have idle {own : Byte} (ht : some own = some type) (execution : Request → State) : s.requestEvent own execution = s :=
    State.requestEvent_none (Option.some.inj ht ▸ none) execution
  have pulse {own : Byte} (ht : some own = some type) (owner : List Byte → Verdict) : s.servePulse own owner = s :=
    State.servePulse_none (Option.some.inj ht ▸ none) owner
  cases c with
  | setLine part =>
    rw [exec, execSetLine, State.running_of running]
    cases part with
    | whole | atClassMap => exact congrArg _ (pulse typed _)
    | atListener => cases typed
  | nudge part =>
    rw [exec, execNudge, State.running_of running]
    cases part with
    | whole | atClassMap => exact congrArg _ (pulse typed _)
    | atListener => cases typed
  | openSession | closeSession | ping | identify | readStatus | resetSoft | resetFull | setReporting | ack | setSnoop | writeWindow
  | readWindow | readHits | armTrap | setFallthrough | readClasses | writeTimer | startTimer | stopTimer | readTimer | writeDomain
  | readDomain | holdOn | holdOff | forceActive | force | clearFaultUp | clearFaultDown | retire | adopt =>
    simp only [exec]
    exact (State.running_of running _).trans (congrArg _ (idle typed _))
  | _ => cases typed

end Intervals

/-! ## Requests that the other command of the pair executes -/

section Pairs
variable {s : State} {r : Request} {payload : List Byte}

theorem State.HasInHand.exec_holdOn (h : s.HasInHand 0x2A payload r) :
    exec .holdOn s = .next (s.conclude r (s.ownHold true payload)) := h.exec_serve (fun s => s.ownHold true) rfl
theorem State.HasInHand.exec_holdOff (h : s.HasInHand 0x2A payload r) :
    exec .holdOff s = .next (s.conclude r (s.ownHold false payload)) := h.exec_serve (fun s => s.ownHold false) rfl
theorem State.HasInHand.exec_clearFaultUp (h : s.HasInHand 0x2C payload r) :
    exec .clearFaultUp s = .next (s.conclude r (s.ownRecovery .up payload)) := h.exec_serve (fun s => s.ownRecovery .up) rfl
theorem State.HasInHand.exec_clearFaultDown (h : s.HasInHand 0x2C payload r) :
    exec .clearFaultDown s = .next (s.conclude r (s.ownRecovery .down payload)) := h.exec_serve (fun s => s.ownRecovery .down) rfl

/-- A HOLD is left to the command of its value. -/
theorem State.ownHold_of_other {value wanted : Bool} (other : value ≠ wanted) (s : State) (b : Byte) :
    s.ownHold wanted [b, flagByte value] = none := by
  cases at6 : index? 6 b <;> simp [State.ownHold, other, at6]

theorem State.ownForceActive_of_deeper (s : State) {v : Byte} (deeper : v ≠ 0) (b : Byte) : s.ownForceActive [b, v] = none :=
  if_neg deeper

theorem State.softStep_of_taken {s : State} {block : SoftBlock} (taken : block ∈ s.unit.softTaken) (r : Request) :
    s.softStep r block = s := by
  rw [State.softStep, if_pos (by simpa using taken)]

end Pairs

/-- Settles O34: phase by phase, and event by event. -/
theorem phaseEndsAndStaleEvents : Obligations.PhaseEndsAndStaleEvents := by
  refine ⟨fun s d running => ⟨fun length on => exec_throttlePhaseEnd_of_onPhase running on,
    fun length off => exec_throttlePhaseEnd_of_offPhase running off, exec_throttlePhaseEnd_idle running,
    exec_quiesceDeadlineEnd_idle running, exec_stopDelayEnd_idle running, exec_powerOffDeadlineEnd_idle running,
    exec_powerOnDeadlineEnd_idle running, exec_resumeDelayEnd_idle running, exec_qackEdge_idle running, exec_pgoodEdge_idle running,
    fun part either => ⟨fun l => exec_recognisedEdge_idle running either, exec_matchDecision_idle running either⟩,
    fun high inside => exec_characterStartEdge_inCharacter running inside high, exec_gapError_stopped running,
    exec_ackTimerExpiry_stopped running, exec_silentClaim_none running, fun c type => exec_request_idle running⟩,
    fun s => ⟨fun none => ?low, fun none => ?high⟩, fun s r b v block => ⟨fun inHand => ?_, fun inHand => ?_, fun inHand => ?_,
    fun inHand deeper => ?_, fun inHand => ?_, fun inHand => ?_, fun inHand => ?_, fun inHand => ?_, fun inHand taken => ?_⟩⟩
  case low =>
    rw [exec, execResetPin]
    rcases none with raw | level
    · simp [raw]
    · simp [level]
  case high =>
    rw [exec, execResetPinRelease]
    rcases none with raw | level
    · simp [raw]
    · simp [level]
  · have own := s.ownHold_of_other Bool.false_ne_true b
    rw [inHand.exec_holdOn]
    exact congrArg (fun v => Host.Outcome.next (s.conclude r v)) own
  · have own := s.ownHold_of_other Bool.false_ne_true.symm b
    rw [inHand.exec_holdOff]
    exact congrArg (fun v => Host.Outcome.next (s.conclude r v)) own
  · exact inHand.exec_serve State.ownForce rfl
  · rw [inHand.exec_serve State.ownForceActive rfl, State.ownForceActive_of_deeper s deeper]
    rfl
  · exact inHand.exec_clearFaultUp
  · exact inHand.exec_clearFaultDown
  · exact exec_resetSoft inHand block
  · exact exec_resetFull inHand
  · have soft : scope? 2 = some .soft := rfl
    rw [exec_resetSoft inHand, soft]
    exact congrArg _ (State.softStep_of_taken taken r)

end Sys2Proof.Machine
end

section
/-! PROOF of the obligations on HOLD (O35), CLEAR_FAULT (O37), and RETIRE and ADOPT (O38). -/

namespace Sys2Proof.Machine

/-! ## HOLD -/

section Hold
variable (s : State) {b : Byte}

theorem State.ownHold_of_lt (h : b.toNat < 6) (value : Bool) :
    s.ownHold value [b, flagByte value] =
      (let d : DomainId := ⟨b.toNat, h⟩
       some (holdVerdict s (if value = true then s.holdDomain d else s.setDom d { s.dom d with hold := false }) d)) := by
  simp [State.ownHold, index?_of_lt h]

theorem State.ownHold_of_le (h : 6 ≤ b.toNat) (value : Bool) : s.ownHold value [b, flagByte value] = some (.refuse .range) := by
  simp [State.ownHold, index?_of_le h]

theorem State.ownHold_of_undefined {v : Byte} (h : 2 ≤ v.toNat) (wanted : Bool) : s.ownHold wanted [b, v] = some (.refuse .range) := by
  simp [State.ownHold, flag?_of_lt h]

end Hold

/-- Settles O35: the owner's decision on each value, and its wake state by state. -/
theorem holdSetsFlag : Obligations.HoldSetsFlag := by
  intro s r b
  refine ⟨fun h => ?_, fun h => ⟨fun inHand => ?_, fun inHand => ?_⟩, fun v h inHand => ⟨?_, ?_⟩⟩
  · intro d x flagged after
    have holds : s.holdDomain d = after := by
      change (if x.state.holdWakes = true then flagged.wake d .host else flagged) = after
      simp only [after]
      cases x.state <;> rfl
    refine ⟨fun inHand => ?_, fun inHand => ?_⟩
    · have own := s.ownHold_of_lt h true
      rw [← holds]
      exact inHand.exec_holdOn.trans (congrArg (fun v => Host.Outcome.next (s.conclude r v)) own)
    · have own := s.ownHold_of_lt h false
      have kept : ((s.setDom d { x with hold := false }).dom d).state = x.state := by simp
      refine (inHand.exec_holdOff.trans (congrArg (fun v => Host.Outcome.next (s.conclude r v)) own)).trans ?_
      exact congrArg (fun y : DomainState =>
        Host.Outcome.next ((s.setDom d { x with hold := false }).answer r [0, 0, flagByte x.hold, y.code] false)) kept
  · exact inHand.exec_holdOn.trans (congrArg (fun v => Host.Outcome.next (s.conclude r v)) (s.ownHold_of_le h true))
  · exact inHand.exec_holdOff.trans (congrArg (fun v => Host.Outcome.next (s.conclude r v)) (s.ownHold_of_le h false))
  · rw [inHand.exec_holdOn, s.ownHold_of_undefined h]
    rfl
  · rw [inHand.exec_holdOff, s.ownHold_of_undefined h]
    rfl

/-! ## CLEAR_FAULT -/

section ClearFault
variable (s : State) (d : DomainId)

/-- UP: to ACTIVE from a refused quiesce, and into a power-up from any other fault, which passes on with zero delays (R109). -/
theorem State.recover_up (fault : FaultCause) :
    s.recover d fault .up =
      (let up (y : DomainState) := s.setDom d { s.dom d with refusals := 0, lastWake := .clear, state := y }
       if fault = .quiesceRefused ∨ (s.dom d).pgood = true ∧ (s.dom d).config.resumeDelay = .zero then
         (up .active).reportDomain d .active .clear
       else if (s.dom d).pgood = true then up (.resuming (s.dom d).config.resumeDelay)
       else up (.poweringUp (s.dom d).config.powerOnDeadline)) := by
  have cleared : (s.setDom d { s.dom d with refusals := 0 }).setLastWake d .clear =
      s.setDom d { s.dom d with refusals := 0, lastWake := .clear } := by simp [State.setLastWake]
  rw [State.recover]
  dsimp only
  rw [cleared, State.enterPoweringUp_eq, State.enterResuming_eq]
  by_cases refused : fault = .quiesceRefused
  · simp [refused, State.enterActive, State.setDomState]
  · by_cases powered : (s.dom d).pgood = true <;> by_cases zero : (s.dom d).config.resumeDelay = .zero <;>
      simp [refused, powered, zero, State.setDomState]

/-- DOWN: into a power-down, over at once with PGOOD low (R94, R110). -/
theorem State.recover_down (fault : FaultCause) :
    s.recover d fault .down =
      (let down (y : DomainState) := s.setDom d { s.dom d with refusals := 0, state := y }
       if (s.dom d).pgood = true then down (.poweringDown .clear (s.dom d).config.powerOffDeadline false)
       else (down .off).reportDomain d .off .clear) := by
  refine (State.endStopDelay_off (s.setDom d { s.dom d with refusals := 0 }) d .clear).trans ?_
  simp [State.reportDomain]

variable {b : Byte}

theorem State.ownRecovery_up (b : Byte) : s.ownRecovery .up [b, 0] = some (s.ownClearFault .up b) := rfl
theorem State.ownRecovery_down (b : Byte) : s.ownRecovery .down [b, 1] = some (s.ownClearFault .down b) := rfl

theorem State.ownRecovery_of_undefined {v : Byte} (h : 2 ≤ v.toNat) (wanted : Recovery) :
    s.ownRecovery wanted [b, v] = some (.refuse .range) := by
  have neither : recovery? v = none := by
    revert h
    revert v
    decide
  simp [State.ownRecovery, neither]

theorem State.ownClearFault_of_le (h : 6 ≤ b.toNat) (recovery : Recovery) : s.ownClearFault recovery b = .refuse .range := by
  rw [State.ownClearFault, index?_of_le h]

theorem State.ownClearFault_of_not_faulted (h : b.toNat < 6) (recovery : Recovery)
    (other : ∀ fault seen, (s.dom ⟨b.toNat, h⟩).state ≠ .faulted fault seen) :
    s.ownClearFault recovery b = .refuse .notFaulted := by
  rw [State.ownClearFault, index?_of_lt h]
  dsimp only
  split
  next faulted => exact absurd faulted (other _ _)
  next => rfl

/-- A recovery is answered by the state it leaves, with the fault it leaves behind (R108). -/
theorem State.conclude_ownClearFault (r : Request) (h : b.toNat < 6) (recovery : Recovery) {fault : FaultCause} {seen : Bool}
    (state : (s.dom ⟨b.toNat, h⟩).state = .faulted fault seen) {after : State} (eq : s.recover ⟨b.toNat, h⟩ fault recovery = after)
    {left : DomainState} (leaves : (after.dom ⟨b.toNat, h⟩).state = left) :
    s.conclude r (some (s.ownClearFault recovery b)) =
      after.answer r [left.settledStatus.code, 0, fault.code, flagByte seen, left.code] false := by
  rw [State.ownClearFault, index?_of_lt h]
  dsimp only
  rw [state]
  dsimp only
  rw [eq, leaves, State.conclude_done]

end ClearFault

/-- Settles O37: the recovery requested, by the level of PGOOD, and the refusals. -/
theorem clearFaultRecovers : Obligations.ClearFaultRecovers := by
  intro s r b
  refine ⟨fun h => ?_, fun h => ⟨fun inHand => ?_, fun inHand => ?_⟩, fun v h inHand => ⟨?_, ?_⟩⟩
  · intro d x report
    refine ⟨fun fault seen state inHand => ?_, fun fault seen state inHand => ?_, fun other => ⟨fun inHand => ?_, fun inHand => ?_⟩⟩
    · intro up
      have recovers := s.recover_up d fault
      rw [inHand.exec_clearFaultUp, s.ownRecovery_up]
      refine congrArg Host.Outcome.next ?_
      split at recovers
      case isTrue active =>
        rw [if_pos active, s.conclude_ownClearFault r h .up state recovers (left := .active) (by simp [State.reportDomain, d])]
        rfl
      case isFalse notActive =>
        rw [if_neg notActive]
        split at recovers
        case isTrue powered =>
          rw [if_pos powered,
            s.conclude_ownClearFault r h .up state recovers (left := .resuming x.config.resumeDelay) (by simp [d, x])]
          rfl
        case isFalse unpowered =>
          rw [if_neg unpowered,
            s.conclude_ownClearFault r h .up state recovers (left := .poweringUp x.config.powerOnDeadline) (by simp [d, x])]
          rfl
    · intro down
      have recovers := s.recover_down d fault
      rw [inHand.exec_clearFaultDown, s.ownRecovery_down]
      refine congrArg Host.Outcome.next ?_
      split at recovers
      case isTrue powered =>
        rw [if_pos powered, s.conclude_ownClearFault r h .down state recovers
          (left := .poweringDown .clear x.config.powerOffDeadline false) (by simp [d, x])]
        rfl
      case isFalse unpowered =>
        rw [if_neg unpowered, s.conclude_ownClearFault r h .down state recovers (left := .off) (by simp [State.reportDomain, d])]
        rfl
    · rw [inHand.exec_clearFaultUp, s.ownRecovery_up, s.ownClearFault_of_not_faulted h .up other]
      rfl
    · rw [inHand.exec_clearFaultDown, s.ownRecovery_down, s.ownClearFault_of_not_faulted h .down other]
      rfl
  · rw [inHand.exec_clearFaultUp, s.ownRecovery_up, s.ownClearFault_of_le h]
    rfl
  · rw [inHand.exec_clearFaultDown, s.ownRecovery_down, s.ownClearFault_of_le h]
    rfl
  · rw [inHand.exec_clearFaultUp, s.ownRecovery_of_undefined h]
    rfl
  · rw [inHand.exec_clearFaultDown, s.ownRecovery_of_undefined h]
    rfl

/-! ## RETIRE and ADOPT -/

section Retirement
variable {s : State} {r : Request} {b : Byte}

theorem State.HasInHand.exec_retire {payload : List Byte} (h : s.HasInHand 0x2D payload r) :
    exec .retire s = .next (s.conclude r (some (s.ownRetire payload))) := h.exec_serveAll State.ownRetire rfl
theorem State.HasInHand.exec_adopt {payload : List Byte} (h : s.HasInHand 0x2E payload r) :
    exec .adopt s = .next (s.conclude r (some (s.ownAdopt payload))) := h.exec_serveAll State.ownAdopt rfl

theorem State.ownRetirement_of_le (s : State) (h : 6 ≤ b.toNat) :
    s.ownRetire [b] = .refuse .range ∧ s.ownAdopt [b] = .refuse .range := by
  simp [State.ownRetire, State.ownAdopt, index?_of_le h]

/-- RETIRE's answer, state by state (R75). -/
theorem State.conclude_ownRetire (s : State) (r : Request) (h : b.toNat < 6) :
    s.conclude r (some (s.ownRetire [b])) =
      (let d : DomainId := ⟨b.toNat, h⟩
       let retired (fromActive : Bool) := (s.setDomState d (.retired fromActive)).reportDomain d .retired .retire
       match (s.dom d).state with
       | .active => (retired true).answer r [0, 0] false
       | .off => (retired false).answer r [0, 0] false
       | _ => s.answer r [2, 0x0D] false) := by
  simp only [State.ownRetire, List.getD_cons_zero, index?_of_lt h]
  cases (s.dom ⟨b.toNat, h⟩).state <;> rfl

/-- ADOPT's answer, state by state (R76). -/
theorem State.conclude_ownAdopt (s : State) (r : Request) (h : b.toNat < 6) :
    s.conclude r (some (s.ownAdopt [b])) =
      (let d : DomainId := ⟨b.toNat, h⟩
       let adopted (y : DomainState) := s.setDom d { s.dom d with refusals := 0, lastWake := .adopt, state := y }
       match (s.dom d).state with
       | .retired true => (((adopted .active).reportDomain d .active .adopt).claimRestart d).answer r [0, 0, 0] false
       | .retired false => ((adopted .off).reportDomain d .off .adopt).answer r [0, 0, 6] false
       | _ => s.answer r [2, 0x0D] false) := by
  simp only [State.ownAdopt, List.getD_cons_zero, index?_of_lt h, State.enterActive, State.setDomState]
  cases (s.dom ⟨b.toNat, h⟩).state with
  | retired fromActive => cases fromActive <;> simp [DomainState.code, Status.code]
  | _ => rfl

end Retirement

/-- Settles O38: the answers state by state, and the outputs that retirement keeps. -/
theorem retireAndAdopt : Obligations.RetireAndAdopt := by
  intro s r b
  refine ⟨fun h => ?_, fun h => ⟨fun inHand => ?_, fun inHand => ?_⟩⟩
  · intro d x report
    have outputs (u : State) (same : u.board = s.board) (out : (u.dom d).state.outputs = x.state.outputs) : u.outputs d = s.outputs d := by
      simp [State.outputs, same, out, x]
    refine ⟨fun inHand => ⟨?_, ?_⟩, fun inHand => ⟨?_, ?_⟩⟩
    · exact inHand.exec_retire.trans (congrArg _ (s.conclude_ownRetire r h))
    · intro settled
      refine outputs _ rfl ?_
      rw [State.dom_setDom, if_pos rfl]
      rcases settled with state | state <;> rw [state] <;> rfl
    · exact inHand.exec_adopt.trans (congrArg _ (s.conclude_ownAdopt r h))
    · intro fromActive state
      refine outputs _ rfl ?_
      rw [State.dom_setDom, if_pos rfl, state]
      cases fromActive <;> rfl
  · rw [inHand.exec_retire, (s.ownRetirement_of_le h).1]
    rfl
  · rw [inHand.exec_adopt, (s.ownRetirement_of_le h).2]
    rfl

end Sys2Proof.Machine
end

section
/-! PROOF of the obligations on the reads (O41), on SET_SNOOP, SET_FALLTHROUGH and ARM_TRAP (O42), and on READ_HITS (O45). -/

namespace Sys2Proof.Machine

/-! ## The positions of a domain's record (R176) -/

theorem rungBytes_eq (ladder : List Rung) :
    rungBytes ladder =
      (let rung (k : Nat) : Byte :=
         match ladder[k]? with | some .throttled => 1 | some .standby => 2 | some .off => 3 | none => 0xFF
       [rung 0, rung 1, rung 2]) := by
  have position (place : Option Rung) :
      codeOrAbsent (place.map Rung.code) =
        (match place with | some .throttled => 1 | some .standby => 2 | some .off => 3 | none => 0xFF) := by
    rcases place with _ | (_ | _ | _) <;> rfl
  simp only [← position]
  match ladder with
  | [] | [_] | [_, _] | _ :: _ :: _ :: _ => rfl

theorem bytesOf_two (v : BitVec 16) : bytesOf 2 v.toNat = [v.setWidth 8, (v >>> 8).setWidth 8] := by
  have low : BitVec.ofNat 8 v.toNat = v.setWidth 8 := by simp
  have high : BitVec.ofNat 8 (v.toNat / 256) = (v >>> 8).setWidth 8 := by
    refine BitVec.eq_of_toNat_eq ?_
    simp [Nat.shiftRight_eq_div_pow]
  simp only [bytesOf, low, high]

/-- A bit of a byte in the record. -/
def placed (b : Bool) (k : Nat) : Nat := if b = true then 2 ^ k else 0

theorem Outputs.code_eq (o : Outputs) : o.code = byte (placed o.clken 0 + placed o.pwren 1 + placed o.qreq 2) := by
  have all : ∀ clken pwren qreq : Bool,
      flagByte clken ||| (flagByte pwren <<< 1) ||| (flagByte qreq <<< 2) = byte (placed clken 0 + placed pwren 1 + placed qreq 2) := by
    decide
  exact all ..

theorem levels_eq (qack pgood : Bool) : flagByte qack ||| (flagByte pgood <<< 1) = byte (placed qack 0 + placed pgood 1) := by
  revert qack pgood
  decide

section Positions
variable (x : DomainState)

theorem DomainState.targetByte_eq :
    codeOrAbsent (x.target?.map Target.code) =
      (match x with
       | .quiescing .standby _ _ | .settling .standby _ _ => 2
       | .quiescing .off _ _ | .settling .off _ _ | .poweringDown _ _ _ => 3
       | _ => 0xFF) := by
  cases x with
  | quiescing target | settling target => cases target <;> rfl
  | _ => rfl

theorem DomainState.stepByte_eq :
    codeOrAbsent (x.stepCause?.map Cause.code) =
      (match x with
       | .quiescing _ step _ | .settling _ step _ | .poweringDown step _ _ => step.code
       | _ => 0xFF) := by
  cases x <;> rfl

theorem DomainState.pendingByte_eq : flagByte x.pendingWake = (match x with | .poweringDown _ _ true => 1 | _ => 0) := by
  cases x with
  | poweringDown step deadline pending => cases pending <;> rfl
  | _ => rfl

theorem DomainState.faultByte_eq :
    codeOrAbsent (x.faultCause?.map FaultCause.code) =
      (match x with
       | .faulted .quiesceRefused _ => 1 | .faulted .powerOffTimeout _ => 2 | .faulted .powerOnTimeout _ => 3
       | .faulted .powerLost _ => 4 | _ => 0xFF) := by
  cases x with
  | faulted cause => cases cause <;> rfl
  | _ => rfl

theorem DomainState.seenByte_eq : flagByte x.wakeSeen = (match x with | .faulted _ true => 1 | _ => 0) := by
  cases x with
  | faulted cause seen => cases seen <;> rfl
  | _ => rfl

theorem DomainState.keptByte_eq :
    x.keptByte =
      (match x with
       | .quiescing _ _ n | .poweringDown _ n _ | .poweringUp n => byte n
       | .settling _ _ kept | .resuming kept => kept.code
       | _ => 0xFF) := by
  cases x <;> rfl

theorem DomainState.phaseBytes_eq :
    x.phaseBytes =
      [match x with | .throttled .onPhase _ => 1 | .throttled .offPhase _ => 2 | _ => 0,
       match x with | .throttled _ n => byte n | _ => 0] := by
  cases x with
  | throttled phase => cases phase <;> rfl
  | _ => rfl

end Positions

theorem State.heldAwakeByte_eq (s : State) (d : DomainId) :
    flagByte (s.heldAwake d) =
      if ∃ k : ClassId, (s.dom d).config.wakeSet.getLsbD k.val = true ∧ (s.cls k).holders ≠ 0 then 1 else 0 :=
  if_congr (State.anyHeld_iff ..) rfl rfl

/-! ## The reads -/

section Reads
variable {s : State} {r : Request} {payload : List Byte}

theorem State.HasInHand.exec_readClasses (h : s.HasInHand 0x1B payload r) :
    exec .readClasses s = .next (s.answer r (0 :: 0 :: s.classesPart) false) :=
  h.exec_serveAll (fun s _ => .done .ok s.classesPart s) rfl

theorem State.HasInHand.exec_readStatus (h : s.HasInHand 0x05 payload r) :
    exec .readStatus s = .next (s.answer r (0 :: 0 :: s.statusPart) false) :=
  h.exec_serveAll (fun s _ => .done .ok s.statusPart s) rfl

theorem State.HasInHand.exec_readDomain (h : s.HasInHand 0x29 payload r) :
    exec .readDomain s = .next (s.conclude r (some (s.ownReadDomain payload))) := h.exec_serveAll State.ownReadDomain rfl

theorem Session.leftByTaking_code (x : Session) : x.leftByTaking.code = if x = .closed then 0 else 1 := by cases x <;> rfl

theorem State.alert_of_running (running : s.Running) :
    s.alert = s.queue.records.any fun x => x.kind == .fault || x.kind == .loss := by
  rw [State.alert, running]
  rfl

end Reads

/-- Settles O41: each read's answer, and the record position by position. -/
theorem readsAnswerAndChangeNothing : Obligations.ReadsAnswerAndChangeNothing := by
  intro s r
  refine ⟨fun inHand => ?_, fun inHand => ?_, fun b inHand => ⟨fun h => ?_, fun h => ?_⟩, fun d => ?_⟩
  · exact inHand.exec_readClasses
  · rw [inHand.exec_readStatus, State.statusPart, State.alert_of_running inHand.1, Session.leftByTaking_code]
    rfl
  · rw [inHand.exec_readDomain, State.ownReadDomain, List.getD_cons_zero, index?_of_lt h]
    rfl
  · rw [inHand.exec_readDomain, State.ownReadDomain, List.getD_cons_zero, index?_of_le h]
    rfl
  · intro x c rung cause delay bit
    simp only [State.domainPart, rungBytes_eq, bytesOf_two, DomainState.targetByte_eq, DomainState.stepByte_eq,
      DomainState.pendingByte_eq, DomainState.faultByte_eq, DomainState.seenByte_eq, DomainState.keptByte_eq,
      DomainState.phaseBytes_eq, State.heldAwakeByte_eq, Outputs.code_eq, levels_eq]
    rfl

/-! ## SET_SNOOP, SET_FALLTHROUGH and ARM_TRAP -/

theorem flagByte_of_le {b : Byte} (h : b.toNat ≤ 1) : flagByte (decide (b = 1)) = b := by
  revert h
  revert b
  decide

section Own
variable (s : State)

theorem State.ownSnoop_eq (m i c : Byte) :
    s.ownSnoop [m, i, c] =
      if m.toNat ≤ 1 ∧ i.toNat ≤ 1 ∧ c.toNat ≤ 1 then
        .done .ok [m, i, c]
          { s with
            snoop :=
              { memory := Decidable.decide (m = 1), io := Decidable.decide (i = 1), config := Decidable.decide (c = 1) } }
      else .refuse .range := by
  split
  case isTrue defined =>
    obtain ⟨hm, hi, hc⟩ := defined
    simp only [State.ownSnoop, List.getD_cons_zero, List.getD_cons_succ, flag?_of_le hm, flag?_of_le hi, flag?_of_le hc,
      flagByte_of_le hm, flagByte_of_le hi, flagByte_of_le hc]
  case isFalse undefined =>
    by_cases hm : m.toNat ≤ 1
    · by_cases hi : i.toNat ≤ 1
      · have hc : 2 ≤ c.toNat := by omega
        simp [State.ownSnoop, flag?_of_le hm, flag?_of_le hi, flag?_of_lt hc]
      · simp [State.ownSnoop, flag?_of_le hm, flag?_of_lt (Nat.lt_of_not_le hi)]
    · simp [State.ownSnoop, flag?_of_lt (Nat.lt_of_not_le hm)]

end Own

/-- Settles O42: each owner's decision on a value its field defines, and on any other. -/
theorem snoopFallthroughAndArm : Obligations.SnoopFallthroughAndArm := by
  intro s r
  refine ⟨fun m i c inHand => ?_, fun b inHand => ?_, fun b inHand => ⟨fun h => ?_, fun h => ?_⟩⟩
  · rw [inHand.exec_serveAll State.ownSnoop rfl, s.ownSnoop_eq]
    split <;> rfl
  · intro before
    have serves := inHand.exec_serveAll (c := .setFallthrough) State.ownFallthrough rfl
    refine ⟨fun h => ?_, fun absent => ?_, fun h present => ?_⟩
    · have present : b ≠ 0xFF := fun eq => by simp [eq] at h
      rw [serves, State.ownFallthrough, List.getD_cons_zero, indexOrNone?_of_lt present h]
      rfl
    · rw [serves, State.ownFallthrough, List.getD_cons_zero, absent, indexOrNone?_absent]
      rfl
    · rw [serves, State.ownFallthrough, List.getD_cons_zero, indexOrNone?_of_le present h]
      rfl
  · rw [inHand.exec_serveAll State.ownArmTrap rfl, State.ownArmTrap, List.getD_cons_zero, index?_of_lt h]
    rfl
  · rw [inHand.exec_serveAll State.ownArmTrap rfl, State.ownArmTrap, List.getD_cons_zero, index?_of_le h]
    rfl

/-! ## READ_HITS -/

theorem hitsRange?_of_defined {first number clear : Byte} (least : 1 ≤ number.toNat) (within : first.toNat + number.toNat ≤ 24)
    (flag : clear.toNat ≤ 1) :
    hitsRange? [first, number, clear] = some (first.toNat, number.toNat, decide (clear = 1)) := by
  have range : 1 ≤ number.toNat ∧ number.toNat ≤ 24 ∧ first.toNat + number.toNat ≤ 24 := ⟨least, by omega, within⟩
  simp [hitsRange?, flag?_of_le flag, range]

theorem hitsRange?_of_undefined {first number clear : Byte}
    (out : number = 0 ∨ 24 < first.toNat + number.toNat ∨ 2 ≤ clear.toNat) : hitsRange? [first, number, clear] = none := by
  rcases out with rfl | out | out
  · cases defined : flag? clear <;> simp [hitsRange?, defined]
  · have beyond : ¬ (1 ≤ number.toNat ∧ number.toNat ≤ 24 ∧ first.toNat + number.toNat ≤ 24) := by omega
    cases defined : flag? clear <;> simp only [hitsRange?, List.getD_cons_succ, List.getD_cons_zero, defined, if_neg beyond]
  · simp [hitsRange?, flag?_of_lt out]

theorem State.HasInHand.exec_readHits {s : State} {r : Request} {payload : List Byte} (h : s.HasInHand 0x16 payload r) :
    exec .readHits s =
      .next
        (match hitsRange? payload with
         | some (first, number, clear) => s.hitsStep r first number clear
         | none => s.answer r [2, 4] false) := by
  simp only [exec, execReadHits]
  rw [h.running, h.requestEvent, h.request.2]
  rfl

/-- Settles O45: the step of the next window, and the refusals. -/
theorem readHitsStepsThroughWindows : Obligations.ReadHitsStepsThroughWindows := by
  intro s r first number clear inHand
  refine ⟨fun h within more flag => ?_, fun out => ?_⟩
  · intro w counts read
    have last : number.toNat ≤ counts.length ↔ s.unit.hitsRead.length + 1 = number.toNat := by
      simp only [counts, List.length_append, List.length_singleton]
      omega
    rw [inHand.exec_readHits, hitsRange?_of_defined (by omega) within flag]
    dsimp only
    have reads : s.readWindowHits w (decide (clear = 1)) = read := if_congr decide_eq_true_iff rfl rfl
    rw [State.hitsStep, dif_pos h, ← reads]
    exact congrArg _ (if_congr last rfl rfl)
  · rw [inHand.exec_readHits, hitsRange?_of_undefined out]

end Sys2Proof.Machine
end

section
/-! PROOF of the obligations on the ack timer's expiry and the SILENT claim (O49), on ACK and SET_REPORTING (O50), and on the arbiter's
choice at a frame boundary (O51). -/

namespace Sys2Proof.Machine

/-! ## The ack timer's expiry and the SILENT claim -/

theorem exec_ackTimerExpiry {s : State} (running : s.Running) {timeout : AckTimeout} (runs : s.queue.ackTimer = some timeout) :
    exec .ackTimerExpiry s =
      .next
        (let expired := s.setQueue (s.queue.expire s.time)
         if 7 ≤ s.queue.retries then expired.setUnit { s.unit with silentClaim := true } else expired) := by
  have eighth : (s.setQueue (s.queue.expire s.time)).queue.retries = 8 ↔ 7 ≤ s.queue.retries := by
    change min (s.queue.retries + 1) 8 = 8 ↔ _
    omega
  rw [exec, execAckTimerExpiry, State.running_of running, runs]
  exact congrArg _ (if_congr eighth rfl rfl)

theorem exec_silentClaim {s : State} (running : s.Running) (claimed : s.unit.silentClaim = true) :
    exec .silentClaim s =
      .next (s.setUnit
        { s.unit with
          silentClaim := false
          session := if s.unit.session = .opened ∧ s.queue.retries = 8 then .silent else s.unit.session }) := by
  rw [exec, execSilentClaim, State.running_of running, if_pos claimed]

/-- Settles O49: the two events in turn. -/
theorem ackTimeoutsLeadToSilence : Obligations.AckTimeoutsLeadToSilence := fun _ running =>
  ⟨fun _ runs => exec_ackTimerExpiry running runs, exec_silentClaim running⟩

/-! ## ACK -/

/-- The records left by an acknowledgement are those after the first SENT one of its number (R124). -/
theorem acknowledged?_at {n : BitVec 16} {before : List Record} {x : Record} (sent : x.sent = true) (seq : x.seq = n)
    (first : ∀ y ∈ before, ¬ (y.sent = true ∧ y.seq = n)) (after : List Record) :
    acknowledged? n (before ++ x :: after) = some (before.length + 1, after) := by
  induction before with
  | nil => exact if_pos ⟨sent, seq⟩
  | cons y ys ih =>
    simp only [List.mem_cons, forall_eq_or_imp] at first
    rw [List.cons_append, acknowledged?, if_neg first.1, ih first.2]
    rfl

theorem ReportQueue.sentCount_eq_zero_iff (q : ReportQueue) : q.sentCount = 0 ↔ ¬ ∃ y ∈ q.records, y.sent = true := by
  simp [ReportQueue.sentCount, List.countP_eq_zero]

theorem ReportQueue.restartTimer_eq (q : ReportQueue) :
    q.restartTimer = { q with ackTimer := if q.sentCount = 0 ∨ q.timeout = .off then none else some q.timeout } := by
  unfold ReportQueue.restartTimer ReportQueue.startTimer
  by_cases unsent : q.sentCount = 0 <;> simp [unsent]

/-- The same by whether a record is SENT. -/
theorem ReportQueue.restartTimer_eq_of_sent (q : ReportQueue) :
    q.restartTimer =
      { q with ackTimer := if (∃ y ∈ q.records, y.sent = true) ∧ q.timeout ≠ .off then some q.timeout else none } := by
  have unsent := q.sentCount_eq_zero_iff
  rw [q.restartTimer_eq]
  refine congrArg (fun timer => { q with ackTimer := timer }) ?_
  by_cases sent : ∃ y ∈ q.records, y.sent = true
  · by_cases off : q.timeout = .off
    · rw [if_pos (.inr off), if_neg fun runs => runs.2 off]
    · rw [if_neg (by simp [unsent, off, sent]), if_pos ⟨sent, off⟩]
  · rw [if_pos (.inl (unsent.2 sent)), if_neg fun runs => sent runs.1]

/-- The LOSS record made from the tally, written out (R124). -/
theorem ReportQueue.drainTally_eq (q : ReportQueue) :
    q.drainTally =
      (let n := min q.tally.count.toNat 65535
       let left := q.tally.count - BitVec.ofNat 64 n
       if (∃ y ∈ q.records, y.kind = .loss) ∨ q.tally.count = 0 then q
       else
         { q.append q.tally.first q.tally.last none n (.loss q.tally.kinds) with
           tally := { q.tally with count := left, kinds := if left = 0 then 0 else q.tally.kinds } }) := by
  rcases q.drainTally_cases with ⟨same, kept⟩ | ⟨noLoss, some, drained⟩
  · rw [same]
    exact (if_pos kept).symm
  · have drains : ¬ ((∃ y ∈ q.records, y.kind = .loss) ∨ q.tally.count = 0) := by
      rintro (⟨y, mem, loss⟩ | empty)
      · exact noLoss y mem loss
      · exact some empty
    rw [drained]
    exact (if_neg drains).symm

section Requests
variable {s : State} {r : Request} {payload : List Byte}

theorem State.HasInHand.exec_ack (h : s.HasInHand 0x09 payload r) :
    exec .ack s = .next (s.conclude r (some (s.ownAck payload))) := h.exec_serveAll State.ownAck rfl
theorem State.HasInHand.exec_setReporting (h : s.HasInHand 0x08 payload r) :
    exec .setReporting s = .next (s.conclude r (some (s.ownReporting payload))) := h.exec_serveAll State.ownReporting rfl

theorem State.ownAck_of_sent {lo hi : Byte} {before after : List Record} {x : Record} (records : s.queue.records = before ++ x :: after)
    (sent : x.sent = true) (seq : x.seq = hi ++ lo) (first : ∀ y ∈ before, ¬ (y.sent = true ∧ y.seq = hi ++ lo)) :
    s.ownAck [lo, hi] =
      (let q := ({ s.queue with records := after, retries := 0 } : ReportQueue).restartTimer.drainTally
       .done .ok ([byte (before.length + 1), q.queued] ++ bytesOf 2 q.nextSeq.toNat) (s.setQueue q)) := by
  have removed : acknowledged? (word16 lo hi) s.queue.records = some (before.length + 1, after) := by
    rw [records]
    exact acknowledged?_at sent seq first after
  simp only [State.ownAck, List.getD_cons_zero, List.getD_cons_succ, ReportQueue.acknowledge?, removed, Option.map_some]

theorem State.ownAck_of_none {lo hi : Byte} (none : ∀ x ∈ s.queue.records, ¬ (x.sent = true ∧ x.seq = hi ++ lo)) :
    s.ownAck [lo, hi] = .refuse .badAck := by
  have removed : acknowledged? (word16 lo hi) s.queue.records = Option.none := acknowledged?_none none
  simp only [State.ownAck, List.getD_cons_zero, List.getD_cons_succ, ReportQueue.acknowledge?, removed, Option.map_none]

theorem credit?_of_mem {w : Byte} (least : 1 ≤ w.toNat) (most : w.toNat ≤ 8) : credit? w = some w.toNat :=
  between?_of_mem ⟨least, most⟩

theorem State.ownReporting_of_defined {w : Byte} (some : 1 ≤ w.toNat) (most : w.toNat ≤ 8) (timeout : AckTimeout) (s : State) :
    s.ownReporting [w, timeout.code] =
      if w.toNat < s.queue.sentCount then .refuse .windowBusy
      else
        .done .ok [byte s.queue.credit, s.queue.timeout.code, byte s.queue.sentCount]
          (s.setQueue ({ s.queue with credit := w.toNat, timeout := timeout } : ReportQueue).restartTimer) := by
  simp only [State.ownReporting, List.getD_cons_zero, List.getD_cons_succ, credit?_of_mem some most, ackTimeout?_code]

theorem State.ownReporting_of_undefined {w a : Byte} (out : w = 0 ∨ 9 ≤ w.toNat ∨ 8 ≤ a.toNat) (s : State) :
    s.ownReporting [w, a] = .refuse .range := by
  rcases out with rfl | out | out
  · rfl
  · have beyond : credit? w = none := between?_of_not_mem fun within => by omega
    simp only [State.ownReporting, List.getD_cons_zero, beyond]
  · simp [State.ownReporting, ackTimeout?_of_lt out]

end Requests

/-- Settles O50: the records cut and the tally drained, and the settings replaced. -/
theorem ackAndSetReporting : Obligations.AckAndSetReporting := by
  refine ⟨fun s r lo hi inHand => ⟨fun before after x records sent seq first => ?_, fun none => ?_⟩, fun s r w a inHand =>
    ⟨fun timeout code some most => ?_, fun out => ?_⟩⟩
  · intro cut n left drained
    have cuts : ({ s.queue with records := after, retries := 0 } : ReportQueue).restartTimer = cut :=
      ReportQueue.restartTimer_eq_of_sent _
    have drains : cut.drainTally = drained := cut.drainTally_eq
    rw [inHand.exec_ack, State.ownAck_of_sent records sent seq first, cuts, drains]
    rfl
  · rw [inHand.exec_ack, State.ownAck_of_none none]
    rfl
  · subst code
    rw [inHand.exec_setReporting, State.ownReporting_of_defined some most, ReportQueue.restartTimer_eq]
    split <;> rfl
  · rw [inHand.exec_setReporting, State.ownReporting_of_undefined out]
    rfl

/-! ## The layout of a report (R177) -/

theorem Record.kind_code_eq (x : Record) :
    byte x.kind.code =
      (match x.detail with
       | .restart _ _ => 1 | .trap _ _ _ _ => 2 | .expiry _ => 3 | .domain _ _ => 4 | .refusal _ => 5 | .fault _ _ => 6
       | .obsOverrun => 7 | .linkError _ => 8 | .loss _ => 9) := by
  rw [Record.kind]
  cases x.detail <;> rfl

/-! ## The arbiter -/

section Boundary
variable {s : State}

theorem exec_frameBoundary_arbitrates (running : s.Running) (continues : ∀ frame, s.link.tx = some frame → frame.resets = false) :
    exec .frameBoundary s = .next s.arbitrate := by
  rw [exec, execFrameBoundary, State.running_of running]
  cases carried : s.link.tx with
  | none => rfl
  | some frame => simp [continues frame carried]

theorem exec_frameBoundary_resets (running : s.Running) {frame : TxFrame} (carried : s.link.tx = some frame)
    (resets : frame.resets = true) : exec .frameBoundary s = .next (s.beginFullReset .host) := by
  rw [exec, execFrameBoundary, State.running_of running, carried]
  exact congrArg _ (if_pos resets)

theorem State.arbitrate_of_reply {y : Reply} {rest : List Reply} (replies : s.link.replies = y :: rest) :
    s.arbitrate =
      s.setLink
        { s.link with
          replies := rest, tx := some { characters := frameOf (y.type :: y.tag :: y.payload), resets := y.resets } } := by
  rw [State.arbitrate, replies]
  rfl

theorem State.arbitrate_of_record {x : Record} (noReply : s.link.replies = []) (offer : s.queue.onOffer s.unit.session = some x) :
    s.arbitrate =
      (s.setQueue s.queue.choose).setLink
        { s.link with tx := some { characters := frameOf x.bodyBytes, resets := false } } := by
  rw [State.arbitrate, noReply, offer]
  rfl

theorem State.arbitrate_of_nothing (noReply : s.link.replies = []) (offer : s.queue.onOffer s.unit.session = none) :
    s.arbitrate = s.setLink { s.link with tx := none } := by
  rw [State.arbitrate, noReply, offer]
  rfl

end Boundary

section Offer
variable {q : ReportQueue} {before after : List Record} {x : Record} (records : q.records = before ++ x :: after)
  (sent : ∀ y ∈ before, y.sent = true) (unsent : x.sent = false)
include records sent unsent

/-- The oldest UNSENT record is on offer in an OPEN session with credit (R121). -/
theorem ReportQueue.onOffer_of_credit (few : q.retries < 8) (credit : q.sentCount < q.credit) : q.onOffer .opened = some x := by
  rw [ReportQueue.onOffer, if_pos ⟨rfl, few, credit⟩, records]
  exact find?_at _ _ _ _ (fun y mem => by simp [sent y mem]) (by simp [unsent])

/-- The record chosen becomes SENT, and the ack timer starts if none was (R121). -/
theorem ReportQueue.choose_eq :
    q.choose =
      { q with
        records := before ++ { x with sent := true } :: after
        ackTimer :=
          if q.sentCount = 0 then (if q.timeout = .off then none else some q.timeout) else q.ackTimer } := by
  have marks : updateFirst (!·.sent) (fun r : Record => { r with sent := true }) q.records =
      before ++ { x with sent := true } :: after := by
    rw [records]
    exact updateFirst_at _ _ _ _ _ (fun y mem => by simp [sent y mem]) (by simp [unsent])
  rw [ReportQueue.choose, marks]
  split <;> rfl

end Offer

theorem ReportQueue.onOffer_none {q : ReportQueue} {session : Session}
    (without : session ≠ .opened ∨ 8 ≤ q.retries ∨ q.credit ≤ q.sentCount ∨ ∀ y ∈ q.records, y.sent = true) :
    q.onOffer session = none := by
  rw [ReportQueue.onOffer]
  split
  case isFalse => rfl
  case isTrue ready =>
    obtain ⟨isOpen, few, credit⟩ := ready
    have allSent : ∀ y ∈ q.records, y.sent = true := by
      rcases without with other | many | full | allSent
      · exact absurd isOpen other
      · omega
      · omega
      · exact allSent
    simpa using allSent

/-- Settles O51: the arbiter's three choices, and the end of a RESET FULL's reply. -/
theorem boundaryChoosesFrame : Obligations.BoundaryChoosesFrame := by
  intro s running sends kind cause bit detail
  have bytes (y : Detail) : y.bytes = detail y := by
    cases y with
    | fault fault outputs => rw [Detail.bytes, Outputs.code_eq]; rfl
    | _ => rfl
  refine ⟨fun continues => ⟨fun y rest replies => ?_, fun before after x noReply isOpen few credit records sent unsent => ?_,
    fun noReply without => ?_⟩, fun frame carried resets => exec_frameBoundary_resets running carried resets⟩
  · rw [exec_frameBoundary_arbitrates running continues, State.arbitrate_of_reply replies]
  · have offer : s.queue.onOffer s.unit.session = some x := by
      rw [isOpen]
      exact ReportQueue.onOffer_of_credit records sent unsent few credit
    rw [exec_frameBoundary_arbitrates running continues, State.arbitrate_of_record noReply offer,
      ReportQueue.choose_eq records sent unsent, Record.bodyBytes, Record.kind_code_eq, bytes]
    rfl
  · rw [exec_frameBoundary_arbitrates running continues, State.arbitrate_of_nothing noReply (ReportQueue.onOffer_none without)]

end Sys2Proof.Machine
end

section
/-! PROOF of the obligations on a break (O54) and on OPEN and CLOSE (O56). -/

namespace Sys2Proof.Machine

/-! ## A break -/

/-- Settles O54: the link reset, and the full reset where it discards a RESET FULL's reply. -/
theorem breakResetsLink : Obligations.BreakResetsLink := by
  intro s running broken
  have discards : (s.link.replies.any (·.resets)) = true ↔ ∃ y ∈ s.link.replies, y.resets = true := List.any_eq_true
  rw [exec, execRxBreak, State.running_of running]
  exact congrArg _ (if_congr discards rfl rfl)

/-! ## OPEN and CLOSE -/

theorem identity_eq : identity = [0x1C, 0x5A, 0x16, 0x24, 0x01] := by decide

theorem byte_toNat (b : Byte) : byte b.toNat = b := by simp [byte]

theorem State.ownOpen_of_defined {w : Byte} (some : 1 ≤ w.toNat) (most : w.toNat ≤ 8) (timeout : AckTimeout) (s : State) :
    s.ownOpen [w, timeout.code] =
      (let q := s.queue.openSession s.time w.toNat timeout
       .done .ok (identity ++ [s.unit.resetCause.code] ++ bytesOf 2 q.headSeq.toNat ++ [q.queued, w, timeout.code])
         ((s.setQueue q).setUnit { s.unit with session := .opened })) := by
  simp only [State.ownOpen, List.getD_cons_zero, List.getD_cons_succ, credit?_of_mem some most, ackTimeout?_code, byte_toNat]

theorem State.ownOpen_of_undefined {w a : Byte} (out : w = 0 ∨ 9 ≤ w.toNat ∨ 8 ≤ a.toNat) (s : State) :
    s.ownOpen [w, a] = .refuse .range := by
  rcases out with rfl | out | out
  · rfl
  · have beyond : credit? w = none := between?_of_not_mem fun within => by omega
    simp only [State.ownOpen, List.getD_cons_zero, beyond]
  · simp [State.ownOpen, ackTimeout?_of_lt out]

/-- Settles O56: the owner's decision on each payload. -/
theorem openAndClose : Obligations.OpenAndClose := by
  refine fun s r => ⟨fun w a inHand => ⟨fun timeout code some most => ?_, fun out => ?_⟩, fun inHand => ?_⟩
  · subst code
    rw [inHand.exec_serveAll State.ownOpen rfl, State.ownOpen_of_defined some most, identity_eq]
    rfl
  · rw [inHand.exec_serveAll State.ownOpen rfl, State.ownOpen_of_undefined out]
    rfl
  · exact inHand.exec_serveAll (fun s _ => s.ownClose) rfl

end Sys2Proof.Machine
end

end
